-- ==== Sys2Proof/Word.lean ====
section
/-! DEFINITION. The words of the machine: a byte of a queue or of the window, and a command word. -/

namespace Sys2Proof

/-- A byte of a queue, of the window or of the lookahead (20_memory.md R80). -/
abbrev Byte := BitVec 8

/-- A command word (30_encoding.md R110). -/
abbrev Word := BitVec 32

end Sys2Proof
end

