-- ==== Sys2Proof/Syntax.lean ====
section
/-! DEFINITION. The commands of the CORE, one constructor per row of spec/opcode_table.json, and the three
alphabets their T operand selects. A field is a bit vector of the width its format gives it (30_encoding.md R111). -/

namespace Sys2Proof

/-- The alphabets of 00_scope.md R13: T = 0 literal/length, T = 1 distance, T = 2 code-length. -/
inductive Alphabet where
  | ll
  | dist
  | cl
  deriving DecidableEq, Repr

/-- A decoded command. Decoding checks the opcode and the reserved-zero bits alone (30_encoding.md R117), so a
field may hold a reserved or out-of-range value here: that is for the command's own rule to refuse (R118). -/
inductive Instr where
  /-- NOP, R140. -/
  | nop
  /-- CORE_RESET, R141. -/
  | coreReset
  /-- END, R142. -/
  | endSession
  /-- CFG_SET FIELD, VAL, R143. -/
  | cfgSet (field : BitVec 4) (val : BitVec 16)
  /-- REG_GET REG, R144. -/
  | regGet (reg : BitVec 5)
  /-- BP_PUT NB, V, R160. -/
  | bpPut (nb : BitVec 5) (v : BitVec 16)
  /-- BP_PUTREV NB, V, R161. -/
  | bpPutrev (nb : BitVec 5) (v : BitVec 16)
  /-- BP_ALIGN_OUT, R162. -/
  | bpAlignOut
  /-- BP_GET NB, R165. -/
  | bpGet (nb : BitVec 5)
  /-- BP_ALIGN_IN, R166. -/
  | bpAlignIn
  /-- BP_SYNC, R170. -/
  | bpSync
  /-- SW_RESET, R190. -/
  | swReset
  /-- SW_RECORD BYTE, R191. -/
  | swRecord (byte : BitVec 8)
  /-- SW_READ D, R192; the distance is stored less one. -/
  | swRead (dm1 : BitVec 15)
  /-- SW_MATCHAT L, D, R193. -/
  | swMatchat (len9 : BitVec 9) (dm1 : BitVec 15)
  /-- SW_COPY L, D, R194. -/
  | swCopy (len9 : BitVec 9) (dm1 : BitVec 15)
  /-- SW_SETDICT CNT, R198. -/
  | swSetdict (cnt : BitVec 16)
  /-- SW_EXPECTDICT, R199. -/
  | swExpectdict
  /-- HE_CLEAR T, R220. -/
  | heClear (t : BitVec 2)
  /-- HE_COUNT T, SYM, R221. -/
  | heCount (t : BitVec 2) (sym : BitVec 9)
  /-- HE_BUILD T, LN, R225. -/
  | heBuild (t : BitVec 2) (ln : BitVec 4)
  /-- HE_SETLEN T, LN, SYM, R231. -/
  | heSetlen (t : BitVec 2) (ln : BitVec 4) (sym : BitVec 9)
  /-- HE_CANON T, R232. -/
  | heCanon (t : BitVec 2)
  /-- HE_FIXED, R233. -/
  | heFixed
  /-- HE_EMIT T, SYM, R234. -/
  | heEmit (t : BitVec 2) (sym : BitVec 9)
  /-- HE_MATCH L, D, R236. -/
  | heMatch (len9 : BitVec 9) (dm1 : BitVec 15)
  /-- HE_RLECOUNT, R239. -/
  | heRlecount
  /-- HE_DYNHDR, R240. -/
  | heDynhdr
  /-- HD_SETLEN T, LN, SYM, R260. -/
  | hdSetlen (t : BitVec 2) (ln : BitVec 4) (sym : BitVec 9)
  /-- HD_BUILD T, N, R262; N is the SYM field read as a count. -/
  | hdBuild (t : BitVec 2) (n : BitVec 9)
  /-- HD_FIXED, R264. -/
  | hdFixed
  /-- HD_DECODE T, R267. -/
  | hdDecode (t : BitVec 2)
  /-- HD_DYNHDR, R270. -/
  | hdDynhdr
  /-- HD_TOKEN, R275. -/
  | hdToken
  /-- MF_FEED CNT, R308. -/
  | mfFeed (cnt : BitVec 16)
  /-- MF_FIND, R309. -/
  | mfFind
  /-- MF_STEP DRAIN, R311. -/
  | mfStep (drain : BitVec 1)
  /-- MF_RESET_HIST, R314. -/
  | mfResetHist
  /-- BF_WHDR TYPE, FINAL, R340. -/
  | bfWhdr (btype : BitVec 2) (final : BitVec 1)
  /-- BF_RHDR, R342. -/
  | bfRhdr
  /-- BF_WSTORED CNT, R344. -/
  | bfWstored (cnt : BitVec 16)
  /-- BF_RSTORED, R346. -/
  | bfRstored
  /-- BF_RCOPY CNT, R347. -/
  | bfRcopy (cnt : BitVec 16)
  /-- BF_INFLATE, R350. -/
  | bfInflate
  deriving DecidableEq, Repr

end Sys2Proof
end

