-- ==== Sys2Proof/Decode.lean ====
section
/-! DEFINITION. The decoder, total on every 32-bit word, and the encoder, both written from the opcode map and
the operand formats of 30_encoding.md. -/

namespace Sys2Proof

/-- Why a word spells no command. Both are STREAM_ERROR at the machine (30_encoding.md R113, R115). -/
inductive Reject where
  /-- The opcode is unassigned (R115). -/
  | unassignedOpcode
  /-- A reserved-zero bit of the format is set (R113). -/
  | reservedBitSet
  deriving DecidableEq, Repr

/-! ## Fields and reserved bits (R110, R111) -/

/-- OP = w[31:26]. -/
def opcodeOf (w : Word) : Nat := (w.extractLsb' 26 6).toNat

/-- The `n` bits of `w` from bit `lo` up. -/
def bits (w : Word) (lo n : Nat) : BitVec n := w.extractLsb' lo n

/-- `i`, unless one of the reserved runs of bits, given as (lowest bit, length), is not all zero. -/
def reserving (w : Word) (runs : List (Nat × Nat)) (i : Instr) : Except Reject Instr :=
  if runs.all fun r => bits w r.1 r.2 == 0 then .ok i else .error .reservedBitSet

/-! ## One decoder per operand format (R111) -/

def decodeN (w : Word) (i : Instr) : Except Reject Instr :=
  reserving w [(0, 26)] i

def decodeC (w : Word) (i : BitVec 4 → BitVec 16 → Instr) : Except Reject Instr :=
  reserving w [(16, 6)] (i (bits w 22 4) (bits w 0 16))

def decodeR (w : Word) (i : BitVec 5 → Instr) : Except Reject Instr :=
  reserving w [(5, 21)] (i (bits w 0 5))

def decodeB (w : Word) (i : BitVec 5 → BitVec 16 → Instr) : Except Reject Instr :=
  reserving w [(21, 5)] (i (bits w 16 5) (bits w 0 16))

def decodeBn (w : Word) (i : BitVec 5 → Instr) : Except Reject Instr :=
  reserving w [(21, 5), (0, 16)] (i (bits w 16 5))

def decodeX (w : Word) (i : BitVec 8 → Instr) : Except Reject Instr :=
  reserving w [(8, 18)] (i (bits w 0 8))

def decodeM (w : Word) (i : BitVec 9 → BitVec 15 → Instr) : Except Reject Instr :=
  reserving w [(25, 1), (15, 1)] (i (bits w 16 9) (bits w 0 15))

def decodeMd (w : Word) (i : BitVec 15 → Instr) : Except Reject Instr :=
  reserving w [(15, 11)] (i (bits w 0 15))

def decodeK (w : Word) (i : BitVec 16 → Instr) : Except Reject Instr :=
  reserving w [(16, 10)] (i (bits w 0 16))

def decodeTt (w : Word) (i : BitVec 2 → Instr) : Except Reject Instr :=
  reserving w [(0, 24)] (i (bits w 24 2))

def decodeTs (w : Word) (i : BitVec 2 → BitVec 9 → Instr) : Except Reject Instr :=
  reserving w [(9, 15)] (i (bits w 24 2) (bits w 0 9))

def decodeTl (w : Word) (i : BitVec 2 → BitVec 4 → Instr) : Except Reject Instr :=
  reserving w [(0, 20)] (i (bits w 24 2) (bits w 20 4))

def decodeTls (w : Word) (i : BitVec 2 → BitVec 4 → BitVec 9 → Instr) : Except Reject Instr :=
  reserving w [(9, 11)] (i (bits w 24 2) (bits w 20 4) (bits w 0 9))

/-- Format Tn has the layout of Ts; its low field is a count. -/
def decodeTn (w : Word) (i : BitVec 2 → BitVec 9 → Instr) : Except Reject Instr :=
  reserving w [(9, 15)] (i (bits w 24 2) (bits w 0 9))

def decodeH (w : Word) (i : BitVec 2 → BitVec 1 → Instr) : Except Reject Instr :=
  reserving w [(3, 23)] (i (bits w 1 2) (bits w 0 1))

def decodeS (w : Word) (i : BitVec 1 → Instr) : Except Reject Instr :=
  reserving w [(1, 25)] (i (bits w 0 1))

/-! ## The opcode map (R114, R117) -/

/-- The command a word spells, or why it spells none. -/
def decode (w : Word) : Except Reject Instr :=
  match opcodeOf w with
  | 0x00 => decodeN w .nop
  | 0x01 => decodeN w .coreReset
  | 0x02 => decodeN w .endSession
  | 0x03 => decodeC w .cfgSet
  | 0x04 => decodeR w .regGet
  | 0x08 => decodeB w .bpPut
  | 0x09 => decodeB w .bpPutrev
  | 0x0A => decodeN w .bpAlignOut
  | 0x0B => decodeBn w .bpGet
  | 0x0C => decodeN w .bpAlignIn
  | 0x0D => decodeN w .bpSync
  | 0x10 => decodeN w .swReset
  | 0x11 => decodeX w .swRecord
  | 0x12 => decodeMd w .swRead
  | 0x13 => decodeM w .swMatchat
  | 0x14 => decodeM w .swCopy
  | 0x15 => decodeK w .swSetdict
  | 0x16 => decodeN w .swExpectdict
  | 0x18 => decodeTt w .heClear
  | 0x19 => decodeTs w .heCount
  | 0x1A => decodeTl w .heBuild
  | 0x1B => decodeTls w .heSetlen
  | 0x1C => decodeTt w .heCanon
  | 0x1D => decodeN w .heFixed
  | 0x1E => decodeTs w .heEmit
  | 0x1F => decodeM w .heMatch
  | 0x20 => decodeN w .heRlecount
  | 0x21 => decodeN w .heDynhdr
  | 0x28 => decodeTls w .hdSetlen
  | 0x29 => decodeTn w .hdBuild
  | 0x2A => decodeN w .hdFixed
  | 0x2B => decodeTt w .hdDecode
  | 0x2C => decodeN w .hdDynhdr
  | 0x2D => decodeN w .hdToken
  | 0x30 => decodeK w .mfFeed
  | 0x31 => decodeN w .mfFind
  | 0x32 => decodeS w .mfStep
  | 0x33 => decodeN w .mfResetHist
  | 0x38 => decodeH w .bfWhdr
  | 0x39 => decodeN w .bfRhdr
  | 0x3A => decodeK w .bfWstored
  | 0x3B => decodeN w .bfRstored
  | 0x3C => decodeK w .bfRcopy
  | 0x3D => decodeN w .bfInflate
  | _ => .error .unassignedOpcode

/-- The decoder on a word numbered as spec/opcode_table.json numbers it; a command is always one 32-bit word
(R110), and the bits above `nbits` are zero. -/
def decodeTableWord (nbits w : Nat) : Option Instr :=
  if nbits ≤ 32 then
    match decode (BitVec.ofNat 32 (w % 2 ^ nbits)) with
    | .ok i => some i
    | .error _ => none
  else none

/-! ## The encoder: one function per format, most significant field first -/

def encodeN (op : BitVec 6) : Word := op ++ 0#26
def encodeC (op : BitVec 6) (field : BitVec 4) (val : BitVec 16) : Word := op ++ field ++ 0#6 ++ val
def encodeR (op : BitVec 6) (reg : BitVec 5) : Word := op ++ 0#21 ++ reg
def encodeB (op : BitVec 6) (nb : BitVec 5) (v : BitVec 16) : Word := op ++ 0#5 ++ nb ++ v
def encodeBn (op : BitVec 6) (nb : BitVec 5) : Word := op ++ 0#5 ++ nb ++ 0#16
def encodeX (op : BitVec 6) (byte : BitVec 8) : Word := op ++ 0#18 ++ byte
def encodeM (op : BitVec 6) (len9 : BitVec 9) (dm1 : BitVec 15) : Word := op ++ 0#1 ++ len9 ++ 0#1 ++ dm1
def encodeMd (op : BitVec 6) (dm1 : BitVec 15) : Word := op ++ 0#11 ++ dm1
def encodeK (op : BitVec 6) (cnt : BitVec 16) : Word := op ++ 0#10 ++ cnt
def encodeTt (op : BitVec 6) (t : BitVec 2) : Word := op ++ t ++ 0#24
def encodeTs (op : BitVec 6) (t : BitVec 2) (sym : BitVec 9) : Word := op ++ t ++ 0#15 ++ sym
def encodeTl (op : BitVec 6) (t : BitVec 2) (ln : BitVec 4) : Word := op ++ t ++ ln ++ 0#20
def encodeTls (op : BitVec 6) (t : BitVec 2) (ln : BitVec 4) (sym : BitVec 9) : Word :=
  op ++ t ++ ln ++ 0#11 ++ sym
def encodeTn (op : BitVec 6) (t : BitVec 2) (n : BitVec 9) : Word := op ++ t ++ 0#15 ++ n
def encodeH (op : BitVec 6) (btype : BitVec 2) (final : BitVec 1) : Word := op ++ 0#23 ++ btype ++ final
def encodeS (op : BitVec 6) (drain : BitVec 1) : Word := op ++ 0#25 ++ drain

/-- The word of a command (R111, R114). -/
def encode : Instr → Word
  | .nop => encodeN 0x00
  | .coreReset => encodeN 0x01
  | .endSession => encodeN 0x02
  | .cfgSet field val => encodeC 0x03 field val
  | .regGet reg => encodeR 0x04 reg
  | .bpPut nb v => encodeB 0x08 nb v
  | .bpPutrev nb v => encodeB 0x09 nb v
  | .bpAlignOut => encodeN 0x0A
  | .bpGet nb => encodeBn 0x0B nb
  | .bpAlignIn => encodeN 0x0C
  | .bpSync => encodeN 0x0D
  | .swReset => encodeN 0x10
  | .swRecord byte => encodeX 0x11 byte
  | .swRead dm1 => encodeMd 0x12 dm1
  | .swMatchat len9 dm1 => encodeM 0x13 len9 dm1
  | .swCopy len9 dm1 => encodeM 0x14 len9 dm1
  | .swSetdict cnt => encodeK 0x15 cnt
  | .swExpectdict => encodeN 0x16
  | .heClear t => encodeTt 0x18 t
  | .heCount t sym => encodeTs 0x19 t sym
  | .heBuild t ln => encodeTl 0x1A t ln
  | .heSetlen t ln sym => encodeTls 0x1B t ln sym
  | .heCanon t => encodeTt 0x1C t
  | .heFixed => encodeN 0x1D
  | .heEmit t sym => encodeTs 0x1E t sym
  | .heMatch len9 dm1 => encodeM 0x1F len9 dm1
  | .heRlecount => encodeN 0x20
  | .heDynhdr => encodeN 0x21
  | .hdSetlen t ln sym => encodeTls 0x28 t ln sym
  | .hdBuild t n => encodeTn 0x29 t n
  | .hdFixed => encodeN 0x2A
  | .hdDecode t => encodeTt 0x2B t
  | .hdDynhdr => encodeN 0x2C
  | .hdToken => encodeN 0x2D
  | .mfFeed cnt => encodeK 0x30 cnt
  | .mfFind => encodeN 0x31
  | .mfStep drain => encodeS 0x32 drain
  | .mfResetHist => encodeN 0x33
  | .bfWhdr btype final => encodeH 0x38 btype final
  | .bfRhdr => encodeN 0x39
  | .bfWstored cnt => encodeK 0x3A cnt
  | .bfRstored => encodeN 0x3B
  | .bfRcopy cnt => encodeK 0x3C cnt
  | .bfInflate => encodeN 0x3D

end Sys2Proof
end

