-- ==== Sys2Proof/Config.lean ====
section
/-! DEFINITION. What the spec leaves to the instance: the OPEN parameters OUT_CAP and CHECKSUM, and the one
value it does not state. Each opaque constant has no body, so no proof can rest on a value of it. -/

namespace Sys2Proof.Config

/-- By how many bytes OUT_CAP exceeds its least legal value. OPEN (00_scope.md R11, D5). DESIGN CHOICE, log 2. -/
opaque outCapExtra : Nat

/-- The least OUT_CAP: what BF_WSTORED with n = 32768 can produce (00_scope.md R11). -/
abbrev outCapMin : Nat := 32773

/-- OUT_CAP, the capacity of the output queue in bytes: any number of at least 32773 (00_scope.md R11). -/
def outCap : Nat := outCapExtra + outCapMin

/-- CHECKSUM, the dictionary-identity function. OPEN (00_scope.md R12, D13). Log 3. -/
opaque checksum : List Byte → BitVec 32

/-- What REG_GET 12 gives for an output queue of `n` bytes, `n` at least 2^32: the register has 32 bits and the
spec states no value there (10_state.md R51). A free value. DESIGN CHOICE, log 7. -/
opaque outqLenBeyond (n : Nat) : BitVec 32

end Sys2Proof.Config
end

