-- ==== Sys2Proof/Machine/Tables.lean ====
section
/-! DEFINITION. The fixed numbers and tables of the spec: alphabet sizes, the match finder's constants, the
length and distance codes, the code-length order and the fixed codes. -/

namespace Sys2Proof

/-! ## Alphabets (00_scope.md R13) -/

/-- The alphabet a T operand selects; T = 3 is reserved (30_encoding.md R112). -/
def Alphabet.ofField (t : BitVec 2) : Option Alphabet :=
  if t = 0 then some .ll else if t = 1 then some .dist else if t = 2 then some .cl else none

/-- SZ(T), the stored entries of an alphabet: 288, 32, 19. -/
def Alphabet.size : Alphabet → Nat
  | .ll => 288
  | .dist => 32
  | .cl => 19

/-- NB(T), the symbols a built code may use: 286, 30, 19 (43_huffman_encoder.md). -/
def Alphabet.usable : Alphabet → Nat
  | .ll => 286
  | .dist => 30
  | .cl => 19

/-- MAXLEN(T), the longest code: 15, 15, 7. -/
def Alphabet.maxLen : Alphabet → Nat
  | .ll => 15
  | .dist => 15
  | .cl => 7

end Sys2Proof

namespace Sys2Proof.Machine

/-! ## Match finder constants (00_scope.md R10) -/

/-- MIN_MATCH. -/
def minMatch : Nat := 3

/-- MAX_MATCH. -/
def maxMatch : Nat := 258

/-- LA_CAP, the capacity of the lookahead. -/
def laCap : Nat := 262

/-- LA_NEED, the lookahead an undrained MF_STEP needs. -/
def laNeed : Nat := 259

/-! ## Length and distance codes (43_huffman_encoder.md R235) -/

/-- (base length, extra bits) of the length symbols 257 to 285. -/
def lengthCodes : List (Nat × Nat) :=
  [(3, 0), (4, 0), (5, 0), (6, 0), (7, 0), (8, 0), (9, 0), (10, 0),
   (11, 1), (13, 1), (15, 1), (17, 1), (19, 2), (23, 2), (27, 2), (31, 2),
   (35, 3), (43, 3), (51, 3), (59, 3), (67, 4), (83, 4), (99, 4), (115, 4),
   (131, 5), (163, 5), (195, 5), (227, 5), (258, 0)]

/-- (base distance, extra bits) of the distance symbols 0 to 29. -/
def distCodes : List (Nat × Nat) :=
  [(1, 0), (2, 0), (3, 0), (4, 0), (5, 1), (7, 1), (9, 2), (13, 2),
   (17, 3), (25, 3), (33, 4), (49, 4), (65, 5), (97, 5), (129, 6), (193, 6),
   (257, 7), (385, 7), (513, 8), (769, 8), (1025, 9), (1537, 9), (2049, 10), (3073, 10),
   (4097, 11), (6145, 11), (8193, 12), (12289, 12), (16385, 13), (24577, 13)]

/-- LBASE[c], for a length symbol c of 257..285. -/
def lengthBase (c : Nat) : Nat := (lengthCodes.getD (c - 257) (0, 0)).1

/-- LEXT[c], for a length symbol c of 257..285. -/
def lengthExtra (c : Nat) : Nat := (lengthCodes.getD (c - 257) (0, 0)).2

/-- DBASE[c], for a distance symbol c of 0..29. -/
def distBase (c : Nat) : Nat := (distCodes.getD c (0, 0)).1

/-- DEXT[c], for a distance symbol c of 0..29. -/
def distExtra (c : Nat) : Nat := (distCodes.getD c (0, 0)).2

/-- The number of leading codes of a table whose base does not exceed `x`. -/
def codesUpTo (table : List (Nat × Nat)) (x : Nat) : Nat :=
  (table.takeWhile fun c => c.1 ≤ x).length

/-- lc of R236: the greatest length symbol whose base does not exceed the length. -/
def lengthSym (len : Nat) : Nat := 256 + codesUpTo lengthCodes len

/-- dc of R236: the greatest distance symbol whose base does not exceed the distance. -/
def distSym (dist : Nat) : Nat := codesUpTo distCodes dist - 1

/-! ## The code-length order and the fixed codes -/

/-- CL_ORDER (43_huffman_encoder.md R241). -/
def clOrder : List Nat := [16, 17, 18, 0, 8, 7, 9, 6, 10, 5, 11, 4, 12, 3, 13, 2, 14, 1, 15]

/-- The fixed literal/length code lengths (43_huffman_encoder.md R233). -/
def fixedLL : List (BitVec 4) :=
  List.replicate 144 8 ++ List.replicate 112 9 ++ List.replicate 24 7 ++ List.replicate 8 8

/-- The fixed distance code lengths (43_huffman_encoder.md R233). -/
def fixedDist : List (BitVec 4) := List.replicate 32 5

/-! ## Configuration registers (10_state.md R42) -/

/-- The legal values of the configuration field `field`; a reserved field has none. -/
def cfgLegal (field val : Nat) : Bool :=
  match field with
  | 0 => 8 ≤ val && val ≤ 15
  | 1 => 8 ≤ val && val ≤ 15
  | 2 => val ≤ 65535
  | 3 => 3 ≤ val && val ≤ 258
  | 4 => val ≤ 258
  | 5 => 3 ≤ val && val ≤ 258
  | _ => false

/-- The register ids REG_GET reads (10_state.md R51). -/
def regLegal (reg : Nat) : Bool := reg ≤ 12 || (16 ≤ reg && reg ≤ 21)

end Sys2Proof.Machine
end

