-- ==== Sys2Proof/Machine/State.lean ====
section
/-! DEFINITION. The state of the CORE as plain data (10_state.md), its value after reset (70_reset_and_hazards.md
R400), and the reasons a step can stop. -/

namespace Sys2Proof.Machine

/-- The status codes of 60_exceptions.md R370, less MEM_ERROR, which no command ever writes (R382). -/
inductive Status where
  | ok
  | streamEnd
  | needDict
  | holdIn
  | streamError
  | dataError
  | bufError
  deriving DecidableEq, Repr

/-- The kinds of token RES3 reports (10_state.md R32). -/
inductive TokenKind where
  | lit
  | backref
  | eob
  | nothing
  deriving DecidableEq, Repr

/-- The configuration registers (10_state.md R42). -/
structure CfgRegs where
  wbits     : BitVec 4
  hashBits  : BitVec 4
  maxChain  : BitVec 16
  niceLen   : BitVec 9
  lazyLimit : BitVec 9
  goodLen   : BitVec 9
  deriving DecidableEq, Repr

/-- The bit unpacker: the input queue, the bits of its head already consumed, and the bytes dequeued so far
(10_state.md R40, R43). It is also the cursor that a command works on a copy of (00_scope.md R16). -/
structure InPort where
  inq     : List Byte
  ibit    : BitVec 3
  totalIn : BitVec 32
  deriving DecidableEq, Repr

/-- The bit packer: the output queue, the pending bits, their number, and the bytes appended so far
(10_state.md R40, R44). -/
structure OutPort where
  outq     : List Byte
  obuf     : BitVec 8
  obits    : BitVec 3
  totalOut : BitVec 32
  deriving DecidableEq, Repr

/-- An encoder table: HE_FREQ, HE_LEN, HE_CODE and HE_VALID of one alphabet (10_state.md R49). -/
structure EncTable where
  freq  : List (BitVec 32)
  len   : List (BitVec 4)
  code  : List (BitVec 15)
  valid : Bool
  deriving DecidableEq, Repr

/-- A decoder table: HD_LEN, HD_N, HD_COUNT (entry l − 1 counts length l), HD_SYM and HD_VALID of one alphabet
(10_state.md R50). -/
structure DecTable where
  len   : List (BitVec 4)
  n     : Nat
  count : List Nat
  sym   : List Nat
  valid : Bool
  deriving DecidableEq, Repr

/-- What the host can do between two commands that changes anything (20_memory.md R87). -/
inductive HostMove where
  /-- Issue a command word. -/
  | command (w : Word)
  /-- Append bytes to the tail of inq. -/
  | append (bytes : List Byte)
  /-- Remove bytes from the head of outq. -/
  | remove (n : Nat)
  deriving DecidableEq, Repr

/-- The state of the CORE. The last two fields are the model's own: the instance's OUT_CAP (log 2) and the
host's moves that are still to come (log 1). -/
structure State where
  status     : BitVec 8
  res0       : BitVec 32
  res1       : BitVec 9
  res2       : BitVec 16
  res3       : BitVec 2
  derr       : Bool
  needDict   : Bool
  last       : Bool
  ended      : Bool
  storedRem  : BitVec 16
  dictId     : BitVec 32
  dictExpect : BitVec 32
  cfg        : CfgRegs
  inp        : InPort
  out        : OutPort
  hist       : List Byte
  la         : List Byte
  mfBase     : Nat
  heLL       : EncTable
  heDist     : EncTable
  heCl       : EncTable
  hdLL       : DecTable
  hdDist     : DecTable
  hdCl       : DecTable
  outCap     : Nat
  port       : List HostMove
  deriving DecidableEq, Repr

/-- Why a step stops with a fault. The CORE has no traps: every error is a status code returned to the host
(60_exceptions.md R385), so there is no fault, nothing raises one, and that is safe. -/
inductive Fault where
  deriving DecidableEq, Repr

/-- Why a step is refused. -/
inductive Refusal where
  /-- Raised by an arm of `exec` whose command has no meaning yet; safe. No arm of this model is left so. -/
  | notModelled (mnemonic : String)
  deriving DecidableEq, Repr

/-- The outcome of a step or of a command. -/
abbrev Result := Host.Outcome State Fault Refusal

/-- An encoder table after reset: all zeros, not valid (R400). -/
def EncTable.reset (size : Nat) : EncTable :=
  { freq := List.replicate size 0, len := List.replicate size 0, code := List.replicate size 0, valid := false }

/-- A decoder table after reset: all zeros or empty, not valid (R400). -/
def DecTable.reset (size : Nat) : DecTable :=
  { len := List.replicate size 0, n := 0, count := List.replicate 15 0, sym := [], valid := false }

/-- The configuration registers after reset (R42, R400). -/
def CfgRegs.reset : CfgRegs :=
  { wbits := 15, hashBits := 15, maxChain := 128, niceLen := 128, lazyLimit := 16, goodLen := 8 }

/-- The machine right after reset (70_reset_and_hazards.md R400). -/
def State.reset : State where
  status     := 0
  res0       := 0
  res1       := 0
  res2       := 0
  res3       := 0
  derr       := false
  needDict   := false
  last       := false
  ended      := false
  storedRem  := 0
  dictId     := 0
  dictExpect := 0
  cfg        := CfgRegs.reset
  inp        := { inq := [], ibit := 0, totalIn := 0 }
  out        := { outq := [], obuf := 0, obits := 0, totalOut := 0 }
  hist       := []
  la         := []
  mfBase     := 0
  heLL       := EncTable.reset 288
  heDist     := EncTable.reset 32
  heCl       := EncTable.reset 19
  hdLL       := DecTable.reset 288
  hdDist     := DecTable.reset 32
  hdCl       := DecTable.reset 19
  outCap     := Config.outCap
  port       := []

end Sys2Proof.Machine
end

