-- ==== Sys2Proof/Machine/Ops.lean ====
section
/-! DEFINITION. The shared operations: how a command ends (its status), the bit primitives of 00_scope.md R15 over
the two queues, the window, and access to the tables by alphabet. The CORE takes no exceptions: what other machines
do by taking one, this one does by `State.report` (60_exceptions.md R385). -/

namespace Sys2Proof.Machine

/-! ## Status codes (60_exceptions.md R370) -/

/-- The 8-bit two's complement code of a status. -/
def Status.code : Status → BitVec 8
  | .ok => 0
  | .streamEnd => 1
  | .needDict => 2
  | .holdIn => 3
  | .streamError => 0xFE
  | .dataError => 0xFD
  | .bufError => 0xFB

/-- MEM_ERROR, which is kept in the taxonomy and never written (R382). -/
def memErrorCode : BitVec 8 := 0xFC

/-- The code of a token kind in RES3 (10_state.md R32). -/
def TokenKind.code : TokenKind → BitVec 2
  | .lit => 0
  | .backref => 1
  | .eob => 2
  | .nothing => 3

/-! ## How a command ends -/

/-- STATUS <- st, and nothing else. -/
def State.withStatus (s : State) (st : Status) : State := { s with status := st.code }

/-- The command ends with status `st`; `s` is the state its pseudocode has reached. -/
def State.report (s : State) (st : Status) : Result := .next (s.withStatus st)

/-- The command ends with OK. -/
def State.ok (s : State) : Result := s.report .ok

/-- `raise STREAM_ERROR`: nothing but STATUS changes (R379). -/
def State.streamError (s : State) : Result := s.report .streamError

/-- `hold HOLD_IN`: nothing but STATUS changes (R375, R376). -/
def State.holdIn (s : State) : Result := s.report .holdIn

/-- `hold BUF_ERROR`: nothing but STATUS changes (R375, R377). -/
def State.holdOut (s : State) : Result := s.report .bufError

/-- DERR <- 1. -/
def State.markDerr (s : State) : State := { s with derr := true }

/-- `raise DATA_ERROR` from a state that holds what the rule leaves done: DERR is set (10_state.md R35, R378). -/
def State.dataError (s : State) : Result := s.markDerr.report .dataError

/-! ## The unpacker (00_scope.md R15, 10_state.md R43) -/

/-- The outcome of reading from a copy of the cursor (R16): a value and the cursor after it; the input ran out,
and the copy is dropped; or malformed data, with the cursor that is committed. -/
inductive Read (α : Type) where
  | done (value : α) (cursor : InPort)
  | short
  | malformed (cursor : InPort)
  deriving DecidableEq, Repr

/-- Go on with the value read and the cursor after it. -/
def Read.andThen {α β : Type} (r : Read α) (k : α → InPort → Read β) : Read β :=
  match r with
  | .done a p => k a p
  | .short => .short
  | .malformed p => .malformed p

/-- InAvailBits(). -/
def InPort.availBits (p : InPort) : Nat := 8 * p.inq.length - p.ibit.toNat

/-- Dequeue `n` bytes and count them in TOTAL_IN. -/
def InPort.dequeue (p : InPort) (n : Nat) : InPort :=
  { p with inq := p.inq.drop n, totalIn := p.totalIn + BitVec.ofNat 32 n }

/-- GetBit(), on a copy of the cursor. -/
def readBit (p : InPort) : Read Bool :=
  match p.inq with
  | [] => .short
  | b :: _ =>
    if p.ibit = 7 then .done (b.getLsbD 7) { (p.dequeue 1) with ibit := 0 }
    else .done (b.getLsbD p.ibit.toNat) { p with ibit := p.ibit + 1 }

/-- GetBits(n): the first bit read is the least significant. -/
def readBits : Nat → InPort → Read Nat
  | 0, p => .done 0 p
  | n + 1, p =>
    (readBit p).andThen fun b p1 =>
      (readBits n p1).andThen fun v p2 => .done (b.toNat + 2 * v) p2

/-- Discard the rest of a partly read byte (41_bitio.md R166). -/
def InPort.align (p : InPort) : InPort :=
  if p.ibit = 0 then p else { (p.dequeue 1) with ibit := 0 }

/-- Continue a command with what was read: a hold drops the copy, malformed data commits it (R16, R266). -/
def State.afterRead {α : Type} (s : State) (r : Read α) (k : α → InPort → Result) : Result :=
  match r with
  | .done a p => k a p
  | .short => s.holdIn
  | .malformed p => { s with inp := p }.dataError

/-! ## The packer (00_scope.md R15, 10_state.md R44) -/

/-- `b` with bit `i` made `v`. -/
def placeBit (b : Byte) (i : Nat) (v : Bool) : Byte :=
  (b &&& ~~~(1#8 <<< i)) ||| ((BitVec.ofBool v).setWidth 8 <<< i)

/-- PutBit(b). -/
def OutPort.putBit (o : OutPort) (b : Bool) : OutPort :=
  if o.obits = 7 then
    { outq := o.outq ++ [placeBit o.obuf 7 b], obuf := 0, obits := 0, totalOut := o.totalOut + 1 }
  else
    { o with obuf := placeBit o.obuf o.obits.toNat b, obits := o.obits + 1 }

/-- PutBit for each bit, first to last. -/
def OutPort.putAll (o : OutPort) (bs : List Bool) : OutPort := bs.foldl OutPort.putBit o

/-- The low `n` bits of `v`, least significant first. -/
def bitsLsb (n v : Nat) : List Bool := (List.range n).map v.testBit

/-- The low `n` bits of `c`, most significant first. -/
def bitsMsb (n c : Nat) : List Bool := (bitsLsb n c).reverse

/-- PutBits(n, v). -/
def OutPort.putBits (o : OutPort) (n v : Nat) : OutPort := o.putAll (bitsLsb n v)

/-- PutRev(n, c). -/
def OutPort.putRev (o : OutPort) (n c : Nat) : OutPort := o.putAll (bitsMsb n c)

/-- PutByte(b); every caller has OBITS = 0. -/
def OutPort.putByte (o : OutPort) (b : Byte) : OutPort :=
  { o with outq := o.outq ++ [b], totalOut := o.totalOut + 1 }

/-- PutByte for each byte, first to last. -/
def OutPort.putBytes (o : OutPort) (bs : List Byte) : OutPort := bs.foldl OutPort.putByte o

/-- PutBits(8 − OBITS, 0) where bits are pending (41_bitio.md R162). -/
def OutPort.align (o : OutPort) : OutPort :=
  if o.obits = 0 then o else o.putBits (8 - o.obits.toNat) 0

/-- outq lacks room for `n` more bytes (60_exceptions.md R377). -/
def State.lacksRoom (s : State) (n : Nat) : Bool := decide (s.outCap < s.out.outq.length + n)

/-- outq lacks room for the bytes that `n` more bits complete (R377). -/
def State.lacksRoomForBits (s : State) (n : Nat) : Bool := s.lacksRoom ((s.out.obits.toNat + n) / 8)

/-- Send a list of bits, or hold where their whole bytes do not fit. -/
def State.sendBits (s : State) (bs : List Bool) : Result :=
  if s.lacksRoomForBits bs.length then s.holdOut
  else { s with out := s.out.putAll bs }.ok

/-! ## The window (10_state.md R45) -/

/-- W. -/
def State.window (s : State) : Nat := 2 ^ s.cfg.wbits.toNat

/-- WVALID. -/
def State.wvalid (s : State) : Nat := min s.window s.hist.length

/-- WinByte(d): the byte `d` positions back, for 1 ≤ d ≤ WVALID. -/
def winByte (hist : List Byte) (d : Nat) : Byte := hist.getD (hist.length - d) 0

/-- The byte of the physical ring at address `a`: the newest history byte whose position is `a` modulo W, or none
where the SRAM byte is unspecified (R45; 93_implementation_defined.md U9). -/
def State.sramByte (s : State) (a : Nat) : Option Byte :=
  let q := s.hist.length
  let back := (q + s.window - 1 - a % s.window) % s.window + 1
  if back ≤ s.wvalid then some (winByte s.hist back) else none

/-- PutByte(b), then Record(b). -/
def State.emitAndRecord (s : State) (b : Byte) : State :=
  { s with out := s.out.putByte b, hist := s.hist ++ [b] }

/-- The byte-by-byte copy of a back-reference: each byte is read before it is recorded (42_window.md R194). -/
def State.copyMatch : Nat → Nat → State → State
  | 0, _, s => s
  | n + 1, d, s => State.copyMatch n d (s.emitAndRecord (winByte s.hist d))

/-! ## Tables by alphabet -/

/-- The encoder table of an alphabet. -/
def State.enc (s : State) : Alphabet → EncTable
  | .ll => s.heLL
  | .dist => s.heDist
  | .cl => s.heCl

/-- Replace the encoder table of an alphabet. -/
def State.setEnc (s : State) (a : Alphabet) (t : EncTable) : State :=
  match a with
  | .ll => { s with heLL := t }
  | .dist => { s with heDist := t }
  | .cl => { s with heCl := t }

/-- The decoder table of an alphabet. -/
def State.dec (s : State) : Alphabet → DecTable
  | .ll => s.hdLL
  | .dist => s.hdDist
  | .cl => s.hdCl

/-- Replace the decoder table of an alphabet. -/
def State.setDec (s : State) (a : Alphabet) (t : DecTable) : State :=
  match a with
  | .ll => { s with hdLL := t }
  | .dist => { s with hdDist := t }
  | .cl => { s with hdCl := t }

/-- HE_LEN[T][sym]. -/
def EncTable.lenOf (t : EncTable) (sym : Nat) : Nat := (t.len.getD sym 0).toNat

/-- HE_CODE[T][sym]. -/
def EncTable.codeOf (t : EncTable) (sym : Nat) : Nat := (t.code.getD sym 0).toNat

/-- HE_FREQ[T][sym]. -/
def EncTable.freqOf (t : EncTable) (sym : Nat) : Nat := (t.freq.getD sym 0).toNat

/-- The code of a symbol as the bits that PutRev sends (20_memory.md R83). -/
def EncTable.codeBits (t : EncTable) (sym : Nat) : List Bool := bitsMsb (t.lenOf sym) (t.codeOf sym)

/-! ## Result registers -/

/-- Write all four result registers with a token (44_huffman_decoder.md R275, 45_lz77.md R311). -/
def State.setToken (s : State) (kind : TokenKind) (byte len dist : Nat) : State :=
  { s with res0 := BitVec.ofNat 32 byte, res1 := BitVec.ofNat 9 len, res2 := BitVec.ofNat 16 dist,
           res3 := kind.code }

end Sys2Proof.Machine
end

