-- ==== Sys2Proof/Machine/Flags.lean ====
section
/-! DEFINITION. The session flags as commands check and report them: ENDED, the gates NEED_DICT and DERR, the state
preconditions, the FLAGS register, and the status a finished block step reports. -/

namespace Sys2Proof.Machine

/-- Check 1 of 60_exceptions.md R381: while ENDED = 1 the command reports STREAM_ERROR (10_state.md R38). -/
def State.unlessEnded (s : State) (k : Result) : Result :=
  if s.ended then s.streamError else k

/-- Check 4 of R381, for the decode-path commands: NEED_DICT first, then DERR; each changes nothing but STATUS
(60_exceptions.md R380). -/
def State.gated (s : State) (k : Result) : Result :=
  if s.needDict then s.report .needDict
  else if s.derr then s.report .dataError
  else k

/-- Check 5 of R381: a state precondition that does not hold is STREAM_ERROR. -/
def State.require (s : State) (ok : Bool) (k : Result) : Result :=
  if ok then k else s.streamError

/-- The input is byte aligned: IBIT = 0 (20_memory.md R85). -/
def State.inAligned (s : State) : Bool := s.inp.ibit == 0

/-- The output is byte aligned: OBITS = 0 (20_memory.md R85). -/
def State.outAligned (s : State) : Bool := s.out.obits == 0

/-- FLAGS = {LAST, NEED_DICT, DERR} in bits 2, 1, 0 (10_state.md R51). -/
def State.flags (s : State) : BitVec 3 :=
  BitVec.ofBool s.last ++ BitVec.ofBool s.needDict ++ BitVec.ofBool s.derr

/-- STREAM_END where the final block has just ended, else OK (60_exceptions.md R370). -/
def endStatus (atEnd : Bool) : Status := if atEnd then .streamEnd else .ok

end Sys2Proof.Machine
end

