-- ==== Sys2Proof/Machine/Operands.lean ====
section
/-! DEFINITION. Operand assembly: what a command's fields stand for (30_encoding.md R112) and the range checks that
several commands share (R118). -/

namespace Sys2Proof.Machine

/-- D = DM1 + 1, so 1 to 32768 (R112). -/
def distOf (dm1 : BitVec 15) : Nat := dm1.toNat + 1

/-- Run `k` on the alphabet T selects; T = 3 is STREAM_ERROR in every T-format command (R118). -/
def State.onAlphabet (s : State) (t : BitVec 2) (k : Alphabet → Result) : Result :=
  match Alphabet.ofField t with
  | some a => k a
  | none => s.streamError

/-- Run `k` where the field is in range, else STREAM_ERROR (R118). -/
def State.inRange (s : State) (ok : Bool) (k : Result) : Result :=
  if ok then k else s.streamError

/-- The length operand is in `lo`..258 (R112). -/
def lenOk (lo : Nat) (len9 : BitVec 9) : Bool := lo ≤ len9.toNat && len9.toNat ≤ maxMatch

end Sys2Proof.Machine
end

