-- ==== Sys2Proof/Machine/BitIo.lean ====
section
/-! DEFINITION. The bit_packer_unpacker commands (41_bitio.md). -/

namespace Sys2Proof.Machine

/-- The count operand of BP_PUT, BP_PUTREV and BP_GET is at most 16. -/
def nbOk (nb : BitVec 5) : Bool := nb.toNat ≤ 16

/-- BP_PUT NB, V (R160). -/
def execBpPut (nb : BitVec 5) (v : BitVec 16) (s : State) : Result :=
  s.unlessEnded <|
  s.inRange (nbOk nb) <|
  s.sendBits (bitsLsb nb.toNat v.toNat)

/-- BP_PUTREV NB, V (R161). -/
def execBpPutrev (nb : BitVec 5) (v : BitVec 16) (s : State) : Result :=
  s.unlessEnded <|
  s.inRange (nbOk nb) <|
  s.sendBits (bitsMsb nb.toNat v.toNat)

/-- BP_ALIGN_OUT (R162). -/
def execBpAlignOut (s : State) : Result :=
  s.unlessEnded <|
  if s.outAligned then s.ok
  else if s.lacksRoom 1 then s.holdOut
  else { s with out := s.out.align }.ok

/-- BP_GET NB (R165). -/
def execBpGet (nb : BitVec 5) (s : State) : Result :=
  s.unlessEnded <|
  s.inRange (nbOk nb) <|
  s.afterRead (readBits nb.toNat s.inp) fun v p =>
  { s with inp := p, res0 := BitVec.ofNat 32 v }.ok

/-- BP_ALIGN_IN (R166). -/
def execBpAlignIn (s : State) : Result :=
  s.unlessEnded <|
  { s with inp := s.inp.align }.ok

/-- The sync marker. -/
def syncMark : List Byte := [0x00, 0x00, 0xFF, 0xFF]

/-- The least k at which `mark` stands in the bytes. -/
def findMark (mark : List Byte) : List Byte → Option Nat
  | [] => none
  | b :: rest =>
    if mark.isPrefixOf (b :: rest) then some 0
    else (findMark mark rest).map (· + 1)

/-- The largest m of {3, 2, 1, 0} such that the last m bytes are the first m bytes of the marker. -/
def markTail (bytes : List Byte) : Nat :=
  if (syncMark.take 3).isSuffixOf bytes then 3
  else if (syncMark.take 2).isSuffixOf bytes then 2
  else if (syncMark.take 1).isSuffixOf bytes then 1
  else 0

/-- BP_SYNC (R170). -/
def execBpSync (s : State) : Result :=
  s.unlessEnded <|
  let p := s.inp.align
  match findMark syncMark p.inq with
  | some k => { s with inp := p.dequeue (k + 4), derr := false, storedRem := 0, last := false }.ok
  | none => { s with inp := p.dequeue (p.inq.length - markTail p.inq) }.dataError

end Sys2Proof.Machine
end

