-- ==== Sys2Proof/Machine/HuffCode.lean ====
section
/-! DEFINITION. Huffman codes as the encoder and the decoder share them: the Kraft test, the canonical code, the
frequency-to-length procedure and the run-length coder (43_huffman_encoder.md R225 to R241, 44_huffman_decoder.md
R261). A length table is a list of numbers, entry s for symbol s. -/

namespace Sys2Proof.Machine

/-! ## The Kraft test (R261) -/

/-- The three verdicts of Kraft(T, n). -/
inductive Kraft where
  | over
  | incomplete
  | complete
  deriving DecidableEq, Repr

/-- bl_count[l]: how many symbols have length `l`. -/
def countLen (lens : List Nat) (l : Nat) : Nat := lens.count l

/-- The loop of R261 over the lengths still to come, `left` codewords being free. -/
def kraftFrom (lens : List Nat) : List Nat → Nat → Kraft
  | [], left => if left = 0 then .complete else .incomplete
  | l :: ls, left =>
    if 2 * left < countLen lens l then .over
    else kraftFrom lens ls (2 * left - countLen lens l)

/-- Kraft(T, n) on the first n lengths. -/
def kraft (lens : List Nat) : Kraft := kraftFrom lens (List.range' 1 15) 1

/-! ## The canonical code (R230) -/

/-- next_code[l] before any symbol is assigned. -/
def firstCode (lens : List Nat) : Nat → Nat
  | 0 => 0
  | l + 1 => 2 * (firstCode lens l + (if l = 0 then 0 else countLen lens l))

/-- The assignment loop: `next` holds next_code[0..15]; a symbol of length 0 is given no code, and its entry stays
as it was (log 6). -/
def assignCodes : List (Nat × BitVec 15) → List Nat → List (BitVec 15)
  | [], _ => []
  | (l, old) :: rest, next =>
    if l = 0 then old :: assignCodes rest next
    else BitVec.ofNat 15 (next.getD l 0) :: assignCodes rest (next.set l (next.getD l 0 + 1))

/-- Canon(len) over the code entries that stood before. -/
def canon (lens : List Nat) (old : List (BitVec 15)) : List (BitVec 15) :=
  assignCodes (lens.zip old) ((List.range 16).map (firstCode lens))

/-! ## Frequency to length: the two-node merge (R227) -/

/-- A node of the merge: its weight, its key, and the depth below it of each leaf symbol. -/
structure MergeNode where
  weight : Nat
  key    : Nat
  depths : List (Nat × Nat)
  deriving DecidableEq, Repr

/-- The lexicographic order of (weight, key). -/
def MergeNode.before (a b : MergeNode) : Bool :=
  a.weight < b.weight || (a.weight == b.weight && a.key < b.key)

/-- The smallest of `m` and the nodes given, and the others. -/
def popLeast (m : MergeNode) : List MergeNode → MergeNode × List MergeNode
  | [] => (m, [])
  | n :: rest =>
    if n.before m then
      let r := popLeast n rest
      (r.1, m :: r.2)
    else
      let r := popLeast m rest
      (r.1, n :: r.2)

/-- The internal node over `a` and `b`: every leaf below it is one deeper. -/
def mergeNodes (key : Nat) (a b : MergeNode) : MergeNode :=
  { weight := a.weight + b.weight, key := key,
    depths := (a.depths ++ b.depths).map fun d => (d.1, d.2 + 1) }

/-- Merge until one node remains; `key` is the next internal node's. Each round removes one node, so as many rounds
as there are nodes suffice. -/
def mergeAll : Nat → Nat → List MergeNode → List (Nat × Nat)
  | 0, _, nodes => nodes.flatMap MergeNode.depths
  | fuel + 1, key, nodes =>
    match nodes with
    | [] => []
    | n :: rest =>
      let r1 := popLeast n rest
      match r1.2 with
      | [] => r1.1.depths
      | n2 :: rest2 =>
        let r2 := popLeast n2 rest2
        mergeAll fuel (key + 1) (mergeNodes key r1.1 r2.1 :: r2.2)

/-- A leaf still being given its length: symbol, frequency, length. -/
structure Leaf where
  sym  : Nat
  freq : Nat
  len  : Nat
  deriving DecidableEq, Repr

/-- The depth of each used symbol in the merge tree, as leaves; `nb` is NB(T). -/
def huffmanDepths (nb : Nat) (used : List (Nat × Nat)) : List Leaf :=
  let nodes := used.map fun u => { weight := u.2, key := u.1, depths := [(u.1, 0)] : MergeNode }
  let depths := mergeAll used.length nb nodes
  used.map fun u => { sym := u.1, freq := u.2, len := (depths.lookup u.1).getD 0 }

/-! ## Length limiting (R228, R229) -/

/-- The choice of one leaf: the best of those `ok` admits, where `better a b` says that `a` is taken before `b`. -/
def chooseLeaf (ok : Leaf → Bool) (better : Leaf → Leaf → Bool) : List Leaf → Option Leaf
  | [] => none
  | x :: rest =>
    match chooseLeaf ok better rest with
    | none => if ok x then some x else none
    | some y => if ok x && better x y then some x else some y

/-- Give symbol `sym` the length `len`. -/
def setLeafLen (leaves : List Leaf) (sym len : Nat) : List Leaf :=
  leaves.map fun x => if x.sym = sym then { x with len := len } else x

/-- R228's choice: the greatest length, then the smallest frequency, then the greatest symbol. -/
def lengthenFirst (a b : Leaf) : Bool :=
  b.len < a.len || (a.len == b.len && (a.freq < b.freq || (a.freq == b.freq && b.sym < a.sym)))

/-- R229's choice: the greatest length, then the greatest frequency, then the smallest symbol. -/
def shortenFirst (a b : Leaf) : Bool :=
  b.len < a.len || (a.len == b.len && (b.freq < a.freq || (a.freq == b.freq && a.sym < b.sym)))

/-- K = Σ 2^(M − len[s]). -/
def kraftSum (m : Nat) (leaves : List Leaf) : Nat := (leaves.map fun x => 2 ^ (m - x.len)).sum

/-- R228's loop: lengthen while K > FULL. Each round makes one length at most M longer, which bounds the rounds. -/
def lengthenLoop (m : Nat) : Nat → List Leaf → List Leaf
  | 0, leaves => leaves
  | fuel + 1, leaves =>
    if 2 ^ m < kraftSum m leaves then
      match chooseLeaf (fun x => x.len < m) lengthenFirst leaves with
      | some x => lengthenLoop m fuel (setLeafLen leaves x.sym (x.len + 1))
      | none => leaves
    else leaves

/-- R229's loop: shorten while K < FULL. Each round makes one length shorter, which bounds the rounds. -/
def shortenLoop (m : Nat) : Nat → List Leaf → List Leaf
  | 0, leaves => leaves
  | fuel + 1, leaves =>
    if kraftSum m leaves < 2 ^ m then
      match chooseLeaf (fun x => 2 ≤ x.len && 2 ^ (m - x.len) ≤ 2 ^ m - kraftSum m leaves) shortenFirst leaves with
      | some x => shortenLoop m fuel (setLeafLen leaves x.sym (x.len - 1))
      | none => leaves
    else leaves

/-- The leaves with their limited lengths, for two used symbols or more (R227 to R229). -/
def limitedLeaves (nb m : Nat) (used : List (Nat × Nat)) : List Leaf :=
  let clamped := (huffmanDepths nb used).map fun x => { x with len := min x.len m }
  let rounds := used.length * m
  shortenLoop m rounds (lengthenLoop m rounds clamped)

/-- The used symbols with their frequencies, ascending (R225). -/
def usedSymbols (nb : Nat) (freq : List Nat) : List (Nat × Nat) :=
  ((List.range nb).map fun s => (s, freq.getD s 0)).filter fun u => 0 < u.2

/-- Lengths(T, S, M) as (symbol, length) pairs, the degenerate sets of R226 included. -/
def codeLengths (nb m : Nat) (used : List (Nat × Nat)) : List (Nat × Nat) :=
  match used with
  | [] => [(0, 1), (1, 1)]
  | [u] => [(u.1, 1), (if u.1 = 0 then 1 else 0, 1)]
  | _ => (limitedLeaves nb m used).map fun x => (x.sym, x.len)

/-- len[s] for every entry of the table, 0 for a symbol without a code (R225). -/
def lengthTable (size : Nat) (pairs : List (Nat × Nat)) : List Nat :=
  (List.range size).map fun s => (pairs.lookup s).getD 0

/-! ## The run-length coder (R237, R238) -/

/-- An item of the code-length sequence: meta-symbol, extra value, number of extra bits. -/
structure RleItem where
  sym   : Nat
  extra : Nat
  nbits : Nat
  deriving DecidableEq, Repr

/-- The length of the run of entries equal to `x` that starts a sequence. -/
def runLength (x : Nat) : List Nat → Nat
  | [] => 0
  | y :: ys => if y = x then runLength x ys + 1 else 0

/-- The zero runs of R238: 18 while 11 or more remain, then 17 for 3 to 10, else single zeros. -/
def rleZeros : Nat → Nat → List RleItem
  | 0, run => List.replicate run ⟨0, 0, 0⟩
  | fuel + 1, run =>
    if 11 ≤ run then ⟨18, min run 138 - 11, 7⟩ :: rleZeros fuel (run - min run 138)
    else if 3 ≤ run then [⟨17, run - 3, 3⟩]
    else List.replicate run ⟨0, 0, 0⟩

/-- The repeats of R238 after a nonzero length: 16 while 3 or more remain, else the length itself. -/
def rleRepeats (cur : Nat) : Nat → Nat → List RleItem
  | 0, run => List.replicate run ⟨cur, 0, 0⟩
  | fuel + 1, run =>
    if 3 ≤ run then ⟨16, min run 6 - 3, 2⟩ :: rleRepeats cur fuel (run - min run 6)
    else List.replicate run ⟨cur, 0, 0⟩

/-- The items of one run of `run` ≥ 1 entries `cur`. -/
def rleRun (cur run : Nat) : List RleItem :=
  if cur = 0 then rleZeros run run
  else ⟨cur, 0, 0⟩ :: rleRepeats cur run (run - 1)

/-- RLE(seq), run by run; a sequence has no more runs than entries. -/
def rleGo : Nat → List Nat → List RleItem
  | 0, _ => []
  | _ + 1, [] => []
  | fuel + 1, x :: xs =>
    let more := runLength x xs
    rleRun x (more + 1) ++ rleGo fuel (xs.drop more)

/-- RLE(seq) (R238). -/
def rle (seq : List Nat) : List RleItem := rleGo seq.length seq

/-- 1 + the greatest s < `bound` with a nonzero length, or 0 where there is none. -/
def codedUpTo (lens : List Nat) : Nat → Nat
  | 0 => 0
  | n + 1 => if lens.getD n 0 ≠ 0 then n + 1 else codedUpTo lens n

/-- HLIT (R241). -/
def hlitOf (lensLL : List Nat) : Nat := max 257 (codedUpTo lensLL 286)

/-- HDIST (R241). -/
def hdistOf (lensDist : List Nat) : Nat := max 1 (codedUpTo lensDist 30)

/-- SEQ: the two parts are coded apart, so no run crosses from one to the other (R238, R241). -/
def dynSeq (lensLL lensDist : List Nat) : List RleItem :=
  rle (lensLL.take (hlitOf lensLL)) ++ rle (lensDist.take (hdistOf lensDist))

/-- HCLEN (R240). -/
def hclenOf (lensCl : List Nat) : Nat :=
  max 4 (codedUpTo (clOrder.map fun s => lensCl.getD s 0) 19)

end Sys2Proof.Machine
end

