-- ==== Sys2Proof/Machine/HuffDec.lean ====
section
/-! DEFINITION. The Huffman_decoder: building a decode structure, reading a symbol, a dynamic header or a token, and
its commands (44_huffman_decoder.md). -/

namespace Sys2Proof.Machine

/-! ## Building (R261, R262) -/

/-- HD_LEN[T][0..n−1] as numbers. -/
def DecTable.lens (t : DecTable) (n : Nat) : List Nat := (t.len.take n).map BitVec.toNat

/-- HD_COUNT for l = 1..15. -/
def lenCounts (lens : List Nat) : List Nat := (List.range' 1 15).map (countLen lens)

/-- The symbols of length `l`, ascending. -/
def symsOfLen (lens : List Nat) (l : Nat) : List Nat :=
  (lens.zipIdx.filter fun x => x.1 == l).map Prod.snd

/-- HD_SYM: the symbols that have a code, sorted by (length, symbol). -/
def sortedSyms (lens : List Nat) : List Nat := (List.range' 1 15).flatMap (symsOfLen lens)

/-- The decode structure of the first `n` lengths, valid (R262). -/
def DecTable.built (t : DecTable) (n : Nat) : DecTable :=
  { t with n := n, count := lenCounts (t.lens n), sym := sortedSyms (t.lens n), valid := true }

/-- HD_VALID <- 0. -/
def DecTable.invalid (t : DecTable) : DecTable := { t with valid := false }

/-- The first `n` lengths are over-subscribed. -/
def DecTable.isOver (t : DecTable) (n : Nat) : Bool := kraft (t.lens n) == .over

/-- HD_LEN <- lens, then the build with the whole table. -/
def DecTable.load (t : DecTable) (lens : List (BitVec 4)) : DecTable :=
  { t with len := lens }.built lens.length

/-! ## Reading a symbol (R266) -/

/-- The loop of Decode(T) over the lengths still to try. -/
def decodeFrom (t : DecTable) : List Nat → Nat → Nat → Nat → InPort → Read Nat
  | [], _, _, _, p => .malformed p
  | l :: ls, code, first, index, p =>
    (readBit p).andThen fun b p1 =>
      let code1 := code + b.toNat
      let c := t.count.getD (l - 1) 0
      if code1 - first < c then .done (t.sym.getD (index + (code1 - first)) 0) p1
      else decodeFrom t ls (2 * code1) (2 * (first + c)) (index + c) p1

/-- Decode(T): one symbol, one bit at a time. -/
def decodeSym (t : DecTable) (p : InPort) : Read Nat := decodeFrom t (List.range' 1 15) 0 0 0 p

/-! ## Reading a token (R275) -/

/-- What Token() returns. -/
structure Token where
  kind : TokenKind
  byte : Nat
  len  : Nat
  dist : Nat
  deriving DecidableEq, Repr

/-- The distance half of a match. -/
def readDistance (dist : DecTable) (len : Nat) (p : InPort) : Read Token :=
  (decodeSym dist p).andThen fun d p1 =>
    if 29 < d then .malformed p1
    else (readBits (distExtra d) p1).andThen fun x p2 => .done ⟨.backref, 0, len, distBase d + x⟩ p2

/-- Token(), after its check of HD_VALID. -/
def readToken (ll dist : DecTable) (p : InPort) : Read Token :=
  (decodeSym ll p).andThen fun s p1 =>
    if s < 256 then .done ⟨.lit, s, 0, 0⟩ p1
    else if s = 256 then .done ⟨.eob, 0, 0, 0⟩ p1
    else if 285 < s then .malformed p1
    else (readBits (lengthExtra s) p1).andThen fun x p2 => readDistance dist (lengthBase s + x) p2

/-- Both tables a token needs are built (R275). -/
def State.tokenTables (s : State) : Bool := s.hdLL.valid && s.hdDist.valid

/-! ## Reading a dynamic header (R270) -/

/-- The code-length code lengths: 3 bits each for the first `n` places of CL_ORDER, 0 for the rest. -/
def readClLens : List Nat → Nat → List (BitVec 4) → InPort → Read (List (BitVec 4))
  | [], _, lens, p => .done lens p
  | m :: ms, 0, lens, p => readClLens ms 0 (lens.set m 0) p
  | m :: ms, n + 1, lens, p =>
    (readBits 3 p).andThen fun v p1 => readClLens ms n (lens.set m (BitVec.ofNat 4 v)) p1

/-- What one code-length symbol appends to the lengths read so far. -/
def readRun (sym : Nat) (lens : List (BitVec 4)) (p : InPort) : Read (List (BitVec 4)) :=
  if sym < 16 then .done [BitVec.ofNat 4 sym] p
  else if sym = 16 then
    match lens.getLast? with
    | none => .malformed p
    | some x => (readBits 2 p).andThen fun v p1 => .done (List.replicate (3 + v) x) p1
  else if sym = 17 then (readBits 3 p).andThen fun v p1 => .done (List.replicate (3 + v) 0) p1
  else (readBits 7 p).andThen fun v p1 => .done (List.replicate (11 + v) 0) p1

/-- The loop that reads `total` code lengths. Each round appends at least one, which bounds the rounds. -/
def readLens (cl : DecTable) (total : Nat) : Nat → List (BitVec 4) → InPort → Read (List (BitVec 4))
  | 0, lens, p => .done lens p
  | fuel + 1, lens, p =>
    if total ≤ lens.length then .done lens p
    else
      (decodeSym cl p).andThen fun sym p1 =>
        (readRun sym lens p1).andThen fun run p2 =>
          if total < (lens ++ run).length then .malformed p2
          else readLens cl total fuel (lens ++ run) p2

/-- A dynamic header as read: its three counts and the three tables built from it. -/
structure DynHeader where
  hlit  : Nat
  hdist : Nat
  hclen : Nat
  ll    : DecTable
  dist  : DecTable
  cl    : DecTable
  deriving DecidableEq, Repr

/-- The lengths padded with zeros to `size` entries. -/
def padLens (size : Nat) (lens : List (BitVec 4)) : List (BitVec 4) :=
  lens ++ List.replicate (size - lens.length) 0

/-- The two alphabets' tables from the lengths read (R270, causes 6 and 7 of R271). -/
def buildDynTables (hlit hdist hclen : Nat) (ll dist cl : DecTable) (lens : List (BitVec 4)) (p : InPort) :
    Read DynHeader :=
  if lens.getD 256 0 = 0 then .malformed p
  else
    let ll1 := ll.load (padLens 288 (lens.take hlit))
    let dist1 := dist.load (padLens 32 (lens.drop hlit))
    if ll1.isOver 288 || dist1.isOver 32 then .malformed p
    else .done ⟨hlit, hdist, hclen, ll1, dist1, cl⟩ p

/-- The reading half of HD_DYNHDR, on a copy of the cursor and of the tables. -/
def readDynHeader (ll dist cl : DecTable) (p : InPort) : Read DynHeader :=
  (readBits 5 p).andThen fun x p1 =>
  (readBits 5 p1).andThen fun y p2 =>
  (readBits 4 p2).andThen fun z p3 =>
    let hlit := x + 257
    let hdist := y + 1
    let hclen := z + 4
    if 286 < hlit || 30 < hdist then .malformed p3
    else
      (readClLens clOrder hclen (List.replicate 19 0) p3).andThen fun clLens p4 =>
        let cl1 := cl.load clLens
        if cl1.isOver 19 then .malformed p4
        else
          (readLens cl1 (hlit + hdist) (hlit + hdist) [] p4).andThen fun lens p5 =>
            buildDynTables hlit hdist hclen ll dist cl1 lens p5

/-! ## Commands -/

/-- HD_SETLEN T, LN, SYM (R260). -/
def execHdSetlen (t : BitVec 2) (ln : BitVec 4) (sym : BitVec 9) (s : State) : Result :=
  s.unlessEnded <|
  s.onAlphabet t fun a =>
  s.inRange (sym.toNat < a.size && ln.toNat ≤ a.maxLen) <|
  let tab := s.dec a
  (s.setDec a { tab with len := tab.len.set sym.toNat ln, valid := false }).ok

/-- HD_BUILD T, N (R262): an over-subscribed table is DATA_ERROR and leaves HD_VALID[T] = 0. -/
def execHdBuild (t : BitVec 2) (n : BitVec 9) (s : State) : Result :=
  s.unlessEnded <|
  s.onAlphabet t fun a =>
  s.inRange (1 ≤ n.toNat && n.toNat ≤ a.size) <|
  if (s.dec a).isOver n.toNat then (s.setDec a (s.dec a).invalid).dataError
  else (s.setDec a ((s.dec a).built n.toNat)).ok

/-- HD_FIXED (R264). -/
def execHdFixed (s : State) : Result :=
  s.unlessEnded <|
  { s with hdLL := s.hdLL.load fixedLL, hdDist := s.hdDist.load fixedDist }.ok

/-- HD_DECODE T (R267), a decode-path command. -/
def execHdDecode (t : BitVec 2) (s : State) : Result :=
  s.unlessEnded <|
  s.onAlphabet t fun a =>
  s.gated <|
  s.require (s.dec a).valid <|
  s.afterRead (decodeSym (s.dec a) s.inp) fun sym p =>
  { s with inp := p, res0 := BitVec.ofNat 32 sym }.ok

/-- HD_VALID <- 0 for the three alphabets: what a DATA_ERROR in HD_DYNHDR leaves of the tables (R270). -/
def State.invalidateDec (s : State) : State :=
  { s with hdLL := s.hdLL.invalid, hdDist := s.hdDist.invalid, hdCl := s.hdCl.invalid }

/-- HD_DYNHDR (R270), a decode-path command. -/
def execHdDynhdr (s : State) : Result :=
  s.unlessEnded <|
  s.gated <|
  match readDynHeader s.hdLL s.hdDist s.hdCl s.inp with
  | .done h p =>
    { s with inp := p, hdLL := h.ll, hdDist := h.dist, hdCl := h.cl, res0 := BitVec.ofNat 32 h.hlit,
             res1 := BitVec.ofNat 9 h.hdist, res2 := BitVec.ofNat 16 h.hclen }.ok
  | .short => s.holdIn
  | .malformed p => { s.invalidateDec with inp := p }.dataError

/-- HD_TOKEN (R275), a decode-path command. -/
def execHdToken (s : State) : Result :=
  s.unlessEnded <|
  s.gated <|
  s.require s.tokenTables <|
  s.afterRead (readToken s.hdLL s.hdDist s.inp) fun tok p =>
  ({ s with inp := p }.setToken tok.kind tok.byte tok.len tok.dist).ok

end Sys2Proof.Machine
end

