-- ==== Sys2Proof/Machine/BlockFramer.lean ====
section
/-! DEFINITION. The block_framer commands (46_block_framing.md). -/

namespace Sys2Proof.Machine

/-- BF_WHDR TYPE, FINAL (R340). -/
def execBfWhdr (btype : BitVec 2) (final : BitVec 1) (s : State) : Result :=
  s.unlessEnded <|
  s.inRange (btype != 3) <|
  s.sendBits (bitsLsb 3 (final.toNat + 2 * btype.toNat))

/-- BF_RHDR (R342), a decode-path command: for type 3 the bits, RES0, RES1 and LAST stay written. -/
def execBfRhdr (s : State) : Result :=
  s.unlessEnded <|
  s.gated <|
  s.afterRead (readBits 3 s.inp) fun v p =>
  let s1 := { s with inp := p, res0 := BitVec.ofNat 32 (v / 2), res1 := BitVec.ofNat 9 (v % 2),
                     last := v % 2 == 1 }
  if v / 2 = 3 then s1.dataError else s1.ok

/-- LEN then NLEN, each low byte first (R344). -/
def storedHeader (cnt : BitVec 16) : List Byte :=
  [cnt.extractLsb' 0 8, cnt.extractLsb' 8 8, (~~~cnt).extractLsb' 0 8, (~~~cnt).extractLsb' 8 8]

/-- The last `n` bytes of the window, oldest first: WinByte(n) down to WinByte(1). -/
def lastBytes (hist : List Byte) (n : Nat) : List Byte :=
  (List.range n).map fun i => winByte hist (n - i)

/-- BF_WSTORED CNT (R344). -/
def execBfWstored (cnt : BitVec 16) (s : State) : Result :=
  s.unlessEnded <|
  s.inRange (cnt.toNat ≤ s.wvalid) <|
  let pad := if s.outAligned then 0 else 1
  if s.lacksRoom (pad + 4 + cnt.toNat) then s.holdOut
  else { s with out := s.out.align.putBytes (storedHeader cnt ++ lastBytes s.hist cnt.toNat) }.ok

/-- BF_RSTORED (R346), a decode-path command: a hold does not even align, a bad NLEN leaves the alignment and the
four bytes consumed. -/
def execBfRstored (s : State) : Result :=
  s.unlessEnded <|
  s.gated <|
  s.afterRead (readBits 16 s.inp.align) fun len p1 =>
  s.afterRead (readBits 16 p1) fun nlen p2 =>
  if nlen ≠ len ^^^ 0xFFFF then { s with inp := p2 }.dataError
  else
    { s with inp := p2, storedRem := BitVec.ofNat 16 len, res0 := BitVec.ofNat 32 len }.report
      (endStatus (s.last && len == 0))

/-- BF_RCOPY CNT (R347), a decode-path command. -/
def execBfRcopy (cnt : BitVec 16) (s : State) : Result :=
  s.unlessEnded <|
  s.gated <|
  s.require (decide (cnt.toNat ≤ s.storedRem.toNat) && s.inAligned && s.outAligned && s.la.isEmpty) <|
  if s.inp.inq.length < cnt.toNat then s.holdIn
  else if s.lacksRoom cnt.toNat then s.holdOut
  else
    let bytes := s.inp.inq.take cnt.toNat
    { s with inp := s.inp.dequeue cnt.toNat, out := s.out.putBytes bytes, hist := s.hist ++ bytes,
             storedRem := s.storedRem - cnt }.report
      (endStatus (s.last && s.storedRem - cnt == 0))

/-- BF_INFLATE once the token is read and `p` is the cursor after it (R350). -/
def State.applyToken (s : State) (tok : Token) (p : InPort) : Result :=
  let done (s1 : State) (st : Status) : Result :=
    ({ s1 with inp := p }.setToken tok.kind tok.byte tok.len tok.dist).report st
  match tok.kind with
  | .lit =>
    if s.lacksRoom 1 then s.holdOut
    else done (s.emitAndRecord (BitVec.ofNat 8 tok.byte)) .ok
  | .backref =>
    if s.wvalid < tok.dist then { s with inp := p }.dataError
    else if s.lacksRoom tok.len then s.holdOut
    else done (State.copyMatch tok.len tok.dist s) .ok
  | .eob => done s (endStatus s.last)
  | .nothing => done s .ok

/-- BF_INFLATE (R350), a decode-path command. -/
def execBfInflate (s : State) : Result :=
  s.unlessEnded <|
  s.gated <|
  s.require (s.outAligned && s.la.isEmpty) <|
  s.require s.tokenTables <|
  s.afterRead (readToken s.hdLL s.hdDist s.inp) fun tok p =>
  s.applyToken tok p

end Sys2Proof.Machine
end

