-- ==== Sys2Proof/Machine/Control.lean ====
section
/-! DEFINITION. The control commands (40_control.md). -/

namespace Sys2Proof.Machine

/-- NOP (R140). -/
def execNop (s : State) : Result := s.unlessEnded s.ok

/-- Every piece of state takes its reset value; the instance's OUT_CAP and the host's moves are no state of the
CORE and stay (R141, logs 1 and 2). -/
def State.softReset (s : State) : State := { State.reset with outCap := s.outCap, port := s.port }

/-- CORE_RESET (R141), the one command that runs while ENDED = 1. -/
def execCoreReset (s : State) : Result := s.softReset.ok

/-- END (R142). -/
def execEnd (s : State) : Result := s.unlessEnded { s with ended := true }.ok

/-- CFG[FIELD] <- VAL, for a legal value (10_state.md R42). -/
def CfgRegs.write (c : CfgRegs) (field val : Nat) : CfgRegs :=
  match field with
  | 0 => { c with wbits := BitVec.ofNat 4 val }
  | 1 => { c with hashBits := BitVec.ofNat 4 val }
  | 2 => { c with maxChain := BitVec.ofNat 16 val }
  | 3 => { c with niceLen := BitVec.ofNat 9 val }
  | 4 => { c with lazyLimit := BitVec.ofNat 9 val }
  | 5 => { c with goodLen := BitVec.ofNat 9 val }
  | _ => c

/-- hist, la and MF_BASE as a change of the window size leaves them (R143). -/
def State.clearStream (s : State) : State := { s with hist := [], la := [], mfBase := 0 }

/-- CFG_SET FIELD, VAL (R143). -/
def execCfgSet (field : BitVec 4) (val : BitVec 16) (s : State) : Result :=
  s.unlessEnded <|
  s.inRange (cfgLegal field.toNat val.toNat) <|
  let s1 := { s with cfg := s.cfg.write field.toNat val.toNat }
  (if field = 0 then s1.clearStream else s1).ok

/-- |outq| as a 32-bit register; past 2^32 − 1 the spec states no value (10_state.md R51, log 7). -/
def outqLenReg (n : Nat) : BitVec 32 :=
  if n < 2 ^ 32 then BitVec.ofNat 32 n else Config.outqLenBeyond n

/-- The register map of 10_state.md R51, zero-extended to 32 bits. -/
def State.readReg (s : State) (reg : Nat) : BitVec 32 :=
  match reg with
  | 0 => s.inp.totalIn
  | 1 => s.out.totalOut
  | 2 => BitVec.ofNat 32 s.wvalid
  | 3 => BitVec.ofNat 32 s.la.length
  | 4 => s.inp.ibit.setWidth 32
  | 5 => s.out.obits.setWidth 32
  | 6 => s.out.obuf.setWidth 32
  | 7 => s.dictId
  | 8 => s.dictExpect
  | 9 => s.flags.setWidth 32
  | 10 => s.storedRem.setWidth 32
  | 11 => BitVec.ofNat 32 (min s.inp.inq.length (2 ^ 32 - 1))
  | 12 => outqLenReg s.out.outq.length
  | 16 => s.cfg.wbits.setWidth 32
  | 17 => s.cfg.hashBits.setWidth 32
  | 18 => s.cfg.maxChain.setWidth 32
  | 19 => s.cfg.niceLen.setWidth 32
  | 20 => s.cfg.lazyLimit.setWidth 32
  | 21 => s.cfg.goodLen.setWidth 32
  | _ => 0

/-- REG_GET REG (R144). -/
def execRegGet (reg : BitVec 5) (s : State) : Result :=
  s.unlessEnded <|
  s.inRange (regLegal reg.toNat) <|
  { s with res0 := s.readReg reg.toNat }.ok

end Sys2Proof.Machine
end

