-- ==== Sys2Proof/Machine/HuffEnc.lean ====
section
/-! DEFINITION. The Huffman_encoder commands (43_huffman_encoder.md). -/

namespace Sys2Proof.Machine

/-- HE_LEN[T] as numbers. -/
def EncTable.lens (t : EncTable) : List Nat := t.len.map BitVec.toNat

/-- Canonical codes for the lengths that stand, and HE_VALID <- 1 (R230, R232). -/
def EncTable.withCanon (t : EncTable) : EncTable :=
  { t with code := canon t.lens t.code, valid := true }

/-- HE_LEN[T] <- lens, then the canonical codes. -/
def EncTable.withLens (t : EncTable) (lens : List (BitVec 4)) : EncTable :=
  { t with len := lens }.withCanon

/-- HE_CLEAR T (R220). -/
def execHeClear (t : BitVec 2) (s : State) : Result :=
  s.unlessEnded <|
  s.onAlphabet t fun a =>
  (s.setEnc a { s.enc a with freq := List.replicate a.size 0 }).ok

/-- min(f + 1, 2^32 − 1) (R221). -/
def bumpFreq (f : BitVec 32) : BitVec 32 := BitVec.ofNat 32 (min (f.toNat + 1) (2 ^ 32 - 1))

/-- HE_COUNT T, SYM (R221). -/
def execHeCount (t : BitVec 2) (sym : BitVec 9) (s : State) : Result :=
  s.unlessEnded <|
  s.onAlphabet t fun a =>
  s.inRange (sym.toNat < a.usable) <|
  let tab := s.enc a
  (s.setEnc a { tab with freq := tab.freq.set sym.toNat (bumpFreq (tab.freq.getD sym.toNat 0)) }).ok

/-- The lengths HE_BUILD gives the alphabet's table, with limit `m` (R225). -/
def builtLens (a : Alphabet) (m : Nat) (used : List (Nat × Nat)) : List (BitVec 4) :=
  (lengthTable a.size (codeLengths a.usable m used)).map (BitVec.ofNat 4)

/-- HE_BUILD T, LN (R225). -/
def execHeBuild (t : BitVec 2) (ln : BitVec 4) (s : State) : Result :=
  s.unlessEnded <|
  s.onAlphabet t fun a =>
  s.inRange (1 ≤ ln.toNat && ln.toNat ≤ a.maxLen) <|
  let tab := s.enc a
  let used := usedSymbols a.usable (tab.freq.map BitVec.toNat)
  s.require (used.length ≤ 2 ^ ln.toNat) <|
  (s.setEnc a (tab.withLens (builtLens a ln.toNat used))).ok

/-- HE_SETLEN T, LN, SYM (R231). -/
def execHeSetlen (t : BitVec 2) (ln : BitVec 4) (sym : BitVec 9) (s : State) : Result :=
  s.unlessEnded <|
  s.onAlphabet t fun a =>
  s.inRange (sym.toNat < a.size && ln.toNat ≤ a.maxLen) <|
  let tab := s.enc a
  (s.setEnc a { tab with len := tab.len.set sym.toNat ln, valid := false }).ok

/-- HE_CANON T (R232). -/
def execHeCanon (t : BitVec 2) (s : State) : Result :=
  s.unlessEnded <|
  s.onAlphabet t fun a =>
  s.require (kraft (s.enc a).lens != .over) <|
  (s.setEnc a (s.enc a).withCanon).ok

/-- HE_FIXED (R233). -/
def execHeFixed (s : State) : Result :=
  s.unlessEnded <|
  { s with heLL := s.heLL.withLens fixedLL, heDist := s.heDist.withLens fixedDist }.ok

/-- The table is valid and gives the symbol a code. -/
def EncTable.hasCode (t : EncTable) (sym : Nat) : Bool := t.valid && t.lenOf sym != 0

/-- HE_EMIT T, SYM (R234). -/
def execHeEmit (t : BitVec 2) (sym : BitVec 9) (s : State) : Result :=
  s.unlessEnded <|
  s.onAlphabet t fun a =>
  s.inRange (sym.toNat < a.size) <|
  s.require ((s.enc a).hasCode sym.toNat) <|
  s.sendBits ((s.enc a).codeBits sym.toNat)

/-- The bits of a back-reference: length code, length extra bits, distance code, distance extra bits (R236). -/
def matchBits (ll dist : EncTable) (len d : Nat) : List Bool :=
  let lc := lengthSym len
  let dc := distSym d
  ll.codeBits lc ++ bitsLsb (lengthExtra lc) (len - lengthBase lc) ++
    (dist.codeBits dc ++ bitsLsb (distExtra dc) (d - distBase dc))

/-- HE_MATCH L, D (R236). -/
def execHeMatch (len9 : BitVec 9) (dm1 : BitVec 15) (s : State) : Result :=
  s.unlessEnded <|
  s.inRange (lenOk minMatch len9) <|
  s.require (s.heLL.hasCode (lengthSym len9.toNat) && s.heDist.hasCode (distSym (distOf dm1))) <|
  s.sendBits (matchBits s.heLL s.heDist len9.toNat (distOf dm1))

/-- SEQ of DynParts() for the lengths that stand (R241). -/
def State.dynSeq (s : State) : List RleItem := Machine.dynSeq s.heLL.lens s.heDist.lens

/-- HE_RLECOUNT (R239). -/
def execHeRlecount (s : State) : Result :=
  s.unlessEnded <|
  let seq := s.dynSeq
  let freq := (List.range 19).map fun m => BitVec.ofNat 32 (seq.countP fun x => x.sym == m)
  { s with heCl := { s.heCl with freq := freq } }.ok

/-- The bits of a dynamic-block header, the 3 block-header bits apart (R240). -/
def dynHeaderBits (hlit hdist : Nat) (cl : EncTable) (seq : List RleItem) : List Bool :=
  let hclen := hclenOf cl.lens
  bitsLsb 5 (hlit - 257) ++ bitsLsb 5 (hdist - 1) ++ bitsLsb 4 (hclen - 4) ++
    (clOrder.take hclen).flatMap (fun m => bitsLsb 3 (cl.lenOf m)) ++
    seq.flatMap (fun x => cl.codeBits x.sym ++ bitsLsb x.nbits x.extra)

/-- HE_DYNHDR (R240). -/
def execHeDynhdr (s : State) : Result :=
  s.unlessEnded <|
  s.require (s.heCl.valid && s.heLL.lenOf 256 != 0) <|
  s.require (s.dynSeq.all fun x => s.heCl.lenOf x.sym != 0) <|
  s.sendBits (dynHeaderBits (hlitOf s.heLL.lens) (hdistOf s.heDist.lens) s.heCl s.dynSeq)

end Sys2Proof.Machine
end

