-- ==== Sys2Proof/Machine/MatchFinder.lean ====
section
/-! DEFINITION. The LZ77_match_finder: hash, chain, longest match, and its commands (45_lz77.md). -/

namespace Sys2Proof.Machine

/-! ## The logical stream (10_state.md R46) -/

/-- hist ++ la; B(p) is its byte p, END its length, P the length of hist. -/
def State.stream (s : State) : List Byte := s.hist ++ s.la

/-- A position of the stream and the bytes from it on. -/
abbrev Suffix := Nat × List Byte

/-- Every position of a list of bytes that starts at position `p`. -/
def suffixes : Nat → List Byte → List Suffix
  | _, [] => []
  | p, b :: rest => (p, b :: rest) :: suffixes (p + 1) rest

/-! ## Hash and chain (R300, R302) -/

/-- H(p), from the bytes at p on; none where p + 2 < END fails. -/
def hash (hashBits : Nat) : List Byte → Option Nat
  | b0 :: b1 :: b2 :: _ =>
    let sh := (hashBits + 2) / 3
    some (((b0.toNat <<< (2 * sh)) ^^^ (b1.toNat <<< sh) ^^^ b2.toNat) % 2 ^ hashBits)
  | _ => none

/-- The lowest candidate position of a search at `q`. -/
def State.chainFloor (s : State) (q : Nat) : Nat := max s.mfBase (q - s.window)

/-- Chain(Q): the candidate positions, newest first, each with the bytes from it on. -/
def State.chain (s : State) (q : Nat) : List Suffix :=
  let h := hash s.cfg.hashBits.toNat (s.stream.drop q)
  ((suffixes 0 s.stream).filter fun c =>
    decide (s.chainFloor q ≤ c.1) && decide (c.1 < q) && (hash s.cfg.hashBits.toNat c.2 == h)).reverse

/-! ## The longest match (R303) -/

/-- How many of the first `maxlen` bytes agree, up to the first mismatch. -/
def matchLen : Nat → List Byte → List Byte → Nat
  | n + 1, x :: xs, y :: ys => if x = y then matchLen n xs ys + 1 else 0
  | _, _, _ => 0

/-- The walk over the candidates: `budget` of them at most, `best` and `bestd` being the best so far. -/
def walk (nice maxlen q : Nat) (target : List Byte) : Nat → List Suffix → Nat → Nat → Nat × Nat
  | 0, _, best, bestd => (best, bestd)
  | _ + 1, [], best, bestd => (best, bestd)
  | budget + 1, c :: cs, best, bestd =>
    let k := matchLen maxlen c.2 target
    if best < k then
      if nice ≤ k || k == maxlen then (k, q - c.1)
      else walk nice maxlen q target budget cs k (q - c.1)
    else walk nice maxlen q target budget cs best bestd

/-- Longest(Q, budget): (length, distance), or (0, 0). -/
def State.longest (s : State) (q budget : Nat) : Nat × Nat :=
  let ahead := s.stream.length - q
  if ahead < minMatch then (0, 0)
  else
    let r := walk s.cfg.niceLen.toNat (min maxMatch ahead) q (s.stream.drop q) budget (s.chain q) 0 0
    if minMatch ≤ r.1 then r else (0, 0)

/-! ## Commands -/

/-- MF_FEED CNT (R308). -/
def execMfFeed (cnt : BitVec 16) (s : State) : Result :=
  s.unlessEnded <|
  s.inRange (cnt.toNat ≤ laCap - s.la.length) <|
  s.require s.inAligned <|
  if s.inp.inq.length < cnt.toNat then s.holdIn
  else { s with la := s.la ++ s.inp.inq.take cnt.toNat, inp := s.inp.dequeue cnt.toNat }.ok

/-- MF_FIND (R309). -/
def execMfFind (s : State) : Result :=
  s.unlessEnded <|
  let r := s.longest s.hist.length s.cfg.maxChain.toNat
  { s with res1 := BitVec.ofNat 9 r.1, res2 := BitVec.ofNat 16 r.2,
           res3 := (if minMatch ≤ r.1 then TokenKind.backref else TokenKind.nothing).code }.ok

/-- The budget of the lazy search at P + 1 after a match of length `len` (R311). -/
def State.lazyBudget (s : State) (len : Nat) : Nat :=
  if s.cfg.goodLen.toNat ≤ len then s.cfg.maxChain.toNat >>> 2 else s.cfg.maxChain.toNat

/-- A match of length `len` at P is given up for a literal: it is below LAZY_LIMIT and P + 1 has a strictly longer
one (R311). -/
def State.defers (s : State) (len : Nat) : Bool :=
  decide (minMatch ≤ len) && decide (len < s.cfg.lazyLimit.toNat) &&
    decide (len < (s.longest (s.hist.length + 1) (s.lazyBudget len)).1)

/-- The match MF_STEP takes at P, or (0, 0) for a literal. -/
def State.stepMatch (s : State) : Nat × Nat :=
  let r := s.longest s.hist.length s.cfg.maxChain.toNat
  if s.defers r.1 then (0, 0) else r

/-- Move the first `n` lookahead bytes to the end of hist: n times Record. -/
def State.tokenise (s : State) (n : Nat) : State :=
  { s with hist := s.hist ++ s.la.take n, la := s.la.drop n }

/-- MF_STEP DRAIN (R311). -/
def execMfStep (drain : BitVec 1) (s : State) : Result :=
  s.unlessEnded <|
  match s.la with
  | [] => { s with res3 := TokenKind.nothing.code }.ok
  | b :: _ =>
    if drain = 0 && decide (s.la.length < laNeed) then s.holdIn
    else
      let m := s.stepMatch
      if minMatch ≤ m.1 then ((s.tokenise m.1).setToken .backref 0 m.1 m.2).ok
      else ((s.tokenise 1).setToken .lit b.toNat 0 0).ok

/-- MF_RESET_HIST (R314). -/
def execMfResetHist (s : State) : Result :=
  s.unlessEnded { s with mfBase := s.hist.length }.ok

end Sys2Proof.Machine
end

