-- ==== Sys2Proof/Machine/Window.lean ====
section
/-! DEFINITION. The sliding_window_sram commands (42_window.md). -/

namespace Sys2Proof.Machine

/-- SW_RESET (R190). -/
def execSwReset (s : State) : Result :=
  s.unlessEnded { s with hist := [], mfBase := 0 }.ok

/-- SW_RECORD BYTE (R191). -/
def execSwRecord (byte : BitVec 8) (s : State) : Result :=
  s.unlessEnded <|
  s.require s.la.isEmpty <|
  { s with hist := s.hist ++ [byte] }.ok

/-- SW_READ D (R192). -/
def execSwRead (dm1 : BitVec 15) (s : State) : Result :=
  s.unlessEnded <|
  if s.wvalid < distOf dm1 then s.dataError
  else { s with res0 := (winByte s.hist (distOf dm1)).setWidth 32 }.ok

/-- The `len` bytes that start `dist` back, the last `dist` bytes repeating (R193). -/
def matchBytes (hist : List Byte) (len dist : Nat) : List Byte :=
  (List.range len).map fun i => hist.getD (hist.length - dist + i % dist) 0

/-- SW_MATCHAT L, D (R193). -/
def execSwMatchat (len9 : BitVec 9) (dm1 : BitVec 15) (s : State) : Result :=
  s.unlessEnded <|
  s.inRange (lenOk 1 len9) <|
  s.require s.outAligned <|
  if s.wvalid < distOf dm1 then s.dataError
  else if s.lacksRoom len9.toNat then s.holdOut
  else { s with out := s.out.putBytes (matchBytes s.hist len9.toNat (distOf dm1)) }.ok

/-- SW_COPY L, D (R194), a decode-path command. -/
def execSwCopy (len9 : BitVec 9) (dm1 : BitVec 15) (s : State) : Result :=
  s.unlessEnded <|
  s.inRange (lenOk 1 len9) <|
  s.gated <|
  s.require (s.outAligned && s.la.isEmpty) <|
  if s.wvalid < distOf dm1 then s.dataError
  else if s.lacksRoom len9.toNat then s.holdOut
  else (State.copyMatch len9.toNat (distOf dm1) s).ok

/-- SW_SETDICT CNT (R198): the dictionary bytes are not counted in TOTAL_IN, and a mismatch does not set DERR. -/
def execSwSetdict (cnt : BitVec 16) (s : State) : Result :=
  s.unlessEnded <|
  s.require (s.inAligned && s.la.isEmpty) <|
  if s.inp.inq.length < cnt.toNat then s.holdIn
  else
    let d := s.inp.inq.take cnt.toNat
    let s1 := { s with inp := { s.inp with inq := s.inp.inq.drop cnt.toNat } }
    if s.needDict && Config.checksum d != s.dictExpect then s1.report .dataError
    else { s1 with hist := s.hist ++ d, dictId := Config.checksum d, needDict := false }.ok

/-- The 32-bit number whose bytes are given most significant first (20_memory.md R84). -/
def beWord (bytes : List Byte) : BitVec 32 :=
  BitVec.ofNat 32 (bytes.foldl (fun n b => 256 * n + b.toNat) 0)

/-- SW_EXPECTDICT (R199). -/
def execSwExpectdict (s : State) : Result :=
  s.unlessEnded <|
  s.require s.inAligned <|
  if s.inp.inq.length < 4 then s.holdIn
  else
    { s with inp := s.inp.dequeue 4, dictExpect := beWord (s.inp.inq.take 4), needDict := true }.report .needDict

end Sys2Proof.Machine
end

