-- ==== Sys2Proof/Machine/Dispatch.lean ====
section
/-! DEFINITION. What each command does: one arm per constructor of Instr. -/

namespace Sys2Proof.Machine

def exec (i : Instr) (s : State) : Host.Outcome State Fault Refusal :=
  match i with
  -- control (40_control.md)
  | .nop => Sys2Proof.Machine.execNop s
  | .coreReset => Sys2Proof.Machine.execCoreReset s
  | .endSession => Sys2Proof.Machine.execEnd s
  | .cfgSet field val => Sys2Proof.Machine.execCfgSet field val s
  | .regGet reg => Sys2Proof.Machine.execRegGet reg s
  -- bit_packer_unpacker (41_bitio.md)
  | .bpPut nb v => Sys2Proof.Machine.execBpPut nb v s
  | .bpPutrev nb v => Sys2Proof.Machine.execBpPutrev nb v s
  | .bpAlignOut => Sys2Proof.Machine.execBpAlignOut s
  | .bpGet nb => Sys2Proof.Machine.execBpGet nb s
  | .bpAlignIn => Sys2Proof.Machine.execBpAlignIn s
  | .bpSync => Sys2Proof.Machine.execBpSync s
  -- sliding_window_sram (42_window.md)
  | .swReset => Sys2Proof.Machine.execSwReset s
  | .swRecord byte => Sys2Proof.Machine.execSwRecord byte s
  | .swRead dm1 => Sys2Proof.Machine.execSwRead dm1 s
  | .swMatchat len9 dm1 => Sys2Proof.Machine.execSwMatchat len9 dm1 s
  | .swCopy len9 dm1 => Sys2Proof.Machine.execSwCopy len9 dm1 s
  | .swSetdict cnt => Sys2Proof.Machine.execSwSetdict cnt s
  | .swExpectdict => Sys2Proof.Machine.execSwExpectdict s
  -- Huffman_encoder (43_huffman_encoder.md)
  | .heClear t => Sys2Proof.Machine.execHeClear t s
  | .heCount t sym => Sys2Proof.Machine.execHeCount t sym s
  | .heBuild t ln => Sys2Proof.Machine.execHeBuild t ln s
  | .heSetlen t ln sym => Sys2Proof.Machine.execHeSetlen t ln sym s
  | .heCanon t => Sys2Proof.Machine.execHeCanon t s
  | .heFixed => Sys2Proof.Machine.execHeFixed s
  | .heEmit t sym => Sys2Proof.Machine.execHeEmit t sym s
  | .heMatch len9 dm1 => Sys2Proof.Machine.execHeMatch len9 dm1 s
  | .heRlecount => Sys2Proof.Machine.execHeRlecount s
  | .heDynhdr => Sys2Proof.Machine.execHeDynhdr s
  -- Huffman_decoder (44_huffman_decoder.md)
  | .hdSetlen t ln sym => Sys2Proof.Machine.execHdSetlen t ln sym s
  | .hdBuild t n => Sys2Proof.Machine.execHdBuild t n s
  | .hdFixed => Sys2Proof.Machine.execHdFixed s
  | .hdDecode t => Sys2Proof.Machine.execHdDecode t s
  | .hdDynhdr => Sys2Proof.Machine.execHdDynhdr s
  | .hdToken => Sys2Proof.Machine.execHdToken s
  -- LZ77_match_finder (45_lz77.md)
  | .mfFeed cnt => Sys2Proof.Machine.execMfFeed cnt s
  | .mfFind => Sys2Proof.Machine.execMfFind s
  | .mfStep drain => Sys2Proof.Machine.execMfStep drain s
  | .mfResetHist => Sys2Proof.Machine.execMfResetHist s
  -- block_framer (46_block_framing.md)
  | .bfWhdr btype final => Sys2Proof.Machine.execBfWhdr btype final s
  | .bfRhdr => Sys2Proof.Machine.execBfRhdr s
  | .bfWstored cnt => Sys2Proof.Machine.execBfWstored cnt s
  | .bfRstored => Sys2Proof.Machine.execBfRstored s
  | .bfRcopy cnt => Sys2Proof.Machine.execBfRcopy cnt s
  | .bfInflate => Sys2Proof.Machine.execBfInflate s

end Sys2Proof.Machine
end

