-- ==== Sys2Proof/Machine/Port.lean ====
section
/-! DEFINITION. The command port and the host's moves between commands (20_memory.md R87). -/

namespace Sys2Proof.Machine

/-- A word that spells no command reports STREAM_ERROR and changes nothing but STATUS (30_encoding.md R113, R115),
ENDED or not (60_exceptions.md R381); any other word runs its command. -/
def runWord (w : Word) (s : State) : Result :=
  match decode w with
  | .ok i => exec i s
  | .error _ => s.streamError

/-- The host appends bytes to the tail of inq (R87 (a)). -/
def State.hostAppend (s : State) (bytes : List Byte) : State :=
  { s with inp := { s.inp with inq := s.inp.inq ++ bytes } }

/-- The host removes bytes from the head of outq (R87 (b)); it cannot remove more than there are (log 8). -/
def State.hostRemove (s : State) (n : Nat) : State :=
  { s with out := { s.out with outq := s.out.outq.drop n } }

/-- One move of the host. -/
def runMove (m : HostMove) (s : State) : Result :=
  match m with
  | .command w => runWord w s
  | .append bytes => .next (s.hostAppend bytes)
  | .remove n => .next (s.hostRemove n)

end Sys2Proof.Machine
end

