-- ==== Sys2Proof/Machine/Step.lean ====
section
/-! DEFINITION. One step: the next move at the port, or waiting. -/

namespace Sys2Proof.Machine

/-- The CORE takes the first of the host's moves; with none it waits, and nothing changes (70_reset_and_hazards.md
R401, 20_memory.md R87). -/
def step (s : State) : Host.Outcome State Fault Refusal :=
  match s.port with
  | [] => .next s
  | m :: rest => runMove m { s with port := rest }

/-- `s` with the command word `w` at the head of the port, so that the next step runs it. The CORE fetches nothing
(10_state.md R34): issuing the word is all that running it takes (log 1). -/
def State.withFetchWord (s : State) (nbits w : Nat) : State :=
  { s with port := .command (BitVec.ofNat 32 (w % 2 ^ nbits)) :: s.port }

end Sys2Proof.Machine
end

