-- ==== Sys2Proof/Machine/OpcodeTable.lean ====
section
/-! DEFINITION. The rows of spec/opcode_table.json, as the table gives them: mask and match, one row a command. -/

namespace Sys2Proof.Machine

/-- A row of the opcode table: a word `w` spells the row's command when `w AND mask = match` (30_encoding.md
R117). -/
structure OpcodeRow where
  mask  : Word
  value : Word
  deriving DecidableEq, Repr

/-- The row of a command. -/
def rowOf : Instr → OpcodeRow
  | .nop => ⟨0xFFFFFFFF, 0x00000000⟩
  | .coreReset => ⟨0xFFFFFFFF, 0x04000000⟩
  | .endSession => ⟨0xFFFFFFFF, 0x08000000⟩
  | .cfgSet _ _ => ⟨0xFC3F0000, 0x0C000000⟩
  | .regGet _ => ⟨0xFFFFFFE0, 0x10000000⟩
  | .bpPut _ _ => ⟨0xFFE00000, 0x20000000⟩
  | .bpPutrev _ _ => ⟨0xFFE00000, 0x24000000⟩
  | .bpAlignOut => ⟨0xFFFFFFFF, 0x28000000⟩
  | .bpGet _ => ⟨0xFFE0FFFF, 0x2C000000⟩
  | .bpAlignIn => ⟨0xFFFFFFFF, 0x30000000⟩
  | .bpSync => ⟨0xFFFFFFFF, 0x34000000⟩
  | .swReset => ⟨0xFFFFFFFF, 0x40000000⟩
  | .swRecord _ => ⟨0xFFFFFF00, 0x44000000⟩
  | .swRead _ => ⟨0xFFFF8000, 0x48000000⟩
  | .swMatchat _ _ => ⟨0xFE008000, 0x4C000000⟩
  | .swCopy _ _ => ⟨0xFE008000, 0x50000000⟩
  | .swSetdict _ => ⟨0xFFFF0000, 0x54000000⟩
  | .swExpectdict => ⟨0xFFFFFFFF, 0x58000000⟩
  | .heClear _ => ⟨0xFCFFFFFF, 0x60000000⟩
  | .heCount _ _ => ⟨0xFCFFFE00, 0x64000000⟩
  | .heBuild _ _ => ⟨0xFC0FFFFF, 0x68000000⟩
  | .heSetlen _ _ _ => ⟨0xFC0FFE00, 0x6C000000⟩
  | .heCanon _ => ⟨0xFCFFFFFF, 0x70000000⟩
  | .heFixed => ⟨0xFFFFFFFF, 0x74000000⟩
  | .heEmit _ _ => ⟨0xFCFFFE00, 0x78000000⟩
  | .heMatch _ _ => ⟨0xFE008000, 0x7C000000⟩
  | .heRlecount => ⟨0xFFFFFFFF, 0x80000000⟩
  | .heDynhdr => ⟨0xFFFFFFFF, 0x84000000⟩
  | .hdSetlen _ _ _ => ⟨0xFC0FFE00, 0xA0000000⟩
  | .hdBuild _ _ => ⟨0xFCFFFE00, 0xA4000000⟩
  | .hdFixed => ⟨0xFFFFFFFF, 0xA8000000⟩
  | .hdDecode _ => ⟨0xFCFFFFFF, 0xAC000000⟩
  | .hdDynhdr => ⟨0xFFFFFFFF, 0xB0000000⟩
  | .hdToken => ⟨0xFFFFFFFF, 0xB4000000⟩
  | .mfFeed _ => ⟨0xFFFF0000, 0xC0000000⟩
  | .mfFind => ⟨0xFFFFFFFF, 0xC4000000⟩
  | .mfStep _ => ⟨0xFFFFFFFE, 0xC8000000⟩
  | .mfResetHist => ⟨0xFFFFFFFF, 0xCC000000⟩
  | .bfWhdr _ _ => ⟨0xFFFFFFF8, 0xE0000000⟩
  | .bfRhdr => ⟨0xFFFFFFFF, 0xE4000000⟩
  | .bfWstored _ => ⟨0xFFFF0000, 0xE8000000⟩
  | .bfRstored => ⟨0xFFFFFFFF, 0xEC000000⟩
  | .bfRcopy _ => ⟨0xFFFF0000, 0xF0000000⟩
  | .bfInflate => ⟨0xFFFFFFFF, 0xF4000000⟩

/-- The word matches the row. -/
def OpcodeRow.matches (r : OpcodeRow) (w : Word) : Bool := w &&& r.mask == r.value

end Sys2Proof.Machine
end

