-- ==== Sys2Proof/WellFormed.lean ====
section
/-! DEFINITION. Which operands the spec calls in range: the field checks of 60_exceptions.md R379 (3) that look
at the command alone. A command that fails them decodes and reports STREAM_ERROR (30_encoding.md R118). -/

namespace Sys2Proof

/-- The T operand names an alphabet of which `p` holds. -/
def Instr.onAlphabet (t : BitVec 2) (p : Alphabet → Bool) : Bool :=
  match Alphabet.ofField t with
  | some a => p a
  | none => false

/-- A length operand within `lo`..258. -/
def Instr.lenInRange (lo : Nat) (len9 : BitVec 9) : Bool :=
  lo ≤ len9.toNat && len9.toNat ≤ Machine.maxMatch

/-- Every field of the command is in the range its rule gives. MF_FEED, BF_WSTORED and BF_RCOPY bound CNT by the
state; only the part of the bound that no state can exceed stands here (LA_CAP for MF_FEED, the largest window for
BF_WSTORED). -/
def Instr.wf : Instr → Bool
  | .nop => true
  | .coreReset => true
  | .endSession => true
  | .cfgSet field val => Machine.cfgLegal field.toNat val.toNat
  | .regGet reg => Machine.regLegal reg.toNat
  | .bpPut nb _ => nb.toNat ≤ 16
  | .bpPutrev nb _ => nb.toNat ≤ 16
  | .bpAlignOut => true
  | .bpGet nb => nb.toNat ≤ 16
  | .bpAlignIn => true
  | .bpSync => true
  | .swReset => true
  | .swRecord _ => true
  | .swRead _ => true
  | .swMatchat len9 _ => Instr.lenInRange 1 len9
  | .swCopy len9 _ => Instr.lenInRange 1 len9
  | .swSetdict _ => true
  | .swExpectdict => true
  | .heClear t => Instr.onAlphabet t fun _ => true
  | .heCount t sym => Instr.onAlphabet t fun a => sym.toNat < a.usable
  | .heBuild t ln => Instr.onAlphabet t fun a => 1 ≤ ln.toNat && ln.toNat ≤ a.maxLen
  | .heSetlen t ln sym => Instr.onAlphabet t fun a => sym.toNat < a.size && ln.toNat ≤ a.maxLen
  | .heCanon t => Instr.onAlphabet t fun _ => true
  | .heFixed => true
  | .heEmit t sym => Instr.onAlphabet t fun a => sym.toNat < a.size
  | .heMatch len9 _ => Instr.lenInRange Machine.minMatch len9
  | .heRlecount => true
  | .heDynhdr => true
  | .hdSetlen t ln sym => Instr.onAlphabet t fun a => sym.toNat < a.size && ln.toNat ≤ a.maxLen
  | .hdBuild t n => Instr.onAlphabet t fun a => 1 ≤ n.toNat && n.toNat ≤ a.size
  | .hdFixed => true
  | .hdDecode t => Instr.onAlphabet t fun _ => true
  | .hdDynhdr => true
  | .hdToken => true
  | .mfFeed cnt => cnt.toNat ≤ Machine.laCap
  | .mfFind => true
  | .mfStep _ => true
  | .mfResetHist => true
  | .bfWhdr btype _ => btype != 3
  | .bfRhdr => true
  | .bfWstored cnt => cnt.toNat ≤ 32768
  | .bfRstored => true
  | .bfRcopy _ => true
  | .bfInflate => true

end Sys2Proof
end

