-- ==== Sys2Proof/Safety.lean ====
section
/-! DEFINITION. The terms the statements use: when a command may run, the bit streams of the two queues and their
closed forms, declarative codes and headers, and the invariants of the state. Nothing here is part of the machine. -/

namespace Sys2Proof

/-! ## Which commands report what -/

/-- The decode-path commands (60_exceptions.md R380). -/
def Instr.decodePath : Instr → Bool
  | .hdDecode _ => true
  | .hdDynhdr => true
  | .hdToken => true
  | .bfRhdr => true
  | .bfRstored => true
  | .bfRcopy _ => true
  | .bfInflate => true
  | .swCopy _ _ => true
  | _ => false

/-- The commands that can report HOLD_IN (60_exceptions.md R376). -/
def Instr.mayHoldIn : Instr → Bool
  | .bpGet _ => true
  | .swSetdict _ => true
  | .swExpectdict => true
  | .hdDecode _ => true
  | .hdDynhdr => true
  | .hdToken => true
  | .bfInflate => true
  | .mfFeed _ => true
  | .mfStep d => d == 0
  | .bfRhdr => true
  | .bfRstored => true
  | .bfRcopy _ => true
  | _ => false

/-- The commands that can report BUF_ERROR (60_exceptions.md R377). -/
def Instr.mayHoldOut : Instr → Bool
  | .bpPut _ _ => true
  | .bpPutrev _ _ => true
  | .bpAlignOut => true
  | .swMatchat _ _ => true
  | .swCopy _ _ => true
  | .heEmit _ _ => true
  | .heMatch _ _ => true
  | .heDynhdr => true
  | .bfWhdr _ _ => true
  | .bfWstored _ => true
  | .bfRcopy _ => true
  | .bfInflate => true
  | _ => false

/-- The commands that can report DATA_ERROR (60_exceptions.md R378). -/
def Instr.mayFailData : Instr → Bool
  | .bpSync => true
  | .swRead _ => true
  | .swMatchat _ _ => true
  | .swSetdict _ => true
  | .hdBuild _ _ => true
  | i => i.decodePath

/-- The commands that can report STREAM_END (60_exceptions.md R370). -/
def Instr.mayEndStream : Instr → Bool
  | .bfInflate => true
  | .bfRstored => true
  | .bfRcopy _ => true
  | _ => false

end Sys2Proof

namespace Sys2Proof.Machine

/-! ## When a command may run -/

/-- No END has been issued (10_state.md R38). -/
abbrev State.running (s : State) : Prop := s.ended = false

/-- A decode-path command passes its gates (60_exceptions.md R380). -/
abbrev State.decoding (s : State) : Prop := s.ended = false ∧ s.needDict = false ∧ s.derr = false

/-- outq has room for `n` more bytes (60_exceptions.md R377). -/
abbrev State.hasRoom (s : State) (n : Nat) : Prop := s.out.outq.length + n ≤ s.outCap

/-- outq has room for the bytes `n` more bits complete (R377). -/
abbrev State.hasRoomForBits (s : State) (n : Nat) : Prop := s.hasRoom ((s.out.obits.toNat + n) / 8)

/-! ## Bit streams (20_memory.md R82) -/

/-- The bits of a byte, bit 0 first. -/
def byteBits (b : Byte) : List Bool := (List.range 8).map b.getLsbD

/-- The number whose bits are given, least significant first. -/
def valueLsb : List Bool → Nat
  | [] => 0
  | b :: bs => b.toNat + 2 * valueLsb bs

/-- The unread input bits (10_state.md R43). -/
def InPort.stream (p : InPort) : List Bool := (p.inq.flatMap byteBits).drop p.ibit.toNat

/-- The cursor `n` bits further on. -/
def InPort.advance (p : InPort) (n : Nat) : InPort :=
  let q := p.ibit.toNat + n
  { inq := p.inq.drop (q / 8), ibit := BitVec.ofNat 3 (q % 8), totalIn := p.totalIn + BitVec.ofNat 32 (q / 8) }

/-- The byte made of the first eight bits given, zeros standing for those that are missing. -/
def packByte (bs : List Bool) : Byte := BitVec.ofNat 8 (valueLsb (bs.take 8))

/-- The pending output bits (10_state.md R44). -/
def OutPort.pending (o : OutPort) : List Bool := (byteBits o.obuf).take o.obits.toNat

/-- The packer after the bits `bs`: the whole bytes of pending ++ bs are appended, the rest is pending. -/
def OutPort.pushed (o : OutPort) (bs : List Bool) : OutPort :=
  let all := o.pending ++ bs
  let k := all.length / 8
  { outq := o.outq ++ (List.range k).map (fun j => packByte (all.drop (8 * j))),
    obuf := packByte (all.drop (8 * k)),
    obits := BitVec.ofNat 3 (all.length % 8),
    totalOut := o.totalOut + BitVec.ofNat 32 k }

/-- The packer after whole bytes. -/
def OutPort.appended (o : OutPort) (bytes : List Byte) : OutPort :=
  { o with outq := o.outq ++ bytes, totalOut := o.totalOut + BitVec.ofNat 32 bytes.length }

/-- The unpacker with `n` whole bytes dequeued and counted. -/
def InPort.dequeued (p : InPort) (n : Nat) : InPort :=
  { p with inq := p.inq.drop n, totalIn := p.totalIn + BitVec.ofNat 32 n }

/-- Byte i of the `len` bytes a back-reference copies: hist[Q − D + (i mod D)] (42_window.md R195). -/
def copiedBytes (hist : List Byte) (len dist : Nat) : List Byte :=
  (List.range len).map fun i => hist.getD (hist.length - dist + i % dist) 0

/-! ## Codes, declaratively -/

/-- Σ 2^(15 − len) over the symbols that have a code: 2^15 times the Kraft sum (44_huffman_decoder.md R261). -/
def kraftTotal (lens : List Nat) : Nat := ((lens.filter (· ≠ 0)).map fun l => 2 ^ (15 - l)).sum

/-- The canonical code of symbol `sym`, read off the lengths: the codewords of shorter symbols stand before it, and
so do those of equal length and smaller symbol (43_huffman_encoder.md R230). -/
def canonCode (lens : List Nat) (sym : Nat) : Nat :=
  let l := lens.getD sym 0
  ((lens.filter fun k => k ≠ 0 ∧ k < l).map fun k => 2 ^ (l - k)).sum + (lens.take sym).count l

/-- Its bits in stream order, most significant first (20_memory.md R83). -/
def canonBits (lens : List Nat) (sym : Nat) : List Bool := bitsMsb (lens.getD sym 0) (canonCode lens sym)

/-- No codeword of the canonical code of `lens` stands at the start of `bits` (44_huffman_decoder.md R266). -/
abbrev startsNoCodeword (lens : List Nat) (bits : List Bool) : Prop :=
  ∀ sym < lens.length, lens.getD sym 0 ≠ 0 → ¬ canonBits lens sym <+: bits

/-- The lengths the last build of a decoder table covered. -/
def DecTable.coded (t : DecTable) : List Nat := t.lens t.n

/-- A token as its code values: a back-reference is a length symbol with its extra value and a distance symbol with
its extra value. -/
inductive Coded where
  | lit (b : Byte)
  | eob
  | backref (lsym lextra dsym dextra : Nat)
  deriving DecidableEq, Repr

/-- The token's symbols have codes, stand for a length and a distance, and its extra values fit (R235, R276). -/
abbrev Coded.legal (ll dist : List Nat) : Coded → Prop
  | .lit b => ll.getD b.toNat 0 ≠ 0
  | .eob => ll.getD 256 0 ≠ 0
  | .backref ls le ds de =>
    257 ≤ ls ∧ ls ≤ 285 ∧ ll.getD ls 0 ≠ 0 ∧ le < 2 ^ lengthExtra ls ∧
    ds ≤ 29 ∧ dist.getD ds 0 ≠ 0 ∧ de < 2 ^ distExtra ds

/-- The bits of the token (R236). -/
def Coded.bits (ll dist : List Nat) : Coded → List Bool
  | .lit b => canonBits ll b.toNat
  | .eob => canonBits ll 256
  | .backref ls le ds de =>
    canonBits ll ls ++ bitsLsb (lengthExtra ls) le ++ (canonBits dist ds ++ bitsLsb (distExtra ds) de)

/-- What the result registers hold after the token: RES0, RES1, RES2, RES3 (R275). -/
def Coded.results : Coded → BitVec 32 × BitVec 9 × BitVec 16 × BitVec 2
  | .lit b => (b.setWidth 32, 0, 0, 0)
  | .eob => (0, 0, 0, 2)
  | .backref ls le ds de => (0, BitVec.ofNat 9 (lengthBase ls + le), BitVec.ofNat 16 (distBase ds + de), 1)

/-- The four result registers after a token. -/
def State.withResults (s : State) (r : BitVec 32 × BitVec 9 × BitVec 16 × BitVec 2) : State :=
  { s with res0 := r.1, res1 := r.2.1, res2 := r.2.2.1, res3 := r.2.2.2 }

/-! ## Frequencies to lengths, declaratively (43_huffman_encoder.md R227 to R229) -/

/-- A node of the two-node merge: a used symbol with its frequency, or an internal node with its key (R227). -/
inductive MergeTree where
  | leaf (sym freq : Nat)
  | node (key : Nat) (a b : MergeTree)
  deriving DecidableEq, Repr

/-- The weight of a node (R227). -/
def MergeTree.weight : MergeTree → Nat
  | .leaf _ freq => freq
  | .node _ a b => a.weight + b.weight

/-- The key of a node: the symbol of a leaf (R227). -/
def MergeTree.key : MergeTree → Nat
  | .leaf sym _ => sym
  | .node key _ _ => key

/-- The symbols of the leaves, each with its depth: the internal nodes on its path to the root (R227). -/
def MergeTree.depths : MergeTree → List (Nat × Nat)
  | .leaf sym _ => [(sym, 0)]
  | .node _ a b => (a.depths ++ b.depths).map fun d => (d.1, d.2 + 1)

/-- `a` has the smaller (weight, key), in lexicographic order (R227). -/
abbrev MergeTree.precedes (a b : MergeTree) : Prop :=
  a.weight < b.weight ∨ (a.weight = b.weight ∧ a.key < b.key)

/-- The merge of R227 takes the nodes given to the tree given: `nb` is NB(T), and the first number counts the internal
nodes made before. -/
inductive Merges (nb : Nat) : Nat → List MergeTree → MergeTree → Prop where
  | one (i : Nat) (t : MergeTree) : Merges nb i [t] t
  | merge (i : Nat) (nodes rest : List MergeTree) (a b t : MergeTree) : nodes.Perm (a :: b :: rest) →
      (∀ x ∈ b :: rest, a.precedes x) → (∀ x ∈ rest, b.precedes x) →
      Merges nb (i + 1) (.node (nb + i) a b :: rest) t → Merges nb i nodes t

/-- K of R228: Σ 2^(M − len[s]) over the used symbols. -/
def spaceUsed (m : Nat) (used : List Nat) (len : Nat → Nat) : Nat := (used.map fun s => 2 ^ (m - len s)).sum

/-- `len` with the length of one symbol replaced. -/
def relen (len : Nat → Nat) (sym l : Nat) : Nat → Nat := fun x => if x = sym then l else len x

/-- R228's loop takes the first lengths to the second: while K > FULL the symbol chosen gets one bit more. -/
inductive Lengthens (m : Nat) (used : List Nat) (freq : Nat → Nat) : (Nat → Nat) → (Nat → Nat) → Prop where
  | stop (len : Nat → Nat) : spaceUsed m used len ≤ 2 ^ m → Lengthens m used freq len len
  | step (len out : Nat → Nat) (s : Nat) : 2 ^ m < spaceUsed m used len → s ∈ used → len s < m →
      (∀ x ∈ used, len x < m → x ≠ s → len x < len s ∨
        (len x = len s ∧ (freq s < freq x ∨ (freq s = freq x ∧ x < s)))) →
      Lengthens m used freq (relen len s (len s + 1)) out → Lengthens m used freq len out

/-- A symbol R229 may choose: its length is at least 2, and one bit less keeps K within FULL. -/
abbrev mayShorten (m : Nat) (used : List Nat) (len : Nat → Nat) (s : Nat) : Prop :=
  s ∈ used ∧ 2 ≤ len s ∧ 2 ^ (m - len s) ≤ 2 ^ m - spaceUsed m used len

/-- R229's loop takes the first lengths to the second: while K < FULL the symbol chosen gets one bit less. -/
inductive Shortens (m : Nat) (used : List Nat) (freq : Nat → Nat) : (Nat → Nat) → (Nat → Nat) → Prop where
  | stop (len : Nat → Nat) : 2 ^ m ≤ spaceUsed m used len → Shortens m used freq len len
  | step (len out : Nat → Nat) (s : Nat) : spaceUsed m used len < 2 ^ m → mayShorten m used len s →
      (∀ x, mayShorten m used len x → x ≠ s → len x < len s ∨
        (len x = len s ∧ (freq x < freq s ∨ (freq x = freq s ∧ s < x)))) →
      Shortens m used freq (relen len s (len s - 1)) out → Shortens m used freq len out

/-! ## The run-length items, declaratively (43_huffman_encoder.md R238) -/

/-- The items of `run` zeros: 18 while 11 or more remain, then 17 for 3 or more, then single zeros. -/
inductive ZeroItems : Nat → List RleItem → Prop where
  | long (run : Nat) (items : List RleItem) : 11 ≤ run → ZeroItems (run - min run 138) items →
      ZeroItems run (⟨18, min run 138 - 11, 7⟩ :: items)
  | short (run : Nat) : 3 ≤ run → run < 11 → ZeroItems run [⟨17, run - 3, 3⟩]
  | single (run : Nat) : run < 3 → ZeroItems run (List.replicate run ⟨0, 0, 0⟩)

/-- The items of `run` more entries `cur` after a first one: 16 while 3 or more remain, then the length itself. -/
inductive RepeatItems (cur : Nat) : Nat → List RleItem → Prop where
  | long (run : Nat) (items : List RleItem) : 3 ≤ run → RepeatItems cur (run - min run 6) items →
      RepeatItems cur run (⟨16, min run 6 - 3, 2⟩ :: items)
  | single (run : Nat) : run < 3 → RepeatItems cur run (List.replicate run ⟨cur, 0, 0⟩)

/-- The items R238 gives a sequence: maximal runs, the zeros as `ZeroItems`, a nonzero length once and then as
`RepeatItems`. -/
inductive RleItems : List Nat → List RleItem → Prop where
  | nil : RleItems [] []
  | zeros (run : Nat) (rest : List Nat) (items more : List RleItem) : 1 ≤ run → rest.head? ≠ some 0 →
      ZeroItems run items → RleItems rest more → RleItems (List.replicate run 0 ++ rest) (items ++ more)
  | lengths (cur run : Nat) (rest : List Nat) (items more : List RleItem) : cur ≠ 0 → rest.head? ≠ some cur →
      RepeatItems cur run items → RleItems rest more →
      RleItems (List.replicate (run + 1) cur ++ rest) (⟨cur, 0, 0⟩ :: items ++ more)

/-! ## Dynamic headers, declaratively -/

/-- An item of the code-length sequence is one the meta-alphabet has (43_huffman_encoder.md R237). -/
abbrev RleItem.legal (x : RleItem) : Prop :=
  (x.sym < 16 ∧ x.extra = 0 ∧ x.nbits = 0) ∨ (x.sym = 16 ∧ x.extra < 4 ∧ x.nbits = 2) ∨
    (x.sym = 17 ∧ x.extra < 8 ∧ x.nbits = 3) ∨ (x.sym = 18 ∧ x.extra < 128 ∧ x.nbits = 7)

/-- The lengths a list of items stands for, after the lengths `acc`; none where a repeat comes before any length
(R237). -/
def expandItems : List Nat → List RleItem → Option (List Nat)
  | acc, [] => some acc
  | acc, x :: xs =>
    if x.sym < 16 then expandItems (acc ++ [x.sym]) xs
    else if x.sym = 16 then
      match acc.getLast? with
      | none => none
      | some l => expandItems (acc ++ List.replicate (3 + x.extra) l) xs
    else if x.sym = 17 then expandItems (acc ++ List.replicate (3 + x.extra) 0) xs
    else expandItems (acc ++ List.replicate (11 + x.extra) 0) xs

/-- The first 14 bits of a dynamic header: HLIT − 257, HDIST − 1, HCLEN − 4 (R240, R241). -/
def headerCounts (hlit hdist hclen : Nat) : List Bool :=
  bitsLsb 5 (hlit - 257) ++ bitsLsb 5 (hdist - 1) ++ bitsLsb 4 (hclen - 4)

/-- The counts and the code-length code lengths in CL_ORDER (R240). -/
def headerStart (hlit hdist hclen : Nat) (cl : List Nat) : List Bool :=
  headerCounts hlit hdist hclen ++ (clOrder.take hclen).flatMap fun m => bitsLsb 3 (cl.getD m 0)

/-- Items as the code-length code and their extra bits send them (R240). -/
def itemBits (cl : List Nat) (items : List RleItem) : List Bool :=
  items.flatMap fun x => canonBits cl x.sym ++ bitsLsb x.nbits x.extra

/-- The bits of a dynamic header: the counts, the code-length code lengths, the items (R240). -/
def headerBits (hlit hdist hclen : Nat) (cl : List Nat) (items : List RleItem) : List Bool :=
  headerStart hlit hdist hclen cl ++ itemBits cl items

/-- HLIT of R241 for the lengths `ll`: 257, or one more than the greatest coded symbol up to 285 where that is more. -/
abbrev isHlit (ll : List Nat) (hlit : Nat) : Prop :=
  257 ≤ hlit ∧ hlit ≤ 286 ∧ (hlit = 257 ∨ ll.getD (hlit - 1) 0 ≠ 0) ∧ ∀ s, hlit ≤ s → s ≤ 285 → ll.getD s 0 = 0

/-- HDIST of R241 for the lengths `dist`: 1, or one more than the greatest coded symbol up to 29 where that is
more. -/
abbrev isHdist (dist : List Nat) (hdist : Nat) : Prop :=
  1 ≤ hdist ∧ hdist ≤ 30 ∧ (hdist = 1 ∨ dist.getD (hdist - 1) 0 ≠ 0) ∧
    ∀ s, hdist ≤ s → s ≤ 29 → dist.getD s 0 = 0

/-- HCLEN of R240 for the code-length code lengths `cl`: 4, or one more than the greatest place of CL_ORDER with a
code where that is more. -/
abbrev isHclen (cl : List Nat) (hclen : Nat) : Prop :=
  4 ≤ hclen ∧ hclen ≤ 19 ∧ (hclen = 4 ∨ cl.getD (clOrder.getD (hclen - 1) 0) 0 ≠ 0) ∧
    ∀ i, hclen ≤ i → i < 19 → cl.getD (clOrder.getD i 0) 0 = 0

/-- The start of a header with counts in range: a length of at most 7 for each of the 19 code-length symbols, those
beyond HCLEN being 0 (44_huffman_decoder.md R270). -/
abbrev startLegal (hlit hdist hclen : Nat) (cl : List Nat) : Prop :=
  (257 ≤ hlit ∧ hlit ≤ 286) ∧ (1 ≤ hdist ∧ hdist ≤ 30) ∧ (4 ≤ hclen ∧ hclen ≤ 19) ∧
  cl.length = 19 ∧ (∀ l ∈ cl, l ≤ 7) ∧ ∀ i, hclen ≤ i → i < 19 → cl.getD (clOrder.getD i 0) 0 = 0

/-- Items the code-length code `cl` can send, which stand for `lens` (R237, R270). -/
abbrev itemsLegal (cl lens : List Nat) (items : List RleItem) : Prop :=
  (∀ x ∈ items, x.legal ∧ cl.getD x.sym 0 ≠ 0) ∧ expandItems [] items = some lens

/-- What a reader has accepted after some items: a legal start whose code is not over-subscribed, and items of that
code (R270). -/
abbrev headerSoFar (hlit hdist hclen : Nat) (cl lens : List Nat) (items : List RleItem) : Prop :=
  startLegal hlit hdist hclen cl ∧ kraftTotal cl ≤ 2 ^ 15 ∧ itemsLegal cl lens items

/-- A dynamic header the reader accepts: its items stand for HLIT + HDIST lengths, which give symbol 256 a code and
over-subscribe neither table (R270, R271). -/
abbrev headerLegal (hlit hdist hclen : Nat) (cl lens : List Nat) (items : List RleItem) : Prop :=
  headerSoFar hlit hdist hclen cl lens items ∧ lens.length = hlit + hdist ∧ lens.getD 256 0 ≠ 0 ∧
  kraftTotal (lens.take hlit) ≤ 2 ^ 15 ∧ kraftTotal (lens.drop hlit) ≤ 2 ^ 15

/-- The bits of a header up to the one that shows a DATA_ERROR, for each cause of R271 in its order. -/
inductive BadHeader : List Bool → Prop where
  /-- 1. HLIT > 286 or HDIST > 30. -/
  | counts (hlit hdist hclen : Nat) : 257 ≤ hlit → hlit ≤ 288 → 1 ≤ hdist → hdist ≤ 32 → 4 ≤ hclen → hclen ≤ 19 →
      286 < hlit ∨ 30 < hdist → BadHeader (headerCounts hlit hdist hclen)
  /-- 2. The code-length code is over-subscribed. -/
  | clOver (hlit hdist hclen : Nat) (cl : List Nat) : startLegal hlit hdist hclen cl → 2 ^ 15 < kraftTotal cl →
      BadHeader (headerStart hlit hdist hclen cl)
  /-- 3. A code-length symbol has no codeword: 15 bits are read (R266). -/
  | noCodeword (hlit hdist hclen : Nat) (cl lens : List Nat) (items : List RleItem) (bits : List Bool) :
      headerSoFar hlit hdist hclen cl lens items → lens.length < hlit + hdist →
      bits.length = 15 → startsNoCodeword cl bits →
      BadHeader (headerStart hlit hdist hclen cl ++ itemBits cl items ++ bits)
  /-- 4. Code 16 comes before any length. -/
  | repeatFirst (hlit hdist hclen : Nat) (cl : List Nat) : headerSoFar hlit hdist hclen cl [] [] →
      cl.getD 16 0 ≠ 0 → BadHeader (headerStart hlit hdist hclen cl ++ canonBits cl 16)
  /-- 5. A run takes lens past HLIT + HDIST. -/
  | pastEnd (hlit hdist hclen : Nat) (cl lens more : List Nat) (items : List RleItem) (x : RleItem) :
      headerSoFar hlit hdist hclen cl lens items → lens.length < hlit + hdist →
      headerSoFar hlit hdist hclen cl more (items ++ [x]) → hlit + hdist < more.length →
      BadHeader (headerStart hlit hdist hclen cl ++ itemBits cl (items ++ [x]))
  /-- 6. The length of symbol 256 is 0. -/
  | noEndOfBlock (hlit hdist hclen : Nat) (cl lens : List Nat) (items : List RleItem) :
      headerSoFar hlit hdist hclen cl lens items → lens.length = hlit + hdist → lens.getD 256 0 = 0 →
      BadHeader (headerBits hlit hdist hclen cl items)
  /-- 7. The literal/length or distance code is over-subscribed. -/
  | tableOver (hlit hdist hclen : Nat) (cl lens : List Nat) (items : List RleItem) :
      headerSoFar hlit hdist hclen cl lens items → lens.length = hlit + hdist → lens.getD 256 0 ≠ 0 →
      2 ^ 15 < kraftTotal (lens.take hlit) ∨ 2 ^ 15 < kraftTotal (lens.drop hlit) →
      BadHeader (headerBits hlit hdist hclen cl items)

/-- `bs` begins `whole` and ends before it does. -/
abbrev endsWithin (bs whole : List Bool) : Prop := bs <+: whole ∧ bs.length < whole.length

/-- A decoder table built over all of `lens`, a table of `size` entries padded with zeros. -/
def builtTable (size : Nat) (lens : List Nat) : DecTable :=
  let padded := lens ++ List.replicate (size - lens.length) 0
  { len := padded.map (BitVec.ofNat 4), n := size, count := (List.range' 1 15).map padded.count,
    sym := sortedSyms padded, valid := true }

/-! ## Match searches, declaratively (45_lz77.md) -/

/-- B(p). -/
def State.byteAt (s : State) (p : Nat) : Byte := s.stream.getD p 0

/-- H(p), where p + 2 < END (R300). -/
def State.hashAt (s : State) (p : Nat) : Nat :=
  let sh := (s.cfg.hashBits.toNat + 2) / 3
  (((s.byteAt p).toNat <<< (2 * sh)) ^^^ ((s.byteAt (p + 1)).toNat <<< sh) ^^^ (s.byteAt (p + 2)).toNat) %
    2 ^ s.cfg.hashBits.toNat

/-- Chain(Q), where Q + 2 < END: the positions before Q with its hash, within the window and not below MF_BASE, newest
first (R302). -/
def State.candidates (s : State) (q : Nat) : List Nat :=
  (List.range q).reverse.filter fun j =>
    s.mfBase ≤ j ∧ q ≤ j + 2 ^ s.cfg.wbits.toNat ∧ s.hashAt j = s.hashAt q

/-- maxlen of a search at Q (R303). -/
def State.maxLenAt (s : State) (q : Nat) : Nat := min 258 (s.stream.length - q)

/-- k of R303: how many of the first maxlen bytes at `j` and at Q agree, up to the first mismatch. -/
def State.agree (s : State) (q j : Nat) : Nat :=
  ((List.range (s.maxLenAt q)).takeWhile fun i => s.byteAt (j + i) == s.byteAt (q + i)).length

/-- A candidate that ends the search: it reaches NICE_LEN or maxlen (R303). -/
abbrev State.endsSearch (s : State) (q j : Nat) : Prop :=
  s.cfg.niceLen.toNat ≤ s.agree q j ∨ s.agree q j = s.maxLenAt q

/-- The candidates a search at Q walks: the chain's newest, up to the budget, or up to the first that ends the search
(R303). -/
def State.walks (s : State) (q budget : Nat) (seen : List Nat) : Prop :=
  seen <+: s.candidates q ∧ seen.length ≤ budget ∧ (∀ j ∈ seen.dropLast, ¬ s.endsSearch q j) ∧
  (seen = s.candidates q ∨ seen.length = budget ∨ ∃ j ∈ seen, s.endsSearch q j)

/-- The longest match among the candidates walked, and of those the nearest; (0, 0) where none has length 3 (R303). -/
def State.bestOf (s : State) (q : Nat) (seen : List Nat) (r : Nat × Nat) : Prop :=
  ((∀ j ∈ seen, s.agree q j < 3) ∧ r = (0, 0)) ∨
  ∃ j ∈ seen, 3 ≤ s.agree q j ∧ (∀ i ∈ seen, s.agree q i < s.agree q j ∨ (s.agree q i = s.agree q j ∧ i ≤ j)) ∧
    r = (s.agree q j, q - j)

/-- `r` is what R303 gives a search at Q with that budget. -/
def State.isLongest (s : State) (q budget : Nat) (r : Nat × Nat) : Prop :=
  if s.stream.length - q < 3 then r = (0, 0) else ∃ seen, s.walks q budget seen ∧ s.bestOf q seen r

/-! ## Invariants -/

/-- The queues: a partly read byte is there, the output fits its queue, and the bits of OBUF at OBITS and above are 0
(10_state.md R43, R44). -/
abbrev State.QueuesOk (s : State) : Prop :=
  (s.inp.ibit ≠ 0 → s.inp.inq ≠ []) ∧ s.out.outq.length ≤ s.outCap ∧ s.out.obuf.toNat < 2 ^ s.out.obits.toNat

/-- The configuration is legal, the lookahead fits, and MF_BASE is a position of hist (10_state.md R42, R46, R47). -/
abbrev State.WindowOk (s : State) : Prop :=
  8 ≤ s.cfg.wbits.toNat ∧ 8 ≤ s.cfg.hashBits.toNat ∧
  (3 ≤ s.cfg.niceLen.toNat ∧ s.cfg.niceLen.toNat ≤ 258) ∧ s.cfg.lazyLimit.toNat ≤ 258 ∧
  (3 ≤ s.cfg.goodLen.toNat ∧ s.cfg.goodLen.toNat ≤ 258) ∧
  s.la.length ≤ 262 ∧ s.mfBase ≤ s.hist.length

/-- An encoder table has its alphabet's shape, and while HE_VALID = 1 its codes are the canonical ones of its lengths
(10_state.md R49). -/
abbrev EncTable.Ok (size maxLen : Nat) (t : EncTable) : Prop :=
  t.freq.length = size ∧ t.len.length = size ∧ t.code.length = size ∧ (∀ l ∈ t.len, l.toNat ≤ maxLen) ∧
  (t.valid = true → ∀ sym < size, t.lenOf sym ≠ 0 → t.codeOf sym = canonCode t.lens sym % 2 ^ 15)

/-- A decoder table has its alphabet's shape, and while HD_VALID = 1 its structure is that of the lengths the last
build covered, which are not over-subscribed (10_state.md R50). -/
abbrev DecTable.Ok (size maxLen : Nat) (t : DecTable) : Prop :=
  t.len.length = size ∧ (∀ l ∈ t.len, l.toNat ≤ maxLen) ∧
  (t.valid = true → 1 ≤ t.n ∧ t.n ≤ size ∧ t.count = lenCounts t.coded ∧ t.sym = sortedSyms t.coded ∧
    kraft t.coded ≠ .over)

/-- The six code tables (10_state.md R49, R50; 00_scope.md R13). -/
abbrev State.TablesOk (s : State) : Prop :=
  s.heLL.Ok 288 15 ∧ s.heDist.Ok 32 15 ∧ s.heCl.Ok 19 7 ∧
  s.hdLL.Ok 288 15 ∧ s.hdDist.Ok 32 15 ∧ s.hdCl.Ok 19 7

/-- The word spells a command of the opcode table (30_encoding.md R117). -/
def spellsCommand (w : Word) : Prop := ∃ i : Instr, (rowOf i).matches w = true

end Sys2Proof.Machine
end

