-- ==== Sys2Proof/Certificates/Slice0/Obligations.lean ====
section
/-! DEFINITION. The statements for the provers. A result is stated as the whole next state, so that it is also the
command's frame; status codes stand as the numbers of 60_exceptions.md R370. -/

open Sys2Proof Sys2Proof.Machine

/-! ## Encoding and stepping -/

/-- 30_encoding.md R121: the spec's six encoding examples, decoded and encoded. -/
def Obligations.SpecExampleWords : Prop :=
  (decode 0x00000000 = .ok .nop ∧ encode .nop = 0x00000000) ∧
  (decode 0x7C050006 = .ok (.heMatch 5 6) ∧ encode (.heMatch 5 6) = 0x7C050006) ∧
  (decode 0x20030003 = .ok (.bpPut 3 3) ∧ encode (.bpPut 3 3) = 0x20030003) ∧
  (decode 0x78000100 = .ok (.heEmit 0 256) ∧ encode (.heEmit 0 256) = 0x78000100) ∧
  (decode 0xE0000003 = .ok (.bfWhdr 1 1) ∧ encode (.bfWhdr 1 1) = 0xE0000003) ∧
  (decode 0xC8000001 = .ok (.mfStep 1) ∧ encode (.mfStep 1) = 0xC8000001)

/-- 30_encoding.md R110 to R114: no bit of an encoding is dropped, and every word has at most one spelling. -/
def Obligations.DecodeAndEncodeAreInverse : Prop :=
  (∀ i : Instr, decode (encode i) = .ok i) ∧ (∀ (w : Word) (i : Instr), decode w = .ok i → encode i = w)

/-- 30_encoding.md R117: a word matches a row of the opcode table exactly when it decodes to a command of that row,
so no two rows match one word. -/
def Obligations.DecodesExactlyTheTableRows : Prop :=
  ∀ (w : Word) (i : Instr), (rowOf i).matches w = true ↔ ∃ j, decode w = .ok j ∧ rowOf j = rowOf i

/-- 30_encoding.md R113, R115: a word that matches no row, a word with an unassigned opcode among them, reports
STREAM_ERROR and changes no state except STATUS. That the step takes the word off the port is the model's choice, as
the port is (log 1). -/
def Obligations.IllegalWordReportsStreamError : Prop :=
  (∀ (s : State) (w : Word) (rest : List HostMove), s.port = .command w :: rest → ¬ spellsCommand w →
    step s = .next { s with port := rest, status := 0xFE }) ∧
  (∀ w : Word, opcodeOf w ∈ [0x05, 0x06, 0x07, 0x0E, 0x0F, 0x17, 0x22, 0x23, 0x24, 0x25, 0x26, 0x27, 0x2E, 0x2F,
    0x34, 0x35, 0x36, 0x37, 0x3E, 0x3F] → ¬ spellsCommand w)

/-- A step whose next move is a word that decodes runs exactly that command on the state without the move; a word
given by `withFetchWord` is that move (log 1). -/
def Obligations.StepRunsTheDecodedCommand : Prop :=
  (∀ (s : State) (w : Word) (i : Instr) (rest : List HostMove), s.port = .command w :: rest → decode w = .ok i →
    step s = exec i { s with port := rest }) ∧
  (∀ (s : State) (w : Word) (i : Instr), decode w = .ok i → step (s.withFetchWord 32 w.toNat) = exec i s)

/-- 20_memory.md R87: between commands the host appends to inq or removes from the head of outq; with no move the
CORE waits. The queue of moves is the model's (log 1), and so is what a removal past the end does (log 8). -/
def Obligations.HostMovesActBetweenCommands : Prop :=
  (∀ s : State, s.port = [] → step s = .next s) ∧
  (∀ (s : State) (bytes : List Byte) (rest : List HostMove), s.port = .append bytes :: rest →
    step s = .next { s with port := rest, inp := { s.inp with inq := s.inp.inq ++ bytes } }) ∧
  (∀ (s : State) (n : Nat) (rest : List HostMove), s.port = .remove n :: rest →
    step s = .next { s with port := rest, out := { s.out with outq := s.out.outq.drop n } })

/-- 70_reset_and_hazards.md R400: every reset value, and CORE_RESET gives the same state, ENDED or not. The host's
moves and the instance's OUT_CAP are the model's fields and stay (logs 1 and 2). -/
def Obligations.ResetGivesTheStatedValues : Prop :=
  (∀ s : State, exec .coreReset s = .next { State.reset with outCap := s.outCap, port := s.port }) ∧
  (let r := State.reset
   r.status = 0 ∧ r.res0 = 0 ∧ r.res1 = 0 ∧ r.res2 = 0 ∧ r.res3 = 0 ∧
   r.derr = false ∧ r.needDict = false ∧ r.last = false ∧ r.ended = false ∧ r.storedRem = 0 ∧
   r.inp.totalIn = 0 ∧ r.out.totalOut = 0 ∧ r.dictId = 0 ∧ r.dictExpect = 0 ∧
   r.cfg.wbits = 15 ∧ r.cfg.hashBits = 15 ∧ r.cfg.maxChain = 128 ∧ r.cfg.niceLen = 128 ∧
   r.cfg.lazyLimit = 16 ∧ r.cfg.goodLen = 8 ∧
   r.inp.inq = [] ∧ r.inp.ibit = 0 ∧ r.out.outq = [] ∧ r.out.obuf = 0 ∧ r.out.obits = 0 ∧
   r.hist = [] ∧ r.wvalid = 0 ∧ r.la = [] ∧ r.mfBase = 0 ∧ (∀ q, r.chain q = []) ∧
   (∀ a : Alphabet, (r.enc a).freq = List.replicate a.size 0 ∧ (r.enc a).len = List.replicate a.size 0 ∧
     (r.enc a).code = List.replicate a.size 0 ∧ (r.enc a).valid = false) ∧
   (∀ a : Alphabet, (r.dec a).len = List.replicate a.size 0 ∧ (r.dec a).n = 0 ∧
     (r.dec a).count = List.replicate 15 0 ∧ (r.dec a).sym = [] ∧ (r.dec a).valid = false))

/-- 60_exceptions.md R385: every error is a status, so a step never faults and is never refused. -/
def Obligations.EveryStepAnswersANextState : Prop :=
  ∀ s : State, ∃ t : State, step s = .next t

/-! ## Rules about every command -/

/-- 30_encoding.md R118: a field that is out of the range its rule gives. -/
def Obligations.OutOfRangeFieldsReportStreamError : Prop :=
  ∀ (i : Instr) (s : State), i.wf = false → exec i s = .next { s with status := 0xFE }

/-- 10_state.md R38 and 40_control.md R142, with NOP (R140) beside END. -/
def Obligations.NopEndAndWhatEndedRefuses : Prop :=
  (∀ s : State, s.running → exec .nop s = .next { s with status := 0 }) ∧
  (∀ s : State, s.running → exec .endSession s = .next { s with ended := true, status := 0 }) ∧
  (∀ (i : Instr) (s : State), s.ended = true → i ≠ .coreReset → exec i s = .next { s with status := 0xFE }) ∧
  (∀ (i : Instr) (s t : State), s.ended = true → exec i s = .next t → t.ended = false → i = .coreReset) ∧
  (∀ (i : Instr) (s t : State), s.running → exec i s = .next t → t.ended = true → i = .endSession) ∧
  State.reset.ended = false

/-- 60_exceptions.md R380: NEED_DICT, then DERR, stop each decode-path command whose fields are in range; and no
other command is gated: but for SW_SETDICT and REG_GET 9, which read the flags as data, the two flags change nothing
else in what it does. -/
def Obligations.GatesStopExactlyTheDecodePath : Prop :=
  (∀ (i : Instr) (s : State), i.decodePath = true → i.wf = true → s.running →
    (s.needDict = true → exec i s = .next { s with status := 2 }) ∧
    (s.needDict = false → s.derr = true → exec i s = .next { s with status := 0xFD })) ∧
  (∀ (i : Instr) (s t u : State) (n d : Bool), i.decodePath = false → (∀ cnt, i ≠ .swSetdict cnt) →
    i ≠ .regGet 9 → exec i s = .next t → exec i { s with needDict := n, derr := d } = .next u →
    u = { t with needDict := u.needDict, derr := u.derr })

/-- 60_exceptions.md R375, and R379 beside it: a hold and a STREAM_ERROR change nothing but STATUS; and no command
reads STATUS, so a command issued again after a hold acts as if the hold had never happened. -/
def Obligations.HoldsAndStreamErrorsChangeOnlyStatus : Prop :=
  (∀ (i : Instr) (s t : State), exec i s = .next t → (t.status = 3 ∨ t.status = 0xFB ∨ t.status = 0xFE) →
    t = { s with status := t.status }) ∧
  (∀ (i : Instr) (s : State) (x : BitVec 8), exec i { s with status := x } = exec i s)

/-- 60_exceptions.md R378, R383 and 10_state.md R35: a DATA_ERROR leaves DERR set (a dictionary mismatch leaves it as
it was), and outputs nothing, records nothing and touches no encoder table, dictionary or configuration register. -/
def Obligations.DataErrorKeepsOutputAndHistory : Prop :=
  ∀ (i : Instr) (s t : State), exec i s = .next t → t.status = 0xFD →
    (t.derr = true ∨ ((∃ cnt, i = .swSetdict cnt) ∧ t.derr = s.derr)) ∧
    t.out = s.out ∧ t.hist = s.hist ∧ t.la = s.la ∧ t.mfBase = s.mfBase ∧ t.cfg = s.cfg ∧
    t.heLL = s.heLL ∧ t.heDist = s.heDist ∧ t.heCl = s.heCl ∧
    t.needDict = s.needDict ∧ t.dictId = s.dictId ∧ t.dictExpect = s.dictExpect ∧
    t.storedRem = s.storedRem ∧ t.ended = s.ended ∧ t.res2 = s.res2 ∧ t.res3 = s.res3 ∧
    (i ≠ .bfRhdr → t.res0 = s.res0 ∧ t.res1 = s.res1 ∧ t.last = s.last) ∧
    t.hdLL.len = s.hdLL.len ∧ t.hdDist.len = s.hdDist.len ∧ t.hdCl.len = s.hdCl.len

/-- 60_exceptions.md R370, R376 to R378, R380, R382: the codes a command can leave in STATUS, MEM_ERROR not among
them, and which commands report which. -/
def Obligations.EachStatusComesOnlyFromItsCommands : Prop :=
  ∀ (i : Instr) (s t : State), exec i s = .next t →
    t.status ∈ [0, 1, 2, 3, 0xFE, 0xFD, 0xFB] ∧ t.status ≠ memErrorCode ∧
    (t.status = 1 → i.mayEndStream = true ∧ s.last = true) ∧
    (t.status = 2 → i = .swExpectdict ∨ (i.decodePath = true ∧ s.needDict = true)) ∧
    (t.status = 3 → i.mayHoldIn = true) ∧
    (t.status = 0xFB → i.mayHoldOut = true) ∧
    (t.status = 0xFD → i.mayFailData = true)

/-- 60_exceptions.md R377: with OUT_CAP at least 32773, BUF_ERROR on an empty outq never happens, but for BF_RCOPY
with a CNT beyond OUT_CAP, which 46_block_framing.md R347 makes a hold (log 16). -/
def Obligations.NoBufErrorOnADrainedQueue : Prop :=
  ∀ (i : Instr) (s t : State), 32773 ≤ s.outCap → s.out.outq = [] → exec i s = .next t → t.status = 0xFB →
    ∃ cnt : BitVec 16, i = .bfRcopy cnt ∧ s.outCap < cnt.toNat

/-! ## Control (40_control.md) -/

/-- R143: each configuration register, WBITS clearing the window and the lookahead, and what is illegal. -/
def Obligations.CfgSetWritesItsRegister : Prop :=
  ∀ (s : State) (val : BitVec 16), s.running →
    (8 ≤ val.toNat ∧ val.toNat ≤ 15 → exec (.cfgSet 0 val) s = .next { s with
      cfg := { s.cfg with wbits := val.setWidth 4 }, hist := [], la := [], mfBase := 0, status := 0 }) ∧
    (8 ≤ val.toNat ∧ val.toNat ≤ 15 →
      exec (.cfgSet 1 val) s = .next { s with cfg := { s.cfg with hashBits := val.setWidth 4 }, status := 0 }) ∧
    exec (.cfgSet 2 val) s = .next { s with cfg := { s.cfg with maxChain := val }, status := 0 } ∧
    (3 ≤ val.toNat ∧ val.toNat ≤ 258 →
      exec (.cfgSet 3 val) s = .next { s with cfg := { s.cfg with niceLen := val.setWidth 9 }, status := 0 }) ∧
    (val.toNat ≤ 258 →
      exec (.cfgSet 4 val) s = .next { s with cfg := { s.cfg with lazyLimit := val.setWidth 9 }, status := 0 }) ∧
    (3 ≤ val.toNat ∧ val.toNat ≤ 258 →
      exec (.cfgSet 5 val) s = .next { s with cfg := { s.cfg with goodLen := val.setWidth 9 }, status := 0 }) ∧
    (∀ field : BitVec 4, 5 < field.toNat ∨ (field.toNat ≤ 1 ∧ ¬ (8 ≤ val.toNat ∧ val.toNat ≤ 15)) ∨
      ((field = 3 ∨ field = 5) ∧ ¬ (3 ≤ val.toNat ∧ val.toNat ≤ 258)) ∨ (field = 4 ∧ 258 < val.toNat) →
      exec (.cfgSet field val) s = .next { s with status := 0xFE })

/-- R144 with the map of 10_state.md R51. For |outq| of 2^32 or more (no queue of a smaller OUT_CAP) the register's
value is the free value of log 7, of which nothing is stated. -/
def Obligations.RegGetReadsTheMap : Prop :=
  ∀ s : State, s.running →
    (∀ p ∈ [((0 : BitVec 5), s.inp.totalIn), (1, s.out.totalOut),
        (2, BitVec.ofNat 32 (min (2 ^ s.cfg.wbits.toNat) s.hist.length)), (3, BitVec.ofNat 32 s.la.length),
        (4, s.inp.ibit.setWidth 32), (5, s.out.obits.setWidth 32), (6, s.out.obuf.setWidth 32),
        (7, s.dictId), (8, s.dictExpect),
        (9, BitVec.ofNat 32 (4 * s.last.toNat + 2 * s.needDict.toNat + s.derr.toNat)),
        (10, s.storedRem.setWidth 32), (11, BitVec.ofNat 32 (min s.inp.inq.length (2 ^ 32 - 1))),
        (16, s.cfg.wbits.setWidth 32), (17, s.cfg.hashBits.setWidth 32), (18, s.cfg.maxChain.setWidth 32),
        (19, s.cfg.niceLen.setWidth 32), (20, s.cfg.lazyLimit.setWidth 32), (21, s.cfg.goodLen.setWidth 32)],
      exec (.regGet p.1) s = .next { s with res0 := p.2, status := 0 }) ∧
    (∃ v : BitVec 32, (s.out.outq.length < 2 ^ 32 → v.toNat = s.out.outq.length) ∧
      exec (.regGet 12) s = .next { s with res0 := v, status := 0 }) ∧
    (∀ reg : BitVec 5, (13 ≤ reg.toNat ∧ reg.toNat ≤ 15) ∨ 22 ≤ reg.toNat →
      exec (.regGet reg) s = .next { s with status := 0xFE })

/-! ## Bit packer and unpacker (41_bitio.md) -/

/-- R160, R161: the low NB bits of V, in the one order and in the other, appended to the bit stream; NB above 16;
no room for the bytes they complete. -/
def Obligations.BpPutAppendsItsBits : Prop :=
  ∀ (s : State) (nb : BitVec 5) (v : BitVec 16), s.running → s.out.obuf.toNat < 2 ^ s.out.obits.toNat →
    (nb.toNat ≤ 16 → s.hasRoomForBits nb.toNat →
      exec (.bpPut nb v) s = .next { s with
        out := s.out.pushed ((List.range nb.toNat).map v.getLsbD), status := 0 } ∧
      exec (.bpPutrev nb v) s = .next { s with
        out := s.out.pushed ((List.range nb.toNat).map v.getLsbD).reverse, status := 0 }) ∧
    (nb.toNat ≤ 16 → ¬ s.hasRoomForBits nb.toNat →
      exec (.bpPut nb v) s = .next { s with status := 0xFB } ∧
      exec (.bpPutrev nb v) s = .next { s with status := 0xFB }) ∧
    (16 < nb.toNat →
      exec (.bpPut nb v) s = .next { s with status := 0xFE } ∧
      exec (.bpPutrev nb v) s = .next { s with status := 0xFE })

/-- R162, R166: zero bits up to the byte boundary on output; on input the rest of a partly read byte is discarded and
the byte counted. -/
def Obligations.AlignCommandsReachAByteBoundary : Prop :=
  ∀ s : State, s.running → s.out.obuf.toNat < 2 ^ s.out.obits.toNat →
    (s.out.obits = 0 → exec .bpAlignOut s = .next { s with status := 0 }) ∧
    (s.out.obits ≠ 0 → s.hasRoom 1 → exec .bpAlignOut s = .next { s with
      out := { outq := s.out.outq ++ [s.out.obuf], obuf := 0, obits := 0, totalOut := s.out.totalOut + 1 },
      status := 0 }) ∧
    (s.out.obits ≠ 0 → ¬ s.hasRoom 1 → exec .bpAlignOut s = .next { s with status := 0xFB }) ∧
    (s.inp.ibit = 0 → exec .bpAlignIn s = .next { s with status := 0 }) ∧
    (s.inp.ibit ≠ 0 → exec .bpAlignIn s = .next { s with
      inp := { inq := s.inp.inq.drop 1, ibit := 0, totalIn := s.inp.totalIn + 1 }, status := 0 })

/-- R165: NB bits, least significant first, or HOLD_IN, or STREAM_ERROR. -/
def Obligations.BpGetReadsTheNextBits : Prop :=
  ∀ (s : State) (nb : BitVec 5), s.running →
    (nb.toNat ≤ 16 → nb.toNat ≤ s.inp.availBits →
      exec (.bpGet nb) s = .next { s with
        inp := s.inp.advance nb.toNat, res0 := BitVec.ofNat 32 (valueLsb (s.inp.stream.take nb.toNat)),
        status := 0 }) ∧
    (nb.toNat ≤ 16 → s.inp.availBits < nb.toNat → exec (.bpGet nb) s = .next { s with status := 3 }) ∧
    (16 < nb.toNat → exec (.bpGet nb) s = .next { s with status := 0xFE })

/-- R170: after aligning, BP_SYNC lands just after the least marker; with none it keeps the longest tail that may
begin one. -/
def Obligations.BpSyncLandsAfterTheLeastMarker : Prop :=
  ∀ s : State, s.running →
    let mark : List Byte := [0x00, 0x00, 0xFF, 0xFF]
    let p : InPort := if s.inp.ibit = 0 then s.inp
      else { inq := s.inp.inq.drop 1, ibit := 0, totalIn := s.inp.totalIn + 1 }
    (∀ k, (p.inq.drop k).take 4 = mark → (∀ j < k, (p.inq.drop j).take 4 ≠ mark) →
      exec .bpSync s = .next { s with
        inp := p.dequeued (k + 4), derr := false, storedRem := 0, last := false, status := 0 }) ∧
    ((∀ k, (p.inq.drop k).take 4 ≠ mark) →
      ∃ m ≤ 3, m ≤ p.inq.length ∧ p.inq.drop (p.inq.length - m) = mark.take m ∧
        (∀ n, m < n → n ≤ 3 → n ≤ p.inq.length → p.inq.drop (p.inq.length - n) ≠ mark.take n) ∧
        exec .bpSync s = .next { s with inp := p.dequeued (p.inq.length - m), derr := true, status := 0xFD })

/-! ## Sliding window (42_window.md) -/

/-- R190, R191, R192: clearing, recording one byte, and reading the byte at a distance. -/
def Obligations.SwResetRecordAndReadUseTheHistory : Prop :=
  ∀ s : State, s.running →
    exec .swReset s = .next { s with hist := [], mfBase := 0, status := 0 } ∧
    (∀ byte : BitVec 8,
      (s.la = [] → exec (.swRecord byte) s = .next { s with hist := s.hist ++ [byte], status := 0 }) ∧
      (s.la ≠ [] → exec (.swRecord byte) s = .next { s with status := 0xFE })) ∧
    (∀ dm1 : BitVec 15,
      (dm1.toNat + 1 ≤ min (2 ^ s.cfg.wbits.toNat) s.hist.length → exec (.swRead dm1) s = .next { s with
        res0 := (s.hist.getD (s.hist.length - (dm1.toNat + 1)) 0).setWidth 32, status := 0 }) ∧
      (min (2 ^ s.cfg.wbits.toNat) s.hist.length < dm1.toNat + 1 →
        exec (.swRead dm1) s = .next { s with derr := true, status := 0xFD }))

/-- 10_state.md R45: byte hist[i] sits at address i mod W of the ring while it is one of the last W; recording a byte
writes the address |hist| mod W and no other. -/
def Obligations.RingHoldsTheNewestBytes : Prop :=
  (∀ (s : State) (i : Nat), i < s.hist.length → s.hist.length - i ≤ 2 ^ s.cfg.wbits.toNat →
    s.sramByte (i % 2 ^ s.cfg.wbits.toNat) = some (s.hist.getD i 0)) ∧
  (∀ (s t : State) (byte : BitVec 8), exec (.swRecord byte) s = .next t → t.status = 0 →
    t.sramByte (s.hist.length % 2 ^ s.cfg.wbits.toNat) = some byte ∧
    ∀ a < 2 ^ s.cfg.wbits.toNat, a ≠ s.hist.length % 2 ^ s.cfg.wbits.toNat → t.sramByte a = s.sramByte a)

/-- R193. -/
def Obligations.SwMatchatOutputsWithoutRecording : Prop :=
  ∀ (s : State) (len9 : BitVec 9) (dm1 : BitVec 15), s.running →
    let d := dm1.toNat + 1
    let inRange := 1 ≤ len9.toNat ∧ len9.toNat ≤ 258
    (¬ inRange ∨ s.out.obits ≠ 0 → exec (.swMatchat len9 dm1) s = .next { s with status := 0xFE }) ∧
    (inRange → s.out.obits = 0 → s.wvalid < d →
      exec (.swMatchat len9 dm1) s = .next { s with derr := true, status := 0xFD }) ∧
    (inRange → s.out.obits = 0 → d ≤ s.wvalid → ¬ s.hasRoom len9.toNat →
      exec (.swMatchat len9 dm1) s = .next { s with status := 0xFB }) ∧
    (inRange → s.out.obits = 0 → d ≤ s.wvalid → s.hasRoom len9.toNat →
      exec (.swMatchat len9 dm1) s = .next { s with
        out := s.out.appended (copiedBytes s.hist len9.toNat d), status := 0 })

/-- R194, R195: the byte-by-byte copy outputs and records y_i = hist[Q − D + (i mod D)], L > D included. -/
def Obligations.SwCopyOutputsAndRecordsTheSameBytes : Prop :=
  ∀ (s : State) (len9 : BitVec 9) (dm1 : BitVec 15), s.decoding → 1 ≤ len9.toNat → len9.toNat ≤ 258 →
    let d := dm1.toNat + 1
    (s.out.obits ≠ 0 ∨ s.la ≠ [] → exec (.swCopy len9 dm1) s = .next { s with status := 0xFE }) ∧
    (s.out.obits = 0 → s.la = [] → s.wvalid < d →
      exec (.swCopy len9 dm1) s = .next { s with derr := true, status := 0xFD }) ∧
    (s.out.obits = 0 → s.la = [] → d ≤ s.wvalid → ¬ s.hasRoom len9.toNat →
      exec (.swCopy len9 dm1) s = .next { s with status := 0xFB }) ∧
    (s.out.obits = 0 → s.la = [] → d ≤ s.wvalid → s.hasRoom len9.toNat →
      exec (.swCopy len9 dm1) s = .next { s with
        out := s.out.appended (copiedBytes s.hist len9.toNat d),
        hist := s.hist ++ copiedBytes s.hist len9.toNat d, status := 0 })

/-- R198. CHECKSUM is the instance's parameter (log 3): the statement holds whatever it is. -/
def Obligations.SwSetdictInstallsOrRefuses : Prop :=
  ∀ (s : State) (cnt : BitVec 16), s.running →
    let d := s.inp.inq.take cnt.toNat
    let rest : InPort := { s.inp with inq := s.inp.inq.drop cnt.toNat }
    let aligned := s.inp.ibit = 0 ∧ s.la = []
    (¬ aligned → exec (.swSetdict cnt) s = .next { s with status := 0xFE }) ∧
    (aligned → s.inp.inq.length < cnt.toNat → exec (.swSetdict cnt) s = .next { s with status := 3 }) ∧
    (aligned → cnt.toNat ≤ s.inp.inq.length → s.needDict = true → Config.checksum d ≠ s.dictExpect →
      exec (.swSetdict cnt) s = .next { s with inp := rest, status := 0xFD }) ∧
    (aligned → cnt.toNat ≤ s.inp.inq.length → (s.needDict = true → Config.checksum d = s.dictExpect) →
      exec (.swSetdict cnt) s = .next { s with
        inp := rest, hist := s.hist ++ d, dictId := Config.checksum d, needDict := false, status := 0 })

/-- R199: the identifier is big-endian, and the command's own status is NEED_DICT. -/
def Obligations.SwExpectdictReadsTheIdentifier : Prop :=
  ∀ s : State, s.running →
    (s.inp.ibit ≠ 0 → exec .swExpectdict s = .next { s with status := 0xFE }) ∧
    (s.inp.ibit = 0 → s.inp.inq.length < 4 → exec .swExpectdict s = .next { s with status := 3 }) ∧
    (∀ (b0 b1 b2 b3 : Byte) (rest : List Byte), s.inp.ibit = 0 → s.inp.inq = b0 :: b1 :: b2 :: b3 :: rest →
      exec .swExpectdict s = .next { s with
        inp := { s.inp with inq := rest, totalIn := s.inp.totalIn + 4 }, dictExpect := b0 ++ b1 ++ b2 ++ b3,
        needDict := true, status := 2 })

/-! ## Huffman encoder (43_huffman_encoder.md) -/

/-- R220, R221: clearing, counting with saturation at 2^32 − 1, and what is refused. -/
def Obligations.HeClearAndHeCountKeepTheFrequencies : Prop :=
  ∀ (s : State) (t : BitVec 2), s.running →
    (∀ a, Alphabet.ofField t = some a →
      exec (.heClear t) s =
        .next { s.setEnc a { s.enc a with freq := List.replicate a.size 0 } with status := 0 }) ∧
    (∀ (a : Alphabet) (sym : BitVec 9), Alphabet.ofField t = some a → sym.toNat < a.usable →
      (s.enc a).freq.length = a.size →
      ∃ freq : List (BitVec 32), freq.length = a.size ∧
        (∀ x, x ≠ sym.toNat → freq.getD x 0 = (s.enc a).freq.getD x 0) ∧
        (freq.getD sym.toNat 0).toNat = min ((s.enc a).freqOf sym.toNat + 1) (2 ^ 32 - 1) ∧
        exec (.heCount t sym) s = .next { s.setEnc a { s.enc a with freq := freq } with status := 0 }) ∧
    (t = 3 → exec (.heClear t) s = .next { s with status := 0xFE }) ∧
    (∀ sym : BitVec 9, t = 3 ∨ (t = 0 ∧ 286 ≤ sym.toNat) ∨ (t = 1 ∧ 30 ≤ sym.toNat) ∨ (t = 2 ∧ 19 ≤ sym.toNat) →
      exec (.heCount t sym) s = .next { s with status := 0xFE })

/-- R231, R260: HE_SETLEN and HD_SETLEN write one length and clear the valid bit. -/
def Obligations.SetlenCommandsWriteOneLength : Prop :=
  ∀ (s : State) (t : BitVec 2) (ln : BitVec 4) (sym : BitVec 9), s.running →
    (∀ a, Alphabet.ofField t = some a → sym.toNat < a.size → ln.toNat ≤ a.maxLen →
      exec (.heSetlen t ln sym) s = .next { s.setEnc a
        { s.enc a with len := (s.enc a).len.set sym.toNat ln, valid := false } with status := 0 } ∧
      exec (.hdSetlen t ln sym) s = .next { s.setDec a
        { s.dec a with len := (s.dec a).len.set sym.toNat ln, valid := false } with status := 0 }) ∧
    (t = 3 ∨ (t = 0 ∧ 288 ≤ sym.toNat) ∨ (t = 1 ∧ 32 ≤ sym.toNat) ∨ (t = 2 ∧ (19 ≤ sym.toNat ∨ 7 < ln.toNat)) →
      exec (.heSetlen t ln sym) s = .next { s with status := 0xFE } ∧
      exec (.hdSetlen t ln sym) s = .next { s with status := 0xFE })

/-- R232 with R230: the code of a symbol is read off the lengths; an over-subscribed table is refused. -/
def Obligations.HeCanonAssignsTheCanonicalCode : Prop :=
  ∀ (s : State) (t : BitVec 2), s.running → s.TablesOk →
    (t = 3 → exec (.heCanon t) s = .next { s with status := 0xFE }) ∧
    (∀ a, Alphabet.ofField t = some a →
      (kraftTotal (s.enc a).lens ≤ 2 ^ 15 →
        ∃ code : List (BitVec 15), code.length = a.size ∧
          (∀ sym < a.size, (s.enc a).lenOf sym ≠ 0 → (code.getD sym 0).toNat = canonCode (s.enc a).lens sym) ∧
          exec (.heCanon t) s = .next { s.setEnc a { s.enc a with code := code, valid := true } with status := 0 }) ∧
      (2 ^ 15 < kraftTotal (s.enc a).lens → exec (.heCanon t) s = .next { s with status := 0xFE }))

/-- R225 to R229: HE_BUILD gives a code to exactly the used symbols (two symbols where fewer are used), no longer than
LN, and the canonical codes of those lengths; or refuses more symbols than LN bits can tell apart. Two used symbols or
more get their depths in R227's merge, cut to LN, then R228's and R229's repairs; where every depth is within LN the
lengths are the depths (R229, last point). -/
def Obligations.HeBuildGivesTheUsedSymbolsCodes : Prop :=
  ∀ (s : State) (t : BitVec 2) (ln : BitVec 4) (a : Alphabet), s.running → s.TablesOk →
    Alphabet.ofField t = some a → 1 ≤ ln.toNat → ln.toNat ≤ a.maxLen →
    let freq := (s.enc a).freqOf
    let used := (List.range a.usable).filter fun sym => freq sym ≠ 0
    (used.length ≤ 2 ^ ln.toNat →
      ∃ (len : List (BitVec 4)) (code : List (BitVec 15)),
        exec (.heBuild t ln) s = .next { s.setEnc a
          { freq := (s.enc a).freq, len := len, code := code, valid := true } with status := 0 } ∧
        len.length = a.size ∧ code.length = a.size ∧ (∀ l ∈ len, l.toNat ≤ ln.toNat) ∧
        (∀ sym < a.size, len.getD sym 0 ≠ 0 →
          (code.getD sym 0).toNat = canonCode (len.map BitVec.toNat) sym % 2 ^ 15) ∧
        (used = [] → ∀ sym, len.getD sym 0 = if sym = 0 ∨ sym = 1 then 1 else 0) ∧
        (∀ u, used = [u] → ∀ sym,
          len.getD sym 0 = if sym = u ∨ sym = (if u = 0 then 1 else 0) then 1 else 0) ∧
        (2 ≤ used.length →
          (∀ sym, len.getD sym 0 ≠ 0 ↔ sym ∈ used) ∧
          ∃ (tree : MergeTree) (depth lengthened final : Nat → Nat),
            Merges a.usable 0 (used.map fun sym => .leaf sym (freq sym)) tree ∧
            (∀ sym ∈ used, (sym, depth sym) ∈ tree.depths) ∧
            Lengthens ln.toNat used freq (fun sym => min (depth sym) ln.toNat) lengthened ∧
            Shortens ln.toNat used freq lengthened final ∧
            (∀ sym ∈ used, (len.getD sym 0).toNat = final sym) ∧
            ((∀ sym ∈ used, depth sym ≤ ln.toNat) → ∀ sym ∈ used, (len.getD sym 0).toNat = depth sym))) ∧
    (2 ^ ln.toNat < used.length → exec (.heBuild t ln) s = .next { s with status := 0xFE })

/-- R242: a code HE_BUILD made has at least two codewords, every length in 1..LN, and a Kraft sum of exactly 1. -/
def Obligations.HeBuildCodeIsComplete : Prop :=
  ∀ (s u : State) (t : BitVec 2) (ln : BitVec 4) (a : Alphabet), s.running → s.TablesOk →
    Alphabet.ofField t = some a → exec (.heBuild t ln) s = .next u → u.status = 0 →
    kraftTotal (u.enc a).lens = 2 ^ 15 ∧ 2 ≤ ((u.enc a).lens.filter (· ≠ 0)).length ∧
    ∀ l ∈ (u.enc a).lens, l ≤ ln.toNat

/-- R233 and 44_huffman_decoder.md R264: the fixed lengths, the codes that result for the encoder, and the decode
structure for the decoder; frequencies and the code-length tables stay. -/
def Obligations.FixedTablesAreLoaded : Prop :=
  ∀ s : State, s.running → s.TablesOk →
    let lensLL := List.replicate 144 8 ++ List.replicate 112 9 ++ List.replicate 24 7 ++ List.replicate 8 8
    let lensDist := List.replicate 32 5
    (∃ codeLL codeDist : List (BitVec 15),
      exec .heFixed s = .next { s with
        heLL := { freq := s.heLL.freq, len := lensLL.map (BitVec.ofNat 4), code := codeLL, valid := true },
        heDist := { freq := s.heDist.freq, len := lensDist.map (BitVec.ofNat 4), code := codeDist, valid := true },
        status := 0 } ∧
      codeLL.map BitVec.toNat =
        List.range' 0x30 144 ++ List.range' 0x190 112 ++ List.range' 0x00 24 ++ List.range' 0xC0 8 ∧
      codeDist.map BitVec.toNat = List.range 32) ∧
    exec .hdFixed s = .next { s with
      hdLL := builtTable 288 lensLL, hdDist := builtTable 32 lensDist, status := 0 }

/-- R234: one symbol's code, most significant bit first. -/
def Obligations.HeEmitSendsTheCode : Prop :=
  ∀ (s : State) (t : BitVec 2) (sym : BitVec 9), s.running → s.TablesOk → s.QueuesOk →
    (t = 3 ∨ (t = 0 ∧ 288 ≤ sym.toNat) ∨ (t = 1 ∧ 32 ≤ sym.toNat) ∨ (t = 2 ∧ 19 ≤ sym.toNat) →
      exec (.heEmit t sym) s = .next { s with status := 0xFE }) ∧
    (∀ a, Alphabet.ofField t = some a → sym.toNat < a.size →
      let tab := s.enc a
      let n := tab.lenOf sym.toNat
      (tab.valid = false ∨ n = 0 → exec (.heEmit t sym) s = .next { s with status := 0xFE }) ∧
      (tab.valid = true → n ≠ 0 → ¬ s.hasRoomForBits n →
        exec (.heEmit t sym) s = .next { s with status := 0xFB }) ∧
      (tab.valid = true → n ≠ 0 → s.hasRoomForBits n →
        exec (.heEmit t sym) s = .next { s with out := s.out.pushed (canonBits tab.lens sym.toNat), status := 0 }))

/-- R236 with R235: the greatest length and distance symbols whose base does not exceed the value, their codes and
extra bits. -/
def Obligations.HeMatchSendsLengthAndDistance : Prop :=
  ∀ (s : State) (len9 : BitVec 9) (dm1 : BitVec 15), s.running → s.TablesOk → s.QueuesOk →
    (len9.toNat < 3 ∨ 258 < len9.toNat → exec (.heMatch len9 dm1) s = .next { s with status := 0xFE }) ∧
    (3 ≤ len9.toNat → len9.toNat ≤ 258 → ∃ lc dc : Nat,
      (257 ≤ lc ∧ lc ≤ 285 ∧ lengthBase lc ≤ len9.toNat ∧ (∀ c, lc < c → c ≤ 285 → len9.toNat < lengthBase c) ∧
        len9.toNat - lengthBase lc < 2 ^ lengthExtra lc) ∧
      (dc ≤ 29 ∧ distBase dc ≤ dm1.toNat + 1 ∧ (∀ c, dc < c → c ≤ 29 → dm1.toNat + 1 < distBase c) ∧
        dm1.toNat + 1 - distBase dc < 2 ^ distExtra dc) ∧
      (let bs := (Coded.backref lc (len9.toNat - lengthBase lc) dc (dm1.toNat + 1 - distBase dc)).bits
        s.heLL.lens s.heDist.lens
       let coded := s.heLL.valid = true ∧ s.heLL.lenOf lc ≠ 0 ∧ s.heDist.valid = true ∧ s.heDist.lenOf dc ≠ 0
       (¬ coded → exec (.heMatch len9 dm1) s = .next { s with status := 0xFE }) ∧
       (coded → ¬ s.hasRoomForBits bs.length → exec (.heMatch len9 dm1) s = .next { s with status := 0xFB }) ∧
       (coded → s.hasRoomForBits bs.length →
         exec (.heMatch len9 dm1) s = .next { s with out := s.out.pushed bs, status := 0 })))

/-- R237, R238: the run-length items are ones the meta-alphabet has, they stand for the lengths they code, and they are
the ones R238 emits: of a run of zeros 18 while 11 or more remain, then 17 for 3 or more; of another run the length,
then 16 while 3 or more remain; and singles. -/
def Obligations.RleItemsExpandToTheLengths : Prop :=
  ∀ seq : List Nat, (∀ l ∈ seq, l ≤ 15) →
    expandItems [] (rle seq) = some seq ∧ (∀ x ∈ rle seq, x.legal) ∧ RleItems seq (rle seq)

/-- R239 with R241: HE_FREQ[2] counts the items of the two parts, which are coded apart. -/
def Obligations.HeRlecountCountsTheItems : Prop :=
  ∀ s : State, s.running →
    ∃ (hlit hdist : Nat) (freq : List (BitVec 32)),
      isHlit s.heLL.lens hlit ∧ isHdist s.heDist.lens hdist ∧ freq.length = 19 ∧
      (∀ m < 19, freq.getD m 0 = BitVec.ofNat 32
        (((rle (s.heLL.lens.take hlit) ++ rle (s.heDist.lens.take hdist)).map RleItem.sym).count m)) ∧
      exec .heRlecount s = .next { s with heCl := { s.heCl with freq := freq }, status := 0 }

/-- R240 with R241: the bits of the dynamic header, or STREAM_ERROR, or BUF_ERROR. -/
def Obligations.HeDynhdrSendsTheHeader : Prop :=
  ∀ s : State, s.running → s.TablesOk → s.QueuesOk →
    ∃ hlit hdist hclen : Nat,
      isHlit s.heLL.lens hlit ∧ isHdist s.heDist.lens hdist ∧ isHclen s.heCl.lens hclen ∧
      (let items := rle (s.heLL.lens.take hlit) ++ rle (s.heDist.lens.take hdist)
       let bs := headerBits hlit hdist hclen s.heCl.lens items
       let ready := s.heCl.valid = true ∧ s.heLL.lenOf 256 ≠ 0 ∧ ∀ x ∈ items, s.heCl.lenOf x.sym ≠ 0
       (¬ ready → exec .heDynhdr s = .next { s with status := 0xFE }) ∧
       (ready → ¬ s.hasRoomForBits bs.length → exec .heDynhdr s = .next { s with status := 0xFB }) ∧
       (ready → s.hasRoomForBits bs.length →
         exec .heDynhdr s = .next { s with out := s.out.pushed bs, status := 0 }))

/-! ## Huffman decoder (44_huffman_decoder.md) -/

/-- R262 with R261: the counts, the symbols sorted by (length, symbol), and the over-subscribed table that is a
DATA_ERROR and leaves HD_VALID = 0. -/
def Obligations.HdBuildBuildsTheDecodeStructure : Prop :=
  ∀ (s : State) (t : BitVec 2) (n : BitVec 9), s.running → s.TablesOk →
    (t = 3 ∨ n = 0 ∨ (t = 0 ∧ 288 < n.toNat) ∨ (t = 1 ∧ 32 < n.toNat) ∨ (t = 2 ∧ 19 < n.toNat) →
      exec (.hdBuild t n) s = .next { s with status := 0xFE }) ∧
    (∀ a, Alphabet.ofField t = some a → 1 ≤ n.toNat → n.toNat ≤ a.size →
      let tab := s.dec a
      let lens := (tab.len.take n.toNat).map BitVec.toNat
      (kraftTotal lens ≤ 2 ^ 15 →
        ∃ count sym : List Nat,
          exec (.hdBuild t n) s = .next { s.setDec a
            { len := tab.len, n := n.toNat, count := count, sym := sym, valid := true } with status := 0 } ∧
          count.length = 15 ∧ (∀ l, 1 ≤ l → l ≤ 15 → count.getD (l - 1) 0 = lens.count l) ∧
          (∀ x, x ∈ sym ↔ x < n.toNat ∧ lens.getD x 0 ≠ 0) ∧
          sym.Pairwise fun x y =>
            lens.getD x 0 < lens.getD y 0 ∨ (lens.getD x 0 = lens.getD y 0 ∧ x < y)) ∧
      (2 ^ 15 < kraftTotal lens →
        exec (.hdBuild t n) s = .next { s.setDec a { tab with valid := false } with derr := true, status := 0xFD }))

/-- R265, R266, R267: the canonical code of a symbol, sent most significant bit first, is read back as that symbol,
whatever follows it. -/
def Obligations.HdDecodeReadsBackTheCanonicalCode : Prop :=
  ∀ (s : State) (t : BitVec 2) (a : Alphabet) (sym : Nat) (rest : List Bool), s.decoding → s.TablesOk →
    Alphabet.ofField t = some a → (s.dec a).valid = true → sym < (s.dec a).n → (s.dec a).coded.getD sym 0 ≠ 0 →
    s.inp.stream = canonBits (s.dec a).coded sym ++ rest →
    exec (.hdDecode t) s = .next { s with
      inp := s.inp.advance ((s.dec a).coded.getD sym 0), res0 := BitVec.ofNat 32 sym, status := 0 }

/-- R266, R275 and 46_block_framing.md R350: where no codeword starts the input, fewer than 15 bits are a hold, and 15
are consumed by a DATA_ERROR; for HD_DECODE, and for HD_TOKEN and BF_INFLATE in the literal/length code and, after a
length symbol and its extra bits (consumed too), in the distance code. -/
def Obligations.ReadersFailWhereNoCodewordStarts : Prop :=
  (∀ (s : State) (t : BitVec 2) (a : Alphabet), s.decoding → s.TablesOk →
    Alphabet.ofField t = some a → (s.dec a).valid = true → startsNoCodeword (s.dec a).coded s.inp.stream →
    (s.inp.stream.length < 15 → exec (.hdDecode t) s = .next { s with status := 3 }) ∧
    (15 ≤ s.inp.stream.length →
      exec (.hdDecode t) s = .next { s with inp := s.inp.advance 15, derr := true, status := 0xFD })) ∧
  (∀ s : State, s.decoding → s.TablesOk → s.hdLL.valid = true → s.hdDist.valid = true →
    let ll := s.hdLL.coded
    let dist := s.hdDist.coded
    let answers := fun u : State => exec .hdToken s = .next u ∧
      (s.out.obits = 0 → s.la = [] → exec .bfInflate s = .next u)
    (startsNoCodeword ll s.inp.stream →
      (s.inp.stream.length < 15 → answers { s with status := 3 }) ∧
      (15 ≤ s.inp.stream.length → answers { s with inp := s.inp.advance 15, derr := true, status := 0xFD })) ∧
    (∀ (ls le : Nat) (rest : List Bool), 257 ≤ ls → ls ≤ 285 → ll.getD ls 0 ≠ 0 → le < 2 ^ lengthExtra ls →
      s.inp.stream = canonBits ll ls ++ bitsLsb (lengthExtra ls) le ++ rest → startsNoCodeword dist rest →
      (rest.length < 15 → answers { s with status := 3 }) ∧
      (15 ≤ rest.length → answers { s with
        inp := s.inp.advance (ll.getD ls 0 + lengthExtra ls + 15), derr := true, status := 0xFD })))

/-- R270 (and R242): a header as HE_DYNHDR lays it out, for any legal counts, code-length code and items, is read back
and its tables built. -/
def Obligations.HdDynhdrReadsBackAHeader : Prop :=
  ∀ (s : State) (hlit hdist hclen : Nat) (cl lens : List Nat) (items : List RleItem) (rest : List Bool),
    s.decoding → headerLegal hlit hdist hclen cl lens items →
    s.inp.stream = headerBits hlit hdist hclen cl items ++ rest →
    exec .hdDynhdr s = .next { s with
      inp := s.inp.advance (headerBits hlit hdist hclen cl items).length,
      hdLL := builtTable 288 (lens.take hlit), hdDist := builtTable 32 (lens.drop hlit), hdCl := builtTable 19 cl,
      res0 := BitVec.ofNat 32 hlit, res1 := BitVec.ofNat 9 hdist, res2 := BitVec.ofNat 16 hclen, status := 0 }

/-- R270, R271: input that shows one of the seven causes is a DATA_ERROR, whatever follows, and no other input is: the
bits up to the one that shows the cause are consumed, DERR is set, the tables are as before but for HD_VALID, which is
0 for all three, and nothing else changes. -/
def Obligations.HdDynhdrFailureInvalidatesTheTables : Prop :=
  ∀ s : State, s.decoding →
    let failed := fun n : Nat => { s with
      inp := s.inp.advance n, derr := true, hdLL := { s.hdLL with valid := false },
      hdDist := { s.hdDist with valid := false }, hdCl := { s.hdCl with valid := false }, status := 0xFD }
    (∀ bits rest : List Bool, BadHeader bits → s.inp.stream = bits ++ rest →
      exec .hdDynhdr s = .next (failed bits.length)) ∧
    (∀ t : State, exec .hdDynhdr s = .next t → t.status = 0xFD →
      ∃ bits rest : List Bool, BadHeader bits ∧ s.inp.stream = bits ++ rest ∧ t = failed bits.length)

/-- R275, R277: the bits of a token, as HE_EMIT and HE_MATCH send them for the same lengths, are read back as that
token. -/
def Obligations.HdTokenReadsBackAToken : Prop :=
  ∀ (s : State) (tok : Coded) (rest : List Bool), s.decoding → s.TablesOk →
    s.hdLL.valid = true → s.hdDist.valid = true → tok.legal s.hdLL.coded s.hdDist.coded →
    s.inp.stream = tok.bits s.hdLL.coded s.hdDist.coded ++ rest →
    exec .hdToken s = .next { s.withResults tok.results with
      inp := s.inp.advance (tok.bits s.hdLL.coded s.hdDist.coded).length, status := 0 }

/-- R276: symbols 286, 287, 30 and 31 can be decoded and stand for nothing: DATA_ERROR, the bits up to and including
the code consumed, by HD_TOKEN and by BF_INFLATE. -/
def Obligations.TokensRejectSymbolsWithoutMeaning : Prop :=
  ∀ (s : State) (rest : List Bool), s.decoding → s.TablesOk → s.hdLL.valid = true → s.hdDist.valid = true →
    let ll := s.hdLL.coded
    let dist := s.hdDist.coded
    let rejects := fun n => exec .hdToken s = .next { s with inp := s.inp.advance n, derr := true, status := 0xFD } ∧
      (s.out.obits = 0 → s.la = [] →
        exec .bfInflate s = .next { s with inp := s.inp.advance n, derr := true, status := 0xFD })
    (∀ sym, sym = 286 ∨ sym = 287 → ll.getD sym 0 ≠ 0 → s.inp.stream = canonBits ll sym ++ rest →
      rejects (ll.getD sym 0)) ∧
    (∀ ls le ds, 257 ≤ ls → ls ≤ 285 → ll.getD ls 0 ≠ 0 → le < 2 ^ lengthExtra ls → ds = 30 ∨ ds = 31 →
      dist.getD ds 0 ≠ 0 →
      s.inp.stream = canonBits ll ls ++ bitsLsb (lengthExtra ls) le ++ canonBits dist ds ++ rest →
      rejects (ll.getD ls 0 + lengthExtra ls + dist.getD ds 0))

/-- 60_exceptions.md R379 (4) and R376: a reader whose table is not built is refused, and so is BF_INFLATE with pending
output bits or a lookahead; input that ends inside a symbol, a token or a header holds. -/
def Obligations.UnbuiltTablesAndShortInputStopTheReaders : Prop :=
  (∀ (s : State) (t : BitVec 2) (a : Alphabet), s.decoding → Alphabet.ofField t = some a →
    (s.dec a).valid = false → exec (.hdDecode t) s = .next { s with status := 0xFE }) ∧
  (∀ s : State, s.decoding → s.hdLL.valid = false ∨ s.hdDist.valid = false →
    exec .hdToken s = .next { s with status := 0xFE } ∧ exec .bfInflate s = .next { s with status := 0xFE }) ∧
  (∀ s : State, s.decoding → s.out.obits ≠ 0 ∨ s.la ≠ [] →
    exec .bfInflate s = .next { s with status := 0xFE }) ∧
  (∀ (s : State) (t : BitVec 2) (a : Alphabet) (sym : Nat), s.decoding → s.TablesOk →
    Alphabet.ofField t = some a → (s.dec a).valid = true → sym < (s.dec a).n → (s.dec a).coded.getD sym 0 ≠ 0 →
    endsWithin s.inp.stream (canonBits (s.dec a).coded sym) →
    exec (.hdDecode t) s = .next { s with status := 3 }) ∧
  (∀ (s : State) (tok : Coded), s.decoding → s.TablesOk → s.hdLL.valid = true → s.hdDist.valid = true →
    tok.legal s.hdLL.coded s.hdDist.coded → endsWithin s.inp.stream (tok.bits s.hdLL.coded s.hdDist.coded) →
    exec .hdToken s = .next { s with status := 3 } ∧
    (s.out.obits = 0 → s.la = [] → exec .bfInflate s = .next { s with status := 3 })) ∧
  (∀ (s : State) (hlit hdist hclen : Nat) (cl lens : List Nat) (items : List RleItem), s.decoding →
    headerLegal hlit hdist hclen cl lens items →
    endsWithin s.inp.stream (headerBits hlit hdist hclen cl items) →
    exec .hdDynhdr s = .next { s with status := 3 })

/-! ## Match finder (45_lz77.md) -/

/-- R308, R314. -/
def Obligations.MfFeedMovesBytesAndMfResetHistSetsTheBase : Prop :=
  ∀ (s : State) (cnt : BitVec 16), s.running →
    (262 - s.la.length < cnt.toNat ∨ s.inp.ibit ≠ 0 → exec (.mfFeed cnt) s = .next { s with status := 0xFE }) ∧
    (cnt.toNat ≤ 262 - s.la.length → s.inp.ibit = 0 → s.inp.inq.length < cnt.toNat →
      exec (.mfFeed cnt) s = .next { s with status := 3 }) ∧
    (cnt.toNat ≤ 262 - s.la.length → s.inp.ibit = 0 → cnt.toNat ≤ s.inp.inq.length →
      exec (.mfFeed cnt) s = .next { s with
        la := s.la ++ s.inp.inq.take cnt.toNat, inp := s.inp.dequeued cnt.toNat, status := 0 }) ∧
    exec .mfResetHist s = .next { s with mfBase := s.hist.length, status := 0 }

/-- R309, R303, R315: MF_FIND reports no match, or one whose bytes are there, of length 3 to 258 within the bytes
known, at a distance within the window and not before MF_BASE. R312: with MAX_CHAIN = 0 it reports none; with
NICE_LEN = 3 the first candidate within the budget that agrees in 3 bytes ends the search. -/
def Obligations.MfFindReportsARealMatch : Prop :=
  ∀ s : State, s.running → ∃ len dist : Nat,
    exec .mfFind s = .next { s with
      res1 := BitVec.ofNat 9 len, res2 := BitVec.ofNat 16 dist, res3 := if 3 ≤ len then 1 else 3, status := 0 } ∧
    ((len = 0 ∧ dist = 0) ∨
      (3 ≤ len ∧ len ≤ 258 ∧ len ≤ s.la.length ∧ 1 ≤ dist ∧ dist ≤ 2 ^ s.cfg.wbits.toNat ∧
        dist + s.mfBase ≤ s.hist.length ∧
        ∀ i < len, s.stream.getD (s.hist.length + i) 0 = s.stream.getD (s.hist.length + i - dist) 0)) ∧
    (s.cfg.maxChain = 0 → len = 0) ∧
    (∀ (shorter older : List Nat) (j : Nat), s.cfg.niceLen = 3 →
      s.candidates s.hist.length = shorter ++ j :: older → shorter.length < s.cfg.maxChain.toNat →
      (∀ i ∈ shorter, s.agree s.hist.length i < 3) → 3 ≤ s.agree s.hist.length j →
      len = s.agree s.hist.length j ∧ dist = s.hist.length - j)

/-- R303: a search walks the chain newest first, at most as many candidates as its budget and none past the first that
reaches NICE_LEN or the longest length there can be, and takes the longest match, of those the nearest. MF_FIND is
that search at P with MAX_CHAIN. Where MAX_CHAIN covers every position and NICE_LEN does not stop the search early, no
position has a longer match, nor a nearer one as long. NICE_LEN is at least 3 in every legal configuration
(10_state.md R42, kept by every step). -/
def Obligations.MfFindTakesTheLongestNearestMatch : Prop :=
  (∀ (s : State) (q budget : Nat), 3 ≤ s.cfg.niceLen.toNat → s.isLongest q budget (s.longest q budget)) ∧
  (∀ s : State, s.running → 3 ≤ s.cfg.niceLen.toNat → ∃ len dist : Nat,
    s.isLongest s.hist.length s.cfg.maxChain.toNat (len, dist) ∧
    exec .mfFind s = .next { s with
      res1 := BitVec.ofNat 9 len, res2 := BitVec.ofNat 16 dist, res3 := if 3 ≤ len then 1 else 3, status := 0 }) ∧
  (∀ (s : State) (j k : Nat), s.running → s.hist.length ≤ s.cfg.maxChain.toNat → 258 ≤ s.cfg.niceLen.toNat →
    s.mfBase ≤ j → s.hist.length - 2 ^ s.cfg.wbits.toNat ≤ j → j < s.hist.length →
    3 ≤ k → k ≤ 258 → k ≤ s.la.length →
    (∀ i < k, s.stream.getD (j + i) 0 = s.stream.getD (s.hist.length + i) 0) →
    ∃ len dist : Nat,
      exec .mfFind s = .next { s with
        res1 := BitVec.ofNat 9 len, res2 := BitVec.ofNat 16 dist, res3 := 1, status := 0 } ∧
      k ≤ len ∧ len ≤ 258 ∧ (k = len → dist ≤ s.hist.length - j))

/-- R311: nothing to do, a hold, or one token: the match Longest finds at P (`State.longest`, which
`MfFindTakesTheLongestNearestMatch` pins) unless the lazy rule defers it, else a
literal; the bytes tokenised move from la to hist, and a match reproduces them. -/
def Obligations.MfStepTokenisesOrDefers : Prop :=
  ∀ (s : State) (drain : BitVec 1), s.running →
    (s.la = [] → exec (.mfStep drain) s = .next { s with res3 := 3, status := 0 }) ∧
    (s.la ≠ [] → drain = 0 → s.la.length < 259 → exec (.mfStep drain) s = .next { s with status := 3 }) ∧
    (s.la ≠ [] → (drain = 1 ∨ 259 ≤ s.la.length) →
      let m := s.longest s.hist.length s.cfg.maxChain.toNat
      let budget2 := if s.cfg.goodLen.toNat ≤ m.1 then s.cfg.maxChain.toNat / 4 else s.cfg.maxChain.toNat
      let deferred := m.1 < s.cfg.lazyLimit.toNat ∧ m.1 < (s.longest (s.hist.length + 1) budget2).1
      (3 ≤ m.1 ∧ ¬ deferred →
        exec (.mfStep drain) s = .next { s with
          res0 := 0, res1 := BitVec.ofNat 9 m.1, res2 := BitVec.ofNat 16 m.2, res3 := 1,
          hist := s.hist ++ s.la.take m.1, la := s.la.drop m.1, status := 0 } ∧
        m.1 ≤ 258 ∧ m.1 ≤ s.la.length ∧ 1 ≤ m.2 ∧ m.2 ≤ 2 ^ s.cfg.wbits.toNat ∧
        s.la.take m.1 = copiedBytes s.hist m.1 m.2) ∧
      (m.1 < 3 ∨ deferred →
        exec (.mfStep drain) s = .next { s with
          res0 := (s.la.headD 0).setWidth 32, res1 := 0, res2 := 0, res3 := 0,
          hist := s.hist ++ s.la.take 1, la := s.la.drop 1, status := 0 }))

/-- R313: with LA_NEED bytes of lookahead, the token does not depend on the bytes that come after them. -/
def Obligations.MfStepIgnoresBytesBeyondItsLookahead : Prop :=
  ∀ (s t u : State) (drain : BitVec 1) (more : List Byte), s.running → 259 ≤ s.la.length →
    exec (.mfStep drain) s = .next t → exec (.mfStep drain) { s with la := s.la ++ more } = .next u →
    u = { t with la := t.la ++ more }

/-! ## Block framer (46_block_framing.md) -/

/-- R340, R342: FINAL, then TYPE with its least significant bit first; read back into RES0, RES1 and LAST, type 3
being a DATA_ERROR after they are written. -/
def Obligations.BlockHeadersAreWrittenAndRead : Prop :=
  (∀ (s : State) (btype : BitVec 2) (final : BitVec 1), s.running → s.QueuesOk →
    (btype = 3 → exec (.bfWhdr btype final) s = .next { s with status := 0xFE }) ∧
    (btype ≠ 3 → ¬ s.hasRoomForBits 3 → exec (.bfWhdr btype final) s = .next { s with status := 0xFB }) ∧
    (btype ≠ 3 → s.hasRoomForBits 3 → exec (.bfWhdr btype final) s = .next { s with
      out := s.out.pushed [final.getLsbD 0, btype.getLsbD 0, btype.getLsbD 1], status := 0 })) ∧
  (∀ s : State, s.decoding → s.inp.stream.length < 3 → exec .bfRhdr s = .next { s with status := 3 }) ∧
  (∀ (s : State) (f b0 b1 : Bool) (rest : List Bool), s.decoding → s.inp.stream = f :: b0 :: b1 :: rest →
    let s1 : State := { s with
      inp := s.inp.advance 3, res0 := BitVec.ofNat 32 (b0.toNat + 2 * b1.toNat),
      res1 := BitVec.ofNat 9 f.toNat, last := f }
    ((b0 && b1) = false → exec .bfRhdr s = .next { s1 with status := 0 }) ∧
    ((b0 && b1) = true → exec .bfRhdr s = .next { s1 with derr := true, status := 0xFD }))

/-- R344: padding, LEN and NLEN low byte first, then the last CNT window bytes, oldest first. -/
def Obligations.BfWstoredWritesAStoredBody : Prop :=
  ∀ (s : State) (cnt : BitVec 16), s.running → s.QueuesOk →
    let pad := if s.out.obits = 0 then 0 else 1
    let padded : OutPort := if s.out.obits = 0 then s.out
      else { outq := s.out.outq ++ [s.out.obuf], obuf := 0, obits := 0, totalOut := s.out.totalOut + 1 }
    let len : List Byte := [BitVec.ofNat 8 (cnt.toNat % 256), BitVec.ofNat 8 (cnt.toNat / 256)]
    (s.wvalid < cnt.toNat → exec (.bfWstored cnt) s = .next { s with status := 0xFE }) ∧
    (cnt.toNat ≤ s.wvalid → ¬ s.hasRoom (pad + 4 + cnt.toNat) →
      exec (.bfWstored cnt) s = .next { s with status := 0xFB }) ∧
    (cnt.toNat ≤ s.wvalid → s.hasRoom (pad + 4 + cnt.toNat) →
      exec (.bfWstored cnt) s = .next { s with
        out := padded.appended
          (len ++ len.map (fun b => ~~~b) ++ s.hist.drop (s.hist.length - cnt.toNat)), status := 0 })

/-- R346: align, LEN and NLEN; a hold does not align; a bad complement is a DATA_ERROR with the four bytes
consumed. -/
def Obligations.BfRstoredReadsTheLength : Prop :=
  ∀ s : State, s.decoding →
    let p : InPort := if s.inp.ibit = 0 then s.inp
      else { inq := s.inp.inq.drop 1, ibit := 0, totalIn := s.inp.totalIn + 1 }
    (p.inq.length < 4 → exec .bfRstored s = .next { s with status := 3 }) ∧
    (∀ (l0 l1 n0 n1 : Byte) (rest : List Byte), p.inq = l0 :: l1 :: n0 :: n1 :: rest →
      (n0 = ~~~l0 ∧ n1 = ~~~l1 →
        exec .bfRstored s = .next { s with
          inp := p.dequeued 4, storedRem := l1 ++ l0, res0 := (l1 ++ l0).setWidth 32,
          status := if s.last = true ∧ (l1 ++ l0 : BitVec 16) = 0 then 1 else 0 }) ∧
      (¬ (n0 = ~~~l0 ∧ n1 = ~~~l1) →
        exec .bfRstored s = .next { s with inp := p.dequeued 4, derr := true, status := 0xFD }))

/-- R347: CNT bytes from input to output and window, input checked before output space. -/
def Obligations.BfRcopyCopiesStoredBytes : Prop :=
  ∀ (s : State) (cnt : BitVec 16), s.decoding →
    let ready := cnt.toNat ≤ s.storedRem.toNat ∧ s.inp.ibit = 0 ∧ s.out.obits = 0 ∧ s.la = []
    (¬ ready → exec (.bfRcopy cnt) s = .next { s with status := 0xFE }) ∧
    (ready → s.inp.inq.length < cnt.toNat → exec (.bfRcopy cnt) s = .next { s with status := 3 }) ∧
    (ready → cnt.toNat ≤ s.inp.inq.length → ¬ s.hasRoom cnt.toNat →
      exec (.bfRcopy cnt) s = .next { s with status := 0xFB }) ∧
    (ready → cnt.toNat ≤ s.inp.inq.length → s.hasRoom cnt.toNat →
      exec (.bfRcopy cnt) s = .next { s with
        inp := s.inp.dequeued cnt.toNat, out := s.out.appended (s.inp.inq.take cnt.toNat),
        hist := s.hist ++ s.inp.inq.take cnt.toNat, storedRem := s.storedRem - cnt,
        status := if s.last = true ∧ s.storedRem = cnt then 1 else 0 })

/-- R350: one token decoded and applied. A literal and a back-reference are output and recorded, a distance beyond
WVALID is a DATA_ERROR with the token consumed, a hold for output space leaves even the token unread, and the end of
the final block is STREAM_END. -/
def Obligations.BfInflateAppliesTheToken : Prop :=
  ∀ (s : State) (tok : Coded) (rest : List Bool), s.decoding → s.TablesOk →
    s.out.obits = 0 → s.la = [] → s.hdLL.valid = true → s.hdDist.valid = true →
    tok.legal s.hdLL.coded s.hdDist.coded → s.inp.stream = tok.bits s.hdLL.coded s.hdDist.coded ++ rest →
    let p := s.inp.advance (tok.bits s.hdLL.coded s.hdDist.coded).length
    let s1 := s.withResults tok.results
    (∀ b, tok = .lit b →
      (s.hasRoom 1 → exec .bfInflate s = .next { s1 with
        inp := p, out := s.out.appended [b], hist := s.hist ++ [b], status := 0 }) ∧
      (¬ s.hasRoom 1 → exec .bfInflate s = .next { s with status := 0xFB })) ∧
    (∀ ls le ds de, tok = .backref ls le ds de →
      let len := lengthBase ls + le
      let dist := distBase ds + de
      (s.wvalid < dist → exec .bfInflate s = .next { s with inp := p, derr := true, status := 0xFD }) ∧
      (dist ≤ s.wvalid → ¬ s.hasRoom len → exec .bfInflate s = .next { s with status := 0xFB }) ∧
      (dist ≤ s.wvalid → s.hasRoom len → exec .bfInflate s = .next { s1 with
        inp := p, out := s.out.appended (copiedBytes s.hist len dist),
        hist := s.hist ++ copiedBytes s.hist len dist, status := 0 })) ∧
    (tok = .eob → exec .bfInflate s = .next { s1 with inp := p, status := if s.last then 1 else 0 })

/-! ## Invariants -/

/-- 10_state.md R43, R44: every step keeps the queues well formed. -/
def Obligations.EveryStepKeepsTheQueues : Prop :=
  ∀ s t : State, s.QueuesOk → step s = .next t → t.QueuesOk

/-- 10_state.md R42, R46, R47: every step keeps the configuration legal, the lookahead within LA_CAP and MF_BASE
within hist. -/
def Obligations.EveryStepKeepsTheWindow : Prop :=
  ∀ s t : State, s.WindowOk → step s = .next t → t.WindowOk

/-- 10_state.md R49, R50: every step keeps the code tables in shape, and a valid bit means that the codes, or the
decode structure, agree with the lengths. -/
def Obligations.EveryStepKeepsTheTables : Prop :=
  ∀ s t : State, s.TablesOk → step s = .next t → t.TablesOk

/-- The reset state meets the invariants, whatever OUT_CAP the instance has (log 2). -/
def Obligations.ResetMeetsTheInvariants : Prop :=
  State.reset.QueuesOk ∧ State.reset.WindowOk ∧ State.reset.TablesOk
end

