-- ==== Sys2Proof/Laws/Codes.lean ====
section
/-! SUPPORT. What the pieces of the code-length procedure, the run-length coder and the match search do, one lemma for
each, in the terms of Safety. -/

namespace Sys2Proof.Machine

/-! ## The two-node merge -/

theorem MergeNode.before_iff (a b : MergeNode) :
    a.before b = true ↔ a.weight < b.weight ∨ (a.weight = b.weight ∧ a.key < b.key) := by
  simp [MergeNode.before]

/-- `popLeast` takes one node out and keeps the others. -/
theorem popLeast_perm (m : MergeNode) (nodes : List MergeNode) :
    ((popLeast m nodes).1 :: (popLeast m nodes).2).Perm (m :: nodes) := by
  induction nodes generalizing m with
  | nil => exact .refl _
  | cons n rest ih =>
    simp only [popLeast]
    split
    · exact (List.Perm.swap _ _ _).trans (((ih n).cons m))
    · exact (List.Perm.swap _ _ _).trans (((ih m).cons n).trans (List.Perm.swap _ _ _))

/-- None of the nodes it keeps comes before the one it takes. -/
theorem popLeast_least (m : MergeNode) (nodes : List MergeNode) :
    ∀ x ∈ (popLeast m nodes).2, x.before (popLeast m nodes).1 = false := by
  induction nodes generalizing m with
  | nil => simp [popLeast]
  | cons n rest ih =>
    have first : ∀ k, (popLeast k rest).1 ∈ k :: rest := fun k =>
      (popLeast_perm k rest).mem_iff.1 (List.mem_cons_self ..)
    have least : ∀ k : MergeNode, k.before (popLeast k rest).1 = false := by
      intro k
      rcases List.mem_cons.1 ((popLeast_perm k rest).mem_iff.2 (List.mem_cons_self ..)) with h | h
      · rw [← h]; simp [MergeNode.before]
      · exact ih k _ h
    have trans : ∀ a b c : MergeNode, b.before a = true → b.before c = false → a.before c = false := by
      intro a b c hab hbc
      rw [← Bool.not_eq_true, MergeNode.before_iff] at *
      omega
    simp only [popLeast]
    split
    · rename_i hn
      intro x hx
      rcases List.mem_cons.1 hx with rfl | hx
      · exact trans _ _ _ hn (least n)
      · exact ih n x hx
    · rename_i hn
      intro x hx
      rcases List.mem_cons.1 hx with rfl | hx
      · have hm := least m
        show x.before (popLeast m rest).1 = false
        rw [← Bool.not_eq_true, MergeNode.before_iff] at *
        omega
      · exact ih m x hx

/-! ## The choice of a leaf -/

/-- `chooseLeaf` finds nothing only where nothing is admitted. -/
theorem chooseLeaf_none {ok : Leaf → Bool} {better : Leaf → Leaf → Bool} {leaves : List Leaf} :
    chooseLeaf ok better leaves = none ↔ ∀ x ∈ leaves, ok x = false := by
  induction leaves with
  | nil => simp [chooseLeaf]
  | cons x rest ih =>
    simp only [chooseLeaf, List.forall_mem_cons, ← ih]
    cases h : chooseLeaf ok better rest <;> cases hx : ok x <;> simp
    split <;> simp

/-- What it finds is admitted, and no other admitted leaf is better, for an order that is transitive and total. -/
theorem chooseLeaf_some {ok : Leaf → Bool} {better : Leaf → Leaf → Bool} {leaves : List Leaf} {y : Leaf}
    (trans : ∀ a b c, better a b = true → better c b = false → better c a = false)
    (irrefl : ∀ a, better a a = false)
    (h : chooseLeaf ok better leaves = some y) :
    y ∈ leaves ∧ ok y = true ∧ ∀ x ∈ leaves, ok x = true → better x y = false := by
  induction leaves generalizing y with
  | nil => simp [chooseLeaf] at h
  | cons x rest ih =>
    simp only [chooseLeaf] at h
    split at h
    · rename_i hr
      split at h
      · cases h
        rename_i hx
        refine ⟨List.mem_cons_self .., hx, ?_⟩
        intro z hz hok
        rcases List.mem_cons.1 hz with rfl | hz
        · exact irrefl _
        · simp [chooseLeaf_none.1 hr z hz] at hok
      · cases h
    · rename_i w hr
      obtain ⟨hm, hok, hbest⟩ := ih hr
      split at h
      · cases h
        rename_i hx
        simp only [Bool.and_eq_true] at hx
        refine ⟨List.mem_cons_self .., hx.1, ?_⟩
        intro z hz hz'
        rcases List.mem_cons.1 hz with rfl | hz
        · exact irrefl _
        · exact trans _ _ _ hx.2 (hbest z hz hz')
      · cases h
        rename_i hx
        refine ⟨List.mem_cons_of_mem _ hm, hok, ?_⟩
        intro z hz hz'
        rcases List.mem_cons.1 hz with rfl | hz
        · simpa [hz'] using hx
        · exact hbest z hz hz'

/-- R228's order meets what `chooseLeaf_some` asks. -/
theorem lengthenFirst_order :
    (∀ a b c, lengthenFirst a b = true → lengthenFirst c b = false → lengthenFirst c a = false) ∧
      ∀ a, lengthenFirst a a = false := by
  constructor
  · intro a b c h1 h2
    rw [← Bool.not_eq_true] at *
    simp only [lengthenFirst, Bool.or_eq_true, Bool.and_eq_true, decide_eq_true_eq, beq_iff_eq] at *
    omega
  · simp [lengthenFirst]

/-- R229's order meets what `chooseLeaf_some` asks. -/
theorem shortenFirst_order :
    (∀ a b c, shortenFirst a b = true → shortenFirst c b = false → shortenFirst c a = false) ∧
      ∀ a, shortenFirst a a = false := by
  constructor
  · intro a b c h1 h2
    rw [← Bool.not_eq_true] at *
    simp only [shortenFirst, Bool.or_eq_true, Bool.and_eq_true, decide_eq_true_eq, beq_iff_eq] at *
    omega
  · simp [shortenFirst]

/-! ## The run-length coder -/

theorem rleZeros_items (fuel run : Nat) (h : run ≤ fuel) : ZeroItems run (rleZeros fuel run) := by
  induction fuel generalizing run with
  | zero => exact .single run (by omega)
  | succ fuel ih =>
    simp only [rleZeros]
    split
    · exact .long run _ ‹_› (ih _ (by omega))
    · split
      · exact .short run ‹_› (by omega)
      · exact .single run (by omega)

theorem rleRepeats_items (cur fuel run : Nat) (h : run ≤ fuel) : RepeatItems cur run (rleRepeats cur fuel run) := by
  induction fuel generalizing run with
  | zero => exact .single run (by omega)
  | succ fuel ih =>
    simp only [rleRepeats]
    split
    · exact .long run _ ‹_› (ih _ (by omega))
    · exact .single run (by omega)

/-- A run and what follows it, which does not start with the run's value. -/
theorem runLength_spec (x : Nat) (seq : List Nat) :
    seq = List.replicate (runLength x seq) x ++ seq.drop (runLength x seq) ∧
      (seq.drop (runLength x seq)).head? ≠ some x := by
  induction seq with
  | nil => simp [runLength]
  | cons y ys ih =>
    by_cases h : y = x
    · subst h
      simp only [runLength, if_pos, List.replicate_succ, List.drop_succ_cons, List.cons_append]
      exact ⟨congrArg _ ih.1, ih.2⟩
    · simp [runLength, h]

/-! ## The match search -/

/-- `matchLen` counts the places up to the first mismatch. -/
theorem matchLen_eq (n : Nat) (xs ys : List Byte) (hx : n ≤ xs.length) (hy : n ≤ ys.length) :
    matchLen n xs ys = ((List.range n).takeWhile fun i => xs.getD i 0 == ys.getD i 0).length := by
  induction n generalizing xs ys with
  | zero => simp [matchLen]
  | succ n ih =>
    match xs, ys with
    | x :: xs, y :: ys =>
      simp only [List.length_cons, Nat.add_le_add_iff_right] at hx hy
      rw [matchLen, List.range_succ_eq_map, List.takeWhile_cons]
      by_cases h : x = y
      · simp [h, ih xs ys hx hy, List.takeWhile_map, Function.comp_def]
      · simp [h]

end Sys2Proof.Machine
end

