-- ==== Sys2Proof/Laws/State.lean ====
section
/-! SUPPORT. The small lemmas of State: one per field per named update, true by rfl, so that no later proof unfolds
a record update. -/

namespace Sys2Proof.Machine

/-! ## withStatus -/

@[simp] theorem State.withStatus_status (s : State) (st : Status) : (s.withStatus st).status = st.code := rfl
@[simp] theorem State.withStatus_res0 (s : State) (st : Status) : (s.withStatus st).res0 = s.res0 := rfl
@[simp] theorem State.withStatus_res1 (s : State) (st : Status) : (s.withStatus st).res1 = s.res1 := rfl
@[simp] theorem State.withStatus_res2 (s : State) (st : Status) : (s.withStatus st).res2 = s.res2 := rfl
@[simp] theorem State.withStatus_res3 (s : State) (st : Status) : (s.withStatus st).res3 = s.res3 := rfl
@[simp] theorem State.withStatus_derr (s : State) (st : Status) : (s.withStatus st).derr = s.derr := rfl
@[simp] theorem State.withStatus_needDict (s : State) (st : Status) : (s.withStatus st).needDict = s.needDict := rfl
@[simp] theorem State.withStatus_last (s : State) (st : Status) : (s.withStatus st).last = s.last := rfl
@[simp] theorem State.withStatus_ended (s : State) (st : Status) : (s.withStatus st).ended = s.ended := rfl
@[simp] theorem State.withStatus_storedRem (s : State) (st : Status) : (s.withStatus st).storedRem = s.storedRem := rfl
@[simp] theorem State.withStatus_dictId (s : State) (st : Status) : (s.withStatus st).dictId = s.dictId := rfl
@[simp] theorem State.withStatus_dictExpect (s : State) (st : Status) : (s.withStatus st).dictExpect = s.dictExpect := rfl
@[simp] theorem State.withStatus_cfg (s : State) (st : Status) : (s.withStatus st).cfg = s.cfg := rfl
@[simp] theorem State.withStatus_inp (s : State) (st : Status) : (s.withStatus st).inp = s.inp := rfl
@[simp] theorem State.withStatus_out (s : State) (st : Status) : (s.withStatus st).out = s.out := rfl
@[simp] theorem State.withStatus_hist (s : State) (st : Status) : (s.withStatus st).hist = s.hist := rfl
@[simp] theorem State.withStatus_la (s : State) (st : Status) : (s.withStatus st).la = s.la := rfl
@[simp] theorem State.withStatus_mfBase (s : State) (st : Status) : (s.withStatus st).mfBase = s.mfBase := rfl
@[simp] theorem State.withStatus_heLL (s : State) (st : Status) : (s.withStatus st).heLL = s.heLL := rfl
@[simp] theorem State.withStatus_heDist (s : State) (st : Status) : (s.withStatus st).heDist = s.heDist := rfl
@[simp] theorem State.withStatus_heCl (s : State) (st : Status) : (s.withStatus st).heCl = s.heCl := rfl
@[simp] theorem State.withStatus_hdLL (s : State) (st : Status) : (s.withStatus st).hdLL = s.hdLL := rfl
@[simp] theorem State.withStatus_hdDist (s : State) (st : Status) : (s.withStatus st).hdDist = s.hdDist := rfl
@[simp] theorem State.withStatus_hdCl (s : State) (st : Status) : (s.withStatus st).hdCl = s.hdCl := rfl
@[simp] theorem State.withStatus_outCap (s : State) (st : Status) : (s.withStatus st).outCap = s.outCap := rfl
@[simp] theorem State.withStatus_port (s : State) (st : Status) : (s.withStatus st).port = s.port := rfl

/-! ## markDerr -/

@[simp] theorem State.markDerr_status (s : State) : (s.markDerr).status = s.status := rfl
@[simp] theorem State.markDerr_res0 (s : State) : (s.markDerr).res0 = s.res0 := rfl
@[simp] theorem State.markDerr_res1 (s : State) : (s.markDerr).res1 = s.res1 := rfl
@[simp] theorem State.markDerr_res2 (s : State) : (s.markDerr).res2 = s.res2 := rfl
@[simp] theorem State.markDerr_res3 (s : State) : (s.markDerr).res3 = s.res3 := rfl
@[simp] theorem State.markDerr_derr (s : State) : (s.markDerr).derr = true := rfl
@[simp] theorem State.markDerr_needDict (s : State) : (s.markDerr).needDict = s.needDict := rfl
@[simp] theorem State.markDerr_last (s : State) : (s.markDerr).last = s.last := rfl
@[simp] theorem State.markDerr_ended (s : State) : (s.markDerr).ended = s.ended := rfl
@[simp] theorem State.markDerr_storedRem (s : State) : (s.markDerr).storedRem = s.storedRem := rfl
@[simp] theorem State.markDerr_dictId (s : State) : (s.markDerr).dictId = s.dictId := rfl
@[simp] theorem State.markDerr_dictExpect (s : State) : (s.markDerr).dictExpect = s.dictExpect := rfl
@[simp] theorem State.markDerr_cfg (s : State) : (s.markDerr).cfg = s.cfg := rfl
@[simp] theorem State.markDerr_inp (s : State) : (s.markDerr).inp = s.inp := rfl
@[simp] theorem State.markDerr_out (s : State) : (s.markDerr).out = s.out := rfl
@[simp] theorem State.markDerr_hist (s : State) : (s.markDerr).hist = s.hist := rfl
@[simp] theorem State.markDerr_la (s : State) : (s.markDerr).la = s.la := rfl
@[simp] theorem State.markDerr_mfBase (s : State) : (s.markDerr).mfBase = s.mfBase := rfl
@[simp] theorem State.markDerr_heLL (s : State) : (s.markDerr).heLL = s.heLL := rfl
@[simp] theorem State.markDerr_heDist (s : State) : (s.markDerr).heDist = s.heDist := rfl
@[simp] theorem State.markDerr_heCl (s : State) : (s.markDerr).heCl = s.heCl := rfl
@[simp] theorem State.markDerr_hdLL (s : State) : (s.markDerr).hdLL = s.hdLL := rfl
@[simp] theorem State.markDerr_hdDist (s : State) : (s.markDerr).hdDist = s.hdDist := rfl
@[simp] theorem State.markDerr_hdCl (s : State) : (s.markDerr).hdCl = s.hdCl := rfl
@[simp] theorem State.markDerr_outCap (s : State) : (s.markDerr).outCap = s.outCap := rfl
@[simp] theorem State.markDerr_port (s : State) : (s.markDerr).port = s.port := rfl

/-! ## setToken -/

@[simp] theorem State.setToken_status (s : State) (k : TokenKind) (b l d : Nat) : (s.setToken k b l d).status = s.status := rfl
@[simp] theorem State.setToken_res0 (s : State) (k : TokenKind) (b l d : Nat) : (s.setToken k b l d).res0 = BitVec.ofNat 32 b := rfl
@[simp] theorem State.setToken_res1 (s : State) (k : TokenKind) (b l d : Nat) : (s.setToken k b l d).res1 = BitVec.ofNat 9 l := rfl
@[simp] theorem State.setToken_res2 (s : State) (k : TokenKind) (b l d : Nat) : (s.setToken k b l d).res2 = BitVec.ofNat 16 d := rfl
@[simp] theorem State.setToken_res3 (s : State) (k : TokenKind) (b l d : Nat) : (s.setToken k b l d).res3 = k.code := rfl
@[simp] theorem State.setToken_derr (s : State) (k : TokenKind) (b l d : Nat) : (s.setToken k b l d).derr = s.derr := rfl
@[simp] theorem State.setToken_needDict (s : State) (k : TokenKind) (b l d : Nat) : (s.setToken k b l d).needDict = s.needDict := rfl
@[simp] theorem State.setToken_last (s : State) (k : TokenKind) (b l d : Nat) : (s.setToken k b l d).last = s.last := rfl
@[simp] theorem State.setToken_ended (s : State) (k : TokenKind) (b l d : Nat) : (s.setToken k b l d).ended = s.ended := rfl
@[simp] theorem State.setToken_storedRem (s : State) (k : TokenKind) (b l d : Nat) : (s.setToken k b l d).storedRem = s.storedRem := rfl
@[simp] theorem State.setToken_dictId (s : State) (k : TokenKind) (b l d : Nat) : (s.setToken k b l d).dictId = s.dictId := rfl
@[simp] theorem State.setToken_dictExpect (s : State) (k : TokenKind) (b l d : Nat) : (s.setToken k b l d).dictExpect = s.dictExpect := rfl
@[simp] theorem State.setToken_cfg (s : State) (k : TokenKind) (b l d : Nat) : (s.setToken k b l d).cfg = s.cfg := rfl
@[simp] theorem State.setToken_inp (s : State) (k : TokenKind) (b l d : Nat) : (s.setToken k b l d).inp = s.inp := rfl
@[simp] theorem State.setToken_out (s : State) (k : TokenKind) (b l d : Nat) : (s.setToken k b l d).out = s.out := rfl
@[simp] theorem State.setToken_hist (s : State) (k : TokenKind) (b l d : Nat) : (s.setToken k b l d).hist = s.hist := rfl
@[simp] theorem State.setToken_la (s : State) (k : TokenKind) (b l d : Nat) : (s.setToken k b l d).la = s.la := rfl
@[simp] theorem State.setToken_mfBase (s : State) (k : TokenKind) (b l d : Nat) : (s.setToken k b l d).mfBase = s.mfBase := rfl
@[simp] theorem State.setToken_heLL (s : State) (k : TokenKind) (b l d : Nat) : (s.setToken k b l d).heLL = s.heLL := rfl
@[simp] theorem State.setToken_heDist (s : State) (k : TokenKind) (b l d : Nat) : (s.setToken k b l d).heDist = s.heDist := rfl
@[simp] theorem State.setToken_heCl (s : State) (k : TokenKind) (b l d : Nat) : (s.setToken k b l d).heCl = s.heCl := rfl
@[simp] theorem State.setToken_hdLL (s : State) (k : TokenKind) (b l d : Nat) : (s.setToken k b l d).hdLL = s.hdLL := rfl
@[simp] theorem State.setToken_hdDist (s : State) (k : TokenKind) (b l d : Nat) : (s.setToken k b l d).hdDist = s.hdDist := rfl
@[simp] theorem State.setToken_hdCl (s : State) (k : TokenKind) (b l d : Nat) : (s.setToken k b l d).hdCl = s.hdCl := rfl
@[simp] theorem State.setToken_outCap (s : State) (k : TokenKind) (b l d : Nat) : (s.setToken k b l d).outCap = s.outCap := rfl
@[simp] theorem State.setToken_port (s : State) (k : TokenKind) (b l d : Nat) : (s.setToken k b l d).port = s.port := rfl

/-! ## emitAndRecord -/

@[simp] theorem State.emitAndRecord_status (s : State) (b : Byte) : (s.emitAndRecord b).status = s.status := rfl
@[simp] theorem State.emitAndRecord_res0 (s : State) (b : Byte) : (s.emitAndRecord b).res0 = s.res0 := rfl
@[simp] theorem State.emitAndRecord_res1 (s : State) (b : Byte) : (s.emitAndRecord b).res1 = s.res1 := rfl
@[simp] theorem State.emitAndRecord_res2 (s : State) (b : Byte) : (s.emitAndRecord b).res2 = s.res2 := rfl
@[simp] theorem State.emitAndRecord_res3 (s : State) (b : Byte) : (s.emitAndRecord b).res3 = s.res3 := rfl
@[simp] theorem State.emitAndRecord_derr (s : State) (b : Byte) : (s.emitAndRecord b).derr = s.derr := rfl
@[simp] theorem State.emitAndRecord_needDict (s : State) (b : Byte) : (s.emitAndRecord b).needDict = s.needDict := rfl
@[simp] theorem State.emitAndRecord_last (s : State) (b : Byte) : (s.emitAndRecord b).last = s.last := rfl
@[simp] theorem State.emitAndRecord_ended (s : State) (b : Byte) : (s.emitAndRecord b).ended = s.ended := rfl
@[simp] theorem State.emitAndRecord_storedRem (s : State) (b : Byte) : (s.emitAndRecord b).storedRem = s.storedRem := rfl
@[simp] theorem State.emitAndRecord_dictId (s : State) (b : Byte) : (s.emitAndRecord b).dictId = s.dictId := rfl
@[simp] theorem State.emitAndRecord_dictExpect (s : State) (b : Byte) : (s.emitAndRecord b).dictExpect = s.dictExpect := rfl
@[simp] theorem State.emitAndRecord_cfg (s : State) (b : Byte) : (s.emitAndRecord b).cfg = s.cfg := rfl
@[simp] theorem State.emitAndRecord_inp (s : State) (b : Byte) : (s.emitAndRecord b).inp = s.inp := rfl
@[simp] theorem State.emitAndRecord_out (s : State) (b : Byte) : (s.emitAndRecord b).out = s.out.putByte b := rfl
@[simp] theorem State.emitAndRecord_hist (s : State) (b : Byte) : (s.emitAndRecord b).hist = s.hist ++ [b] := rfl
@[simp] theorem State.emitAndRecord_la (s : State) (b : Byte) : (s.emitAndRecord b).la = s.la := rfl
@[simp] theorem State.emitAndRecord_mfBase (s : State) (b : Byte) : (s.emitAndRecord b).mfBase = s.mfBase := rfl
@[simp] theorem State.emitAndRecord_heLL (s : State) (b : Byte) : (s.emitAndRecord b).heLL = s.heLL := rfl
@[simp] theorem State.emitAndRecord_heDist (s : State) (b : Byte) : (s.emitAndRecord b).heDist = s.heDist := rfl
@[simp] theorem State.emitAndRecord_heCl (s : State) (b : Byte) : (s.emitAndRecord b).heCl = s.heCl := rfl
@[simp] theorem State.emitAndRecord_hdLL (s : State) (b : Byte) : (s.emitAndRecord b).hdLL = s.hdLL := rfl
@[simp] theorem State.emitAndRecord_hdDist (s : State) (b : Byte) : (s.emitAndRecord b).hdDist = s.hdDist := rfl
@[simp] theorem State.emitAndRecord_hdCl (s : State) (b : Byte) : (s.emitAndRecord b).hdCl = s.hdCl := rfl
@[simp] theorem State.emitAndRecord_outCap (s : State) (b : Byte) : (s.emitAndRecord b).outCap = s.outCap := rfl
@[simp] theorem State.emitAndRecord_port (s : State) (b : Byte) : (s.emitAndRecord b).port = s.port := rfl

/-! ## tokenise -/

@[simp] theorem State.tokenise_status (s : State) (n : Nat) : (s.tokenise n).status = s.status := rfl
@[simp] theorem State.tokenise_res0 (s : State) (n : Nat) : (s.tokenise n).res0 = s.res0 := rfl
@[simp] theorem State.tokenise_res1 (s : State) (n : Nat) : (s.tokenise n).res1 = s.res1 := rfl
@[simp] theorem State.tokenise_res2 (s : State) (n : Nat) : (s.tokenise n).res2 = s.res2 := rfl
@[simp] theorem State.tokenise_res3 (s : State) (n : Nat) : (s.tokenise n).res3 = s.res3 := rfl
@[simp] theorem State.tokenise_derr (s : State) (n : Nat) : (s.tokenise n).derr = s.derr := rfl
@[simp] theorem State.tokenise_needDict (s : State) (n : Nat) : (s.tokenise n).needDict = s.needDict := rfl
@[simp] theorem State.tokenise_last (s : State) (n : Nat) : (s.tokenise n).last = s.last := rfl
@[simp] theorem State.tokenise_ended (s : State) (n : Nat) : (s.tokenise n).ended = s.ended := rfl
@[simp] theorem State.tokenise_storedRem (s : State) (n : Nat) : (s.tokenise n).storedRem = s.storedRem := rfl
@[simp] theorem State.tokenise_dictId (s : State) (n : Nat) : (s.tokenise n).dictId = s.dictId := rfl
@[simp] theorem State.tokenise_dictExpect (s : State) (n : Nat) : (s.tokenise n).dictExpect = s.dictExpect := rfl
@[simp] theorem State.tokenise_cfg (s : State) (n : Nat) : (s.tokenise n).cfg = s.cfg := rfl
@[simp] theorem State.tokenise_inp (s : State) (n : Nat) : (s.tokenise n).inp = s.inp := rfl
@[simp] theorem State.tokenise_out (s : State) (n : Nat) : (s.tokenise n).out = s.out := rfl
@[simp] theorem State.tokenise_hist (s : State) (n : Nat) : (s.tokenise n).hist = s.hist ++ s.la.take n := rfl
@[simp] theorem State.tokenise_la (s : State) (n : Nat) : (s.tokenise n).la = s.la.drop n := rfl
@[simp] theorem State.tokenise_mfBase (s : State) (n : Nat) : (s.tokenise n).mfBase = s.mfBase := rfl
@[simp] theorem State.tokenise_heLL (s : State) (n : Nat) : (s.tokenise n).heLL = s.heLL := rfl
@[simp] theorem State.tokenise_heDist (s : State) (n : Nat) : (s.tokenise n).heDist = s.heDist := rfl
@[simp] theorem State.tokenise_heCl (s : State) (n : Nat) : (s.tokenise n).heCl = s.heCl := rfl
@[simp] theorem State.tokenise_hdLL (s : State) (n : Nat) : (s.tokenise n).hdLL = s.hdLL := rfl
@[simp] theorem State.tokenise_hdDist (s : State) (n : Nat) : (s.tokenise n).hdDist = s.hdDist := rfl
@[simp] theorem State.tokenise_hdCl (s : State) (n : Nat) : (s.tokenise n).hdCl = s.hdCl := rfl
@[simp] theorem State.tokenise_outCap (s : State) (n : Nat) : (s.tokenise n).outCap = s.outCap := rfl
@[simp] theorem State.tokenise_port (s : State) (n : Nat) : (s.tokenise n).port = s.port := rfl

/-! ## clearStream -/

@[simp] theorem State.clearStream_status (s : State) : (s.clearStream).status = s.status := rfl
@[simp] theorem State.clearStream_res0 (s : State) : (s.clearStream).res0 = s.res0 := rfl
@[simp] theorem State.clearStream_res1 (s : State) : (s.clearStream).res1 = s.res1 := rfl
@[simp] theorem State.clearStream_res2 (s : State) : (s.clearStream).res2 = s.res2 := rfl
@[simp] theorem State.clearStream_res3 (s : State) : (s.clearStream).res3 = s.res3 := rfl
@[simp] theorem State.clearStream_derr (s : State) : (s.clearStream).derr = s.derr := rfl
@[simp] theorem State.clearStream_needDict (s : State) : (s.clearStream).needDict = s.needDict := rfl
@[simp] theorem State.clearStream_last (s : State) : (s.clearStream).last = s.last := rfl
@[simp] theorem State.clearStream_ended (s : State) : (s.clearStream).ended = s.ended := rfl
@[simp] theorem State.clearStream_storedRem (s : State) : (s.clearStream).storedRem = s.storedRem := rfl
@[simp] theorem State.clearStream_dictId (s : State) : (s.clearStream).dictId = s.dictId := rfl
@[simp] theorem State.clearStream_dictExpect (s : State) : (s.clearStream).dictExpect = s.dictExpect := rfl
@[simp] theorem State.clearStream_cfg (s : State) : (s.clearStream).cfg = s.cfg := rfl
@[simp] theorem State.clearStream_inp (s : State) : (s.clearStream).inp = s.inp := rfl
@[simp] theorem State.clearStream_out (s : State) : (s.clearStream).out = s.out := rfl
@[simp] theorem State.clearStream_hist (s : State) : (s.clearStream).hist = [] := rfl
@[simp] theorem State.clearStream_la (s : State) : (s.clearStream).la = [] := rfl
@[simp] theorem State.clearStream_mfBase (s : State) : (s.clearStream).mfBase = 0 := rfl
@[simp] theorem State.clearStream_heLL (s : State) : (s.clearStream).heLL = s.heLL := rfl
@[simp] theorem State.clearStream_heDist (s : State) : (s.clearStream).heDist = s.heDist := rfl
@[simp] theorem State.clearStream_heCl (s : State) : (s.clearStream).heCl = s.heCl := rfl
@[simp] theorem State.clearStream_hdLL (s : State) : (s.clearStream).hdLL = s.hdLL := rfl
@[simp] theorem State.clearStream_hdDist (s : State) : (s.clearStream).hdDist = s.hdDist := rfl
@[simp] theorem State.clearStream_hdCl (s : State) : (s.clearStream).hdCl = s.hdCl := rfl
@[simp] theorem State.clearStream_outCap (s : State) : (s.clearStream).outCap = s.outCap := rfl
@[simp] theorem State.clearStream_port (s : State) : (s.clearStream).port = s.port := rfl

/-! ## invalidateDec -/

@[simp] theorem State.invalidateDec_status (s : State) : (s.invalidateDec).status = s.status := rfl
@[simp] theorem State.invalidateDec_res0 (s : State) : (s.invalidateDec).res0 = s.res0 := rfl
@[simp] theorem State.invalidateDec_res1 (s : State) : (s.invalidateDec).res1 = s.res1 := rfl
@[simp] theorem State.invalidateDec_res2 (s : State) : (s.invalidateDec).res2 = s.res2 := rfl
@[simp] theorem State.invalidateDec_res3 (s : State) : (s.invalidateDec).res3 = s.res3 := rfl
@[simp] theorem State.invalidateDec_derr (s : State) : (s.invalidateDec).derr = s.derr := rfl
@[simp] theorem State.invalidateDec_needDict (s : State) : (s.invalidateDec).needDict = s.needDict := rfl
@[simp] theorem State.invalidateDec_last (s : State) : (s.invalidateDec).last = s.last := rfl
@[simp] theorem State.invalidateDec_ended (s : State) : (s.invalidateDec).ended = s.ended := rfl
@[simp] theorem State.invalidateDec_storedRem (s : State) : (s.invalidateDec).storedRem = s.storedRem := rfl
@[simp] theorem State.invalidateDec_dictId (s : State) : (s.invalidateDec).dictId = s.dictId := rfl
@[simp] theorem State.invalidateDec_dictExpect (s : State) : (s.invalidateDec).dictExpect = s.dictExpect := rfl
@[simp] theorem State.invalidateDec_cfg (s : State) : (s.invalidateDec).cfg = s.cfg := rfl
@[simp] theorem State.invalidateDec_inp (s : State) : (s.invalidateDec).inp = s.inp := rfl
@[simp] theorem State.invalidateDec_out (s : State) : (s.invalidateDec).out = s.out := rfl
@[simp] theorem State.invalidateDec_hist (s : State) : (s.invalidateDec).hist = s.hist := rfl
@[simp] theorem State.invalidateDec_la (s : State) : (s.invalidateDec).la = s.la := rfl
@[simp] theorem State.invalidateDec_mfBase (s : State) : (s.invalidateDec).mfBase = s.mfBase := rfl
@[simp] theorem State.invalidateDec_heLL (s : State) : (s.invalidateDec).heLL = s.heLL := rfl
@[simp] theorem State.invalidateDec_heDist (s : State) : (s.invalidateDec).heDist = s.heDist := rfl
@[simp] theorem State.invalidateDec_heCl (s : State) : (s.invalidateDec).heCl = s.heCl := rfl
@[simp] theorem State.invalidateDec_hdLL (s : State) : (s.invalidateDec).hdLL = s.hdLL.invalid := rfl
@[simp] theorem State.invalidateDec_hdDist (s : State) : (s.invalidateDec).hdDist = s.hdDist.invalid := rfl
@[simp] theorem State.invalidateDec_hdCl (s : State) : (s.invalidateDec).hdCl = s.hdCl.invalid := rfl
@[simp] theorem State.invalidateDec_outCap (s : State) : (s.invalidateDec).outCap = s.outCap := rfl
@[simp] theorem State.invalidateDec_port (s : State) : (s.invalidateDec).port = s.port := rfl

/-! ## hostAppend -/

@[simp] theorem State.hostAppend_status (s : State) (bs : List Byte) : (s.hostAppend bs).status = s.status := rfl
@[simp] theorem State.hostAppend_res0 (s : State) (bs : List Byte) : (s.hostAppend bs).res0 = s.res0 := rfl
@[simp] theorem State.hostAppend_res1 (s : State) (bs : List Byte) : (s.hostAppend bs).res1 = s.res1 := rfl
@[simp] theorem State.hostAppend_res2 (s : State) (bs : List Byte) : (s.hostAppend bs).res2 = s.res2 := rfl
@[simp] theorem State.hostAppend_res3 (s : State) (bs : List Byte) : (s.hostAppend bs).res3 = s.res3 := rfl
@[simp] theorem State.hostAppend_derr (s : State) (bs : List Byte) : (s.hostAppend bs).derr = s.derr := rfl
@[simp] theorem State.hostAppend_needDict (s : State) (bs : List Byte) : (s.hostAppend bs).needDict = s.needDict := rfl
@[simp] theorem State.hostAppend_last (s : State) (bs : List Byte) : (s.hostAppend bs).last = s.last := rfl
@[simp] theorem State.hostAppend_ended (s : State) (bs : List Byte) : (s.hostAppend bs).ended = s.ended := rfl
@[simp] theorem State.hostAppend_storedRem (s : State) (bs : List Byte) : (s.hostAppend bs).storedRem = s.storedRem := rfl
@[simp] theorem State.hostAppend_dictId (s : State) (bs : List Byte) : (s.hostAppend bs).dictId = s.dictId := rfl
@[simp] theorem State.hostAppend_dictExpect (s : State) (bs : List Byte) : (s.hostAppend bs).dictExpect = s.dictExpect := rfl
@[simp] theorem State.hostAppend_cfg (s : State) (bs : List Byte) : (s.hostAppend bs).cfg = s.cfg := rfl
@[simp] theorem State.hostAppend_inp (s : State) (bs : List Byte) : (s.hostAppend bs).inp = { s.inp with inq := s.inp.inq ++ bs } := rfl
@[simp] theorem State.hostAppend_out (s : State) (bs : List Byte) : (s.hostAppend bs).out = s.out := rfl
@[simp] theorem State.hostAppend_hist (s : State) (bs : List Byte) : (s.hostAppend bs).hist = s.hist := rfl
@[simp] theorem State.hostAppend_la (s : State) (bs : List Byte) : (s.hostAppend bs).la = s.la := rfl
@[simp] theorem State.hostAppend_mfBase (s : State) (bs : List Byte) : (s.hostAppend bs).mfBase = s.mfBase := rfl
@[simp] theorem State.hostAppend_heLL (s : State) (bs : List Byte) : (s.hostAppend bs).heLL = s.heLL := rfl
@[simp] theorem State.hostAppend_heDist (s : State) (bs : List Byte) : (s.hostAppend bs).heDist = s.heDist := rfl
@[simp] theorem State.hostAppend_heCl (s : State) (bs : List Byte) : (s.hostAppend bs).heCl = s.heCl := rfl
@[simp] theorem State.hostAppend_hdLL (s : State) (bs : List Byte) : (s.hostAppend bs).hdLL = s.hdLL := rfl
@[simp] theorem State.hostAppend_hdDist (s : State) (bs : List Byte) : (s.hostAppend bs).hdDist = s.hdDist := rfl
@[simp] theorem State.hostAppend_hdCl (s : State) (bs : List Byte) : (s.hostAppend bs).hdCl = s.hdCl := rfl
@[simp] theorem State.hostAppend_outCap (s : State) (bs : List Byte) : (s.hostAppend bs).outCap = s.outCap := rfl
@[simp] theorem State.hostAppend_port (s : State) (bs : List Byte) : (s.hostAppend bs).port = s.port := rfl

/-! ## hostRemove -/

@[simp] theorem State.hostRemove_status (s : State) (n : Nat) : (s.hostRemove n).status = s.status := rfl
@[simp] theorem State.hostRemove_res0 (s : State) (n : Nat) : (s.hostRemove n).res0 = s.res0 := rfl
@[simp] theorem State.hostRemove_res1 (s : State) (n : Nat) : (s.hostRemove n).res1 = s.res1 := rfl
@[simp] theorem State.hostRemove_res2 (s : State) (n : Nat) : (s.hostRemove n).res2 = s.res2 := rfl
@[simp] theorem State.hostRemove_res3 (s : State) (n : Nat) : (s.hostRemove n).res3 = s.res3 := rfl
@[simp] theorem State.hostRemove_derr (s : State) (n : Nat) : (s.hostRemove n).derr = s.derr := rfl
@[simp] theorem State.hostRemove_needDict (s : State) (n : Nat) : (s.hostRemove n).needDict = s.needDict := rfl
@[simp] theorem State.hostRemove_last (s : State) (n : Nat) : (s.hostRemove n).last = s.last := rfl
@[simp] theorem State.hostRemove_ended (s : State) (n : Nat) : (s.hostRemove n).ended = s.ended := rfl
@[simp] theorem State.hostRemove_storedRem (s : State) (n : Nat) : (s.hostRemove n).storedRem = s.storedRem := rfl
@[simp] theorem State.hostRemove_dictId (s : State) (n : Nat) : (s.hostRemove n).dictId = s.dictId := rfl
@[simp] theorem State.hostRemove_dictExpect (s : State) (n : Nat) : (s.hostRemove n).dictExpect = s.dictExpect := rfl
@[simp] theorem State.hostRemove_cfg (s : State) (n : Nat) : (s.hostRemove n).cfg = s.cfg := rfl
@[simp] theorem State.hostRemove_inp (s : State) (n : Nat) : (s.hostRemove n).inp = s.inp := rfl
@[simp] theorem State.hostRemove_out (s : State) (n : Nat) : (s.hostRemove n).out = { s.out with outq := s.out.outq.drop n } := rfl
@[simp] theorem State.hostRemove_hist (s : State) (n : Nat) : (s.hostRemove n).hist = s.hist := rfl
@[simp] theorem State.hostRemove_la (s : State) (n : Nat) : (s.hostRemove n).la = s.la := rfl
@[simp] theorem State.hostRemove_mfBase (s : State) (n : Nat) : (s.hostRemove n).mfBase = s.mfBase := rfl
@[simp] theorem State.hostRemove_heLL (s : State) (n : Nat) : (s.hostRemove n).heLL = s.heLL := rfl
@[simp] theorem State.hostRemove_heDist (s : State) (n : Nat) : (s.hostRemove n).heDist = s.heDist := rfl
@[simp] theorem State.hostRemove_heCl (s : State) (n : Nat) : (s.hostRemove n).heCl = s.heCl := rfl
@[simp] theorem State.hostRemove_hdLL (s : State) (n : Nat) : (s.hostRemove n).hdLL = s.hdLL := rfl
@[simp] theorem State.hostRemove_hdDist (s : State) (n : Nat) : (s.hostRemove n).hdDist = s.hdDist := rfl
@[simp] theorem State.hostRemove_hdCl (s : State) (n : Nat) : (s.hostRemove n).hdCl = s.hdCl := rfl
@[simp] theorem State.hostRemove_outCap (s : State) (n : Nat) : (s.hostRemove n).outCap = s.outCap := rfl
@[simp] theorem State.hostRemove_port (s : State) (n : Nat) : (s.hostRemove n).port = s.port := rfl

/-! ## setEnc -/

@[simp] theorem State.setEnc_status (s : State) (a : Alphabet) (t : EncTable) : (s.setEnc a t).status = s.status := by
  cases a <;> rfl
@[simp] theorem State.setEnc_res0 (s : State) (a : Alphabet) (t : EncTable) : (s.setEnc a t).res0 = s.res0 := by
  cases a <;> rfl
@[simp] theorem State.setEnc_res1 (s : State) (a : Alphabet) (t : EncTable) : (s.setEnc a t).res1 = s.res1 := by
  cases a <;> rfl
@[simp] theorem State.setEnc_res2 (s : State) (a : Alphabet) (t : EncTable) : (s.setEnc a t).res2 = s.res2 := by
  cases a <;> rfl
@[simp] theorem State.setEnc_res3 (s : State) (a : Alphabet) (t : EncTable) : (s.setEnc a t).res3 = s.res3 := by
  cases a <;> rfl
@[simp] theorem State.setEnc_derr (s : State) (a : Alphabet) (t : EncTable) : (s.setEnc a t).derr = s.derr := by
  cases a <;> rfl
@[simp] theorem State.setEnc_needDict (s : State) (a : Alphabet) (t : EncTable) : (s.setEnc a t).needDict = s.needDict := by
  cases a <;> rfl
@[simp] theorem State.setEnc_last (s : State) (a : Alphabet) (t : EncTable) : (s.setEnc a t).last = s.last := by
  cases a <;> rfl
@[simp] theorem State.setEnc_ended (s : State) (a : Alphabet) (t : EncTable) : (s.setEnc a t).ended = s.ended := by
  cases a <;> rfl
@[simp] theorem State.setEnc_storedRem (s : State) (a : Alphabet) (t : EncTable) : (s.setEnc a t).storedRem = s.storedRem := by
  cases a <;> rfl
@[simp] theorem State.setEnc_dictId (s : State) (a : Alphabet) (t : EncTable) : (s.setEnc a t).dictId = s.dictId := by
  cases a <;> rfl
@[simp] theorem State.setEnc_dictExpect (s : State) (a : Alphabet) (t : EncTable) : (s.setEnc a t).dictExpect = s.dictExpect := by
  cases a <;> rfl
@[simp] theorem State.setEnc_cfg (s : State) (a : Alphabet) (t : EncTable) : (s.setEnc a t).cfg = s.cfg := by
  cases a <;> rfl
@[simp] theorem State.setEnc_inp (s : State) (a : Alphabet) (t : EncTable) : (s.setEnc a t).inp = s.inp := by
  cases a <;> rfl
@[simp] theorem State.setEnc_out (s : State) (a : Alphabet) (t : EncTable) : (s.setEnc a t).out = s.out := by
  cases a <;> rfl
@[simp] theorem State.setEnc_hist (s : State) (a : Alphabet) (t : EncTable) : (s.setEnc a t).hist = s.hist := by
  cases a <;> rfl
@[simp] theorem State.setEnc_la (s : State) (a : Alphabet) (t : EncTable) : (s.setEnc a t).la = s.la := by
  cases a <;> rfl
@[simp] theorem State.setEnc_mfBase (s : State) (a : Alphabet) (t : EncTable) : (s.setEnc a t).mfBase = s.mfBase := by
  cases a <;> rfl
@[simp] theorem State.setEnc_hdLL (s : State) (a : Alphabet) (t : EncTable) : (s.setEnc a t).hdLL = s.hdLL := by
  cases a <;> rfl
@[simp] theorem State.setEnc_hdDist (s : State) (a : Alphabet) (t : EncTable) : (s.setEnc a t).hdDist = s.hdDist := by
  cases a <;> rfl
@[simp] theorem State.setEnc_hdCl (s : State) (a : Alphabet) (t : EncTable) : (s.setEnc a t).hdCl = s.hdCl := by
  cases a <;> rfl
@[simp] theorem State.setEnc_outCap (s : State) (a : Alphabet) (t : EncTable) : (s.setEnc a t).outCap = s.outCap := by
  cases a <;> rfl
@[simp] theorem State.setEnc_port (s : State) (a : Alphabet) (t : EncTable) : (s.setEnc a t).port = s.port := by
  cases a <;> rfl

/-- Reading a table after one is replaced: the new one at its own alphabet, the old ones elsewhere. -/
@[simp] theorem State.enc_setEnc (s : State) (a b : Alphabet) (t : EncTable) :
    (s.setEnc a t).enc b = if b = a then t else s.enc b := by
  cases a <;> cases b <;> rfl

@[simp] theorem State.dec_setEnc (s : State) (a b : Alphabet) (t : EncTable) : (s.setEnc a t).dec b = s.dec b := by
  cases a <;> cases b <;> rfl

/-! ## setDec -/

@[simp] theorem State.setDec_status (s : State) (a : Alphabet) (t : DecTable) : (s.setDec a t).status = s.status := by
  cases a <;> rfl
@[simp] theorem State.setDec_res0 (s : State) (a : Alphabet) (t : DecTable) : (s.setDec a t).res0 = s.res0 := by
  cases a <;> rfl
@[simp] theorem State.setDec_res1 (s : State) (a : Alphabet) (t : DecTable) : (s.setDec a t).res1 = s.res1 := by
  cases a <;> rfl
@[simp] theorem State.setDec_res2 (s : State) (a : Alphabet) (t : DecTable) : (s.setDec a t).res2 = s.res2 := by
  cases a <;> rfl
@[simp] theorem State.setDec_res3 (s : State) (a : Alphabet) (t : DecTable) : (s.setDec a t).res3 = s.res3 := by
  cases a <;> rfl
@[simp] theorem State.setDec_derr (s : State) (a : Alphabet) (t : DecTable) : (s.setDec a t).derr = s.derr := by
  cases a <;> rfl
@[simp] theorem State.setDec_needDict (s : State) (a : Alphabet) (t : DecTable) : (s.setDec a t).needDict = s.needDict := by
  cases a <;> rfl
@[simp] theorem State.setDec_last (s : State) (a : Alphabet) (t : DecTable) : (s.setDec a t).last = s.last := by
  cases a <;> rfl
@[simp] theorem State.setDec_ended (s : State) (a : Alphabet) (t : DecTable) : (s.setDec a t).ended = s.ended := by
  cases a <;> rfl
@[simp] theorem State.setDec_storedRem (s : State) (a : Alphabet) (t : DecTable) : (s.setDec a t).storedRem = s.storedRem := by
  cases a <;> rfl
@[simp] theorem State.setDec_dictId (s : State) (a : Alphabet) (t : DecTable) : (s.setDec a t).dictId = s.dictId := by
  cases a <;> rfl
@[simp] theorem State.setDec_dictExpect (s : State) (a : Alphabet) (t : DecTable) : (s.setDec a t).dictExpect = s.dictExpect := by
  cases a <;> rfl
@[simp] theorem State.setDec_cfg (s : State) (a : Alphabet) (t : DecTable) : (s.setDec a t).cfg = s.cfg := by
  cases a <;> rfl
@[simp] theorem State.setDec_inp (s : State) (a : Alphabet) (t : DecTable) : (s.setDec a t).inp = s.inp := by
  cases a <;> rfl
@[simp] theorem State.setDec_out (s : State) (a : Alphabet) (t : DecTable) : (s.setDec a t).out = s.out := by
  cases a <;> rfl
@[simp] theorem State.setDec_hist (s : State) (a : Alphabet) (t : DecTable) : (s.setDec a t).hist = s.hist := by
  cases a <;> rfl
@[simp] theorem State.setDec_la (s : State) (a : Alphabet) (t : DecTable) : (s.setDec a t).la = s.la := by
  cases a <;> rfl
@[simp] theorem State.setDec_mfBase (s : State) (a : Alphabet) (t : DecTable) : (s.setDec a t).mfBase = s.mfBase := by
  cases a <;> rfl
@[simp] theorem State.setDec_heLL (s : State) (a : Alphabet) (t : DecTable) : (s.setDec a t).heLL = s.heLL := by
  cases a <;> rfl
@[simp] theorem State.setDec_heDist (s : State) (a : Alphabet) (t : DecTable) : (s.setDec a t).heDist = s.heDist := by
  cases a <;> rfl
@[simp] theorem State.setDec_heCl (s : State) (a : Alphabet) (t : DecTable) : (s.setDec a t).heCl = s.heCl := by
  cases a <;> rfl
@[simp] theorem State.setDec_outCap (s : State) (a : Alphabet) (t : DecTable) : (s.setDec a t).outCap = s.outCap := by
  cases a <;> rfl
@[simp] theorem State.setDec_port (s : State) (a : Alphabet) (t : DecTable) : (s.setDec a t).port = s.port := by
  cases a <;> rfl

/-- Reading a table after one is replaced: the new one at its own alphabet, the old ones elsewhere. -/
@[simp] theorem State.dec_setDec (s : State) (a b : Alphabet) (t : DecTable) :
    (s.setDec a t).dec b = if b = a then t else s.dec b := by
  cases a <;> cases b <;> rfl

@[simp] theorem State.enc_setDec (s : State) (a b : Alphabet) (t : DecTable) : (s.setDec a t).enc b = s.enc b := by
  cases a <;> cases b <;> rfl

end Sys2Proof.Machine
end

