-- ==== Sys2Proof/Laws/Ops.lean ====
section
/-! SUPPORT. One lemma per shared operation that says everything it can do: how a command ends, and the checks around
its body. Later proofs cite these instead of unfolding the operations. -/

namespace Sys2Proof.Machine

/-! ## How a command ends -/

theorem State.report_eq (s : State) (st : Status) : s.report st = .next (s.withStatus st) := rfl

@[simp] theorem State.report_next (s t : State) (st : Status) : s.report st = .next t ↔ t = s.withStatus st := by
  simp [State.report, eq_comm]

@[simp] theorem State.ok_next (s t : State) : s.ok = .next t ↔ t = s.withStatus .ok := by
  simp [State.ok]

@[simp] theorem State.streamError_next (s t : State) :
    s.streamError = .next t ↔ t = s.withStatus .streamError := by
  simp [State.streamError]

@[simp] theorem State.holdIn_next (s t : State) : s.holdIn = .next t ↔ t = s.withStatus .holdIn := by
  simp [State.holdIn]

@[simp] theorem State.holdOut_next (s t : State) : s.holdOut = .next t ↔ t = s.withStatus .bufError := by
  simp [State.holdOut]

@[simp] theorem State.dataError_next (s t : State) :
    s.dataError = .next t ↔ t = s.markDerr.withStatus .dataError := by
  simp [State.dataError]

theorem Status.code_injective : ∀ a b : Status, a.code = b.code → a = b := by
  intro a b; cases a <;> cases b <;> decide

/-! ## The checks before a command's body -/

theorem State.unlessEnded_next {s t : State} {k : Result} (h : s.unlessEnded k = .next t) :
    (s.ended = true ∧ t = s.withStatus .streamError) ∨ (s.ended = false ∧ k = .next t) := by
  cases he : s.ended <;> simp_all [State.unlessEnded]

@[simp] theorem State.unlessEnded_of_running {s : State} (h : s.running) (k : Result) : s.unlessEnded k = k := by
  simp [State.unlessEnded, show s.ended = false from h]

theorem State.gated_next {s t : State} {k : Result} (h : s.gated k = .next t) :
    (s.needDict = true ∧ t = s.withStatus .needDict) ∨
    (s.needDict = false ∧ s.derr = true ∧ t = s.withStatus .dataError) ∨
    (s.needDict = false ∧ s.derr = false ∧ k = .next t) := by
  unfold State.gated at h
  cases hn : s.needDict <;> cases hd : s.derr <;> simp_all

@[simp] theorem State.gated_of_decoding {s : State} (h : s.decoding) (k : Result) : s.gated k = k := by
  simp [State.gated, h.2.1, h.2.2]

theorem State.decoding.running {s : State} (h : s.decoding) : s.running := h.1

theorem State.require_next {s t : State} {ok : Bool} {k : Result} (h : s.require ok k = .next t) :
    (ok = false ∧ t = s.withStatus .streamError) ∨ (ok = true ∧ k = .next t) := by
  cases ok <;> simp_all [State.require]

@[simp] theorem State.require_true (s : State) (k : Result) : s.require true k = k := rfl

@[simp] theorem State.require_false (s : State) (k : Result) : s.require false k = s.streamError := rfl

theorem State.inRange_next {s t : State} {ok : Bool} {k : Result} (h : s.inRange ok k = .next t) :
    (ok = false ∧ t = s.withStatus .streamError) ∨ (ok = true ∧ k = .next t) := by
  cases ok <;> simp_all [State.inRange]

@[simp] theorem State.inRange_true (s : State) (k : Result) : s.inRange true k = k := rfl

@[simp] theorem State.inRange_false (s : State) (k : Result) : s.inRange false k = s.streamError := rfl

theorem State.onAlphabet_next {s t : State} {f : BitVec 2} {k : Alphabet → Result}
    (h : s.onAlphabet f k = .next t) :
    (Alphabet.ofField f = none ∧ t = s.withStatus .streamError) ∨
    ∃ a, Alphabet.ofField f = some a ∧ k a = .next t := by
  unfold State.onAlphabet at h
  split at h
  · exact .inr ⟨_, ‹_›, h⟩
  · exact .inl ⟨‹_›, by simpa using h⟩

@[simp] theorem State.onAlphabet_some {s : State} {f : BitVec 2} {a : Alphabet} (h : Alphabet.ofField f = some a)
    (k : Alphabet → Result) : s.onAlphabet f k = k a := by
  simp [State.onAlphabet, h]

theorem Alphabet.ofField_three : Alphabet.ofField 3 = none := by decide

/-- Reading either gives a value, holds, or commits the cursor and fails. -/
theorem State.afterRead_next {α : Type} {s t : State} {r : Read α} {k : α → InPort → Result}
    (h : s.afterRead r k = .next t) :
    (∃ a p, r = .done a p ∧ k a p = .next t) ∨
    (r = .short ∧ t = s.withStatus .holdIn) ∨
    (∃ p, r = .malformed p ∧ t = ({ s with inp := p } : State).markDerr.withStatus .dataError) := by
  cases r with
  | done a p => exact .inl ⟨a, p, rfl, h⟩
  | short => exact .inr (.inl ⟨rfl, by simpa [State.afterRead] using h⟩)
  | malformed p => exact .inr (.inr ⟨p, rfl, by simpa [State.afterRead] using h⟩)

/-! ## Output space -/

@[simp] theorem State.lacksRoom_eq_false (s : State) (n : Nat) : s.lacksRoom n = false ↔ s.hasRoom n := by
  simp [State.lacksRoom, State.hasRoom]

@[simp] theorem State.lacksRoom_eq_true (s : State) (n : Nat) : s.lacksRoom n = true ↔ ¬ s.hasRoom n := by
  simp [State.lacksRoom, State.hasRoom]

theorem State.sendBits_of_room {s : State} {bs : List Bool} (h : s.hasRoomForBits bs.length) :
    s.sendBits bs = .next (({ s with out := s.out.putAll bs } : State).withStatus .ok) := by
  have hf : s.lacksRoomForBits bs.length = false := by
    simpa [State.lacksRoomForBits, State.hasRoomForBits] using h
  simp [State.sendBits, hf]

theorem State.sendBits_of_no_room {s : State} {bs : List Bool} (h : ¬ s.hasRoomForBits bs.length) :
    s.sendBits bs = .next (s.withStatus .bufError) := by
  have ht : s.lacksRoomForBits bs.length = true := by
    simpa [State.lacksRoomForBits, State.hasRoomForBits] using h
  simp [State.sendBits, ht]

/-- Sending bits either sends them all or holds. -/
theorem State.sendBits_next {s t : State} {bs : List Bool} (h : s.sendBits bs = .next t) :
    (¬ s.hasRoomForBits bs.length ∧ t = s.withStatus .bufError) ∨
    (s.hasRoomForBits bs.length ∧ t = ({ s with out := s.out.putAll bs } : State).withStatus .ok) := by
  by_cases hr : s.hasRoomForBits bs.length
  · rw [State.sendBits_of_room hr] at h
    exact .inr ⟨hr, by simpa [eq_comm] using h⟩
  · rw [State.sendBits_of_no_room hr] at h
    exact .inl ⟨hr, by simpa [eq_comm] using h⟩

end Sys2Proof.Machine
end

