-- ==== Sys2Proof/Laws/PerInstr.lean ====
section
/-! SUPPORT. A statement about every instruction, made per instruction: its encoded word matches its row of the
opcode table. -/

namespace Sys2Proof.Laws

/-- The word `encode` gives matches the row of spec/opcode_table.json (30_encoding.md R117). -/
def MatchesRow.Statement (i : Instr) : Prop := (Machine.rowOf i).matches (encode i) = true

theorem MatchesRow.nop : MatchesRow.Statement .nop := rfl

theorem MatchesRow.coreReset : MatchesRow.Statement .coreReset := rfl

theorem MatchesRow.endSession : MatchesRow.Statement .endSession := rfl

theorem MatchesRow.cfgSet (field : BitVec 4) (val : BitVec 16) : MatchesRow.Statement (.cfgSet field val) := by
  refine beq_iff_eq.mpr (BitVec.eq_of_getLsbD_eq fun k hk => ?_)
  simp only [Machine.rowOf, encode, encodeC, BitVec.getLsbD_and, BitVec.getLsbD_append]
  interval_cases k <;> simp

theorem MatchesRow.regGet (reg : BitVec 5) : MatchesRow.Statement (.regGet reg) := by
  refine beq_iff_eq.mpr (BitVec.eq_of_getLsbD_eq fun k hk => ?_)
  simp only [Machine.rowOf, encode, encodeR, BitVec.getLsbD_and, BitVec.getLsbD_append]
  interval_cases k <;> simp

theorem MatchesRow.bpPut (nb : BitVec 5) (v : BitVec 16) : MatchesRow.Statement (.bpPut nb v) := by
  refine beq_iff_eq.mpr (BitVec.eq_of_getLsbD_eq fun k hk => ?_)
  simp only [Machine.rowOf, encode, encodeB, BitVec.getLsbD_and, BitVec.getLsbD_append]
  interval_cases k <;> simp

theorem MatchesRow.bpPutrev (nb : BitVec 5) (v : BitVec 16) : MatchesRow.Statement (.bpPutrev nb v) := by
  refine beq_iff_eq.mpr (BitVec.eq_of_getLsbD_eq fun k hk => ?_)
  simp only [Machine.rowOf, encode, encodeB, BitVec.getLsbD_and, BitVec.getLsbD_append]
  interval_cases k <;> simp

theorem MatchesRow.bpAlignOut : MatchesRow.Statement .bpAlignOut := rfl

theorem MatchesRow.bpGet (nb : BitVec 5) : MatchesRow.Statement (.bpGet nb) := by
  refine beq_iff_eq.mpr (BitVec.eq_of_getLsbD_eq fun k hk => ?_)
  simp only [Machine.rowOf, encode, encodeBn, BitVec.getLsbD_and, BitVec.getLsbD_append]
  interval_cases k <;> simp

theorem MatchesRow.bpAlignIn : MatchesRow.Statement .bpAlignIn := rfl

theorem MatchesRow.bpSync : MatchesRow.Statement .bpSync := rfl

theorem MatchesRow.swReset : MatchesRow.Statement .swReset := rfl

theorem MatchesRow.swRecord (byte : BitVec 8) : MatchesRow.Statement (.swRecord byte) := by
  refine beq_iff_eq.mpr (BitVec.eq_of_getLsbD_eq fun k hk => ?_)
  simp only [Machine.rowOf, encode, encodeX, BitVec.getLsbD_and, BitVec.getLsbD_append]
  interval_cases k <;> simp

theorem MatchesRow.swRead (dm1 : BitVec 15) : MatchesRow.Statement (.swRead dm1) := by
  refine beq_iff_eq.mpr (BitVec.eq_of_getLsbD_eq fun k hk => ?_)
  simp only [Machine.rowOf, encode, encodeMd, BitVec.getLsbD_and, BitVec.getLsbD_append]
  interval_cases k <;> simp

theorem MatchesRow.swMatchat (len9 : BitVec 9) (dm1 : BitVec 15) : MatchesRow.Statement (.swMatchat len9 dm1) := by
  refine beq_iff_eq.mpr (BitVec.eq_of_getLsbD_eq fun k hk => ?_)
  simp only [Machine.rowOf, encode, encodeM, BitVec.getLsbD_and, BitVec.getLsbD_append]
  interval_cases k <;> simp

theorem MatchesRow.swCopy (len9 : BitVec 9) (dm1 : BitVec 15) : MatchesRow.Statement (.swCopy len9 dm1) := by
  refine beq_iff_eq.mpr (BitVec.eq_of_getLsbD_eq fun k hk => ?_)
  simp only [Machine.rowOf, encode, encodeM, BitVec.getLsbD_and, BitVec.getLsbD_append]
  interval_cases k <;> simp

theorem MatchesRow.swSetdict (cnt : BitVec 16) : MatchesRow.Statement (.swSetdict cnt) := by
  refine beq_iff_eq.mpr (BitVec.eq_of_getLsbD_eq fun k hk => ?_)
  simp only [Machine.rowOf, encode, encodeK, BitVec.getLsbD_and, BitVec.getLsbD_append]
  interval_cases k <;> simp

theorem MatchesRow.swExpectdict : MatchesRow.Statement .swExpectdict := rfl

theorem MatchesRow.heClear (t : BitVec 2) : MatchesRow.Statement (.heClear t) := by
  refine beq_iff_eq.mpr (BitVec.eq_of_getLsbD_eq fun k hk => ?_)
  simp only [Machine.rowOf, encode, encodeTt, BitVec.getLsbD_and, BitVec.getLsbD_append]
  interval_cases k <;> simp

theorem MatchesRow.heCount (t : BitVec 2) (sym : BitVec 9) : MatchesRow.Statement (.heCount t sym) := by
  refine beq_iff_eq.mpr (BitVec.eq_of_getLsbD_eq fun k hk => ?_)
  simp only [Machine.rowOf, encode, encodeTs, BitVec.getLsbD_and, BitVec.getLsbD_append]
  interval_cases k <;> simp

theorem MatchesRow.heBuild (t : BitVec 2) (ln : BitVec 4) : MatchesRow.Statement (.heBuild t ln) := by
  refine beq_iff_eq.mpr (BitVec.eq_of_getLsbD_eq fun k hk => ?_)
  simp only [Machine.rowOf, encode, encodeTl, BitVec.getLsbD_and, BitVec.getLsbD_append]
  interval_cases k <;> simp

theorem MatchesRow.heSetlen (t : BitVec 2) (ln : BitVec 4) (sym : BitVec 9) : MatchesRow.Statement (.heSetlen t ln sym) := by
  refine beq_iff_eq.mpr (BitVec.eq_of_getLsbD_eq fun k hk => ?_)
  simp only [Machine.rowOf, encode, encodeTls, BitVec.getLsbD_and, BitVec.getLsbD_append]
  interval_cases k <;> simp

theorem MatchesRow.heCanon (t : BitVec 2) : MatchesRow.Statement (.heCanon t) := by
  refine beq_iff_eq.mpr (BitVec.eq_of_getLsbD_eq fun k hk => ?_)
  simp only [Machine.rowOf, encode, encodeTt, BitVec.getLsbD_and, BitVec.getLsbD_append]
  interval_cases k <;> simp

theorem MatchesRow.heFixed : MatchesRow.Statement .heFixed := rfl

theorem MatchesRow.heEmit (t : BitVec 2) (sym : BitVec 9) : MatchesRow.Statement (.heEmit t sym) := by
  refine beq_iff_eq.mpr (BitVec.eq_of_getLsbD_eq fun k hk => ?_)
  simp only [Machine.rowOf, encode, encodeTs, BitVec.getLsbD_and, BitVec.getLsbD_append]
  interval_cases k <;> simp

theorem MatchesRow.heMatch (len9 : BitVec 9) (dm1 : BitVec 15) : MatchesRow.Statement (.heMatch len9 dm1) := by
  refine beq_iff_eq.mpr (BitVec.eq_of_getLsbD_eq fun k hk => ?_)
  simp only [Machine.rowOf, encode, encodeM, BitVec.getLsbD_and, BitVec.getLsbD_append]
  interval_cases k <;> simp

theorem MatchesRow.heRlecount : MatchesRow.Statement .heRlecount := rfl

theorem MatchesRow.heDynhdr : MatchesRow.Statement .heDynhdr := rfl

theorem MatchesRow.hdSetlen (t : BitVec 2) (ln : BitVec 4) (sym : BitVec 9) : MatchesRow.Statement (.hdSetlen t ln sym) := by
  refine beq_iff_eq.mpr (BitVec.eq_of_getLsbD_eq fun k hk => ?_)
  simp only [Machine.rowOf, encode, encodeTls, BitVec.getLsbD_and, BitVec.getLsbD_append]
  interval_cases k <;> simp

theorem MatchesRow.hdBuild (t : BitVec 2) (n : BitVec 9) : MatchesRow.Statement (.hdBuild t n) := by
  refine beq_iff_eq.mpr (BitVec.eq_of_getLsbD_eq fun k hk => ?_)
  simp only [Machine.rowOf, encode, encodeTn, BitVec.getLsbD_and, BitVec.getLsbD_append]
  interval_cases k <;> simp

theorem MatchesRow.hdFixed : MatchesRow.Statement .hdFixed := rfl

theorem MatchesRow.hdDecode (t : BitVec 2) : MatchesRow.Statement (.hdDecode t) := by
  refine beq_iff_eq.mpr (BitVec.eq_of_getLsbD_eq fun k hk => ?_)
  simp only [Machine.rowOf, encode, encodeTt, BitVec.getLsbD_and, BitVec.getLsbD_append]
  interval_cases k <;> simp

theorem MatchesRow.hdDynhdr : MatchesRow.Statement .hdDynhdr := rfl

theorem MatchesRow.hdToken : MatchesRow.Statement .hdToken := rfl

theorem MatchesRow.mfFeed (cnt : BitVec 16) : MatchesRow.Statement (.mfFeed cnt) := by
  refine beq_iff_eq.mpr (BitVec.eq_of_getLsbD_eq fun k hk => ?_)
  simp only [Machine.rowOf, encode, encodeK, BitVec.getLsbD_and, BitVec.getLsbD_append]
  interval_cases k <;> simp

theorem MatchesRow.mfFind : MatchesRow.Statement .mfFind := rfl

theorem MatchesRow.mfStep (drain : BitVec 1) : MatchesRow.Statement (.mfStep drain) := by
  refine beq_iff_eq.mpr (BitVec.eq_of_getLsbD_eq fun k hk => ?_)
  simp only [Machine.rowOf, encode, encodeS, BitVec.getLsbD_and, BitVec.getLsbD_append]
  interval_cases k <;> simp

theorem MatchesRow.mfResetHist : MatchesRow.Statement .mfResetHist := rfl

theorem MatchesRow.bfWhdr (btype : BitVec 2) (final : BitVec 1) : MatchesRow.Statement (.bfWhdr btype final) := by
  refine beq_iff_eq.mpr (BitVec.eq_of_getLsbD_eq fun k hk => ?_)
  simp only [Machine.rowOf, encode, encodeH, BitVec.getLsbD_and, BitVec.getLsbD_append]
  interval_cases k <;> simp

theorem MatchesRow.bfRhdr : MatchesRow.Statement .bfRhdr := rfl

theorem MatchesRow.bfWstored (cnt : BitVec 16) : MatchesRow.Statement (.bfWstored cnt) := by
  refine beq_iff_eq.mpr (BitVec.eq_of_getLsbD_eq fun k hk => ?_)
  simp only [Machine.rowOf, encode, encodeK, BitVec.getLsbD_and, BitVec.getLsbD_append]
  interval_cases k <;> simp

theorem MatchesRow.bfRstored : MatchesRow.Statement .bfRstored := rfl

theorem MatchesRow.bfRcopy (cnt : BitVec 16) : MatchesRow.Statement (.bfRcopy cnt) := by
  refine beq_iff_eq.mpr (BitVec.eq_of_getLsbD_eq fun k hk => ?_)
  simp only [Machine.rowOf, encode, encodeK, BitVec.getLsbD_and, BitVec.getLsbD_append]
  interval_cases k <;> simp

theorem MatchesRow.bfInflate : MatchesRow.Statement .bfInflate := rfl

end Sys2Proof.Laws
end

