-- ==== Sys2Proof/Laws/Step.lean ====
section
/-! SUPPORT. Everything a step can do: wait, run a command, report a word that spells none, or make a host's move. -/

namespace Sys2Proof.Machine

theorem step_cases {s t : State} (h : step s = .next t) :
    (s.port = [] ∧ t = s) ∨
    (∃ w i rest, s.port = .command w :: rest ∧ decode w = .ok i ∧ exec i { s with port := rest } = .next t) ∨
    (∃ w e rest, s.port = .command w :: rest ∧ decode w = .error e ∧
      t = ({ s with port := rest } : State).withStatus .streamError) ∨
    (∃ bytes rest, s.port = .append bytes :: rest ∧ t = ({ s with port := rest } : State).hostAppend bytes) ∨
    (∃ n rest, s.port = .remove n :: rest ∧ t = ({ s with port := rest } : State).hostRemove n) := by
  unfold step at h
  cases hp : s.port with
  | nil => exact .inl ⟨rfl, by simpa [hp, eq_comm] using h⟩
  | cons m rest =>
    rw [hp] at h
    cases m with
    | command w =>
      cases hd : decode w with
      | ok i => exact .inr (.inl ⟨w, i, rest, rfl, hd, by simpa [runMove, runWord, hd] using h⟩)
      | error e => exact .inr (.inr (.inl ⟨w, e, rest, rfl, hd, by simpa [runMove, runWord, hd] using h⟩))
    | append bytes => exact .inr (.inr (.inr (.inl ⟨bytes, rest, rfl, by simpa [runMove, eq_comm] using h⟩)))
    | remove n => exact .inr (.inr (.inr (.inr ⟨n, rest, rfl, by simpa [runMove, eq_comm] using h⟩)))

end Sys2Proof.Machine
end

