-- ==== Sys2Proof/Laws/Streams.lean ====
section
/-! SUPPORT. The bit streams of the two queues: reading is taking bits off `InPort.stream`, writing is
`OutPort.pushed`, and whole bytes go the same way. -/

namespace Sys2Proof.Machine

/-! ## Numbers as bits -/

theorem valueLsb_testBit (bs : List Bool) (i : Nat) : (valueLsb bs).testBit i = bs.getD i false := by
  induction bs generalizing i with
  | nil => simp [valueLsb]
  | cons b bs ih =>
    cases i with
    | zero => cases b <;> simp [valueLsb, Nat.testBit_zero, Nat.add_mod]
    | succ i =>
      have hb : b.toNat ≤ 1 := Bool.toNat_le b
      have h : (b.toNat + 2 * valueLsb bs) / 2 = valueLsb bs := by omega
      simp [valueLsb, Nat.testBit_succ, h, ih]

theorem packByte_getLsbD (bs : List Bool) (i : Nat) (h : i < 8) : (packByte bs).getLsbD i = bs.getD i false := by
  rw [packByte, BitVec.getLsbD_ofNat, valueLsb_testBit]
  simp [h, List.getD_eq_getElem?_getD]

theorem placeBit_packByte (xs : List Bool) (b : Bool) :
    placeBit (packByte xs) xs.length b = packByte (xs ++ [b]) := by
  apply BitVec.eq_of_getLsbD_eq
  intro i hi
  rw [packByte_getLsbD _ _ hi]
  simp only [placeBit, BitVec.getLsbD_or, BitVec.getLsbD_and, BitVec.getLsbD_not, BitVec.getLsbD_shiftLeft,
    BitVec.getLsbD_setWidth, packByte_getLsbD _ _ hi, List.getD_eq_getElem?_getD]
  rcases Nat.lt_trichotomy i xs.length with hl | hl | hl
  · simp [hi, hl, List.getElem?_append_left hl]
  · subst hl
    simp [hi]
  · have h1 : ¬ i < xs.length := by omega
    have h2 : i - xs.length ≠ 0 := by omega
    have h3 : xs.length + 1 ≤ i := by omega
    simp [hi, h1, h2, BitVec.getLsbD_ofBool, List.getElem?_eq_none, h3]

/-! ## Reading -/

theorem byteBits_length (b : Byte) : (byteBits b).length = 8 := by simp [byteBits]

theorem flatMap_byteBits_length (bs : List Byte) : (bs.flatMap byteBits).length = 8 * bs.length := by
  induction bs with
  | nil => rfl
  | cons b bs ih => simp [byteBits_length, ih]; omega

theorem InPort.stream_length (p : InPort) : p.stream.length = p.availBits := by
  rw [InPort.stream, InPort.availBits, List.length_drop, flatMap_byteBits_length]

theorem InPort.advance_zero (p : InPort) : p.advance 0 = p := by
  have h := p.ibit.isLt
  have h1 : p.ibit.toNat / 8 = 0 := by omega
  have h2 : p.ibit.toNat % 8 = p.ibit.toNat := by omega
  simp only [InPort.advance, Nat.add_zero, h1, h2, List.drop_zero, BitVec.ofNat_toNat, BitVec.setWidth_eq]
  simp

theorem InPort.advance_advance (p : InPort) (a b : Nat) : (p.advance a).advance b = p.advance (a + b) := by
  have h1 : ((p.ibit.toNat + a) / 8) + ((p.ibit.toNat + a) % 8 + b) / 8 = (p.ibit.toNat + (a + b)) / 8 := by omega
  have h2 : ((p.ibit.toNat + a) % 8 + b) % 8 = (p.ibit.toNat + (a + b)) % 8 := by omega
  have h3 : (BitVec.ofNat 3 ((p.ibit.toNat + a) % 8)).toNat = (p.ibit.toNat + a) % 8 := by
    simp [BitVec.toNat_ofNat]
  simp [InPort.advance, h2, ← h1, BitVec.add_assoc, BitVec.ofNat_add]

theorem readBit_short {p : InPort} (h : p.stream = []) : readBit p = .short := by
  have hl : p.stream.length = 0 := by simp [h]
  have hb := p.ibit.isLt
  rw [InPort.stream_length, InPort.availBits] at hl
  have : p.inq = [] := List.length_eq_zero_iff.mp (by omega)
  simp [readBit, this]

theorem bitVec3_cases (x : BitVec 3) : x = 0 ∨ x = 1 ∨ x = 2 ∨ x = 3 ∨ x = 4 ∨ x = 5 ∨ x = 6 ∨ x = 7 := by
  revert x; decide

theorem readBit_cons {p : InPort} {b : Bool} {rest : List Bool} (h : p.stream = b :: rest) :
    readBit p = .done b (p.advance 1) ∧ (p.advance 1).stream = rest := by
  obtain ⟨inq, ibit, tot⟩ := p
  cases inq with
  | nil => simp [InPort.stream] at h
  | cons x xs =>
    have hx : byteBits x = [x.getLsbD 0, x.getLsbD 1, x.getLsbD 2, x.getLsbD 3, x.getLsbD 4, x.getLsbD 5,
      x.getLsbD 6, x.getLsbD 7] := rfl
    rcases bitVec3_cases ibit with rfl | rfl | rfl | rfl | rfl | rfl | rfl | rfl <;>
      simp_all [InPort.stream, readBit, InPort.advance, InPort.dequeue]

theorem InPort.stream_advance_of_le {p : InPort} {n : Nat} (h : n ≤ p.stream.length) :
    (p.advance n).stream = p.stream.drop n := by
  induction n generalizing p with
  | zero => simp [InPort.advance_zero]
  | succ n ih =>
    cases hs : p.stream with
    | nil => simp [hs] at h
    | cons b rest =>
      have h1 := (readBit_cons hs).2
      have := ih (p := p.advance 1) (by simp [h1, hs] at h ⊢; omega)
      rw [InPort.advance_advance, h1, Nat.add_comm] at this
      simpa using this

/-- GetBits(n) takes the next n bits and advances by n, or the input is short. -/
theorem readBits_done {p : InPort} {n : Nat} (h : n ≤ p.stream.length) :
    readBits n p = .done (valueLsb (p.stream.take n)) (p.advance n) := by
  induction n generalizing p with
  | zero => simp [readBits, valueLsb, InPort.advance_zero]
  | succ n ih =>
    cases hs : p.stream with
    | nil => simp [hs] at h
    | cons b rest =>
      obtain ⟨h1, h2⟩ := readBit_cons hs
      have := ih (p := p.advance 1) (by simp [h2, hs] at h ⊢; omega)
      simp [readBits, Read.andThen, h1, this, h2, valueLsb, InPort.advance_advance, Nat.add_comm]

theorem readBits_short {p : InPort} {n : Nat} (h : p.stream.length < n) : readBits n p = .short := by
  induction n generalizing p with
  | zero => simp at h
  | succ n ih =>
    cases hs : p.stream with
    | nil => simp [readBits, Read.andThen, readBit_short hs]
    | cons b rest =>
      obtain ⟨h1, h2⟩ := readBit_cons hs
      have := ih (p := p.advance 1) (by simp [h2, hs] at h ⊢; omega)
      simp [readBits, Read.andThen, h1, this]

theorem readBits_cases (p : InPort) (n : Nat) :
    (n ≤ p.stream.length ∧ readBits n p = .done (valueLsb (p.stream.take n)) (p.advance n)) ∨
    (p.stream.length < n ∧ readBits n p = .short) := by
  rcases Nat.lt_or_ge p.stream.length n with h | h
  · exact .inr ⟨h, readBits_short h⟩
  · exact .inl ⟨h, readBits_done h⟩

/-! ## Writing -/

theorem OutPort.pending_length (o : OutPort) : o.pending.length = o.obits.toNat := by
  have := o.obits.isLt
  simp [OutPort.pending, byteBits_length]; omega

theorem packByte_nil : packByte [] = 0 := rfl

/-- The pending bits make OBUF, whose bits at OBITS and above are 0 (10_state.md R44). -/
theorem OutPort.packByte_pending {o : OutPort} (h : o.obuf.toNat < 2 ^ o.obits.toNat) :
    packByte o.pending = o.obuf := by
  apply BitVec.eq_of_getLsbD_eq
  intro i hi
  rw [packByte_getLsbD _ _ hi]
  rcases Nat.lt_or_ge i o.obits.toNat with hl | hl
  · simp [OutPort.pending, byteBits, List.getD_eq_getElem?_getD, hl, hi]
  · have : o.obuf.getLsbD i = false :=
      Nat.testBit_lt_two_pow (Nat.lt_of_lt_of_le h (Nat.pow_le_pow_right (by omega) hl))
    simp [OutPort.pending, List.getD_eq_getElem?_getD, Nat.not_lt.mpr hl, this]

theorem OutPort.pushed_nil {o : OutPort} (h : o.obuf.toNat < 2 ^ o.obits.toNat) : o.pushed [] = o := by
  have hb := o.obits.isLt
  have h1 : o.obits.toNat / 8 = 0 := by omega
  have h2 : o.obits.toNat % 8 = o.obits.toNat := by omega
  simp only [OutPort.pushed, List.append_nil, OutPort.pending_length, h1, h2, List.range_zero, List.map_nil,
    Nat.mul_zero, List.drop_zero, OutPort.packByte_pending h, BitVec.ofNat_toNat, BitVec.setWidth_eq]
  simp

theorem OutPort.pushed_putBit (o : OutPort) (bs : List Bool) (b : Bool) :
    (o.pushed bs).putBit b = o.pushed (bs ++ [b]) := by
  have hall : ∀ xs : List Bool, xs = o.pending ++ bs →
      (o.pushed bs).putBit b = o.pushed (bs ++ [b]) := by
    intro xs hxs
    have hpush : ∀ cs, o.pushed cs =
      { outq := o.outq ++ (List.range ((o.pending ++ cs).length / 8)).map
          (fun j => packByte ((o.pending ++ cs).drop (8 * j))),
        obuf := packByte ((o.pending ++ cs).drop (8 * ((o.pending ++ cs).length / 8))),
        obits := BitVec.ofNat 3 ((o.pending ++ cs).length % 8),
        totalOut := o.totalOut + BitVec.ofNat 32 ((o.pending ++ cs).length / 8) } := fun _ => rfl
    have hassoc : o.pending ++ (bs ++ [b]) = xs ++ [b] := by simp [hxs]
    rw [hpush, hpush, hassoc, ← hxs]
    have hpack : ∀ j, 8 * j + 8 ≤ xs.length → packByte ((xs ++ [b]).drop (8 * j)) = packByte (xs.drop (8 * j)) := by
      intro j hj
      rw [List.drop_append_of_le_length (by omega)]
      unfold packByte
      rw [List.take_append_of_le_length (by simp; omega)]
    have hlast : ∀ k, xs.length ≤ 8 * k + 7 → 8 * k ≤ xs.length →
        placeBit (packByte (xs.drop (8 * k))) (xs.length - 8 * k) b = packByte ((xs ++ [b]).drop (8 * k)) := by
      intro k h1 h2
      rw [List.drop_append_of_le_length h2, ← placeBit_packByte]
      simp
    have hmod : xs.length - 8 * (xs.length / 8) = xs.length % 8 := by omega
    have hl := hlast (xs.length / 8) (by omega) (by omega)
    rw [hmod] at hl
    by_cases h7 : xs.length % 8 = 7
    · have hd : (xs.length + 1) / 8 = xs.length / 8 + 1 := by omega
      have hm : (xs.length + 1) % 8 = 0 := by omega
      have hend : 8 * (xs.length / 8 + 1) = xs.length + 1 := by omega
      rw [h7] at hl
      simp only [OutPort.putBit, h7, List.length_append, List.length_singleton, hd, hm, List.range_succ,
        List.map_append, hl, hend]
      rw [if_pos (show BitVec.ofNat 3 7 = 7 from rfl)]
      simp only [List.append_assoc, List.map_cons, List.map_nil, OutPort.mk.injEq]
      refine ⟨?_, ?_, rfl, ?_⟩
      · congr 2
        apply List.map_congr_left
        intro j hj
        have := List.mem_range.mp hj
        exact (hpack j (by omega)).symm
      · rw [List.drop_eq_nil_of_le (by simp)]; rfl
      · rw [BitVec.ofNat_add, BitVec.add_assoc]; rfl
    · have hd : (xs.length + 1) / 8 = xs.length / 8 := by omega
      have hm : (xs.length + 1) % 8 = xs.length % 8 + 1 := by omega
      have hne : BitVec.ofNat 3 (xs.length % 8) ≠ 7 := by
        intro h
        have := congrArg BitVec.toNat h
        simp [BitVec.toNat_ofNat] at this
        omega
      have hto : (BitVec.ofNat 3 (xs.length % 8)).toNat = xs.length % 8 := by simp [BitVec.toNat_ofNat]
      simp only [OutPort.putBit, hne, if_false, List.length_append, List.length_singleton, hd, hm, hto, hl,
        OutPort.mk.injEq]
      refine ⟨?_, trivial, ?_, trivial⟩
      · congr 1
        apply List.map_congr_left
        intro j hj
        have := List.mem_range.mp hj
        exact (hpack j (by omega)).symm
      · rw [BitVec.ofNat_add]; rfl
  exact hall _ rfl

/-- PutBit for each bit appends the bits to the stream. -/
theorem OutPort.putAll_eq_pushed {o : OutPort} (h : o.obuf.toNat < 2 ^ o.obits.toNat) (bs : List Bool) :
    o.putAll bs = o.pushed bs := by
  induction bs using List.reverseRecOn with
  | nil => simp [OutPort.putAll, OutPort.pushed_nil h]
  | append_singleton bs b ih =>
    have : o.putAll (bs ++ [b]) = (o.putAll bs).putBit b := by simp [OutPort.putAll]
    rw [this, ih, OutPort.pushed_putBit]

theorem OutPort.putBytes_eq_appended (o : OutPort) (bytes : List Byte) : o.putBytes bytes = o.appended bytes := by
  induction bytes using List.reverseRecOn with
  | nil => simp [OutPort.putBytes, OutPort.appended]
  | append_singleton bs b ih =>
    have : o.putBytes (bs ++ [b]) = (o.putBytes bs).putByte b := by simp [OutPort.putBytes]
    rw [this, ih]
    simp [OutPort.appended, OutPort.putByte, BitVec.ofNat_add, BitVec.add_assoc]

/-! ## Copies -/

/-- A back-reference writes the same bytes to the output and to the history, and nothing else. -/
theorem State.copyMatch_spec (n d : Nat) (s : State) :
    ∃ bytes : List Byte, bytes.length = n ∧
      State.copyMatch n d s = { s with out := s.out.appended bytes, hist := s.hist ++ bytes } := by
  induction n generalizing s with
  | zero => exact ⟨[], rfl, by simp [State.copyMatch, OutPort.appended]⟩
  | succ n ih =>
    obtain ⟨bytes, hl, hb⟩ := ih (s.emitAndRecord (winByte s.hist d))
    refine ⟨winByte s.hist d :: bytes, by simp [hl], ?_⟩
    rw [State.copyMatch, hb]
    simp [State.emitAndRecord, OutPort.putByte, OutPort.appended, BitVec.ofNat_add, BitVec.add_assoc,
      BitVec.add_comm (1#32)]

end Sys2Proof.Machine
end

