-- ==== Sys2Proof/Tests/Slice0.lean ====
section
/-! SUPPORT. Tests: what WellFormed and the decoder refuse, a word of every row decoded, the worked examples of the
spec's rules one command at a time, and for every statement with hypotheses a state that meets them. -/

namespace Sys2Proof.Tests

open Sys2Proof Sys2Proof.Machine

/- One theorem after another: each evaluation has a stack of its own, and many at once exhaust the memory. -/
set_option Elab.async false

/-! ## States -/

/-- The next state of a command, where it answers one. -/
def ran (r : Result) : Option State :=
  match r with
  | .next t => some t
  | .fault _ => none
  | .refused _ => none

/-- The reset state of an instance with OUT_CAP = 40000. -/
def base : State := { State.reset with outCap := 40000 }

/-- `base` with these bytes in the input queue, `ibit` bits of the first already read. -/
def withIn (bytes : List Byte) (ibit : BitVec 3) : State :=
  { base with inp := { inq := bytes, ibit := ibit, totalIn := 0 } }

/-- `base` with pending output bits. -/
def withOut (obuf : Byte) (obits : BitVec 3) : State :=
  { base with out := { outq := [], obuf := obuf, obits := obits, totalOut := 0 } }

/-- `base` with a history. -/
def withHist (bytes : List Byte) : State := { base with hist := bytes }

/-- `base` with the fixed tables in both units. -/
def fixedState : State :=
  { base with heLL := base.heLL.withLens fixedLL, heDist := base.heDist.withLens fixedDist,
              hdLL := base.hdLL.load fixedLL, hdDist := base.hdDist.load fixedDist }

/-- The code-length code of 44_huffman_decoder.md R262's example: lengths 1, 2, 3, 3. -/
def clLens : List (BitVec 4) := [1, 2, 3, 3] ++ List.replicate 15 0

/-- `base` with that code in both units. -/
def clState : State := { base with heCl := base.heCl.withLens clLens, hdCl := base.hdCl.load clLens }

/-- A table of `size` lengths that are 0 but for these. -/
def lensAt (size : Nat) (pairs : List (Nat × BitVec 4)) : List (BitVec 4) :=
  (List.range size).map fun s => (pairs.lookup s).getD 0

/-- The lengths of 95_test_vectors.md V9. -/
def v9LL : List (BitVec 4) :=
  lensAt 288 [(32, 4), (97, 2), (98, 4), (99, 4), (100, 4), (114, 3), (256, 3), (258, 3), (265, 3)]
def v9Dist : List (BitVec 4) := lensAt 32 [(5, 1), (6, 1)]
def v9Cl : List (BitVec 4) := lensAt 19 [(0, 4), (1, 3), (2, 4), (3, 3), (4, 2), (17, 3), (18, 2)]

/-- The 25 bytes of V9. -/
def v9Bytes : List Byte :=
  [0x4d, 0xc6, 0x31, 0x11, 0x00, 0x00, 0x08, 0x03, 0x31, 0x2b, 0x58, 0x7b, 0x40, 0x41, 0xfd, 0x0f, 0xbd, 0x6e,
   0x9d, 0x12, 0x56, 0x1c, 0x1f, 0xa6, 0x6e]

/-- "hello, hello!". -/
def hello : List Byte := [0x68, 0x65, 0x6C, 0x6C, 0x6F, 0x2C, 0x20, 0x68, 0x65, 0x6C, 0x6C, 0x6F, 0x21]

/-- Bits as whole bytes, the last filled with zeros. -/
def bytesOf (bs : List Bool) : List Byte :=
  (List.range ((bs.length + 7) / 8)).map fun j => packByte (bs.drop (8 * j))

/-! ## WellFormed: each check refuses an ill-formed command -/

theorem test_wf_cfg_field : (Instr.cfgSet 6 8).wf = false := by decide
theorem test_wf_cfg_value :
    (Instr.cfgSet 0 7).wf = false ∧ (Instr.cfgSet 0 16).wf = false ∧ (Instr.cfgSet 1 16).wf = false ∧
    (Instr.cfgSet 3 2).wf = false ∧ (Instr.cfgSet 3 259).wf = false ∧ (Instr.cfgSet 4 259).wf = false ∧
    (Instr.cfgSet 5 2).wf = false := by decide
theorem test_wf_reg : (Instr.regGet 13).wf = false ∧ (Instr.regGet 22).wf = false := by decide
theorem test_wf_nb :
    (Instr.bpPut 17 0).wf = false ∧ (Instr.bpPutrev 17 0).wf = false ∧ (Instr.bpGet 17).wf = false := by decide
theorem test_wf_len :
    (Instr.swMatchat 0 0).wf = false ∧ (Instr.swMatchat 259 0).wf = false ∧ (Instr.swCopy 0 0).wf = false ∧
    (Instr.swCopy 259 0).wf = false ∧ (Instr.heMatch 2 0).wf = false ∧ (Instr.heMatch 259 0).wf = false := by decide
theorem test_wf_alphabet :
    (Instr.heClear 3).wf = false ∧ (Instr.heCount 3 0).wf = false ∧ (Instr.heBuild 3 7).wf = false ∧
    (Instr.heSetlen 3 0 0).wf = false ∧ (Instr.heCanon 3).wf = false ∧ (Instr.heEmit 3 0).wf = false ∧
    (Instr.hdSetlen 3 0 0).wf = false ∧ (Instr.hdBuild 3 1).wf = false ∧ (Instr.hdDecode 3).wf = false := by decide
theorem test_wf_sym :
    (Instr.heCount 0 286).wf = false ∧ (Instr.heCount 1 30).wf = false ∧ (Instr.heCount 2 19).wf = false ∧
    (Instr.heSetlen 0 0 288).wf = false ∧ (Instr.heEmit 1 32).wf = false ∧ (Instr.hdSetlen 2 0 19).wf = false := by
  decide
theorem test_wf_ln :
    (Instr.heBuild 0 0).wf = false ∧ (Instr.heBuild 2 8).wf = false ∧ (Instr.heSetlen 2 8 0).wf = false ∧
    (Instr.hdSetlen 2 8 0).wf = false := by decide
theorem test_wf_count :
    (Instr.hdBuild 0 0).wf = false ∧ (Instr.hdBuild 1 33).wf = false ∧ (Instr.mfFeed 263).wf = false ∧
    (Instr.bfWstored 32769).wf = false := by decide
theorem test_wf_type : (Instr.bfWhdr 3 0).wf = false := by decide
theorem test_wf_accepts :
    (Instr.cfgSet 0 15).wf = true ∧ (Instr.regGet 21).wf = true ∧ (Instr.bpPut 16 0).wf = true ∧
    (Instr.swCopy 258 0).wf = true ∧ (Instr.heMatch 3 0).wf = true ∧ (Instr.heCount 0 285).wf = true ∧
    (Instr.heEmit 0 287).wf = true ∧ (Instr.hdBuild 0 288).wf = true ∧ (Instr.bfWhdr 2 1).wf = true := by decide

/-! ## Decoding: the words are laid out from 30_encoding.md R111 and R114, opcode in bits 31:26. Where it has fields:
FIELD 2, VAL 4, REG 17, NB 13, V 0xA5C3, BYTE 0x41, LEN9 0x105, DM1 0x4B2D, CNT 0x1234, T 1, LN 9, SYM 0x11D, TYPE 2,
FINAL 1, DRAIN 1 -/

theorem test_decode_control :
    decode 0x00000000 = .ok .nop ∧
    decode 0x04000000 = .ok .coreReset ∧
    decode 0x08000000 = .ok .endSession ∧
    decode 0x0C800004 = .ok (.cfgSet 2 4) ∧
    decode 0x10000011 = .ok (.regGet 17) := by
  decide

theorem test_decode_bitio :
    decode 0x200DA5C3 = .ok (.bpPut 13 42435) ∧
    decode 0x240DA5C3 = .ok (.bpPutrev 13 42435) ∧
    decode 0x28000000 = .ok .bpAlignOut ∧
    decode 0x2C0D0000 = .ok (.bpGet 13) ∧
    decode 0x30000000 = .ok .bpAlignIn ∧
    decode 0x34000000 = .ok .bpSync := by
  decide

theorem test_decode_window :
    decode 0x40000000 = .ok .swReset ∧
    decode 0x44000041 = .ok (.swRecord 65) ∧
    decode 0x48004B2D = .ok (.swRead 19245) ∧
    decode 0x4D054B2D = .ok (.swMatchat 261 19245) ∧
    decode 0x51054B2D = .ok (.swCopy 261 19245) ∧
    decode 0x54001234 = .ok (.swSetdict 4660) ∧
    decode 0x58000000 = .ok .swExpectdict := by
  decide

theorem test_decode_huffman_encoder :
    decode 0x61000000 = .ok (.heClear 1) ∧
    decode 0x6500011D = .ok (.heCount 1 285) ∧
    decode 0x69900000 = .ok (.heBuild 1 9) ∧
    decode 0x6D90011D = .ok (.heSetlen 1 9 285) ∧
    decode 0x71000000 = .ok (.heCanon 1) ∧
    decode 0x74000000 = .ok .heFixed ∧
    decode 0x7900011D = .ok (.heEmit 1 285) ∧
    decode 0x7D054B2D = .ok (.heMatch 261 19245) ∧
    decode 0x80000000 = .ok .heRlecount ∧
    decode 0x84000000 = .ok .heDynhdr := by
  decide

theorem test_decode_huffman_decoder :
    decode 0xA190011D = .ok (.hdSetlen 1 9 285) ∧
    decode 0xA500011D = .ok (.hdBuild 1 285) ∧
    decode 0xA8000000 = .ok .hdFixed ∧
    decode 0xAD000000 = .ok (.hdDecode 1) ∧
    decode 0xB0000000 = .ok .hdDynhdr ∧
    decode 0xB4000000 = .ok .hdToken := by
  decide

theorem test_decode_lz77 :
    decode 0xC0001234 = .ok (.mfFeed 4660) ∧
    decode 0xC4000000 = .ok .mfFind ∧
    decode 0xC8000001 = .ok (.mfStep 1) ∧
    decode 0xCC000000 = .ok .mfResetHist := by
  decide

theorem test_decode_block_framing :
    decode 0xE0000005 = .ok (.bfWhdr 2 1) ∧
    decode 0xE4000000 = .ok .bfRhdr ∧
    decode 0xE8001234 = .ok (.bfWstored 4660) ∧
    decode 0xEC000000 = .ok .bfRstored ∧
    decode 0xF0001234 = .ok (.bfRcopy 4660) ∧
    decode 0xF4000000 = .ok .bfInflate := by
  decide

/-- 30_encoding.md R113, R115: one reserved bit of each format, and an unassigned opcode of each gap. -/
theorem test_decode_rejects :
    decode 0x00000001 = .error .reservedBitSet ∧ decode 0x0C010004 = .error .reservedBitSet ∧
    decode 0x10000020 = .error .reservedBitSet ∧ decode 0x20200000 = .error .reservedBitSet ∧
    decode 0x2C000001 = .error .reservedBitSet ∧ decode 0x44000100 = .error .reservedBitSet ∧
    decode 0x4C008000 = .error .reservedBitSet ∧ decode 0x4E000000 = .error .reservedBitSet ∧
    decode 0x48008000 = .error .reservedBitSet ∧ decode 0x54010000 = .error .reservedBitSet ∧
    decode 0x60000001 = .error .reservedBitSet ∧ decode 0x64000200 = .error .reservedBitSet ∧
    decode 0x68080000 = .error .reservedBitSet ∧ decode 0x6C000200 = .error .reservedBitSet ∧
    decode 0xE0000008 = .error .reservedBitSet ∧ decode 0xC8000002 = .error .reservedBitSet ∧
    decode 0x14000000 = .error .unassignedOpcode ∧ decode 0x38000000 = .error .unassignedOpcode ∧
    decode 0x5C000000 = .error .unassignedOpcode ∧ decode 0x88000000 = .error .unassignedOpcode ∧
    decode 0xB8000000 = .error .unassignedOpcode ∧ decode 0xD0000000 = .error .unassignedOpcode ∧
    decode 0xFC000000 = .error .unassignedOpcode := by
  decide

theorem test_decodeTableWord : decodeTableWord 32 0x7C050006 = some (.heMatch 5 6) ∧ decodeTableWord 32 1 = none := by
  decide

/-- 70_reset_and_hazards.md R400 and log 1: the word placed runs as the first command after reset. -/
theorem test_withFetchWord :
    (ran (step (State.reset.withFetchWord 32 0x0C800004))).map (fun t => (t.status, t.cfg.maxChain, t.port.length)) =
      some (0, 4, 0) := by decide +kernel

/-! ## One command at a time. Each expected value is the example or the row the comment names, or computed by hand
from that rule -/

/-- R140. -/
theorem test_nop :
    (ran (exec .nop base)).map (fun t => t.status) =
      some 0 := by
  decide +kernel

/-- R142. -/
theorem test_nop_ended :
    (ran (exec .nop { base with ended := true })).map (fun t => (t.status, t.ended)) =
      some (0xFE, true) := by
  decide +kernel

/-- R141. -/
theorem test_coreReset :
    (ran (exec .coreReset { base with ended := true, storedRem := 5, derr := true })).map (fun t => (t.status, t.ended, t.storedRem, t.derr)) =
      some (0, false, 0, false) := by
  decide +kernel

/-- R142. -/
theorem test_endSession :
    (ran (exec .endSession (withOut 3 2))).map (fun t => (t.status, t.ended, t.out.obuf)) =
      some (0, true, 3) := by
  decide +kernel

/-- R143. -/
theorem test_cfgSet :
    (ran (exec (.cfgSet 2 4) base)).map (fun t => t.cfg.maxChain) =
      some 4 := by
  decide +kernel

/-- R143: WBITS clears the window, even with its current value. -/
theorem test_cfgSet_wbits :
    (ran (exec (.cfgSet 0 15) { base with hist := [1], la := [2], mfBase := 1 })).map (fun t => (t.hist, t.la, t.mfBase, t.cfg.wbits)) =
      some ([], [], 0, 15) := by
  decide +kernel

/-- R144: TOTAL_OUT. -/
theorem test_regGet :
    (ran (exec (.regGet 1) { base with out := { base.out with totalOut := 13 } })).map (fun t => t.res0) =
      some 13 := by
  decide +kernel

/-- 10_state.md R51: LAST in bit 2, NEED_DICT in bit 1, DERR in bit 0. -/
theorem test_regGet_flags :
    (ran (exec (.regGet 9) { base with last := true, derr := true })).map (fun t => t.res0) =
      some 5 := by
  decide +kernel

/-- R160. -/
theorem test_bpPut :
    (ran (exec (.bpPut 5 0x1F) (withOut 3 3))).map (fun t => (t.out.outq, t.out.obits, t.out.totalOut)) =
      some ([0xFB], 0, 1) := by
  decide +kernel

/-- R161. -/
theorem test_bpPutrev :
    (ran (exec (.bpPutrev 8 0x30) base)).map (fun t => (t.out.outq, t.out.obits)) =
      some ([0x0C], 0) := by
  decide +kernel

/-- R162. -/
theorem test_bpAlignOut :
    (ran (exec .bpAlignOut (withOut 3 3))).map (fun t => (t.out.outq, t.out.obits, t.out.obuf)) =
      some ([3], 0, 0) := by
  decide +kernel

/-- R165. -/
theorem test_bpGet :
    (ran (exec (.bpGet 5) (withIn [0xFB] 3))).map (fun t => (t.res0, t.inp.inq, t.inp.ibit, t.inp.totalIn)) =
      some (0x1F, [], 0, 1) := by
  decide +kernel

/-- R376: the input is short, and nothing is consumed. -/
theorem test_bpGet_hold :
    (ran (exec (.bpGet 6) (withIn [0xFB] 3))).map (fun t => (t.status, t.inp.ibit, t.inp.inq)) =
      some (3, 3, [0xFB]) := by
  decide +kernel

/-- R166. -/
theorem test_bpAlignIn :
    (ran (exec .bpAlignIn (withIn [0xAB, 0xCD] 5))).map (fun t => (t.inp.inq, t.inp.ibit, t.inp.totalIn)) =
      some ([0xCD], 0, 1) := by
  decide +kernel

/-- R170. -/
theorem test_bpSync :
    (ran (exec .bpSync { withIn [0x12, 0x00, 0x00, 0xFF, 0xFF, 0x03] 0 with derr := true })).map (fun t => (t.status, t.inp.inq, t.inp.totalIn, t.derr)) =
      some (0, [3], 5, false) := by
  decide +kernel

/-- R170: the longest tail that may begin a marker is kept. -/
theorem test_bpSync_none :
    (ran (exec .bpSync (withIn [0x12, 0x00, 0x00, 0x00, 0xFF] 0))).map (fun t => (t.status, t.inp.inq, t.inp.totalIn, t.derr)) =
      some (0xFD, [0, 0, 0xFF], 2, true) := by
  decide +kernel

/-- R190. -/
theorem test_swReset :
    (ran (exec .swReset { base with hist := [1, 2], la := [3], mfBase := 2 })).map (fun t => (t.hist, t.la, t.mfBase)) =
      some ([], [3], 0) := by
  decide +kernel

/-- R191. -/
theorem test_swRecord :
    (ran (exec (.swRecord 0x41) base)).map (fun t => (t.wvalid, winByte t.hist 1)) =
      some (1, 0x41) := by
  decide +kernel

/-- R192. -/
theorem test_swRead :
    (ran (exec (.swRead 2) (withHist [0x61, 0x62, 0x63]))).map (fun t => t.res0) =
      some 0x61 := by
  decide +kernel

/-- R192: one more than WVALID. -/
theorem test_swRead_range :
    (ran (exec (.swRead 3) (withHist [0x61, 0x62, 0x63]))).map (fun t => (t.status, t.derr, t.res0)) =
      some (0xFD, true, 0) := by
  decide +kernel

/-- R193: hist = "xyab". -/
theorem test_swMatchat :
    (ran (exec (.swMatchat 5 1) (withHist [0x78, 0x79, 0x61, 0x62]))).map (fun t => (t.out.outq, t.hist.length)) =
      some ([0x61, 0x62, 0x61, 0x62, 0x61], 4) := by
  decide +kernel

/-- R194: hist = "ab". -/
theorem test_swCopy :
    (ran (exec (.swCopy 5 1) (withHist [0x61, 0x62]))).map (fun t => (t.out.outq, t.hist)) =
      some ([0x61, 0x62, 0x61, 0x62, 0x61], [0x61, 0x62, 0x61, 0x62, 0x61, 0x62, 0x61]) := by
  decide +kernel

/-- R198: the bytes enter the window and are not counted. -/
theorem test_swSetdict :
    (ran (exec (.swSetdict 3) { withIn [0x61, 0x62, 0x63, 0x64] 0 with hist := [0x7A] })).map (fun t => (t.status, t.hist, t.inp.inq, t.inp.totalIn)) =
      some (0, [0x7A, 0x61, 0x62, 0x63], [0x64], 0) := by
  decide +kernel

/-- R199. -/
theorem test_swExpectdict :
    (ran (exec .swExpectdict (withIn [0x02, 0x4D, 0x01, 0x27] 0))).map (fun t => (t.status, t.dictExpect, t.needDict, t.inp.totalIn)) =
      some (2, 0x024D0127, true, 4) := by
  decide +kernel

/-- R220: the codes stay. -/
theorem test_heClear :
    (ran (exec (.heClear 2) { clState with heCl := { clState.heCl with freq := List.replicate 19 7 } })).map (fun t => (t.heCl.freq, t.heCl.valid, t.heCl.lenOf 1)) =
      some (List.replicate 19 0, true, 2) := by
  decide +kernel

/-- R221: the counter saturates. -/
theorem test_heCount :
    (ran (exec (.heCount 2 3) { base with heCl := { base.heCl with freq := base.heCl.freq.set 3 0xFFFFFFFF } })).map (fun t => (t.heCl.freqOf 3, t.heCl.freqOf 2)) =
      some (0xFFFFFFFF, 0) := by
  decide +kernel

/-- R221. -/
theorem test_heCount_ll :
    (ran (exec (.heCount 0 256) base)).map (fun t => (t.heLL.freqOf 256, t.heLL.freqOf 255)) =
      some (1, 0) := by
  decide +kernel

/-- R225: frequencies 5, 2, 1, 1. -/
theorem test_heBuild :
    (ran (exec (.heBuild 2 7) { base with heCl := { base.heCl with freq := [5, 2, 1, 1] ++ List.replicate 15 0 } })).map (fun t => (t.heCl.len.take 5, t.heCl.code.take 4, t.heCl.valid)) =
      some ([1, 2, 3, 3, 0], [0, 2, 6, 7], true) := by
  decide +kernel

/-- R226: one used symbol, 0, and symbol 1 beside it. -/
theorem test_heBuild_one :
    (ran (exec (.heBuild 2 7) { base with heCl := { base.heCl with freq := [5] ++ List.replicate 18 0 } })).map (fun t => t.heCl.len.take 3) =
      some [1, 1, 0] := by
  decide +kernel

/-- R231. -/
theorem test_heSetlen :
    (ran (exec (.heSetlen 1 1 0) { base with heDist := { base.heDist with valid := true } })).map (fun t => (t.heDist.lenOf 0, t.heDist.valid)) =
      some (1, false) := by
  decide +kernel

/-- R232. -/
theorem test_heCanon :
    (ran (exec (.heCanon 1) { base with heDist := { base.heDist with len := [1, 1] ++ List.replicate 30 0 } })).map (fun t => (t.heDist.code.take 2, t.heDist.valid)) =
      some ([0, 1], true) := by
  decide +kernel

/-- R232: three codes of length 1. -/
theorem test_heCanon_over :
    (ran (exec (.heCanon 1) { base with heDist := { base.heDist with len := [1, 1, 1] ++ List.replicate 29 0 } })).map (fun t => (t.status, t.heDist.valid)) =
      some (0xFE, false) := by
  decide +kernel

/-- R233: the codes of h, of 144, of 256 and of 287. -/
theorem test_heFixed :
    (ran (exec .heFixed base)).map (fun t => (t.heLL.codeOf 0x68, t.heLL.codeOf 144, t.heLL.codeOf 256, t.heLL.codeOf 287, t.heDist.codeOf 31)) =
      some (0x98, 0x190, 0, 0xC7, 31) := by
  decide +kernel

/-- 95_test_vectors.md V1.2: h after the block header. -/
theorem test_heEmit :
    (ran (exec (.heEmit 0 0x68) { fixedState with out := (withOut 3 3).out })).map (fun t => (t.out.outq, t.out.obits)) =
      some ([0xcb], 3) := by
  decide +kernel

/-- R236: bits 0000011 00101 0, least significant first in each byte. -/
theorem test_heMatch :
    (ran (exec (.heMatch 5 6) fixedState)).map (fun t => (t.out.outq, t.out.obits, t.out.obuf)) =
      some ([0x60], 5, 0x0A) := by
  decide +kernel

/-- R236: symbol 285 (8-bit code 0xC5) for L = 258, distance symbol 29 with extra value 8191. -/
theorem test_heMatch_258 :
    (ran (exec (.heMatch 258 32767) fixedState)).map (fun t => (t.out.outq, t.out.obits)) =
      some ([0xA3, 0xF7, 0xFF], 2) := by
  decide +kernel

/-- R239: after HE_FIXED. -/
theorem test_heRlecount :
    (ran (exec .heRlecount fixedState)).map (fun t => (t.heCl.freqOf 5, t.heCl.freqOf 7, t.heCl.freqOf 8, t.heCl.freqOf 9, t.heCl.freqOf 16, t.heCl.freqOf 18)) =
      some (1, 1, 2, 1, 53, 0) := by
  decide +kernel

/-- 95_test_vectors.md V9, after BF_WHDR DYN, 1. -/
theorem test_heDynhdr :
    (ran (exec .heDynhdr { withOut 5 3 with heLL := base.heLL.withLens v9LL, heDist := base.heDist.withLens v9Dist, heCl := base.heCl.withLens v9Cl })).map (fun t => (t.status, t.out.outq, t.out.obits)) =
      some (0, v9Bytes.take 19, 7) := by
  decide +kernel

/-- R260. -/
theorem test_hdSetlen :
    (ran (exec (.hdSetlen 0 8 65) { base with hdLL := { base.hdLL with valid := true } })).map (fun t => (t.hdLL.len.getD 65 0, t.hdLL.valid)) =
      some (8, false) := by
  decide +kernel

/-- R262. -/
theorem test_hdBuild :
    (ran (exec (.hdBuild 2 19) { base with hdCl := { base.hdCl with len := clLens } })).map (fun t => (t.hdCl.count.take 3, t.hdCl.sym, t.hdCl.valid, t.hdCl.n)) =
      some ([1, 1, 2], [0, 1, 2, 3], true, 19) := by
  decide +kernel

/-- R262: over-subscribed. -/
theorem test_hdBuild_over :
    (ran (exec (.hdBuild 2 19) { base with hdCl := { base.hdCl with len := [1, 1, 1] ++ List.replicate 16 0, valid := true } })).map (fun t => (t.status, t.derr, t.hdCl.valid)) =
      some (0xFD, true, false) := by
  decide +kernel

/-- R264. -/
theorem test_hdFixed :
    (ran (exec .hdFixed base)).map (fun t => (t.hdLL.n, t.hdLL.valid, t.hdDist.n, t.hdLL.count.take 9, t.hdLL.sym.take 1)) =
      some (288, true, 32, [0, 0, 0, 0, 0, 0, 24, 152, 112], [256]) := by
  decide +kernel

/-- R267. -/
theorem test_hdDecode :
    (ran (exec (.hdDecode 2) { clState with inp := (withIn [0x03] 0).inp })).map (fun t => (t.res0, t.inp.ibit)) =
      some (2, 3) := by
  decide +kernel

/-- R266: the only codeword is 0; fifteen 1 bits match nothing and are consumed. -/
theorem test_hdDecode_none :
    (ran (exec (.hdDecode 2) { base with hdCl := base.hdCl.load ([1] ++ List.replicate 18 0), inp := (withIn [0xFF, 0xFF] 0).inp })).map (fun t => (t.status, t.inp.inq, t.inp.ibit, t.derr)) =
      some (0xFD, [0xFF], 7, true) := by
  decide +kernel

/-- 95_test_vectors.md V9, after BF_RHDR. -/
theorem test_hdDynhdr :
    (ran (exec .hdDynhdr (withIn v9Bytes 3))).map (fun t => ((t.status, t.res0, t.res1, t.res2), t.hdLL.len == v9LL, t.hdDist.len == v9Dist, t.hdCl.len == v9Cl)) =
      some ((0, 266, 7, 18), true, true, true) := by
  decide +kernel

/-- R271 (1): HLIT = 287. -/
theorem test_hdDynhdr_fail :
    (ran (exec .hdDynhdr { clState with inp := (withIn [0xFE, 0xFF] 0).inp })).map (fun t => (t.status, t.derr, t.hdCl.valid, t.hdCl.len, t.inp.ibit)) =
      some (0xFD, true, false, clLens, 6) := by
  decide +kernel

/-- R275: the bits of HE_MATCH 5, 7. -/
theorem test_hdToken :
    (ran (exec .hdToken { fixedState with inp := (withIn [0x60, 0x0A] 0).inp })).map (fun t => ((t.res0, t.res1, t.res2, t.res3), t.inp.inq, t.inp.ibit)) =
      some ((0, 5, 7, 1), [0x0A], 5) := by
  decide +kernel

/-- R308. -/
theorem test_mfFeed :
    (ran (exec (.mfFeed 13) (withIn hello 0))).map (fun t => (t.la, t.inp.inq, t.inp.totalIn)) =
      some (hello, [], 13) := by
  decide +kernel

/-- R309: hist = "abcxbcdey", la = "abcde". -/
theorem test_mfFind :
    (ran (exec .mfFind { withHist [0x61, 0x62, 0x63, 0x78, 0x62, 0x63, 0x64, 0x65, 0x79] with la := [0x61, 0x62, 0x63, 0x64, 0x65] })).map (fun t => (t.res1, t.res2, t.res3)) =
      some (3, 9, 1) := by
  decide +kernel

/-- R311: "hello, hello!" at position 7. -/
theorem test_mfStep_match :
    (ran (exec (.mfStep 1) { withHist (hello.take 7) with la := hello.drop 7 })).map (fun t => (t.res0, t.res1, t.res2, t.res3, t.la)) =
      some (0, 5, 7, 1, [0x21]) := by
  decide +kernel

/-- R311: "abc" is found at P and "bcde" at P + 1, so P is a literal. -/
theorem test_mfStep_defer :
    (ran (exec (.mfStep 1) { withHist [0x61, 0x62, 0x63, 0x78, 0x62, 0x63, 0x64, 0x65, 0x79] with la := [0x61, 0x62, 0x63, 0x64, 0x65] })).map (fun t => (t.res0, t.res1, t.res3, t.la.length)) =
      some (0x61, 0, 0, 4) := by
  decide +kernel

/-- R314. -/
theorem test_mfResetHist :
    (ran (exec .mfResetHist { withHist [0x61, 0x62, 0x63] with la := [0x61] })).map (fun t => (t.mfBase, t.hist.length, t.la.length)) =
      some (3, 3, 1) := by
  decide +kernel

/-- R340. -/
theorem test_bfWhdr :
    (ran (exec (.bfWhdr 1 1) base)).map (fun t => (t.out.obuf, t.out.obits)) =
      some (3, 3) := by
  decide +kernel

/-- R342. -/
theorem test_bfRhdr :
    (ran (exec .bfRhdr (withIn [0x03] 0))).map (fun t => (t.res0, t.res1, t.last, t.inp.ibit)) =
      some (1, 1, true, 3) := by
  decide +kernel

/-- R342: the bits, RES0, RES1 and LAST stay written. -/
theorem test_bfRhdr_type3 :
    (ran (exec .bfRhdr (withIn [0x07] 0))).map (fun t => (t.status, t.res0, t.res1, t.last, t.derr, t.inp.ibit)) =
      some (0xFD, 3, 1, true, true, 3) := by
  decide +kernel

/-- R344. -/
theorem test_bfWstored :
    (ran (exec (.bfWstored 3) { withOut 1 3 with hist := [0x61, 0x62, 0x63] })).map (fun t => t.out.outq) =
      some [0x01, 0x03, 0x00, 0xFC, 0xFF, 0x61, 0x62, 0x63] := by
  decide +kernel

/-- R346. -/
theorem test_bfRstored :
    (ran (exec .bfRstored { withIn [0x01, 0x03, 0x00, 0xFC, 0xFF, 0x61, 0x62, 0x63] 3 with last := true })).map (fun t => (t.status, t.storedRem, t.res0, t.inp.inq, t.inp.totalIn)) =
      some (0, 3, 3, [0x61, 0x62, 0x63], 5) := by
  decide +kernel

/-- 95_test_vectors.md V10: the alignment is not done either. -/
theorem test_bfRstored_hold :
    (ran (exec .bfRstored (withIn [0x01, 0x03, 0x00, 0xFC] 3))).map (fun t => (t.status, t.inp.ibit, t.inp.inq.length)) =
      some (3, 3, 4) := by
  decide +kernel

/-- R347. -/
theorem test_bfRcopy :
    (ran (exec (.bfRcopy 3) { withIn [0x61, 0x62, 0x63] 0 with last := true, storedRem := 3 })).map (fun t => (t.status, t.out.outq, t.hist, t.storedRem, t.inp.totalIn)) =
      some (1, [0x61, 0x62, 0x63], [0x61, 0x62, 0x63], 0, 3) := by
  decide +kernel

/-- R350 on the bits of HE_MATCH 5, 7. -/
theorem test_bfInflate :
    (ran (exec .bfInflate { fixedState with inp := (withIn [0x60, 0x0A] 0).inp, hist := hello.take 7 })).map (fun t => ((t.status, t.res1, t.res2, t.res3), t.out.outq, t.hist)) =
      some ((0, 5, 7, 1), hello.take 5, hello.take 12) := by
  decide +kernel

/-- R350: a distance beyond WVALID; the token is consumed, nothing is output. -/
theorem test_bfInflate_range :
    (ran (exec .bfInflate { fixedState with inp := (withIn [0x60, 0x0A] 0).inp, hist := hello.take 6 })).map (fun t => (t.status, t.derr, t.out.outq, t.inp.ibit, t.res1)) =
      some (0xFD, true, [], 5, 0) := by
  decide +kernel

/-- Three codes of length 1 in each unit: over-subscribed. -/
def overState : State :=
  { base with heDist := { base.heDist with len := [1, 1, 1] ++ List.replicate 29 0 },
              hdDist := { base.hdDist with len := [1, 1, 1] ++ List.replicate 29 0 } }

/-- One used code-length symbol, and three. -/
def usedOne : State := { base with heCl := { base.heCl with freq := [5] ++ List.replicate 18 0 } }
def usedThree : State := { base with heCl := { base.heCl with freq := [5, 2, 1] ++ List.replicate 16 0 } }

/-! ## Witnesses: for every statement with hypotheses, a state and operands that meet them, one for each clause -/

/-- The fixed tables in the decoder, and in the encoder a code of two lengths and two distances. -/
def tokenTables : State :=
  { base with heLL := base.heLL.withLens (lensAt 288 [(257, 1), (285, 1)]),
              heDist := base.heDist.withLens (lensAt 32 [(0, 1), (29, 1)]),
              hdLL := base.hdLL.load fixedLL, hdDist := base.hdDist.load fixedDist }

theorem test_tokenTables_ok : tokenTables.TablesOk := by and_intros <;> decide +kernel

theorem test_clState_ok : clState.TablesOk := by and_intros <;> decide +kernel

theorem test_overState_ok : overState.TablesOk := by and_intros <;> decide +kernel

theorem test_usedOne_ok : usedOne.TablesOk := by and_intros <;> decide +kernel

theorem test_usedThree_ok : usedThree.TablesOk := by and_intros <;> decide +kernel

theorem test_base_ok : base.TablesOk ∧ base.QueuesOk ∧ base.WindowOk := by and_intros <;> decide +kernel

theorem test_meets_DecodeAndEncodeAreInverse :
    decode 0x7C050006 = .ok (.heMatch 5 6) := by
  decide +kernel

theorem test_meets_IllegalWordReportsStreamError :
    opcodeOf 0x14000000 = 0x05 ∧
    opcodeOf 0xFC000000 = 0x3F := by
  decide +kernel

theorem test_meets_StepRunsTheDecodedCommand :
    ({ base with port := [.command 0x0C800004] } : State).port = [.command 0x0C800004] ∧
    decode 0x0C800004 = .ok (.cfgSet 2 4) := by
  decide +kernel

theorem test_meets_HostMovesActBetweenCommands :
    base.port = [] ∧
    ({ base with port := [.append [1]] } : State).port = [.append [1]] ∧
    ({ base with port := [.remove 1] } : State).port = [.remove 1] := by
  decide +kernel

theorem test_meets_OutOfRangeFieldsReportStreamError :
    (Instr.swCopy 259 0).wf = false ∧
    (Instr.bfWhdr 3 0).wf = false := by
  decide +kernel

theorem test_meets_NopEndAndWhatEndedRefuses :
    base.running ∧
    (({ base with ended := true } : State).ended = true ∧ Instr.nop ≠ .coreReset) ∧
    (ran (exec .coreReset { base with ended := true })).map State.ended = some false ∧
    (ran (exec .endSession base)).map State.ended = some true := by
  decide +kernel

theorem test_meets_GatesStopExactlyTheDecodePath :
    ((Instr.hdDecode 2).decodePath = true ∧ (Instr.hdDecode 2).wf = true) ∧
    ({ base with needDict := true, derr := true } : State).running ∧
    ({ base with needDict := true } : State).needDict = true ∧
    (({ base with derr := true } : State).needDict = false ∧ ({ base with derr := true } : State).derr = true) ∧
    Instr.bpSync.decodePath = false ∧
    (ran (exec .bpSync base)).isSome ∧
    (ran (exec .bpSync { base with needDict := true, derr := true })).isSome := by
  decide +kernel

theorem test_meets_HoldsAndStreamErrorsChangeOnlyStatus :
    (ran (exec .bfRhdr base)).map State.status = some 3 ∧
    (ran (exec (.bpPut 8 0) { base with outCap := 0 })).map State.status = some 0xFB ∧
    (ran (exec (.bpPut 17 0) base)).map State.status = some 0xFE := by
  decide +kernel

theorem test_meets_DataErrorKeepsOutputAndHistory :
    (ran (exec (.swRead 0) base)).map State.status = some 0xFD ∧
    (ran (exec .bfRhdr (withIn [7] 0))).map State.status = some 0xFD := by
  decide +kernel

theorem test_meets_EachStatusComesOnlyFromItsCommands :
    (ran (exec .nop base)).map State.status = some 0 ∧
    (ran (exec (.bfRcopy 0) { base with last := true })).map State.status = some 1 ∧
    (ran (exec .bfRhdr { base with needDict := true })).map State.status = some 2 ∧
    (ran (exec (.bpGet 1) base)).map State.status = some 3 ∧
    (ran (exec .bpAlignOut { withOut 1 1 with outCap := 0 })).map State.status = some 0xFB ∧
    (ran (exec .bpSync base)).map State.status = some 0xFD := by
  decide +kernel

theorem test_meets_CfgSetWritesItsRegister :
    base.running ∧
    (8 ≤ (8 : BitVec 16).toNat ∧ (15 : BitVec 16).toNat ≤ 15) ∧
    (3 ≤ (3 : BitVec 16).toNat ∧ (258 : BitVec 16).toNat ≤ 258) ∧
    5 < (6 : BitVec 4).toNat ∧
    (¬ (8 ≤ (16 : BitVec 16).toNat ∧ (16 : BitVec 16).toNat ≤ 15)) ∧
    258 < (259 : BitVec 16).toNat := by
  decide +kernel

theorem test_meets_RegGetReadsTheMap :
    base.running ∧
    base.out.outq.length < 2 ^ 32 ∧
    (13 ≤ (13 : BitVec 5).toNat ∧ (15 : BitVec 5).toNat ≤ 15) ∧
    22 ≤ (22 : BitVec 5).toNat := by
  decide +kernel

theorem test_meets_BpPutAppendsItsBits :
    ((withOut 0x7F 7).running ∧ (withOut 0x7F 7).out.obuf.toNat < 2 ^ (withOut 0x7F 7).out.obits.toNat) ∧
    ((16 : BitVec 5).toNat ≤ 16 ∧ (withOut 0x7F 7).hasRoomForBits 16) ∧
    ¬ ({ withOut 0x7F 7 with outCap := 1 } : State).hasRoomForBits 16 ∧
    16 < (17 : BitVec 5).toNat := by
  decide +kernel

theorem test_meets_AlignCommandsReachAByteBoundary :
    (base.running ∧ base.out.obuf.toNat < 2 ^ base.out.obits.toNat ∧ base.out.obits = 0) ∧
    ((withOut 1 1).out.obuf.toNat < 2 ^ (withOut 1 1).out.obits.toNat ∧ (withOut 1 1).out.obits ≠ 0 ∧ (withOut 1 1).hasRoom 1) ∧
    ¬ ({ withOut 1 1 with outCap := 0 } : State).hasRoom 1 ∧
    base.inp.ibit = 0 ∧
    (withIn [1] 7).inp.ibit ≠ 0 := by
  decide +kernel

theorem test_meets_BpGetReadsTheNextBits :
    base.running ∧
    16 ≤ (withIn [1, 2] 0).inp.availBits ∧
    (withIn [1, 2] 1).inp.availBits < 16 ∧
    16 < (17 : BitVec 5).toNat := by
  decide +kernel

theorem test_meets_BpSyncLandsAfterTheLeastMarker :
    base.running ∧
    (([1, 0, 0, 0xFF, 0xFF].drop 1 : List Byte).take 4 = [0, 0, 0xFF, 0xFF] ∧ ∀ j < 1, ([1, 0, 0, 0xFF, 0xFF].drop j : List Byte).take 4 ≠ [0, 0, 0xFF, 0xFF]) := by
  decide +kernel

theorem test_meets_SwResetRecordAndReadUseTheHistory :
    (base.running ∧ base.la = []) ∧
    ({ base with la := [1] } : State).la ≠ [] ∧
    (32767 : BitVec 15).toNat + 1 = 2 ^ base.cfg.wbits.toNat ∧
    (0 : BitVec 15).toNat + 1 ≤ min (2 ^ base.cfg.wbits.toNat) (withHist [1]).hist.length ∧
    min (2 ^ base.cfg.wbits.toNat) base.hist.length < (0 : BitVec 15).toNat + 1 := by
  decide +kernel

theorem test_meets_RingHoldsTheNewestBytes :
    (0 < (withHist [1]).hist.length ∧ (withHist [1]).hist.length - 0 ≤ 2 ^ base.cfg.wbits.toNat) ∧
    (ran (exec (.swRecord 1) base)).map State.status = some 0 := by
  decide +kernel

theorem test_meets_SwMatchatOutputsWithoutRecording :
    base.running ∧
    ¬ (1 ≤ (0 : BitVec 9).toNat) ∧
    (withOut 1 1).out.obits ≠ 0 ∧
    base.wvalid < (0 : BitVec 15).toNat + 1 ∧
    (0 : BitVec 15).toNat + 1 ≤ (withHist [1]).wvalid ∧
    ¬ ({ withHist [1] with outCap := 257 } : State).hasRoom (258 : BitVec 9).toNat ∧
    (withHist [1]).hasRoom (258 : BitVec 9).toNat := by
  decide +kernel

theorem test_meets_SwCopyOutputsAndRecordsTheSameBytes :
    (base.decoding ∧ 1 ≤ (1 : BitVec 9).toNat ∧ (258 : BitVec 9).toNat ≤ 258) ∧
    (withOut 1 1).out.obits ≠ 0 ∧
    (base.out.obits = 0 ∧ base.la = [] ∧ base.wvalid < (0 : BitVec 15).toNat + 1) ∧
    (0 : BitVec 15).toNat + 1 ≤ (withHist [1]).wvalid ∧
    ¬ ({ withHist [1] with outCap := 257 } : State).hasRoom (258 : BitVec 9).toNat ∧
    (withHist [1]).hasRoom (258 : BitVec 9).toNat := by
  decide +kernel

theorem test_meets_SwExpectdictReadsTheIdentifier :
    ((withIn [1] 1).running ∧ (withIn [1] 1).inp.ibit ≠ 0) ∧
    ((withIn [1, 2, 3] 0).inp.ibit = 0 ∧ (withIn [1, 2, 3] 0).inp.inq.length < 4) ∧
    (withIn [1, 2, 3, 4] 0).inp.inq = [1, 2, 3, 4] := by
  decide +kernel

theorem test_meets_HeClearAndHeCountKeepTheFrequencies :
    (base.running ∧ Alphabet.ofField 0 = some .ll ∧ (285 : BitVec 9).toNat < Alphabet.ll.usable ∧ (base.enc .ll).freq.length = Alphabet.ll.size) ∧
    (29 : BitVec 9).toNat < Alphabet.dist.usable ∧
    (18 : BitVec 9).toNat < Alphabet.cl.usable ∧
    (286 ≤ (286 : BitVec 9).toNat ∧ 30 ≤ (30 : BitVec 9).toNat ∧ 19 ≤ (19 : BitVec 9).toNat) := by
  decide +kernel

theorem test_meets_SetlenCommandsWriteOneLength :
    (base.running ∧ Alphabet.ofField 2 = some .cl ∧ (18 : BitVec 9).toNat < Alphabet.cl.size ∧ (7 : BitVec 4).toNat ≤ Alphabet.cl.maxLen) ∧
    7 < (8 : BitVec 4).toNat ∧
    (288 ≤ (288 : BitVec 9).toNat ∧ 32 ≤ (32 : BitVec 9).toNat ∧ 19 ≤ (19 : BitVec 9).toNat) := by
  decide +kernel

theorem test_meets_HeCanonAssignsTheCanonicalCode :
    (clState.running ∧ Alphabet.ofField 2 = some .cl ∧ kraftTotal (clState.enc .cl).lens = 2 ^ 15) ∧
    2 ^ 15 < kraftTotal (overState.enc .dist).lens := by
  decide +kernel

theorem test_meets_HeBuildGivesTheUsedSymbolsCodes :
    (base.running ∧ Alphabet.ofField 2 = some .cl ∧ 1 ≤ (1 : BitVec 4).toNat ∧ (7 : BitVec 4).toNat ≤ Alphabet.cl.maxLen) ∧
    ((List.range Alphabet.cl.usable).filter fun sym => (base.enc .cl).freqOf sym ≠ 0) = [] ∧
    ((List.range Alphabet.cl.usable).filter fun sym => (usedOne.enc .cl).freqOf sym ≠ 0) = [0] ∧
    (((List.range Alphabet.cl.usable).filter fun sym => (usedThree.enc .cl).freqOf sym ≠ 0) = [0, 1, 2] ∧
       2 ^ (1 : BitVec 4).toNat < 3 ∧ 3 ≤ 2 ^ (2 : BitVec 4).toNat) := by
  decide +kernel

theorem test_meets_HeBuildCodeIsComplete :
    (base.running ∧ Alphabet.ofField 2 = some .cl) ∧
    (ran (exec (.heBuild 2 7) base)).map State.status = some 0 := by
  decide +kernel

/-- R227 on the frequencies 5, 2, 1: the two rarest symbols are merged first; every depth is within 7. -/
theorem test_meets_HeBuildGivesTheUsedSymbolsCodes_merge :
    Merges 19 0 [.leaf 0 5, .leaf 1 2, .leaf 2 1] (.node 20 (.node 19 (.leaf 2 1) (.leaf 1 2)) (.leaf 0 5)) ∧
    (MergeTree.node 20 (.node 19 (.leaf 2 1) (.leaf 1 2)) (.leaf 0 5)).depths = [(2, 2), (1, 2), (0, 1)] := by
  refine ⟨?_, by decide⟩
  refine .merge 0 _ [.leaf 0 5] (.leaf 2 1) (.leaf 1 2) _ (by decide) (by decide) (by decide) ?_
  exact .merge 1 _ [] (.node 19 (.leaf 2 1) (.leaf 1 2)) (.leaf 0 5) _ (by decide) (by decide) (by decide) (.one 2 _)

theorem test_meets_RleItemsExpandToTheLengths :
    ∀ l ∈ [0, 15, 15, 15, 15], l ≤ 15 := by
  decide +kernel

/-- R239's example, the T1 part: thirty lengths 5 are 5, 16(6) four times, 16(5). -/
theorem test_rle_fixedDist : RleItems (List.replicate 30 5) (⟨5, 0, 0⟩ :: List.replicate 4 ⟨16, 3, 2⟩ ++ [⟨16, 2, 2⟩]) := by
  refine .lengths 5 29 [] (List.replicate 4 ⟨16, 3, 2⟩ ++ [⟨16, 2, 2⟩]) [] (by decide) (by decide) ?_ .nil
  exact .long 29 _ (by decide) (.long 23 _ (by decide) (.long 17 _ (by decide) (.long 11 _ (by decide)
    (.long 5 _ (by decide) (.single 0 (by decide))))))

theorem test_meets_HdBuildBuildsTheDecodeStructure :
    (clState.running ∧ Alphabet.ofField 2 = some .cl ∧ 1 ≤ (19 : BitVec 9).toNat ∧ (19 : BitVec 9).toNat ≤ Alphabet.cl.size) ∧
    kraftTotal (((clState.dec .cl).len.take (19 : BitVec 9).toNat).map BitVec.toNat) ≤ 2 ^ 15 ∧
    2 ^ 15 < kraftTotal (((overState.dec .dist).len.take (32 : BitVec 9).toNat).map BitVec.toNat) := by
  decide +kernel

theorem test_meets_MfFeedMovesBytesAndMfResetHistSetsTheBase :
    base.running ∧
    262 - base.la.length < (263 : BitVec 16).toNat ∧
    (withIn [1] 1).inp.ibit ≠ 0 ∧
    ((262 : BitVec 16).toNat ≤ 262 - base.la.length ∧ base.inp.ibit = 0 ∧ base.inp.inq.length < (262 : BitVec 16).toNat) ∧
    (1 : BitVec 16).toNat ≤ (withIn [1] 0).inp.inq.length := by
  decide +kernel

/-- Two candidates with the hash of "abc": "ebc", a collision of HASH_BITS = 8, and a match. -/
theorem test_meets_MfFindReportsARealMatch :
    base.running ∧ ({ base with cfg := { base.cfg with maxChain := 0 } } : State).cfg.maxChain = 0 ∧
    (let s := { withHist [0x61, 0x62, 0x63, 0x65, 0x62, 0x63] with
                la := [0x61, 0x62, 0x63], cfg := { base.cfg with hashBits := 8, niceLen := 3, maxChain := 2 } }
     s.cfg.niceLen = 3 ∧ s.candidates s.hist.length = [3] ++ 0 :: [] ∧ 1 < s.cfg.maxChain.toNat ∧
       s.agree s.hist.length 3 < 3 ∧ 3 ≤ s.agree s.hist.length 0) := by
  decide +kernel

theorem test_meets_MfFindTakesTheLongestNearestMatch :
    3 ≤ base.cfg.niceLen.toNat ∧
    (let s := { withHist [1, 2, 3] with la := [1, 2, 3], cfg := { base.cfg with niceLen := 258 } }
     s.running ∧ s.hist.length ≤ s.cfg.maxChain.toNat ∧ 258 ≤ s.cfg.niceLen.toNat ∧ s.mfBase ≤ 0 ∧
       s.hist.length - 2 ^ s.cfg.wbits.toNat ≤ 0 ∧ 0 < s.hist.length ∧ 3 ≤ s.la.length ∧
       ∀ i < 3, s.stream.getD (0 + i) 0 = s.stream.getD (s.hist.length + i) 0) := by
  decide +kernel

theorem test_meets_MfStepTokenisesOrDefers :
    (base.running ∧ base.la = []) ∧
    ({ base with la := List.replicate 258 1 } : State).la.length < 259 ∧
    (let s := { withHist (hello.take 7) with la := hello.drop 7 }
     3 ≤ (s.longest s.hist.length s.cfg.maxChain.toNat).1 ∧
       ¬ (s.longest s.hist.length s.cfg.maxChain.toNat).1 < (s.longest (s.hist.length + 1) s.cfg.maxChain.toNat).1) ∧
    (({ base with la := [1] } : State).longest 0 128).1 < 3 ∧
    (let s := { withHist [0x61, 0x62, 0x63, 0x78, 0x62, 0x63, 0x64, 0x65, 0x79] with la := [0x61, 0x62, 0x63, 0x64, 0x65] }
     (s.longest s.hist.length s.cfg.maxChain.toNat).1 < s.cfg.lazyLimit.toNat ∧
       (s.longest s.hist.length s.cfg.maxChain.toNat).1 < (s.longest (s.hist.length + 1) s.cfg.maxChain.toNat).1) := by
  decide +kernel

theorem test_meets_MfStepIgnoresBytesBeyondItsLookahead :
    (({ base with la := List.replicate 259 1 } : State).running ∧ 259 ≤ ({ base with la := List.replicate 259 1 } : State).la.length) ∧
    (ran (exec (.mfStep 0) { base with la := List.replicate 259 1 })).isSome ∧
    (ran (exec (.mfStep 0) { base with la := List.replicate 259 1 ++ [2] })).isSome := by
  decide +kernel

theorem test_meets_BlockHeadersAreWrittenAndRead :
    (base.running ∧ base.QueuesOk ∧ base.hasRoomForBits 3) ∧
    (({ withOut 1 5 with outCap := 0 } : State).QueuesOk ∧ ¬ ({ withOut 1 5 with outCap := 0 } : State).hasRoomForBits 3) ∧
    (base.decoding ∧ base.inp.stream.length < 3) ∧
    (withIn [0x0B] 0).inp.stream = true :: true :: false :: [true, false, false, false, false] ∧
    (withIn [0x07] 0).inp.stream = true :: true :: true :: [false, false, false, false, false] := by
  decide +kernel

theorem test_meets_BfWstoredWritesAStoredBody :
    (base.running ∧ base.QueuesOk ∧ base.wvalid < (1 : BitVec 16).toNat) ∧
    ((1 : BitVec 16).toNat ≤ (withHist [1]).wvalid ∧ (withHist [1]).hasRoom (0 + 4 + 1)) ∧
    ¬ ({ withOut 1 1 with hist := [1], outCap := 5 } : State).hasRoom (1 + 4 + 1) := by
  decide +kernel

theorem test_meets_BfRstoredReadsTheLength :
    (base.decoding ∧ base.inp.inq.length < 4) ∧
    ((withIn [3, 0, 0xFC, 0xFF] 0).inp.inq = [3, 0, 0xFC, 0xFF] ∧ (0xFC : Byte) = ~~~3 ∧ (0xFF : Byte) = ~~~0) ∧
    ¬ ((0 : Byte) = ~~~3) := by
  decide +kernel

theorem test_meets_BfRcopyCopiesStoredBytes :
    (base.decoding ∧ ¬ (1 : BitVec 16).toNat ≤ base.storedRem.toNat) ∧
    (let s := { base with storedRem := 1 }
     (1 : BitVec 16).toNat ≤ s.storedRem.toNat ∧ s.inp.ibit = 0 ∧ s.out.obits = 0 ∧ s.la = [] ∧ s.inp.inq.length < 1) ∧
    (let s := { withIn [1] 0 with storedRem := 1, outCap := 0 }
     (1 : BitVec 16).toNat ≤ s.inp.inq.length ∧ ¬ s.hasRoom 1) ∧
    (withIn [1] 0).hasRoom 1 := by
  decide +kernel

theorem test_meets_EveryStepKeepsTheInvariants :
    (ran (step base)).isSome ∧
    (ran (step (base.withFetchWord 32 0x0C800004))).isSome := by
  decide +kernel

theorem test_meets_IllegalWordReportsStreamError_word : ¬ spellsCommand 1 := by
  rintro ⟨i, h⟩
  revert h
  cases i <;> simp [OpcodeRow.matches, rowOf]

/-- BF_RCOPY of more bytes than OUT_CAP, with an empty queue (log 16). -/
theorem test_meets_NoBufErrorOnADrainedQueue :
    ∃ s : State, 32773 ≤ s.outCap ∧ s.out.outq = [] ∧ exec (.bfRcopy 40001) s = .next { s with status := 0xFB } := by
  have h : ∃ bytes : List Byte, bytes.length = 40001 := ⟨List.replicate 40001 0, List.length_replicate⟩
  obtain ⟨bytes, hb⟩ := h
  refine ⟨{ withIn bytes 0 with storedRem := 0xFFFF }, (by decide : 32773 ≤ 40000), rfl, ?_⟩
  simp [exec, execBfRcopy, withIn, base, State.reset, State.unlessEnded, State.gated, State.require,
    State.inAligned, State.outAligned, State.lacksRoom, State.holdOut, State.report, State.withStatus,
    Status.code, hb]

theorem test_meets_SwSetdictInstallsOrRefuses :
    base.running ∧ (withIn [1] 1).inp.ibit ≠ 0 ∧ base.inp.inq.length < (1 : BitVec 16).toNat ∧
    (∃ s : State, s.inp.ibit = 0 ∧ s.la = [] ∧ 1 ≤ s.inp.inq.length ∧ s.needDict = true ∧
      Config.checksum (s.inp.inq.take 1) ≠ s.dictExpect) ∧
    (∃ s : State, s.inp.ibit = 0 ∧ s.la = [] ∧ 1 ≤ s.inp.inq.length ∧ s.needDict = true ∧
      Config.checksum (s.inp.inq.take 1) = s.dictExpect) := by
  refine ⟨rfl, by decide, by decide,
    ⟨{ withIn [1] 0 with needDict := true, dictExpect := Config.checksum [1] + 1 }, rfl, rfl, by decide, rfl, ?_⟩,
    ⟨{ withIn [1] 0 with needDict := true, dictExpect := Config.checksum [1] }, rfl, rfl, by decide, rfl, rfl⟩⟩
  show Config.checksum [1] ≠ Config.checksum [1] + 1
  intro h
  have := congrArg (fun x => x - Config.checksum [1]) h
  simp at this

theorem test_meets_FixedTablesAreLoaded : base.running ∧ base.TablesOk := ⟨rfl, test_base_ok.1⟩

theorem test_meets_HeEmitSendsTheCode :
    clState.running ∧ clState.TablesOk ∧ clState.QueuesOk ∧ Alphabet.ofField 2 = some .cl ∧
    (18 : BitVec 9).toNat < Alphabet.cl.size ∧ (clState.enc .cl).lenOf 18 = 0 ∧ (clState.enc .ll).valid = false ∧
    (clState.enc .cl).valid = true ∧ (clState.enc .cl).lenOf 3 ≠ 0 ∧ clState.hasRoomForBits 3 ∧
    ({ clState with out := (withOut 1 5).out, outCap := 0 } : State).QueuesOk ∧
    ¬ ({ clState with out := (withOut 1 5).out, outCap := 0 } : State).hasRoomForBits 3 :=
  ⟨rfl, test_clState_ok, by decide +kernel⟩

theorem test_meets_HeMatchSendsLengthAndDistance :
    tokenTables.running ∧ tokenTables.TablesOk ∧ tokenTables.QueuesOk ∧ 3 ≤ (3 : BitVec 9).toNat ∧
    (258 : BitVec 9).toNat ≤ 258 ∧ base.heLL.valid = false ∧ tokenTables.heLL.valid = true ∧
    tokenTables.heLL.lenOf 257 ≠ 0 ∧ tokenTables.heDist.valid = true ∧ tokenTables.heDist.lenOf 29 ≠ 0 ∧
    tokenTables.hasRoomForBits 15 ∧ ¬ ({ tokenTables with outCap := 0 } : State).hasRoomForBits 15 :=
  ⟨rfl, test_tokenTables_ok, by decide +kernel⟩

theorem test_meets_HeRlecountCountsTheItems : base.running := rfl

/-- The state of V9 before HE_DYNHDR. -/
def v9State : State :=
  { withOut 5 3 with heLL := base.heLL.withLens v9LL, heDist := base.heDist.withLens v9Dist,
                     heCl := base.heCl.withLens v9Cl }

theorem test_v9State_ok : v9State.TablesOk := by and_intros <;> decide +kernel

theorem test_meets_HeDynhdrSendsTheHeader :
    v9State.running ∧ v9State.TablesOk ∧ v9State.QueuesOk ∧ base.heCl.valid = false ∧ v9State.heCl.valid = true ∧
    v9State.heLL.lenOf 256 ≠ 0 ∧
    (∀ x ∈ rle (v9State.heLL.lens.take 266) ++ rle (v9State.heDist.lens.take 7), v9State.heCl.lenOf x.sym ≠ 0) ∧
    v9State.hasRoomForBits 156 ∧ ¬ ({ v9State with outCap := 18 } : State).hasRoomForBits 156 :=
  ⟨rfl, test_v9State_ok, by decide +kernel⟩

theorem test_meets_HdDecodeReadsBackTheCanonicalCode :
    let s := { clState with inp := (withIn [0x03] 0).inp }
    s.decoding ∧ s.TablesOk ∧ Alphabet.ofField 2 = some .cl ∧ (s.dec .cl).valid = true ∧ 2 < (s.dec .cl).n ∧
    (s.dec .cl).coded.getD 2 0 ≠ 0 ∧
    s.inp.stream = canonBits (s.dec .cl).coded 2 ++ [false, false, false, false, false] :=
  ⟨⟨rfl, rfl, rfl⟩, test_clState_ok, by decide +kernel⟩

/-- The code whose only codeword is 0. -/
def oneCode : State := { base with hdCl := base.hdCl.load ([1] ++ List.replicate 18 0) }

theorem test_oneCode_ok : oneCode.TablesOk := by and_intros <;> decide +kernel

/-- The code of the symbol 257 alone, and of the distance symbol 0 alone: the only codeword of each is 0. -/
def oneToken : State :=
  { base with hdLL := base.hdLL.load (lensAt 288 [(257, 1)]), hdDist := base.hdDist.load (lensAt 32 [(0, 1)]) }

theorem test_oneToken_ok : oneToken.TablesOk := by and_intros <;> decide +kernel

theorem test_meets_ReadersFailWhereNoCodewordStarts :
    let s := { oneCode with inp := (withIn [0xFF, 0xFF] 1).inp }
    let u := { oneCode with inp := (withIn [0xFF, 0xFF] 2).inp }
    (s.decoding ∧ s.TablesOk ∧ Alphabet.ofField 2 = some .cl ∧ (s.dec .cl).valid = true) ∧
    startsNoCodeword (s.dec .cl).coded s.inp.stream ∧ s.inp.stream.length = 15 ∧
    startsNoCodeword (u.dec .cl).coded u.inp.stream ∧ u.inp.stream.length = 14 :=
  ⟨⟨⟨rfl, rfl, rfl⟩, test_oneCode_ok, rfl, rfl⟩, by decide +kernel⟩

theorem test_meets_ReadersFailWhereNoCodewordStarts_token :
    let ll := oneToken.hdLL.coded
    let dist := oneToken.hdDist.coded
    let ones := List.replicate 15 true
    (oneToken.decoding ∧ oneToken.TablesOk ∧ oneToken.hdLL.valid = true ∧ oneToken.hdDist.valid = true ∧
      oneToken.out.obits = 0 ∧ oneToken.la = []) ∧
    ((withIn [0xFF, 0xFF] 1).inp.stream = ones ∧ startsNoCodeword ll ones ∧
      (withIn [0xFF, 0xFF] 2).inp.stream = ones.drop 1 ∧ startsNoCodeword ll (ones.drop 1)) ∧
    ((withIn [0xFE, 0xFF] 0).inp.stream = canonBits ll 257 ++ bitsLsb (lengthExtra 257) 0 ++ ones ∧
      ll.getD 257 0 ≠ 0 ∧ startsNoCodeword dist ones ∧
      (withIn [0xFD, 0xFF] 1).inp.stream = canonBits ll 257 ++ bitsLsb (lengthExtra 257) 0 ++ ones.drop 1 ∧
      startsNoCodeword dist (ones.drop 1)) :=
  ⟨⟨⟨rfl, rfl, rfl⟩, test_oneToken_ok, rfl, rfl, rfl, rfl⟩, by decide +kernel⟩

/-- The header of V9: its code-length code, the lengths it stands for, and its items as the vector lists them. -/
def v9ClNat : List Nat := v9Cl.map BitVec.toNat
def v9Lens : List Nat := (v9LL.take 266 ++ v9Dist.take 7).map BitVec.toNat
def v9Items : List RleItem :=
  [⟨18, 21, 7⟩, ⟨4, 0, 0⟩, ⟨18, 53, 7⟩, ⟨2, 0, 0⟩, ⟨4, 0, 0⟩, ⟨4, 0, 0⟩, ⟨4, 0, 0⟩, ⟨18, 2, 7⟩, ⟨3, 0, 0⟩,
   ⟨18, 127, 7⟩] ++
  [⟨17, 0, 3⟩, ⟨3, 0, 0⟩, ⟨0, 0, 0⟩, ⟨3, 0, 0⟩, ⟨17, 3, 3⟩, ⟨3, 0, 0⟩, ⟨17, 2, 3⟩, ⟨1, 0, 0⟩, ⟨1, 0, 0⟩]

theorem test_v9_header_legal : headerLegal 266 7 18 v9ClNat v9Lens v9Items := by decide +kernel

theorem test_meets_HdDynhdrReadsBackAHeader :
    (withIn v9Bytes 3).decoding ∧ headerLegal 266 7 18 v9ClNat v9Lens v9Items ∧
    (withIn v9Bytes 3).inp.stream =
      headerBits 266 7 18 v9ClNat v9Items ++ (withIn v9Bytes 3).inp.stream.drop 156 :=
  ⟨⟨rfl, rfl, rfl⟩, test_v9_header_legal, by decide +kernel⟩

/-- A code-length code of 0, 1 and 18, and codes of 18 alone, of 16 alone and of three lengths 1. -/
def cl3 : List Nat := (lensAt 19 [(0, 2), (1, 2), (18, 1)]).map BitVec.toNat
def cl18 : List Nat := (lensAt 19 [(18, 1)]).map BitVec.toNat
def cl16 : List Nat := (lensAt 19 [(16, 1)]).map BitVec.toNat
def clOver : List Nat := (lensAt 19 [(16, 1), (17, 1), (18, 1)]).map BitVec.toNat

/-- R271: a header with each cause, each as short as it can be. -/
theorem test_badHeader_counts : BadHeader (headerCounts 287 1 4) ∧ BadHeader (headerCounts 257 31 4) :=
  ⟨.counts 287 1 4 (by decide) (by decide) (by decide) (by decide) (by decide) (by decide) (by decide),
   .counts 257 31 4 (by decide) (by decide) (by decide) (by decide) (by decide) (by decide) (by decide)⟩

theorem test_badHeader_clOver : BadHeader (headerStart 257 1 4 clOver) :=
  .clOver 257 1 4 clOver (by decide +kernel) (by decide +kernel)

theorem test_badHeader_noCodeword :
    BadHeader (headerStart 257 1 4 cl18 ++ itemBits cl18 [⟨18, 127, 7⟩] ++ List.replicate 15 true) :=
  .noCodeword 257 1 4 cl18 (List.replicate 138 0) [⟨18, 127, 7⟩] _ (by decide +kernel) (by decide +kernel)
    (by decide +kernel) (by decide +kernel)

theorem test_badHeader_repeatFirst : BadHeader (headerStart 257 1 4 cl16 ++ canonBits cl16 16) :=
  .repeatFirst 257 1 4 cl16 (by decide +kernel) (by decide +kernel)

theorem test_badHeader_pastEnd :
    BadHeader (headerStart 257 1 4 cl18 ++ itemBits cl18 ([⟨18, 127, 7⟩] ++ [⟨18, 110, 7⟩])) :=
  .pastEnd 257 1 4 cl18 (List.replicate 138 0) (List.replicate 259 0) [⟨18, 127, 7⟩] ⟨18, 110, 7⟩
    (by decide +kernel) (by decide +kernel) (by decide +kernel) (by decide +kernel)

theorem test_badHeader_noEndOfBlock :
    BadHeader (headerBits 257 1 4 cl18 [⟨18, 127, 7⟩, ⟨18, 109, 7⟩]) :=
  .noEndOfBlock 257 1 4 cl18 (List.replicate 258 0) _ (by decide +kernel) (by decide +kernel) (by decide +kernel)

theorem test_badHeader_tableOver :
    BadHeader (headerBits 257 1 18 cl3 [⟨1, 0, 0⟩, ⟨1, 0, 0⟩, ⟨18, 127, 7⟩, ⟨18, 105, 7⟩, ⟨1, 0, 0⟩, ⟨0, 0, 0⟩]) :=
  .tableOver 257 1 18 cl3 ([1, 1] ++ List.replicate 254 0 ++ [1, 0]) _ (by decide +kernel) (by decide +kernel)
    (by decide +kernel) (by decide +kernel)

/-- Input that starts with them, and the status of HD_DYNHDR on it. -/
theorem test_meets_HdDynhdrFailureInvalidatesTheTables :
    ∀ bits ∈ [headerCounts 287 1 4, headerCounts 257 31 4, headerStart 257 1 4 clOver,
        headerStart 257 1 4 cl18 ++ itemBits cl18 [⟨18, 127, 7⟩] ++ List.replicate 15 true,
        headerStart 257 1 4 cl16 ++ canonBits cl16 16,
        headerStart 257 1 4 cl18 ++ itemBits cl18 ([⟨18, 127, 7⟩] ++ [⟨18, 110, 7⟩]),
        headerBits 257 1 4 cl18 [⟨18, 127, 7⟩, ⟨18, 109, 7⟩],
        headerBits 257 1 18 cl3 [⟨1, 0, 0⟩, ⟨1, 0, 0⟩, ⟨18, 127, 7⟩, ⟨18, 105, 7⟩, ⟨1, 0, 0⟩, ⟨0, 0, 0⟩]],
      (withIn (bytesOf bits) 0).decoding ∧ bits <+: (withIn (bytesOf bits) 0).inp.stream ∧
      (ran (exec .hdDynhdr (withIn (bytesOf bits) 0))).map (fun t => (t.status, t.inp.ibit.toNat)) =
        some (0xFD, bits.length % 8) := by
  decide +kernel

/-- A literal, an end of block and a back-reference of the fixed code, with their bits as input. -/
def tokenState (tok : Coded) : State :=
  { tokenTables with
    inp := { inq := bytesOf (tok.bits tokenTables.hdLL.coded tokenTables.hdDist.coded), ibit := 0, totalIn := 0 } }

theorem test_meets_HdTokenReadsBackAToken :
    tokenTables.decoding ∧ tokenTables.TablesOk ∧ tokenTables.hdLL.valid = true ∧ tokenTables.hdDist.valid = true ∧
    (∀ tok ∈ [Coded.lit 0, .lit 255, .eob, .backref 257 0 0 0, .backref 284 30 29 8191],
      tok.bits tokenTables.hdLL.coded tokenTables.hdDist.coded <+: (tokenState tok).inp.stream) ∧
    (Coded.lit 255).legal tokenTables.hdLL.coded tokenTables.hdDist.coded ∧
    Coded.eob.legal tokenTables.hdLL.coded tokenTables.hdDist.coded ∧
    (Coded.backref 284 30 29 8191).legal tokenTables.hdLL.coded tokenTables.hdDist.coded :=
  ⟨⟨rfl, rfl, rfl⟩, test_tokenTables_ok, by decide +kernel⟩

/-- Symbol 287 is 11000111; symbol 257 with distance symbol 30 is 0000001 11110. -/
theorem test_meets_TokensRejectSymbolsWithoutMeaning :
    let s := { tokenTables with inp := (withIn [0xE3] 0).inp }
    let u := { tokenTables with inp := (withIn [0xC0, 0x07] 0).inp }
    let ll := tokenTables.hdLL.coded
    let dist := tokenTables.hdDist.coded
    s.decoding ∧ s.TablesOk ∧ ll.getD 287 0 ≠ 0 ∧ s.inp.stream = canonBits ll 287 ++ [] ∧
    u.decoding ∧ u.TablesOk ∧ ll.getD 257 0 ≠ 0 ∧ dist.getD 30 0 ≠ 0 ∧
    u.inp.stream = canonBits ll 257 ++ bitsLsb (lengthExtra 257) 0 ++ canonBits dist 30 ++
      [false, false, false, false] :=
  ⟨⟨rfl, rfl, rfl⟩, test_tokenTables_ok, by decide +kernel, by decide +kernel, ⟨rfl, rfl, rfl⟩, test_tokenTables_ok,
    by decide +kernel⟩

theorem test_meets_UnbuiltTablesAndShortInputStopTheReaders :
    base.decoding ∧ Alphabet.ofField 2 = some .cl ∧ (base.dec .cl).valid = false ∧ base.hdLL.valid = false ∧
    (withOut 1 1).out.obits ≠ 0 ∧
    endsWithin base.inp.stream (canonBits (clState.dec .cl).coded 0) ∧
    endsWithin [true, true] (canonBits (clState.dec .cl).coded 3) ∧
    endsWithin (withIn [0x60] 0).inp.stream
      ((Coded.backref 259 0 5 0).bits tokenTables.hdLL.coded tokenTables.hdDist.coded) ∧
    endsWithin (withIn (v9Bytes.take 19) 3).inp.stream (headerBits 266 7 18 v9ClNat v9Items) := by
  decide +kernel

theorem test_meets_BfInflateAppliesTheToken :
    (tokenState .eob).out.obits = 0 ∧ (tokenState .eob).la = [] ∧ tokenTables.hasRoom 1 ∧
    ¬ ({ tokenTables with outCap := 0 } : State).hasRoom 1 ∧
    tokenTables.wvalid < distBase 0 + 0 ∧ distBase 0 + 0 ≤ ({ tokenTables with hist := [1] } : State).wvalid ∧
    lengthBase 257 + 0 = 3 ∧ tokenTables.hasRoom 3 ∧ ¬ ({ tokenTables with outCap := 2 } : State).hasRoom 3 := by
  decide +kernel

end Sys2Proof.Tests
end

/-! The family of 10_state.md: what a step runs, the ring of the window, ENDED, and the invariants of the queues, the
window and the tables. The invariants share one account of what a command writes (`Writes`, `exec_wrote`); each is
kept by every kind of write, and so by every step (`step_keeps`). -/

namespace Sys2Proof.Machine

/-! ## The port and the ring -/

/-- Settles O5: the port's head is the word, and `withFetchWord` puts it there. -/
theorem stepRunsTheDecodedCommand : Obligations.StepRunsTheDecodedCommand := by
  have runs : ∀ (s : State) (w : Word) (i : Instr) (rest : List HostMove), s.port = .command w :: rest →
      decode w = .ok i → step s = exec i { s with port := rest } := by
    intro s w i rest hp hd
    simp [step, hp, runMove, runWord, hd]
  refine ⟨runs, fun s w i hd => runs (s.withFetchWord 32 w.toNat) w i s.port ?_ hd⟩
  have hw : BitVec.ofNat 32 (w.toNat % 2 ^ 32) = w := by
    rw [Nat.mod_eq_of_lt w.isLt, BitVec.ofNat_toNat, BitVec.setWidth_eq]
  rw [State.withFetchWord, hw]

/-- How far back from the end of `q` bytes a ring of `w` bytes finds the byte at address `a`. -/
def ringBack (q w a : Nat) : Nat := (q + w - 1 - a % w) % w + 1

theorem State.window_pos (s : State) : 0 < s.window := Nat.two_pow_pos _

/-- Position `i` of the newest `w` stands at address `i % w`. -/
theorem ringBack_mod {q w i : Nat} (hi : i < q) (hw : q - i ≤ w) : ringBack q w (i % w) = q - i := by
  have hlt : i % w < w := Nat.mod_lt _ (by omega)
  have hdiv := Nat.div_add_mod i w
  have hsum : q + w - 1 - i % w = (q - 1 - i) + w * (i / w + 1) := by rw [Nat.mul_add]; omega
  rw [ringBack, Nat.mod_mod, hsum, Nat.add_mul_mod_self_left, Nat.mod_eq_of_lt (by omega)]
  omega

/-- One more byte moves every address but the one it is written to one further back. -/
theorem ringBack_succ {q w a : Nat} (ha : a < w) (hne : a ≠ q % w) : ringBack (q + 1) w a = ringBack q w a + 1 := by
  have hx : (q + w - 1 - a) % w < w := Nat.mod_lt _ (by omega)
  have hq := Nat.div_add_mod (q + w - 1 - a) w
  have hlast : (q + w - 1 - a) % w ≠ w - 1 := by
    intro h
    have hq' : q = a + w * ((q + w - 1 - a) / w) := by omega
    exact hne (by rw [hq', Nat.add_mul_mod_self_left, Nat.mod_eq_of_lt ha])
  have hsum : q + 1 + w - 1 - a = ((q + w - 1 - a) % w + 1) + w * ((q + w - 1 - a) / w) := by omega
  rw [ringBack, ringBack, Nat.mod_eq_of_lt ha, hsum, Nat.add_mul_mod_self_left, Nat.mod_eq_of_lt (by omega)]

theorem ringBack_le {q w a : Nat} (hw : 0 < w) : ringBack q w a ≤ w := Nat.mod_lt _ hw

/-- The byte at address `a` of a ring of `w` bytes that has taken the bytes `hist`. -/
def ringByte (hist : List Byte) (w a : Nat) : Option Byte :=
  if ringBack hist.length w a ≤ hist.length then some (winByte hist (ringBack hist.length w a)) else none

/-- A ring address never lies further back than W, so the bound by WVALID is the bound by |hist|. -/
theorem State.sramByte_eq (s : State) (a : Nat) : s.sramByte a = ringByte s.hist s.window a := by
  have h : ringBack s.hist.length s.window a ≤ s.wvalid ↔ ringBack s.hist.length s.window a ≤ s.hist.length := by
    rw [State.wvalid, Nat.le_min, and_iff_right (ringBack_le s.window_pos)]
  exact if_congr h rfl rfl

/-- The ring holds each of the newest bytes at its position modulo the ring's size. -/
theorem ringByte_mod {hist : List Byte} {w i : Nat} (hi : i < hist.length) (hw : hist.length - i ≤ w) :
    ringByte hist w (i % w) = some (hist.getD i 0) := by
  rw [ringByte, ringBack_mod hi hw, if_pos (Nat.sub_le _ _), winByte, Nat.sub_sub_self (Nat.le_of_lt hi)]

/-- The newest byte stands at the address after those before it. -/
theorem ringByte_append_new {hist : List Byte} {b : Byte} {w : Nat} (hw : 0 < w) :
    ringByte (hist ++ [b]) w (hist.length % w) = some b := by
  rw [ringByte_mod (by simp) (by simp; omega), List.getD_append_right _ _ _ _ (Nat.le_refl _), Nat.sub_self]
  rfl

/-- One more byte leaves every other address of the ring as it was. -/
theorem ringByte_append_old {hist : List Byte} {b : Byte} {w a : Nat} (ha : a < w) (hne : a ≠ hist.length % w) :
    ringByte (hist ++ [b]) w a = ringByte hist w a := by
  have hpos : 0 < ringBack hist.length w a := Nat.succ_pos _
  rw [ringByte, ringByte, List.length_append, List.length_singleton, ringBack_succ ha hne]
  refine ite_congr (by rw [Nat.add_le_add_iff_right]) (fun h => ?_) (fun _ => rfl)
  rw [winByte, winByte, List.length_append, List.length_singleton, Nat.add_sub_add_right,
    List.getD_append _ _ _ _ (by omega)]

/-- SW_RECORD that ends OK has recorded its byte. -/
theorem execSwRecord_ok {s t : State} {byte : BitVec 8} (h : exec (.swRecord byte) s = .next t) (ht : t.status = 0) :
    t = ({ s with hist := s.hist ++ [byte] } : State).withStatus .ok := by
  obtain ⟨-, rfl⟩ | ⟨-, h⟩ := State.unlessEnded_next h
  · cases ht
  obtain ⟨-, rfl⟩ | ⟨-, h⟩ := State.require_next h
  · cases ht
  exact (State.ok_next _ _).1 h

/-- Settles O23, by how far back from the end of hist the ring finds an address. -/
theorem ringHoldsTheNewestBytes : Obligations.RingHoldsTheNewestBytes := by
  refine ⟨fun s i hi hw => ?_, fun s t byte h ht => ?_⟩
  · rw [State.sramByte_eq]
    exact ringByte_mod hi hw
  · obtain rfl := execSwRecord_ok h ht
    refine ⟨?_, fun a ha hne => ?_⟩
    · rw [State.sramByte_eq]
      exact ringByte_append_new s.window_pos
    · rw [State.sramByte_eq, State.sramByte_eq]
      exact ringByte_append_old ha hne

/-! ## Cursors and readers -/

/-- A partly read byte is there (10_state.md R43). -/
def InPort.Sound (p : InPort) : Prop := p.ibit ≠ 0 → p.inq ≠ []

/-- Moving the cursor from `p` to `q` leaves no partly read byte behind that is not there. -/
def InPort.Follows (p q : InPort) : Prop := p.Sound → q.Sound

theorem InPort.Follows.refl (p : InPort) : p.Follows p := id

theorem InPort.Follows.trans {p q r : InPort} (h1 : p.Follows q) (h2 : q.Follows r) : p.Follows r := h2 ∘ h1

/-- A cursor at the start of a byte is always sound. -/
theorem InPort.follows_of_aligned {p q : InPort} (h : q.ibit = 0) : p.Follows q := fun _ hq => absurd h hq

theorem InPort.align_ibit (p : InPort) : p.align.ibit = 0 := by
  unfold InPort.align
  split
  · assumption
  · rfl

/-- The cursor a reader leaves follows `p`, and a value it gives meets `Q`. -/
inductive Read.Meets {α : Type} (p : InPort) (Q : α → Prop) : Read α → Prop where
  | done {a : α} {q : InPort} : p.Follows q → Q a → Read.Meets p Q (.done a q)
  | short : Read.Meets p Q .short
  | malformed {q : InPort} : p.Follows q → Read.Meets p Q (.malformed q)

theorem Read.Meets.of_follows {α : Type} {p q : InPort} {Q : α → Prop} {r : Read α} (h : p.Follows q)
    (hr : r.Meets q Q) : r.Meets p Q := by
  cases hr with
  | done hq ha => exact .done (h.trans hq) ha
  | short => exact .short
  | malformed hq => exact .malformed (h.trans hq)

theorem Read.Meets.andThen {α β : Type} {p : InPort} {Q : α → Prop} {R : β → Prop} {r : Read α}
    {k : α → InPort → Read β} (hr : r.Meets p Q) (hk : ∀ a q, Q a → (k a q).Meets q R) :
    (r.andThen k).Meets p R := by
  cases hr with
  | done hq ha => exact (hk _ _ ha).of_follows hq
  | short => exact .short
  | malformed hq => exact .malformed hq

theorem readBit_meets (p : InPort) : (readBit p).Meets p fun _ => True := by
  unfold readBit
  split
  · exact .short
  · rename_i hp
    split
    · exact .done (InPort.follows_of_aligned rfl) trivial
    · exact .done (fun _ _ => by simp [hp]) trivial

theorem readBits_meets (n : Nat) (p : InPort) : (readBits n p).Meets p (· < 2 ^ n) := by
  induction n generalizing p with
  | zero => exact .done (.refl p) Nat.one_pos
  | succ n ih =>
    refine (readBit_meets p).andThen fun b q _ => (ih q).andThen fun v q' hv => .done (.refl q') ?_
    have := Bool.toNat_le b
    rw [Nat.pow_succ]
    omega

theorem decodeFrom_meets (t : DecTable) (ls : List Nat) (code first index : Nat) (p : InPort) :
    (decodeFrom t ls code first index p).Meets p fun _ => True := by
  induction ls generalizing code first index p with
  | nil => exact .malformed (.refl p)
  | cons l ls ih =>
    refine (readBit_meets p).andThen fun b q _ => ?_
    dsimp only
    split
    · exact .done (.refl q) trivial
    · exact ih ..

theorem decodeSym_meets (t : DecTable) (p : InPort) : (decodeSym t p).Meets p fun _ => True := decodeFrom_meets ..

theorem readDistance_meets (dist : DecTable) (len : Nat) (p : InPort) :
    (readDistance dist len p).Meets p fun _ => True := by
  refine (decodeSym_meets dist p).andThen fun d q _ => ?_
  split
  · exact .malformed (.refl q)
  · exact (readBits_meets _ q).andThen fun x q' _ => .done (.refl q') trivial

theorem readToken_meets (ll dist : DecTable) (p : InPort) : (readToken ll dist p).Meets p fun _ => True := by
  refine (decodeSym_meets ll p).andThen fun sym q _ => ?_
  split
  · exact .done (.refl q) trivial
  · split
    · exact .done (.refl q) trivial
    · split
      · exact .malformed (.refl q)
      · exact (readBits_meets _ q).andThen fun x q' _ => readDistance_meets ..

/-! ## Encoder tables (43_huffman_encoder.md) -/

/-- The codes shorter than `l + 1` bits take, counted in codes of `l + 1` bits, twice what those shorter than `l` and
those of `l` bits take in codes of `l` bits. -/
theorem shorterCodes_succ (lens : List Nat) (l : Nat) :
    ((lens.filter fun k => k ≠ 0 ∧ k < l + 1).map fun k => 2 ^ (l + 1 - k)).sum =
      2 * (((lens.filter fun k => k ≠ 0 ∧ k < l).map fun k => 2 ^ (l - k)).sum +
        if l = 0 then 0 else countLen lens l) := by
  induction lens with
  | nil => simp [countLen]
  | cons k ks ih =>
    simp only [countLen, List.filter_cons, List.count_cons, decide_eq_true_eq, beq_iff_eq] at ih ⊢
    rcases Nat.lt_trichotomy k l with hk | rfl | hk
    · have hpow : 2 ^ (l + 1 - k) = 2 * 2 ^ (l - k) := by rw [Nat.succ_sub (by omega), Nat.pow_succ, Nat.mul_comm]
      simp only [if_neg (show k ≠ l by omega), Nat.add_zero]
      by_cases h0 : k = 0
      · rw [if_neg (by omega), if_neg (by omega), ih]
      · rw [if_pos (by omega), if_pos (by omega), List.map_cons, List.map_cons, List.sum_cons, List.sum_cons, hpow, ih]
        omega
    · rw [if_neg (show ¬ (k ≠ 0 ∧ k < k) by omega), if_pos rfl]
      by_cases h0 : k = 0
      · rw [if_neg (by omega), ih, if_pos h0, if_pos h0]
      · rw [if_pos (by omega), List.map_cons, List.sum_cons, ih, if_neg h0, if_neg h0, Nat.add_sub_cancel_left]
        omega
    · rw [if_neg (by omega), if_neg (by omega), if_neg (show k ≠ l by omega), ih, Nat.add_zero]

/-- next_code[l] starts at the value the codes of shorter symbols leave (43_huffman_encoder.md R230). -/
theorem firstCode_eq (lens : List Nat) (l : Nat) :
    firstCode lens l = ((lens.filter fun k => k ≠ 0 ∧ k < l).map fun k => 2 ^ (l - k)).sum := by
  induction l with
  | zero => simp [firstCode]
  | succ l ih => rw [shorterCodes_succ, firstCode, ih]

theorem assignCodes_length (pairs : List (Nat × BitVec 15)) (next : List Nat) :
    (assignCodes pairs next).length = pairs.length := by
  induction pairs generalizing next with
  | nil => rfl
  | cons x pairs ih =>
    simp only [assignCodes]
    split <;> simp [ih]

theorem canon_length {lens : List Nat} {old : List (BitVec 15)} (h : old.length = lens.length) :
    (canon lens old).length = lens.length := by
  rw [canon, assignCodes_length, List.length_zip, h, Nat.min_self]

/-- The assignment loop gives a symbol the code its length stands at, plus one for each symbol of that length before
it. -/
theorem assignCodes_getD (lens : List Nat) (old : List (BitVec 15)) (next : List Nat) (sym : Nat)
    (hold : old.length = lens.length) (hnext : ∀ l ∈ lens, l < next.length)
    (hsym : sym < lens.length) (hlen : lens.getD sym 0 ≠ 0) :
    (assignCodes (lens.zip old) next).getD sym 0 =
      BitVec.ofNat 15 (next.getD (lens.getD sym 0) 0 + (lens.take sym).count (lens.getD sym 0)) := by
  induction lens generalizing old next sym with
  | nil => simp at hsym
  | cons l ls ih =>
    obtain ⟨c, cs, rfl⟩ := List.exists_cons_of_length_eq_add_one hold
    simp only [List.length_cons, Nat.add_right_cancel_iff] at hold
    have hl : l < next.length := hnext l List.mem_cons_self
    have hls : ∀ x ∈ ls, x < next.length := fun x hx => hnext x (List.mem_cons_of_mem _ hx)
    rw [List.zip_cons_cons, assignCodes]
    cases sym with
    | zero =>
      rw [List.getD_cons_zero] at hlen ⊢
      simp [hlen]
    | succ sym =>
      rw [List.getD_cons_succ] at hlen ⊢
      have hsym' : sym < ls.length := by simpa using hsym
      split
      · rename_i h0
        rw [List.getD_cons_succ, ih cs next sym hold hls hsym' hlen, List.take_succ_cons,
          List.count_cons_of_ne (h0 ▸ hlen.symm)]
      · rw [List.getD_cons_succ, ih cs _ sym hold (by simpa using hls) hsym' hlen, List.take_succ_cons]
        generalize ls.getD sym 0 = m
        by_cases he : l = m
        · subst he
          rw [List.count_cons_self, List.getD_eq_getElem?_getD, List.getElem?_set_self hl, Option.getD_some]
          congr 1
          omega
        · rw [List.count_cons_of_ne he, List.getD_eq_getElem?_getD, List.getElem?_set_ne he,
            ← List.getD_eq_getElem?_getD]

/-- Canon gives each coded symbol its canonical code. -/
theorem canon_getD {lens : List Nat} {old : List (BitVec 15)} {sym : Nat} (hold : old.length = lens.length)
    (hlens : ∀ l ∈ lens, l < 16) (hsym : sym < lens.length) (hlen : lens.getD sym 0 ≠ 0) :
    ((canon lens old).getD sym 0).toNat = canonCode lens sym % 2 ^ 15 := by
  have hl : lens.getD sym 0 < 16 := by
    rw [List.getD_eq_getElem _ _ hsym]
    exact hlens _ (List.getElem_mem hsym)
  have hfirst : ((List.range 16).map (firstCode lens)).getD (lens.getD sym 0) 0 = firstCode lens (lens.getD sym 0) := by
    rw [List.getD_eq_getElem _ _ (by simpa using hl), List.getElem_map, List.getElem_range]
  rw [canon, assignCodes_getD _ _ _ _ hold (by simpa using hlens) hsym hlen, BitVec.toNat_ofNat, hfirst, firstCode_eq]
  rfl

theorem EncTable.lens_getD (t : EncTable) (sym : Nat) : t.lens.getD sym 0 = t.lenOf sym :=
  List.getD_map t.len 0 BitVec.toNat

/-- New lengths of the alphabet's shape, and their canonical codes, make a table that is in order. -/
theorem EncTable.Ok.withLens {size maxLen : Nat} {t : EncTable} {lens : List (BitVec 4)} (h : t.Ok size maxLen)
    (hlen : lens.length = size) (hmax : ∀ l ∈ lens, l.toNat ≤ maxLen) : (t.withLens lens).Ok size maxLen := by
  obtain ⟨hfreq, -, hcode, -, -⟩ := h
  have hlens : (lens.map BitVec.toNat).length = size := by simpa using hlen
  have hold : t.code.length = (lens.map BitVec.toNat).length := by rw [hcode, hlens]
  refine ⟨hfreq, hlen, (canon_length hold).trans hlens, hmax, fun _ sym hsym hne => ?_⟩
  refine canon_getD hold ?_ (hlens.symm ▸ hsym) (by rwa [← EncTable.lens_getD] at hne)
  intro l hl
  obtain ⟨b, -, rfl⟩ := List.mem_map.1 hl
  exact b.isLt

theorem EncTable.Ok.withCanon {size maxLen : Nat} {t : EncTable} (h : t.Ok size maxLen) :
    t.withCanon.Ok size maxLen := by
  obtain ⟨-, hlen, -, hmax, -⟩ := id h
  exact h.withLens hlen hmax

theorem EncTable.Ok.withFreq {size maxLen : Nat} {t : EncTable} {freq : List (BitVec 32)} (h : t.Ok size maxLen)
    (hfreq : freq.length = size) : EncTable.Ok size maxLen { t with freq := freq } := ⟨hfreq, h.2⟩

theorem mem_set_le {maxLen n : Nat} {lens : List (BitVec 4)} {l : BitVec 4} (h : ∀ x ∈ lens, x.toNat ≤ maxLen)
    (hl : l.toNat ≤ maxLen) : ∀ x ∈ lens.set n l, x.toNat ≤ maxLen := by
  intro x hx
  rcases List.mem_or_eq_of_mem_set hx with hx | rfl
  · exact h x hx
  · exact hl

theorem EncTable.Ok.setLen {size maxLen sym : Nat} {t : EncTable} {ln : BitVec 4} (h : t.Ok size maxLen)
    (hln : ln.toNat ≤ maxLen) : EncTable.Ok size maxLen { t with len := t.len.set sym ln, valid := false } := by
  obtain ⟨hfreq, hlen, hcode, hmax, -⟩ := h
  exact ⟨hfreq, by simpa using hlen, hcode, mem_set_le hmax hln, fun hv => by cases hv⟩

/-! ## The lengths of HE_BUILD stay within the limit (43_huffman_encoder.md R225 to R229) -/

theorem setLeafLen_le {m sym len : Nat} {leaves : List Leaf} (h : ∀ x ∈ leaves, x.len ≤ m) (hl : len ≤ m) :
    ∀ x ∈ setLeafLen leaves sym len, x.len ≤ m := by
  intro x hx
  obtain ⟨y, hy, rfl⟩ := List.mem_map.1 hx
  split
  · exact hl
  · exact h y hy

theorem lengthenLoop_le {m : Nat} (fuel : Nat) {leaves : List Leaf} (h : ∀ x ∈ leaves, x.len ≤ m) :
    ∀ x ∈ lengthenLoop m fuel leaves, x.len ≤ m := by
  induction fuel generalizing leaves with
  | zero => exact h
  | succ fuel ih =>
    rw [lengthenLoop]
    split
    · split
      · rename_i y hy
        obtain ⟨-, hok, -⟩ := chooseLeaf_some lengthenFirst_order.1 lengthenFirst_order.2 hy
        exact ih (setLeafLen_le h (of_decide_eq_true hok))
      · exact h
    · exact h

theorem shortenLoop_le {m : Nat} (fuel : Nat) {leaves : List Leaf} (h : ∀ x ∈ leaves, x.len ≤ m) :
    ∀ x ∈ shortenLoop m fuel leaves, x.len ≤ m := by
  induction fuel generalizing leaves with
  | zero => exact h
  | succ fuel ih =>
    rw [shortenLoop]
    split
    · split
      · rename_i y hy
        obtain ⟨hmem, -, -⟩ := chooseLeaf_some shortenFirst_order.1 shortenFirst_order.2 hy
        exact ih (setLeafLen_le h ((Nat.sub_le ..).trans (h y hmem)))
      · exact h
    · exact h

theorem limitedLeaves_le (nb m : Nat) (used : List (Nat × Nat)) : ∀ x ∈ limitedLeaves nb m used, x.len ≤ m := by
  refine shortenLoop_le _ (lengthenLoop_le _ fun x hx => ?_)
  obtain ⟨y, -, rfl⟩ := List.mem_map.1 hx
  exact Nat.min_le_right ..

theorem codeLengths_le {nb m : Nat} (hm : 1 ≤ m) (used : List (Nat × Nat)) :
    ∀ x ∈ codeLengths nb m used, x.2 ≤ m := by
  intro x hx
  unfold codeLengths at hx
  split at hx
  · simp only [List.mem_cons, List.not_mem_nil, or_false] at hx
    rcases hx with rfl | rfl <;> exact hm
  · simp only [List.mem_cons, List.not_mem_nil, or_false] at hx
    rcases hx with rfl | rfl <;> exact hm
  · obtain ⟨y, hy, rfl⟩ := List.mem_map.1 hx
    exact limitedLeaves_le nb m _ y hy

theorem builtLens_length (a : Alphabet) (m : Nat) (used : List (Nat × Nat)) :
    (builtLens a m used).length = a.size := by
  simp [builtLens, lengthTable]

theorem builtLens_le {a : Alphabet} {m : Nat} (hm : 1 ≤ m) (used : List (Nat × Nat)) :
    ∀ l ∈ builtLens a m used, l.toNat ≤ m := by
  intro l hl
  simp only [builtLens, lengthTable, List.map_map, List.mem_map, Function.comp_apply] at hl
  obtain ⟨sym, -, rfl⟩ := hl
  rw [BitVec.toNat_ofNat]
  refine (Nat.mod_le ..).trans ?_
  cases hx : (codeLengths a.usable m used).lookup sym with
  | none => exact Nat.zero_le m
  | some l =>
    obtain ⟨_, _, hp, -⟩ := List.lookup_eq_some_iff.1 hx
    have hmem : (sym, l) ∈ codeLengths a.usable m used := by simp [hp]
    exact codeLengths_le hm used _ hmem

/-! ## Decoder tables (44_huffman_decoder.md) -/

theorem DecTable.Ok.invalid {size maxLen : Nat} {t : DecTable} (h : t.Ok size maxLen) : t.invalid.Ok size maxLen := by
  obtain ⟨hlen, hmax, -⟩ := h
  exact ⟨hlen, hmax, fun hv => by cases hv⟩

theorem DecTable.Ok.setLen {size maxLen sym : Nat} {t : DecTable} {ln : BitVec 4} (h : t.Ok size maxLen)
    (hln : ln.toNat ≤ maxLen) : DecTable.Ok size maxLen { t with len := t.len.set sym ln, valid := false } := by
  obtain ⟨hlen, hmax, -⟩ := h
  exact ⟨by simpa using hlen, mem_set_le hmax hln, fun hv => by cases hv⟩

theorem DecTable.isOver_eq_false {t : DecTable} {n : Nat} : t.isOver n = false ↔ kraft (t.lens n) ≠ .over := by
  simp [DecTable.isOver]

/-- Building over `n` lengths that are not over-subscribed makes a table that is in order. -/
theorem DecTable.built_ok {size maxLen n : Nat} {t : DecTable} (hlen : t.len.length = size)
    (hmax : ∀ l ∈ t.len, l.toNat ≤ maxLen) (h1 : 1 ≤ n) (hn : n ≤ size) (hover : t.isOver n = false) :
    (t.built n).Ok size maxLen :=
  ⟨hlen, hmax, fun _ => ⟨h1, hn, rfl, rfl, DecTable.isOver_eq_false.1 hover⟩⟩

/-- A table loaded with lengths of its alphabet's shape is in order, whatever it held before. -/
theorem DecTable.load_ok {size maxLen : Nat} {t : DecTable} {lens : List (BitVec 4)} (hlen : lens.length = size)
    (hmax : ∀ l ∈ lens, l.toNat ≤ maxLen) (hsize : 1 ≤ size) (hover : (t.load lens).isOver size = false) :
    (t.load lens).Ok size maxLen := by
  subst hlen
  exact DecTable.built_ok rfl hmax hsize (Nat.le_refl _) hover

theorem bitVec4_le (l : BitVec 4) : l.toNat ≤ 15 := Nat.le_of_lt_succ l.isLt

theorem fixed_length : fixedLL.length = 288 ∧ fixedDist.length = 32 := by
  simp only [fixedLL, fixedDist, List.length_append, List.length_replicate, and_self]

/-- The fixed codes of 43_huffman_encoder.md R233 are not over-subscribed. -/
theorem fixed_not_over :
    kraft (fixedLL.map BitVec.toNat) ≠ .over ∧ kraft (fixedDist.map BitVec.toNat) ≠ .over := by
  decide +kernel

theorem DecTable.load_isOver {t : DecTable} {lens : List (BitVec 4)} {n : Nat} (hn : lens.length = n)
    (h : kraft (lens.map BitVec.toNat) ≠ .over) : (t.load lens).isOver n = false := by
  rw [DecTable.isOver_eq_false, ← hn]
  show kraft ((lens.take lens.length).map BitVec.toNat) ≠ .over
  rwa [List.take_length]

theorem readClLens_meets (places : List Nat) (n : Nat) (lens : List (BitVec 4)) (p : InPort)
    (h : ∀ l ∈ lens, l.toNat ≤ 7) :
    (readClLens places n lens p).Meets p fun r => r.length = lens.length ∧ ∀ l ∈ r, l.toNat ≤ 7 := by
  induction places generalizing n lens p with
  | nil => exact .done (.refl p) ⟨rfl, h⟩
  | cons m ms ih =>
    cases n with
    | zero => simpa [readClLens] using ih 0 _ p (mem_set_le (n := m) h (show (0 : BitVec 4).toNat ≤ 7 by decide))
    | succ n =>
      refine (readBits_meets 3 p).andThen fun v q hv => ?_
      have hle : (BitVec.ofNat 4 v).toNat ≤ 7 := by rw [BitVec.toNat_ofNat]; omega
      simpa using ih n _ q (mem_set_le (n := m) h hle)

theorem readRun_meets (sym : Nat) (lens : List (BitVec 4)) (p : InPort) :
    (readRun sym lens p).Meets p fun _ => True := by
  have repeats : ∀ n (f : Nat → List (BitVec 4)),
      ((readBits n p).andThen fun v q => Read.done (f v) q).Meets p fun _ => True := fun n f =>
    (readBits_meets n p).andThen fun v q _ => .done (.refl q) trivial
  unfold readRun
  split
  · exact .done (.refl p) trivial
  · split
    · split
      · exact .malformed (.refl p)
      · exact repeats ..
    · split
      · exact repeats ..
      · exact repeats ..

/-- No run takes the lengths past the number asked for (R271). -/
theorem readLens_meets (cl : DecTable) (total fuel : Nat) (lens : List (BitVec 4)) (p : InPort)
    (h : lens.length ≤ total) : (readLens cl total fuel lens p).Meets p (·.length ≤ total) := by
  induction fuel generalizing lens p with
  | zero => exact .done (.refl p) h
  | succ fuel ih =>
    rw [readLens]
    split
    · exact .done (.refl p) h
    · refine (decodeSym_meets cl p).andThen fun sym q _ => (readRun_meets sym lens q).andThen fun run q' _ => ?_
      split
      · exact .malformed (.refl q')
      · exact ih _ q' (by omega)

/-- The three tables a dynamic header gives are in order. -/
def DynHeader.TablesOk (h : DynHeader) : Prop := h.ll.Ok 288 15 ∧ h.dist.Ok 32 15 ∧ h.cl.Ok 19 7

theorem padLens_length {size : Nat} {lens : List (BitVec 4)} (h : lens.length ≤ size) :
    (padLens size lens).length = size := by
  rw [padLens, List.length_append, List.length_replicate, Nat.add_sub_cancel' h]

theorem buildDynTables_meets {hlit hdist hclen : Nat} {ll dist cl : DecTable} {lens : List (BitVec 4)} (p : InPort)
    (hcl : cl.Ok 19 7) (hlit_le : hlit ≤ 286) (hdist_le : hdist ≤ 30) (hlens : lens.length ≤ hlit + hdist) :
    (buildDynTables hlit hdist hclen ll dist cl lens p).Meets p DynHeader.TablesOk := by
  unfold buildDynTables
  split
  · exact .malformed (.refl p)
  · dsimp only
    split
    · exact .malformed (.refl p)
    · rename_i hover
      simp only [Bool.or_eq_true, not_or, Bool.not_eq_true] at hover
      have hll : (lens.take hlit).length ≤ 288 := by rw [List.length_take]; omega
      have hdl : (lens.drop hlit).length ≤ 32 := by rw [List.length_drop]; omega
      exact .done (.refl p) ⟨DecTable.load_ok (padLens_length hll) (fun l _ => bitVec4_le l) (by decide) hover.1,
        DecTable.load_ok (padLens_length hdl) (fun l _ => bitVec4_le l) (by decide) hover.2, hcl⟩

theorem readDynHeader_meets (ll dist cl : DecTable) (p : InPort) :
    (readDynHeader ll dist cl p).Meets p DynHeader.TablesOk := by
  refine (readBits_meets 5 p).andThen fun x p1 _ => (readBits_meets 5 p1).andThen fun y p2 _ =>
    (readBits_meets 4 p2).andThen fun z p3 _ => ?_
  dsimp only
  split
  · exact .malformed (.refl p3)
  · rename_i hcounts
    simp only [Bool.or_eq_true, decide_eq_true_eq, not_or, Nat.not_lt] at hcounts
    refine (readClLens_meets clOrder (z + 4) (List.replicate 19 0) p3 (by simp)).andThen fun clLens p4 hcl => ?_
    split
    · exact .malformed (.refl p4)
    · rename_i hover
      have hclOk := DecTable.load_ok (t := cl) hcl.1 hcl.2 (by decide) (Bool.eq_false_iff.2 hover)
      exact (readLens_meets _ _ _ [] p4 (Nat.zero_le _)).andThen fun lens p5 hlens =>
        buildDynTables_meets p5 hclOk hcounts.1 hcounts.2 hlens

/-! ## The packer's counts -/

/-- PutBit for each bit counts every bit once, in a whole byte of outq or pending. -/
theorem OutPort.putAll_count (o : OutPort) (bs : List Bool) :
    8 * (o.putAll bs).outq.length + (o.putAll bs).obits.toNat = 8 * o.outq.length + o.obits.toNat + bs.length := by
  induction bs generalizing o with
  | nil => rfl
  | cons b bs ih =>
    have hput : 8 * (o.putBit b).outq.length + (o.putBit b).obits.toNat = 8 * o.outq.length + o.obits.toNat + 1 := by
      unfold OutPort.putBit
      split
      · rename_i h
        simp [h]
        omega
      · rename_i h
        have hne : o.obits.toNat ≠ 7 := fun hc => h (BitVec.eq_of_toNat_eq hc)
        have hlt := o.obits.isLt
        simp only [BitVec.toNat_add, show (1 : BitVec 3).toNat = 1 from rfl]
        omega
    have hrest := ih (o.putBit b)
    rw [List.length_cons]
    show 8 * ((o.putBit b).putAll bs).outq.length + ((o.putBit b).putAll bs).obits.toNat = _
    omega

theorem OutPort.putAll_outq_length (o : OutPort) (bs : List Bool) :
    (o.putAll bs).outq.length = o.outq.length + (o.obits.toNat + bs.length) / 8 := by
  have hcount := o.putAll_count bs
  have h1 := o.obits.isLt
  have h2 := (o.putAll bs).obits.isLt
  omega

theorem valueLsb_lt (bs : List Bool) : valueLsb bs < 2 ^ bs.length := by
  induction bs with
  | nil => exact Nat.one_pos
  | cons b bs ih =>
    have := Bool.toNat_le b
    rw [valueLsb, List.length_cons, Nat.pow_succ]
    omega

theorem packByte_lt (bs : List Bool) : (packByte bs).toNat < 2 ^ bs.length := by
  rw [packByte, BitVec.toNat_ofNat]
  refine (Nat.mod_le ..).trans_lt ((valueLsb_lt _).trans_le (Nat.pow_le_pow_right (by decide) ?_))
  exact List.length_take_le' ..

/-- OBUF keeps no bit at OBITS or above (10_state.md R44). -/
theorem OutPort.putAll_obuf_lt {o : OutPort} (h : o.obuf.toNat < 2 ^ o.obits.toNat) (bs : List Bool) :
    (o.putAll bs).obuf.toNat < 2 ^ (o.putAll bs).obits.toNat := by
  rw [OutPort.putAll_eq_pushed h]
  have hbits : ∀ all : List Bool,
      (BitVec.ofNat 3 (all.length % 8)).toNat = (all.drop (8 * (all.length / 8))).length := by
    intro all
    rw [BitVec.toNat_ofNat, List.length_drop]
    omega
  rw [OutPort.pushed, hbits]
  exact packByte_lt _

/-! ## What commands write -/

/-- The state without its registers and flags: what ENDED, the queues, the window and the tables are. -/
def State.bare (s : State) : State :=
  { s with status := 0, res0 := 0, res1 := 0, res2 := 0, res3 := 0, derr := false, needDict := false,
           last := false, storedRem := 0, dictId := 0, dictExpect := 0 }

/-- The states the writes of a command other than CORE_RESET and END can reach from `s`, one constructor for each
kind of write, with the condition its command checks first. -/
inductive Writes (s : State) : State → Prop where
  | start : Writes s s
  /-- Registers and flags. -/
  | registers {u t : State} : Writes s u → t.bare = u.bare → Writes s t
  /-- The cursor of the unpacker, moved by reading, dequeuing or aligning. -/
  | cursor {u : State} : Writes s u → ∀ p : InPort, u.inp.Follows p → Writes s { u with inp := p }
  /-- Bits to the packer. -/
  | bits {u : State} : Writes s u → ∀ bs : List Bool, u.hasRoomForBits bs.length →
      Writes s { u with out := u.out.putAll bs }
  /-- Whole bytes to the output queue. -/
  | bytes {u : State} : Writes s u → ∀ bs : List Byte, u.hasRoom bs.length →
      Writes s { u with out := u.out.putBytes bs }
  /-- A configuration register. -/
  | config {u : State} : Writes s u → ∀ field val : Nat, cfgLegal field val = true →
      Writes s { u with cfg := u.cfg.write field val }
  /-- The window and the lookahead cleared. -/
  | clear {u : State} : Writes s u → Writes s u.clearStream
  /-- The window cleared. -/
  | forget {u : State} : Writes s u → Writes s { u with hist := [], mfBase := 0 }
  /-- Bytes recorded. -/
  | record {u : State} : Writes s u → ∀ bs : List Byte, Writes s { u with hist := u.hist ++ bs }
  /-- Bytes to the lookahead. -/
  | feed {u : State} : Writes s u → ∀ bs : List Byte, bs.length ≤ laCap - u.la.length →
      Writes s { u with la := u.la ++ bs }
  /-- Lookahead bytes tokenised. -/
  | tokenise {u : State} : Writes s u → ∀ n : Nat, Writes s (u.tokenise n)
  /-- The chain's lower bound moved to the end of hist. -/
  | rebase {u : State} : Writes s u → Writes s { u with mfBase := u.hist.length }
  /-- An encoder table, which stays in order. -/
  | enc {u : State} : Writes s u → ∀ (a : Alphabet) (t : EncTable),
      ((u.enc a).Ok a.size a.maxLen → t.Ok a.size a.maxLen) → Writes s (u.setEnc a t)
  /-- A decoder table, which stays in order. -/
  | dec {u : State} : Writes s u → ∀ (a : Alphabet) (t : DecTable),
      ((u.dec a).Ok a.size a.maxLen → t.Ok a.size a.maxLen) → Writes s (u.setDec a t)

/-- A result whose next state, if any, is reached by writes. -/
def Wrote (s : State) (r : Result) : Prop := ∀ t, r = .next t → Writes s t

section Rules

variable {s u : State} {k : Result}

theorem Writes.withStatus (h : Writes s u) (st : Status) : Writes s (u.withStatus st) := h.registers rfl

/-- A read from the command's own state. -/
theorem Writes.read {p : InPort} (hp : s.inp.Follows p) : Writes s { s with inp := p } := Writes.start.cursor p hp

theorem Wrote.report {st : Status} (h : Writes s u) : Wrote s (u.report st) := by
  intro t ht
  rw [(State.report_next ..).1 ht]
  exact h.withStatus st

theorem Wrote.ok (h : Writes s u) : Wrote s u.ok := .report h

theorem Wrote.dataError (h : Writes s u) : Wrote s u.dataError := .report (h.registers rfl)

theorem Wrote.holdIn : Wrote s s.holdIn := .report .start

theorem Wrote.holdOut : Wrote s s.holdOut := .report .start

theorem Wrote.unlessEnded (h : Wrote s k) : Wrote s (s.unlessEnded k) := by
  intro t ht
  obtain ⟨-, rfl⟩ | ⟨-, ht⟩ := State.unlessEnded_next ht
  · exact Writes.start.withStatus _
  · exact h t ht

theorem Wrote.gated (h : Wrote s k) : Wrote s (s.gated k) := by
  intro t ht
  obtain ⟨-, rfl⟩ | ⟨-, -, rfl⟩ | ⟨-, -, ht⟩ := State.gated_next ht
  · exact Writes.start.withStatus _
  · exact Writes.start.withStatus _
  · exact h t ht

theorem Wrote.require {ok : Bool} (h : ok = true → Wrote s k) : Wrote s (s.require ok k) := by
  intro t ht
  obtain ⟨-, rfl⟩ | ⟨hok, ht⟩ := State.require_next ht
  · exact Writes.start.withStatus _
  · exact h hok t ht

theorem Wrote.inRange {ok : Bool} (h : ok = true → Wrote s k) : Wrote s (s.inRange ok k) := by
  intro t ht
  obtain ⟨-, rfl⟩ | ⟨hok, ht⟩ := State.inRange_next ht
  · exact Writes.start.withStatus _
  · exact h hok t ht

theorem Wrote.onAlphabet {f : BitVec 2} {k : Alphabet → Result} (h : ∀ a, Wrote s (k a)) :
    Wrote s (s.onAlphabet f k) := by
  intro t ht
  obtain ⟨-, rfl⟩ | ⟨a, -, ht⟩ := State.onAlphabet_next ht
  · exact Writes.start.withStatus _
  · exact h a t ht

theorem Wrote.afterRead {α : Type} {p : InPort} {Q : α → Prop} {r : Read α} {k : α → InPort → Result}
    (hr : r.Meets p Q) (hp : s.inp.Follows p) (h : ∀ a q, s.inp.Follows q → Wrote s (k a q)) :
    Wrote s (s.afterRead r k) := by
  cases hr with
  | done hq _ => exact h _ _ (hp.trans hq)
  | short => exact .holdIn
  | malformed hq => exact .dataError (.read (hp.trans hq))

/-- A condition under which the command holds or fails, and the rest of its body. -/
theorem Wrote.ite {c : Prop} [Decidable c] {r : Result} (hr : Wrote s r) (hk : ¬ c → Wrote s k) :
    Wrote s (if c then r else k) := by
  split
  · exact hr
  · exact hk ‹_›

theorem Wrote.sendBits {bs : List Bool} : Wrote s (s.sendBits bs) := by
  intro t ht
  obtain ⟨-, rfl⟩ | ⟨hroom, rfl⟩ := State.sendBits_next ht
  · exact Writes.start.withStatus _
  · exact (Writes.start.bits bs hroom).withStatus _

/-- A command that holds unless there is room for `n` bytes runs its body with that room. -/
theorem Wrote.unlessFull {n : Nat} (h : s.hasRoom n → Wrote s k) :
    Wrote s (if s.lacksRoom n then s.holdOut else k) :=
  .ite .holdOut fun hn => h ((State.lacksRoom_eq_false ..).1 (Bool.eq_false_iff.2 hn))

theorem Wrote.enc {a : Alphabet} {t : EncTable} (h : (s.enc a).Ok a.size a.maxLen → t.Ok a.size a.maxLen) :
    Wrote s (s.setEnc a t).ok := .ok (.enc .start a t h)

theorem Wrote.dec {a : Alphabet} {t : DecTable} (h : (s.dec a).Ok a.size a.maxLen → t.Ok a.size a.maxLen) :
    Wrote s (s.setDec a t).ok := .ok (.dec .start a t h)

/-- The pad bits of an unaligned packer complete one byte. -/
theorem Writes.align (h : Writes s u) (hroom : u.out.obits ≠ 0 → u.hasRoom 1) :
    Writes s { u with out := u.out.align } := by
  unfold OutPort.align
  split
  · exact h
  · rename_i hb
    refine h.bits (bitsLsb (8 - u.out.obits.toNat) 0) ?_
    have hlt := u.out.obits.isLt
    have hone : (u.out.obits.toNat + (bitsLsb (8 - u.out.obits.toNat) 0).length) / 8 = 1 := by
      simp only [bitsLsb, List.length_map, List.length_range]
      omega
    rw [State.hasRoomForBits, hone]
    exact hroom hb

end Rules

theorem OutPort.align_outq_length (o : OutPort) :
    o.align.outq.length = o.outq.length + if o.obits = 0 then 0 else 1 := by
  unfold OutPort.align
  split
  · rfl
  · have hlt := o.obits.isLt
    rw [OutPort.putBits, OutPort.putAll_outq_length]
    simp only [bitsLsb, List.length_map, List.length_range]
    omega

section Commands
variable {s : State}

theorem execBpSync_wrote : Wrote s (execBpSync s) := by
  refine .unlessEnded ?_
  have aligned : ∀ n, s.inp.Follows (s.inp.align.dequeue n) := fun n =>
    InPort.follows_of_aligned s.inp.align_ibit
  dsimp only
  split
  · exact .ok (.registers (.read (aligned _)) rfl)
  · exact .dataError (.read (aligned _))

theorem execCfgSet_wrote (field : BitVec 4) (val : BitVec 16) : Wrote s (execCfgSet field val s) := by
  refine .unlessEnded <| .inRange fun hlegal => ?_
  have hconfig := Writes.start (s := s).config field.toNat val.toNat hlegal
  dsimp only
  split
  · exact .ok hconfig.clear
  · exact .ok hconfig

theorem execHeBuild_wrote (t : BitVec 2) (ln : BitVec 4) : Wrote s (execHeBuild t ln s) := by
  refine .unlessEnded <| .onAlphabet fun a => .inRange fun hln => .require fun _ => .enc fun h => ?_
  simp only [Bool.and_eq_true, decide_eq_true_eq] at hln
  exact h.withLens (builtLens_length ..) fun l hl => (builtLens_le hln.1 _ l hl).trans hln.2

theorem execHeFixed_wrote : Wrote s (execHeFixed s) := by
  obtain ⟨hll, hdist⟩ := fixed_length
  refine .unlessEnded <| .ok ?_
  refine .enc (.enc .start .ll (s.heLL.withLens fixedLL) fun h => ?_) .dist _ fun h => ?_
  · exact h.withLens hll fun l _ => bitVec4_le l
  · exact h.withLens hdist fun l _ => bitVec4_le l

theorem execHdBuild_wrote (t : BitVec 2) (n : BitVec 9) : Wrote s (execHdBuild t n s) := by
  refine .unlessEnded <| .onAlphabet fun a => .inRange fun hn => .ite ?_ fun hover => .dec fun h => ?_
  · exact .dataError (.dec .start a _ DecTable.Ok.invalid)
  · simp only [Bool.and_eq_true, decide_eq_true_eq] at hn
    obtain ⟨hlen, hmax, -⟩ := h
    exact DecTable.built_ok hlen hmax hn.1 hn.2 (Bool.eq_false_iff.2 hover)

theorem execHdFixed_wrote : Wrote s (execHdFixed s) := by
  obtain ⟨hll, hdist⟩ := fixed_length
  refine .unlessEnded <| .ok ?_
  refine .dec (.dec .start .ll (s.hdLL.load fixedLL) fun _ => ?_) .dist _ fun _ => ?_
  · exact DecTable.load_ok hll (fun l _ => bitVec4_le l) (by decide) (DecTable.load_isOver hll fixed_not_over.1)
  · exact DecTable.load_ok hdist (fun l _ => bitVec4_le l) (by decide) (DecTable.load_isOver hdist fixed_not_over.2)

theorem execHdDynhdr_wrote : Wrote s (execHdDynhdr s) := by
  refine .unlessEnded <| .gated ?_
  have hmeets := readDynHeader_meets s.hdLL s.hdDist s.hdCl s.inp
  generalize readDynHeader s.hdLL s.hdDist s.hdCl s.inp = r at hmeets
  cases hmeets with
  | @done h p hp htables =>
    obtain ⟨hll, hdist, hcl⟩ := htables
    have hdec := ((Writes.start (s := s)).dec .ll h.ll fun _ => hll).dec .dist h.dist fun _ => hdist
    exact .ok (.registers ((hdec.dec .cl h.cl fun _ => hcl).cursor p hp) rfl)
  | short => exact .holdIn
  | @malformed p hp =>
    have hdec := (Writes.start.dec .ll s.hdLL.invalid DecTable.Ok.invalid).dec .dist s.hdDist.invalid
      DecTable.Ok.invalid
    exact .dataError (.registers ((hdec.dec .cl s.hdCl.invalid DecTable.Ok.invalid).cursor p hp) rfl)

theorem execMfFeed_wrote (cnt : BitVec 16) : Wrote s (execMfFeed cnt s) := by
  refine .unlessEnded <| .inRange fun hcnt => .require fun hal => .ite .holdIn fun _ => .ok ?_
  have haligned : s.inp.ibit = 0 := beq_iff_eq.1 hal
  have hfits : (s.inp.inq.take cnt.toNat).length ≤ laCap - s.la.length :=
    (List.length_take_le ..).trans (of_decide_eq_true hcnt)
  exact (Writes.start.feed _ hfits).cursor (s.inp.dequeue cnt.toNat) (InPort.follows_of_aligned haligned)

theorem execMfStep_wrote (drain : BitVec 1) : Wrote s (execMfStep drain s) := by
  refine .unlessEnded ?_
  split
  · exact .ok (.registers .start rfl)
  · refine .ite .holdIn fun _ => ?_
    dsimp only
    split
    · exact .ok (.registers (.tokenise .start _) rfl)
    · exact .ok (.registers (.tokenise .start 1) rfl)

theorem execBfWstored_wrote (cnt : BitVec 16) : Wrote s (execBfWstored cnt s) := by
  refine .unlessEnded <| .inRange fun _ => .unlessFull fun hroom => .ok ?_
  have hpad : (if s.outAligned then 0 else 1) = if s.out.obits = 0 then 0 else 1 := by simp [State.outAligned]
  rw [hpad, State.hasRoom] at hroom
  refine .bytes (Writes.start.align fun hb => ?_) _ ?_
  · rw [if_neg hb] at hroom
    rw [State.hasRoom]
    omega
  · simp only [State.hasRoom, OutPort.align_outq_length, storedHeader, lastBytes, List.length_append,
      List.length_cons, List.length_nil, List.length_map, List.length_range]
    omega

theorem execBfRstored_wrote : Wrote s (execBfRstored s) := by
  refine .unlessEnded <| .gated <| .afterRead (readBits_meets ..) (InPort.follows_of_aligned s.inp.align_ibit)
    fun len p1 h1 => .afterRead (readBits_meets 16 p1) h1 fun nlen p2 h2 => .ite ?_ fun _ => ?_
  · exact .dataError (.read h2)
  · exact .report (.registers (.read h2) rfl)

theorem execBfRcopy_wrote (cnt : BitVec 16) : Wrote s (execBfRcopy cnt s) := by
  refine .unlessEnded <| .gated <| .require fun hpre => .ite .holdIn fun hin => .unlessFull fun hroom => .report ?_
  simp only [Bool.and_eq_true, State.inAligned, beq_iff_eq] at hpre
  obtain ⟨⟨⟨-, haligned⟩, -⟩, -⟩ := hpre
  have hfits : s.hasRoom (s.inp.inq.take cnt.toNat).length := by
    rwa [List.length_take_of_le (Nat.not_lt.1 hin)]
  have hout := (Writes.start.bytes _ hfits).record (s.inp.inq.take cnt.toNat)
  exact .registers (hout.cursor (s.inp.dequeue cnt.toNat) (InPort.follows_of_aligned haligned)) rfl

/-- A back-reference that fits is output and recorded. -/
theorem copyMatch_writes {len dist : Nat} (hroom : s.hasRoom len) : Writes s (State.copyMatch len dist s) := by
  obtain ⟨bytes, hlen, heq⟩ := State.copyMatch_spec len dist s
  rw [heq, ← OutPort.putBytes_eq_appended]
  exact (Writes.start.bytes _ (hlen ▸ hroom)).record _

theorem applyToken_wrote (tok : Token) {p : InPort} (hp : s.inp.Follows p) : Wrote s (s.applyToken tok p) := by
  unfold State.applyToken
  dsimp only
  split
  · refine .unlessFull fun hroom => .report ?_
    have hout := Writes.start.bytes [BitVec.ofNat 8 tok.byte] hroom
    exact .registers ((hout.record [BitVec.ofNat 8 tok.byte]).cursor p hp) rfl
  · refine .ite (.dataError (.read hp)) fun _ => .unlessFull fun hroom => .report ?_
    have hcopy : (State.copyMatch tok.len tok.dist s).inp = s.inp := by
      obtain ⟨bytes, -, heq⟩ := State.copyMatch_spec tok.len tok.dist s
      rw [heq]
    exact .registers ((copyMatch_writes hroom).cursor p (hcopy ▸ hp)) rfl
  · exact .report (.registers (.read hp) rfl)
  · exact .report (.registers (.read hp) rfl)

theorem execSwSetdict_wrote (cnt : BitVec 16) : Wrote s (execSwSetdict cnt s) := by
  refine .unlessEnded <| .require fun hpre => .ite .holdIn fun _ => ?_
  have haligned : s.inp.ibit = 0 := beq_iff_eq.1 (Bool.and_eq_true_iff.1 hpre).1
  have hread := Writes.read (s := s) (p := { s.inp with inq := s.inp.inq.drop cnt.toNat })
    (InPort.follows_of_aligned haligned)
  exact .ite (.report hread) fun _ => .ok (.registers (hread.record (s.inp.inq.take cnt.toNat)) rfl)

end Commands

/-- Every command but CORE_RESET and END does nothing but writes. -/
theorem exec_wrote {i : Instr} (s : State) (hreset : i ≠ .coreReset) (hend : i ≠ .endSession) :
    Wrote s (exec i s) := by
  cases i with
  | coreReset => exact absurd rfl hreset
  | endSession => exact absurd rfl hend
  | nop => exact .unlessEnded <| .ok .start
  | cfgSet field val => exact execCfgSet_wrote field val
  | regGet reg => exact .unlessEnded <| .inRange fun _ => .ok (.registers .start rfl)
  | bpPut nb v => exact .unlessEnded <| .inRange fun _ => .sendBits
  | bpPutrev nb v => exact .unlessEnded <| .inRange fun _ => .sendBits
  | bpAlignOut =>
    exact .unlessEnded <| .ite (.ok .start) fun _ => .unlessFull fun hroom => .ok (Writes.start.align fun _ => hroom)
  | bpGet nb =>
    exact .unlessEnded <| .inRange fun _ => .afterRead (readBits_meets ..) (.refl _) fun v p hp =>
      .ok (.registers (.read hp) rfl)
  | bpAlignIn => exact .unlessEnded <| .ok (.read (InPort.follows_of_aligned s.inp.align_ibit))
  | bpSync => exact execBpSync_wrote
  | swReset => exact .unlessEnded <| .ok (.forget .start)
  | swRecord byte => exact .unlessEnded <| .require fun _ => .ok (.record .start [byte])
  | swRead dm1 => exact .unlessEnded <| .ite (.dataError .start) fun _ => .ok (.registers .start rfl)
  | swMatchat len9 dm1 =>
    exact .unlessEnded <| .inRange fun _ => .require fun _ => .ite (.dataError .start) fun _ =>
      .unlessFull fun hroom => .ok (.bytes .start _ (by simpa [matchBytes] using hroom))
  | swCopy len9 dm1 =>
    exact .unlessEnded <| .inRange fun _ => .gated <| .require fun _ => .ite (.dataError .start) fun _ =>
      .unlessFull fun hroom => .ok (copyMatch_writes hroom)
  | swSetdict cnt => exact execSwSetdict_wrote cnt
  | swExpectdict =>
    exact .unlessEnded <| .require fun hal => .ite .holdIn fun _ =>
      .report (.registers (.read (p := s.inp.dequeue 4) (InPort.follows_of_aligned (beq_iff_eq.1 hal))) rfl)
  | heClear t => exact .unlessEnded <| .onAlphabet fun a => .enc fun h => h.withFreq (by simp)
  | heCount t sym =>
    exact .unlessEnded <| .onAlphabet fun a => .inRange fun _ => .enc fun h => h.withFreq (by simpa using h.1)
  | heBuild t ln => exact execHeBuild_wrote t ln
  | heSetlen t ln sym =>
    exact .unlessEnded <| .onAlphabet fun a => .inRange fun hr => .enc fun h =>
      h.setLen (of_decide_eq_true (Bool.and_eq_true_iff.1 hr).2)
  | heCanon t => exact .unlessEnded <| .onAlphabet fun a => .require fun _ => .enc fun h => h.withCanon
  | heFixed => exact execHeFixed_wrote
  | heEmit t sym => exact .unlessEnded <| .onAlphabet fun a => .inRange fun _ => .require fun _ => .sendBits
  | heMatch len9 dm1 => exact .unlessEnded <| .inRange fun _ => .require fun _ => .sendBits
  | heRlecount => exact .unlessEnded <| .ok (.enc .start .cl _ fun h => h.withFreq (by simp; rfl))
  | heDynhdr => exact .unlessEnded <| .require fun _ => .require fun _ => .sendBits
  | hdSetlen t ln sym =>
    exact .unlessEnded <| .onAlphabet fun a => .inRange fun hr => .dec fun h =>
      h.setLen (of_decide_eq_true (Bool.and_eq_true_iff.1 hr).2)
  | hdBuild t n => exact execHdBuild_wrote t n
  | hdFixed => exact execHdFixed_wrote
  | hdDecode t =>
    exact .unlessEnded <| .onAlphabet fun a => .gated <| .require fun _ =>
      .afterRead (decodeSym_meets ..) (.refl _) fun sym p hp => .ok (.registers (.read hp) rfl)
  | hdDynhdr => exact execHdDynhdr_wrote
  | hdToken =>
    exact .unlessEnded <| .gated <| .require fun _ => .afterRead (readToken_meets ..) (.refl _) fun tok p hp =>
      .ok (.registers (.read hp) rfl)
  | mfFeed cnt => exact execMfFeed_wrote cnt
  | mfFind => exact .unlessEnded <| .ok (.registers .start rfl)
  | mfStep drain => exact execMfStep_wrote drain
  | mfResetHist => exact .unlessEnded <| .ok (.rebase .start)
  | bfWhdr btype final => exact .unlessEnded <| .inRange fun _ => .sendBits
  | bfRhdr =>
    exact .unlessEnded <| .gated <| .afterRead (readBits_meets ..) (.refl _) fun v p hp =>
      .ite (.dataError (.registers (.read hp) rfl)) fun _ => .ok (.registers (.read hp) rfl)
  | bfWstored cnt => exact execBfWstored_wrote cnt
  | bfRstored => exact execBfRstored_wrote
  | bfRcopy cnt => exact execBfRcopy_wrote cnt
  | bfInflate =>
    exact .unlessEnded <| .gated <| .require fun _ => .require fun _ =>
      .afterRead (readToken_meets ..) (.refl _) fun tok p hp => applyToken_wrote tok hp

/-! ## ENDED (10_state.md R38) -/

/-- While ENDED = 1 every command but CORE_RESET is refused. -/
theorem exec_of_ended {i : Instr} {s : State} (h : s.ended = true) (hi : i ≠ .coreReset) :
    exec i s = .next (s.withStatus .streamError) := by
  have refused : ∀ k : Result, s.unlessEnded k = .next (s.withStatus .streamError) := by
    simp [State.unlessEnded, h]
  cases i with
  | coreReset => exact absurd rfl hi
  | _ => exact refused _

/-- END that runs sets ENDED and nothing else. -/
theorem execEnd_of_running {s : State} (h : s.running) :
    exec .endSession s = .next (({ s with ended := true } : State).withStatus .ok) := State.unlessEnded_of_running h _

/-- No write touches ENDED. -/
theorem Writes.ended_eq {s t : State} (h : Writes s t) : t.ended = s.ended := by
  induction h with
  | start => rfl
  | registers _ hbare ih => exact (congrArg State.ended hbare).trans ih
  | enc _ a t _ ih => rw [State.setEnc_ended, ih]
  | dec _ a t _ ih => rw [State.setDec_ended, ih]
  | _ => assumption

/-- Settles O10: END and NOP run, `exec_of_ended` refuses every other command, and no write touches ENDED. -/
theorem nopEndAndWhatEndedRefuses : Obligations.NopEndAndWhatEndedRefuses := by
  refine ⟨fun s hs => State.unlessEnded_of_running hs _, fun s hs => execEnd_of_running hs,
    fun i s hs hi => exec_of_ended hs hi, fun i s t hs ht hrun => ?_, fun i s t hs ht hended => ?_, rfl⟩
  · by_contra hi
    rw [exec_of_ended hs hi] at ht
    cases ht
    exact absurd hs (by simpa using hrun)
  · by_contra hi
    by_cases hreset : i = .coreReset
    · subst hreset
      cases ht
      cases hended
    · have hkept := (exec_wrote s hreset hi t ht).ended_eq
      rw [hs, hended] at hkept
      cases hkept

/-! ## What every step keeps -/

/-- A predicate that does not look at the port or ENDED, holds after CORE_RESET, and is kept by every write and by the
host's two moves, is kept by every step. -/
theorem step_keeps {I : State → Prop} (writes : ∀ {s t}, Writes s t → I s → I t)
    (reset : ∀ s : State, I s.softReset) (ending : ∀ s, I s → I { s with ended := true })
    (port : ∀ s rest, I s → I { s with port := rest }) (append : ∀ s bytes, I s → I (s.hostAppend bytes))
    (remove : ∀ s n, I s → I (s.hostRemove n))
    {s t : State} (hs : I s) (h : step s = .next t) : I t := by
  have status : ∀ (u : State) st, I u → I (u.withStatus st) := fun u st => writes (Writes.start.withStatus st)
  obtain ⟨-, rfl⟩ | ⟨-, i, rest, -, -, hexec⟩ | ⟨-, -, rest, -, -, rfl⟩ | ⟨bytes, rest, -, rfl⟩ |
    ⟨n, rest, -, rfl⟩ := step_cases h
  · exact hs
  · have hport := port s rest hs
    by_cases hreset : i = .coreReset
    · subst hreset
      cases hexec
      exact status _ _ (reset _)
    by_cases hend : i = .endSession
    · subst hend
      obtain ⟨-, rfl⟩ | ⟨-, hend⟩ := State.unlessEnded_next hexec
      · exact status _ _ hport
      · rw [(State.ok_next ..).1 hend]
        exact status _ _ (ending _ hport)
    exact writes (exec_wrote _ hreset hend t hexec) hport
  · exact status _ _ (port s rest hs)
  · exact append _ _ (port s rest hs)
  · exact remove _ _ (port s rest hs)

/-! ### The queues -/

theorem Writes.queuesOk {s t : State} (h : Writes s t) (hs : s.QueuesOk) : t.QueuesOk := by
  induction h with
  | start => exact hs
  | @registers u t _ hbare ih =>
    have hbareOk : u.bare.QueuesOk := ih
    rwa [← hbare] at hbareOk
  | cursor _ p hp ih =>
    obtain ⟨hin, hout⟩ := ih
    exact ⟨hp hin, hout⟩
  | @bits u _ bs hroom ih =>
    obtain ⟨hin, -, hobuf⟩ := ih
    refine ⟨hin, ?_, OutPort.putAll_obuf_lt hobuf bs⟩
    rw [OutPort.putAll_outq_length]
    exact hroom
  | @bytes u _ bs hroom ih =>
    obtain ⟨hin, -, hobuf⟩ := ih
    rw [OutPort.putBytes_eq_appended]
    refine ⟨hin, ?_, hobuf⟩
    rw [OutPort.appended, List.length_append]
    exact hroom
  | enc _ a t _ ih => cases a <;> exact ih
  | dec _ a t _ ih => cases a <;> exact ih
  | _ => assumption

/-- Settles O57: every write keeps the queues well formed, and so do the host's moves. -/
theorem everyStepKeepsTheQueues : Obligations.EveryStepKeepsTheQueues := by
  intro s t hs ht
  refine step_keeps (I := State.QueuesOk) Writes.queuesOk (fun s => ?_) (fun _ h => h) (fun _ _ h => h)
    (fun s bytes h => ?_) (fun s n h => ?_) hs ht
  · exact ⟨fun h => absurd rfl h, Nat.zero_le _, Nat.one_pos⟩
  · obtain ⟨hin, hout⟩ := h
    exact ⟨fun hb => List.append_ne_nil_of_left_ne_nil (hin hb) bytes, hout⟩
  · obtain ⟨hin, hcap, hobuf⟩ := h
    refine ⟨hin, ?_, hobuf⟩
    rw [State.hostRemove_out, List.length_drop]
    exact (Nat.sub_le ..).trans hcap

/-! ### The window -/

/-- The configuration registers hold legal values (10_state.md R42). -/
def CfgRegs.Legal (c : CfgRegs) : Prop :=
  8 ≤ c.wbits.toNat ∧ 8 ≤ c.hashBits.toNat ∧ (3 ≤ c.niceLen.toNat ∧ c.niceLen.toNat ≤ 258) ∧
    c.lazyLimit.toNat ≤ 258 ∧ (3 ≤ c.goodLen.toNat ∧ c.goodLen.toNat ≤ 258)

theorem State.windowOk_iff (s : State) :
    s.WindowOk ↔ s.cfg.Legal ∧ s.la.length ≤ 262 ∧ s.mfBase ≤ s.hist.length := by
  simp only [State.WindowOk, CfgRegs.Legal, and_assoc]

theorem CfgRegs.reset_legal : CfgRegs.reset.Legal := by
  unfold CfgRegs.Legal
  decide

theorem toNat_ofNat_of_lt {w n : Nat} (h : n < 2 ^ w) : (BitVec.ofNat w n).toNat = n := by
  rw [BitVec.toNat_ofNat, Nat.mod_eq_of_lt h]

/-- A legal value written to a configuration register leaves all of them legal. -/
theorem CfgRegs.Legal.write {c : CfgRegs} {field val : Nat} (h : c.Legal) (hlegal : cfgLegal field val = true) :
    (c.write field val).Legal := by
  obtain ⟨hw, hh, hn, hl, hg⟩ := h
  unfold cfgLegal at hlegal
  unfold CfgRegs.write
  split at hlegal <;> simp only [Bool.and_eq_true, decide_eq_true_eq, Bool.false_eq_true] at hlegal
  · exact ⟨by simpa only [toNat_ofNat_of_lt (show val < 2 ^ 4 by omega)] using hlegal.1, hh, hn, hl, hg⟩
  · exact ⟨hw, by simpa only [toNat_ofNat_of_lt (show val < 2 ^ 4 by omega)] using hlegal.1, hn, hl, hg⟩
  · exact ⟨hw, hh, hn, hl, hg⟩
  · exact ⟨hw, hh, by simpa only [toNat_ofNat_of_lt (show val < 2 ^ 9 by omega)] using hlegal, hl, hg⟩
  · exact ⟨hw, hh, hn, by simpa only [toNat_ofNat_of_lt (show val < 2 ^ 9 by omega)] using hlegal, hg⟩
  · exact ⟨hw, hh, hn, hl, by simpa only [toNat_ofNat_of_lt (show val < 2 ^ 9 by omega)] using hlegal⟩

theorem Writes.windowOk {s t : State} (h : Writes s t) (hs : s.WindowOk) : t.WindowOk := by
  induction h with
  | start => exact hs
  | @registers u t _ hbare ih =>
    have hbareOk : u.bare.WindowOk := ih
    rwa [← hbare] at hbareOk
  | config _ field val hlegal ih =>
    rw [State.windowOk_iff] at ih ⊢
    obtain ⟨hcfg, hrest⟩ := ih
    exact ⟨hcfg.write hlegal, hrest⟩
  | clear _ ih =>
    rw [State.windowOk_iff] at ih ⊢
    obtain ⟨hcfg, -, -⟩ := ih
    exact ⟨hcfg, Nat.zero_le _, Nat.le_refl 0⟩
  | forget _ ih =>
    rw [State.windowOk_iff] at ih ⊢
    obtain ⟨hcfg, hla, -⟩ := ih
    exact ⟨hcfg, hla, Nat.le_refl 0⟩
  | record _ bs ih =>
    rw [State.windowOk_iff] at ih ⊢
    obtain ⟨hcfg, hla, hbase⟩ := ih
    exact ⟨hcfg, hla, hbase.trans (by simp)⟩
  | feed _ bs hfits ih =>
    rw [State.windowOk_iff] at ih ⊢
    obtain ⟨hcfg, hla, hbase⟩ := ih
    refine ⟨hcfg, ?_, hbase⟩
    rw [laCap] at hfits
    rw [List.length_append]
    omega
  | tokenise _ n ih =>
    rw [State.windowOk_iff] at ih ⊢
    obtain ⟨hcfg, hla, hbase⟩ := ih
    refine ⟨hcfg, ?_, ?_⟩
    · rw [State.tokenise_la, List.length_drop]
      omega
    · rw [State.tokenise_hist, State.tokenise_mfBase, List.length_append]
      omega
  | rebase _ ih =>
    rw [State.windowOk_iff] at ih ⊢
    obtain ⟨hcfg, hla, -⟩ := ih
    exact ⟨hcfg, hla, Nat.le_refl _⟩
  | enc _ a t _ ih => cases a <;> exact ih
  | dec _ a t _ ih => cases a <;> exact ih
  | _ => assumption

/-- Settles O58: every write keeps the window in order, and no host move touches it. -/
theorem everyStepKeepsTheWindow : Obligations.EveryStepKeepsTheWindow := by
  intro s t hs ht
  refine step_keeps (I := State.WindowOk) Writes.windowOk (fun s => ?_) (fun _ h => h) (fun _ _ h => h)
    (fun _ _ h => h) (fun _ _ h => h) hs ht
  rw [State.windowOk_iff]
  exact ⟨CfgRegs.reset_legal, Nat.zero_le _, Nat.le_refl 0⟩

/-! ### The tables -/

/-- The tables are in order alphabet by alphabet. -/
theorem State.tablesOk_iff (s : State) :
    s.TablesOk ↔ ∀ a : Alphabet, (s.enc a).Ok a.size a.maxLen ∧ (s.dec a).Ok a.size a.maxLen := by
  constructor
  · rintro ⟨hell, hedist, hecl, hdll, hddist, hdcl⟩ a
    cases a with
    | ll => exact ⟨hell, hdll⟩
    | dist => exact ⟨hedist, hddist⟩
    | cl => exact ⟨hecl, hdcl⟩
  · intro h
    obtain ⟨hell, hdll⟩ := h .ll
    obtain ⟨hedist, hddist⟩ := h .dist
    obtain ⟨hecl, hdcl⟩ := h .cl
    exact ⟨hell, hedist, hecl, hdll, hddist, hdcl⟩

theorem Writes.tablesOk {s t : State} (h : Writes s t) (hs : s.TablesOk) : t.TablesOk := by
  induction h with
  | start => exact hs
  | @registers u t _ hbare ih =>
    have hbareOk : u.bare.TablesOk := ih
    rwa [← hbare] at hbareOk
  | enc _ a t hkeeps ih =>
    rw [State.tablesOk_iff] at ih ⊢
    intro b
    obtain ⟨henc, hdec⟩ := ih b
    rw [State.enc_setEnc, State.dec_setEnc]
    split
    · rename_i heq
      subst heq
      exact ⟨hkeeps henc, hdec⟩
    · exact ⟨henc, hdec⟩
  | dec _ a t hkeeps ih =>
    rw [State.tablesOk_iff] at ih ⊢
    intro b
    obtain ⟨henc, hdec⟩ := ih b
    rw [State.enc_setDec, State.dec_setDec]
    split
    · rename_i heq
      subst heq
      exact ⟨henc, hkeeps hdec⟩
    · exact ⟨henc, hdec⟩
  | _ => assumption

theorem replicate_zero_le {n maxLen : Nat} : ∀ l ∈ List.replicate n (0 : BitVec 4), l.toNat ≤ maxLen := by
  intro l hl
  rw [List.eq_of_mem_replicate hl]
  exact Nat.zero_le _

theorem EncTable.reset_ok (size maxLen : Nat) : (EncTable.reset size).Ok size maxLen :=
  ⟨List.length_replicate, List.length_replicate, List.length_replicate, replicate_zero_le, fun h => by cases h⟩

theorem DecTable.reset_ok (size maxLen : Nat) : (DecTable.reset size).Ok size maxLen :=
  ⟨List.length_replicate, replicate_zero_le, fun h => by cases h⟩

/-- Settles O59: every table a command writes is in order if the table before was, and no host move touches one. -/
theorem everyStepKeepsTheTables : Obligations.EveryStepKeepsTheTables := by
  intro s t hs ht
  refine step_keeps (I := State.TablesOk) Writes.tablesOk (fun s => ?_) (fun _ h => h) (fun _ _ h => h)
    (fun _ _ h => h) (fun _ _ h => h) hs ht
  exact ⟨EncTable.reset_ok 288 15, EncTable.reset_ok 32 15, EncTable.reset_ok 19 7,
    DecTable.reset_ok 288 15, DecTable.reset_ok 32 15, DecTable.reset_ok 19 7⟩

end Sys2Proof.Machine

/-! The family of 20_memory.md: what a step does between commands. `step_of_port_nil` and `step_of_port_cons` say a
step by the shape of the port; each host move is then what `runMove` makes of it. -/

namespace Sys2Proof.Machine

/-- With no move at the port the CORE waits (70_reset_and_hazards.md R401). -/
theorem step_of_port_nil {s : State} (hp : s.port = []) : step s = .next s := by
  rw [step, hp]

/-- The move at the head of the port acts on the state whose port holds the moves behind it. -/
theorem step_of_port_cons {s : State} {m : HostMove} {rest : List HostMove} (hp : s.port = m :: rest) :
    step s = runMove m { s with port := rest } := by
  rw [step, hp]

/-- Settles O6: with no move nothing changes; an append or a removal is the move at the head of the port, and
`hostAppend` and `hostRemove` write the one queue and nothing else. -/
theorem hostMovesActBetweenCommands : Obligations.HostMovesActBetweenCommands := by
  refine ⟨fun s hp => step_of_port_nil hp, fun s bytes rest hp => ?_, fun s n rest hp => ?_⟩
  · rw [step_of_port_cons hp, runMove, State.hostAppend]
  · rw [step_of_port_cons hp, runMove, State.hostRemove]

end Sys2Proof.Machine

/-! The family of 30_encoding.md. `append_eq_bits` reads a concatenation field by field. From it each encoder has one
equation that says which bits of a word make the word its value (`encodeM_eq_iff`, …), and each decoder one that says
when it accepts a word and what it reads there (`decodeM_eq_ok`, …); together they make decoding and encoding inverse
(`decode_eq_ok_iff`). -/

namespace Sys2Proof

/-! ## The bits of a word (30_encoding.md R110) -/

/-- A concatenation is a run of a word's bits when its upper part is the upper bits of the run and its lower part the
lower ones. -/
theorem append_eq_bits {n m lo : Nat} {x : BitVec n} {y : BitVec m} {w : Word} :
    x ++ y = bits w lo (n + m) ↔ x = bits w (lo + m) n ∧ y = bits w lo m := by
  have hsplit : bits w (lo + m) n ++ bits w lo m = bits w lo (n + m) :=
    BitVec.extractLsb'_append_extractLsb'_eq_extractLsb' rfl
  rw [← hsplit]
  refine ⟨fun h => ⟨?_, ?_⟩, fun ⟨hx, hy⟩ => by rw [hx, hy]⟩
  · simpa only [BitVec.extractLsb'_append_eq_left] using congrArg (BitVec.extractLsb' m n) h
  · simpa only [BitVec.extractLsb'_append_eq_right] using congrArg (BitVec.extractLsb' 0 m) h

/-- A word is all of its bits. -/
theorem eq_iff_eq_bits {x w : Word} : x = w ↔ x = bits w 0 32 := by
  rw [show bits w 0 32 = w from BitVec.extractLsb'_eq_self]

theorem bits_eq_opcode_iff {w : Word} {op : BitVec 6} : bits w 26 6 = op ↔ opcodeOf w = op.toNat :=
  BitVec.toNat_inj.symm

/-! ## When a word is what an encoder gives (30_encoding.md R111) -/

@[simp] theorem encodeN_eq_iff {op : BitVec 6} {w : Word} :
    encodeN op = w ↔ opcodeOf w = op.toNat ∧ bits w 0 26 = 0 := by
  rw [encodeN, eq_iff_eq_bits, append_eq_bits, ← bits_eq_opcode_iff]
  simp only [eq_comm]
  rfl

@[simp] theorem encodeC_eq_iff {op : BitVec 6} {field : BitVec 4} {val : BitVec 16} {w : Word} :
    encodeC op field val = w ↔ opcodeOf w = op.toNat ∧ bits w 22 4 = field ∧ bits w 16 6 = 0 ∧
      bits w 0 16 = val := by
  rw [encodeC, eq_iff_eq_bits, append_eq_bits, ← bits_eq_opcode_iff]
  simp only [append_eq_bits, and_assoc, eq_comm]
  rfl

@[simp] theorem encodeR_eq_iff {op : BitVec 6} {reg : BitVec 5} {w : Word} :
    encodeR op reg = w ↔ opcodeOf w = op.toNat ∧ bits w 5 21 = 0 ∧ bits w 0 5 = reg := by
  rw [encodeR, eq_iff_eq_bits, append_eq_bits, ← bits_eq_opcode_iff]
  simp only [append_eq_bits, and_assoc, eq_comm]
  rfl

@[simp] theorem encodeB_eq_iff {op : BitVec 6} {nb : BitVec 5} {v : BitVec 16} {w : Word} :
    encodeB op nb v = w ↔ opcodeOf w = op.toNat ∧ bits w 21 5 = 0 ∧ bits w 16 5 = nb ∧ bits w 0 16 = v := by
  rw [encodeB, eq_iff_eq_bits, append_eq_bits, ← bits_eq_opcode_iff]
  simp only [append_eq_bits, and_assoc, eq_comm]
  rfl

@[simp] theorem encodeBn_eq_iff {op : BitVec 6} {nb : BitVec 5} {w : Word} :
    encodeBn op nb = w ↔ opcodeOf w = op.toNat ∧ bits w 21 5 = 0 ∧ bits w 16 5 = nb ∧ bits w 0 16 = 0 := by
  rw [encodeBn, eq_iff_eq_bits, append_eq_bits, ← bits_eq_opcode_iff]
  simp only [append_eq_bits, and_assoc, eq_comm]
  rfl

@[simp] theorem encodeX_eq_iff {op : BitVec 6} {byte : BitVec 8} {w : Word} :
    encodeX op byte = w ↔ opcodeOf w = op.toNat ∧ bits w 8 18 = 0 ∧ bits w 0 8 = byte := by
  rw [encodeX, eq_iff_eq_bits, append_eq_bits, ← bits_eq_opcode_iff]
  simp only [append_eq_bits, and_assoc, eq_comm]
  rfl

@[simp] theorem encodeM_eq_iff {op : BitVec 6} {len9 : BitVec 9} {dm1 : BitVec 15} {w : Word} :
    encodeM op len9 dm1 = w ↔ opcodeOf w = op.toNat ∧ bits w 25 1 = 0 ∧ bits w 16 9 = len9 ∧ bits w 15 1 = 0 ∧
      bits w 0 15 = dm1 := by
  rw [encodeM, eq_iff_eq_bits, append_eq_bits, ← bits_eq_opcode_iff]
  simp only [append_eq_bits, and_assoc, eq_comm]
  rfl

@[simp] theorem encodeMd_eq_iff {op : BitVec 6} {dm1 : BitVec 15} {w : Word} :
    encodeMd op dm1 = w ↔ opcodeOf w = op.toNat ∧ bits w 15 11 = 0 ∧ bits w 0 15 = dm1 := by
  rw [encodeMd, eq_iff_eq_bits, append_eq_bits, ← bits_eq_opcode_iff]
  simp only [append_eq_bits, and_assoc, eq_comm]
  rfl

@[simp] theorem encodeK_eq_iff {op : BitVec 6} {cnt : BitVec 16} {w : Word} :
    encodeK op cnt = w ↔ opcodeOf w = op.toNat ∧ bits w 16 10 = 0 ∧ bits w 0 16 = cnt := by
  rw [encodeK, eq_iff_eq_bits, append_eq_bits, ← bits_eq_opcode_iff]
  simp only [append_eq_bits, and_assoc, eq_comm]
  rfl

@[simp] theorem encodeTt_eq_iff {op : BitVec 6} {t : BitVec 2} {w : Word} :
    encodeTt op t = w ↔ opcodeOf w = op.toNat ∧ bits w 24 2 = t ∧ bits w 0 24 = 0 := by
  rw [encodeTt, eq_iff_eq_bits, append_eq_bits, ← bits_eq_opcode_iff]
  simp only [append_eq_bits, and_assoc, eq_comm]
  rfl

@[simp] theorem encodeTs_eq_iff {op : BitVec 6} {t : BitVec 2} {sym : BitVec 9} {w : Word} :
    encodeTs op t sym = w ↔ opcodeOf w = op.toNat ∧ bits w 24 2 = t ∧ bits w 9 15 = 0 ∧ bits w 0 9 = sym := by
  rw [encodeTs, eq_iff_eq_bits, append_eq_bits, ← bits_eq_opcode_iff]
  simp only [append_eq_bits, and_assoc, eq_comm]
  rfl

@[simp] theorem encodeTl_eq_iff {op : BitVec 6} {t : BitVec 2} {ln : BitVec 4} {w : Word} :
    encodeTl op t ln = w ↔ opcodeOf w = op.toNat ∧ bits w 24 2 = t ∧ bits w 20 4 = ln ∧ bits w 0 20 = 0 := by
  rw [encodeTl, eq_iff_eq_bits, append_eq_bits, ← bits_eq_opcode_iff]
  simp only [append_eq_bits, and_assoc, eq_comm]
  rfl

@[simp] theorem encodeTls_eq_iff {op : BitVec 6} {t : BitVec 2} {ln : BitVec 4} {sym : BitVec 9} {w : Word} :
    encodeTls op t ln sym = w ↔ opcodeOf w = op.toNat ∧ bits w 24 2 = t ∧ bits w 20 4 = ln ∧ bits w 9 11 = 0 ∧
      bits w 0 9 = sym := by
  rw [encodeTls, eq_iff_eq_bits, append_eq_bits, ← bits_eq_opcode_iff]
  simp only [append_eq_bits, and_assoc, eq_comm]
  rfl

@[simp] theorem encodeTn_eq_iff {op : BitVec 6} {t : BitVec 2} {n : BitVec 9} {w : Word} :
    encodeTn op t n = w ↔ opcodeOf w = op.toNat ∧ bits w 24 2 = t ∧ bits w 9 15 = 0 ∧ bits w 0 9 = n :=
  encodeTs_eq_iff

@[simp] theorem encodeH_eq_iff {op : BitVec 6} {btype : BitVec 2} {final : BitVec 1} {w : Word} :
    encodeH op btype final = w ↔ opcodeOf w = op.toNat ∧ bits w 3 23 = 0 ∧ bits w 1 2 = btype ∧
      bits w 0 1 = final := by
  rw [encodeH, eq_iff_eq_bits, append_eq_bits, ← bits_eq_opcode_iff]
  simp only [append_eq_bits, and_assoc, eq_comm]
  rfl

@[simp] theorem encodeS_eq_iff {op : BitVec 6} {drain : BitVec 1} {w : Word} :
    encodeS op drain = w ↔ opcodeOf w = op.toNat ∧ bits w 1 25 = 0 ∧ bits w 0 1 = drain := by
  rw [encodeS, eq_iff_eq_bits, append_eq_bits, ← bits_eq_opcode_iff]
  simp only [append_eq_bits, and_assoc, eq_comm]
  rfl

/-! ## What a decoder accepts (30_encoding.md R111, R113) -/

theorem reserving_eq_ok {w : Word} {runs : List (Nat × Nat)} {i j : Instr} :
    reserving w runs i = .ok j ↔ (∀ r ∈ runs, bits w r.1 r.2 = 0) ∧ j = i := by
  unfold reserving
  split <;> simp_all [@eq_comm _ i]

@[simp] theorem decodeN_eq_ok {w : Word} {f : Instr} {i : Instr} :
    decodeN w f = .ok i ↔ bits w 0 26 = 0 ∧ i = f := by
  simp [decodeN, reserving_eq_ok]

@[simp] theorem decodeC_eq_ok {w : Word} {f : BitVec 4 → BitVec 16 → Instr} {i : Instr} :
    decodeC w f = .ok i ↔ bits w 16 6 = 0 ∧ i = f (bits w 22 4) (bits w 0 16) := by
  simp [decodeC, reserving_eq_ok]

@[simp] theorem decodeR_eq_ok {w : Word} {f : BitVec 5 → Instr} {i : Instr} :
    decodeR w f = .ok i ↔ bits w 5 21 = 0 ∧ i = f (bits w 0 5) := by
  simp [decodeR, reserving_eq_ok]

@[simp] theorem decodeB_eq_ok {w : Word} {f : BitVec 5 → BitVec 16 → Instr} {i : Instr} :
    decodeB w f = .ok i ↔ bits w 21 5 = 0 ∧ i = f (bits w 16 5) (bits w 0 16) := by
  simp [decodeB, reserving_eq_ok]

@[simp] theorem decodeBn_eq_ok {w : Word} {f : BitVec 5 → Instr} {i : Instr} :
    decodeBn w f = .ok i ↔ bits w 21 5 = 0 ∧ bits w 0 16 = 0 ∧ i = f (bits w 16 5) := by
  simp [decodeBn, reserving_eq_ok, and_assoc]

@[simp] theorem decodeX_eq_ok {w : Word} {f : BitVec 8 → Instr} {i : Instr} :
    decodeX w f = .ok i ↔ bits w 8 18 = 0 ∧ i = f (bits w 0 8) := by
  simp [decodeX, reserving_eq_ok]

@[simp] theorem decodeM_eq_ok {w : Word} {f : BitVec 9 → BitVec 15 → Instr} {i : Instr} :
    decodeM w f = .ok i ↔ bits w 25 1 = 0 ∧ bits w 15 1 = 0 ∧ i = f (bits w 16 9) (bits w 0 15) := by
  simp [decodeM, reserving_eq_ok, and_assoc]

@[simp] theorem decodeMd_eq_ok {w : Word} {f : BitVec 15 → Instr} {i : Instr} :
    decodeMd w f = .ok i ↔ bits w 15 11 = 0 ∧ i = f (bits w 0 15) := by
  simp [decodeMd, reserving_eq_ok]

@[simp] theorem decodeK_eq_ok {w : Word} {f : BitVec 16 → Instr} {i : Instr} :
    decodeK w f = .ok i ↔ bits w 16 10 = 0 ∧ i = f (bits w 0 16) := by
  simp [decodeK, reserving_eq_ok]

@[simp] theorem decodeTt_eq_ok {w : Word} {f : BitVec 2 → Instr} {i : Instr} :
    decodeTt w f = .ok i ↔ bits w 0 24 = 0 ∧ i = f (bits w 24 2) := by
  simp [decodeTt, reserving_eq_ok]

@[simp] theorem decodeTs_eq_ok {w : Word} {f : BitVec 2 → BitVec 9 → Instr} {i : Instr} :
    decodeTs w f = .ok i ↔ bits w 9 15 = 0 ∧ i = f (bits w 24 2) (bits w 0 9) := by
  simp [decodeTs, reserving_eq_ok]

@[simp] theorem decodeTl_eq_ok {w : Word} {f : BitVec 2 → BitVec 4 → Instr} {i : Instr} :
    decodeTl w f = .ok i ↔ bits w 0 20 = 0 ∧ i = f (bits w 24 2) (bits w 20 4) := by
  simp [decodeTl, reserving_eq_ok]

@[simp] theorem decodeTls_eq_ok {w : Word} {f : BitVec 2 → BitVec 4 → BitVec 9 → Instr} {i : Instr} :
    decodeTls w f = .ok i ↔ bits w 9 11 = 0 ∧ i = f (bits w 24 2) (bits w 20 4) (bits w 0 9) := by
  simp [decodeTls, reserving_eq_ok]

@[simp] theorem decodeTn_eq_ok {w : Word} {f : BitVec 2 → BitVec 9 → Instr} {i : Instr} :
    decodeTn w f = .ok i ↔ bits w 9 15 = 0 ∧ i = f (bits w 24 2) (bits w 0 9) :=
  decodeTs_eq_ok

@[simp] theorem decodeH_eq_ok {w : Word} {f : BitVec 2 → BitVec 1 → Instr} {i : Instr} :
    decodeH w f = .ok i ↔ bits w 3 23 = 0 ∧ i = f (bits w 1 2) (bits w 0 1) := by
  simp [decodeH, reserving_eq_ok]

@[simp] theorem decodeS_eq_ok {w : Word} {f : BitVec 1 → Instr} {i : Instr} :
    decodeS w f = .ok i ↔ bits w 1 25 = 0 ∧ i = f (bits w 0 1) := by
  simp [decodeS, reserving_eq_ok]

/-! ## Decoding and encoding are inverse (30_encoding.md R114) -/

/-- A word decodes to exactly the command it encodes: decoding splits along the opcode, encoding along the command,
and on either side the format's two equations agree. -/
theorem decode_eq_ok_iff {w : Word} {i : Instr} : decode w = .ok i ↔ encode i = w := by
  constructor
  · intro h
    unfold decode at h
    split at h <;> simp_all [encode]
  · intro h
    cases i <;> simp_all [encode, decode]

/-- Settles O2, as the two directions of `decode_eq_ok_iff`. -/
theorem decodeAndEncodeAreInverse : Obligations.DecodeAndEncodeAreInverse :=
  ⟨fun _ => decode_eq_ok_iff.2 rfl, fun _ _ => decode_eq_ok_iff.1⟩

/-- Settles O1: each word is what `encode` computes, so it decodes to its command. -/
theorem specExampleWords : Obligations.SpecExampleWords := by
  have both : ∀ {w : Word} {i : Instr}, encode i = w → decode w = .ok i ∧ encode i = w :=
    fun h => ⟨decode_eq_ok_iff.2 h, h⟩
  exact ⟨both rfl, both rfl, both rfl, both rfl, both rfl, both rfl⟩

end Sys2Proof

namespace Sys2Proof.Machine

/-! ## The rows of the opcode table (30_encoding.md R117) -/

/-- A word that matches a row has the row's value wherever the row's mask is all ones. -/
theorem OpcodeRow.bits_of_matches {r : OpcodeRow} {w : Word} {lo n : Nat} (h : r.matches w = true)
    (hmask : bits r.mask lo n = BitVec.allOnes n) : bits w lo n = bits r.value lo n := by
  have hw : w &&& r.mask = r.value := beq_iff_eq.1 h
  rw [← hw, bits, bits, BitVec.extractLsb'_and, ← bits, ← bits, hmask, BitVec.and_allOnes]

/-- Every row's mask covers the opcode. -/
theorem opcodeOf_of_matches {w : Word} {i : Instr} (h : (rowOf i).matches w = true) :
    opcodeOf w = opcodeOf (rowOf i).value := by
  have hmask : bits (rowOf i).mask 26 6 = BitVec.allOnes 6 := by
    cases i <;> rw [rowOf] <;> decide
  exact congrArg BitVec.toNat (OpcodeRow.bits_of_matches h hmask)

/-- A word that matches a row decodes, as the mask also covers the reserved bits of the row's format. -/
theorem exists_decode_of_matches {w : Word} {i : Instr} (h : (rowOf i).matches w = true) :
    ∃ j, decode w = .ok j ∧ rowOf j = rowOf i := by
  have reserved : ∀ {lo n : Nat}, bits (rowOf i).mask lo n = BitVec.allOnes n ∧ bits (rowOf i).value lo n = 0 →
      bits w lo n = 0 := fun ⟨hmask, hvalue⟩ => (OpcodeRow.bits_of_matches h hmask).trans hvalue
  rw [decode, opcodeOf_of_matches h]
  cases i <;> rw [rowOf] at reserved <;> simp (disch := decide) [rowOf, opcodeOf, reserved]

section
open Laws.MatchesRow

theorem rowOf_matches_encode (i : Instr) : Laws.MatchesRow.Statement i := by
  cases i <;> simp only [
    nop, coreReset, endSession, cfgSet, regGet, bpPut, bpPutrev, bpAlignOut, bpGet, bpAlignIn, bpSync, swReset,
    swRecord, swRead, swMatchat, swCopy, swSetdict, swExpectdict, heClear, heCount, heBuild, heSetlen, heCanon,
    heFixed, heEmit, heMatch, heRlecount, heDynhdr, hdSetlen, hdBuild, hdFixed, hdDecode, hdDynhdr, hdToken,
    mfFeed, mfFind, mfStep, mfResetHist, bfWhdr, bfRhdr, bfWstored, bfRstored, bfRcopy, bfInflate]

end

/-- Settles O3: a match fixes the opcode and the reserved bits, which is all decoding asks; and a word that decodes is
its command's encoding, which matches the command's row. -/
theorem decodesExactlyTheTableRows : Obligations.DecodesExactlyTheTableRows := by
  refine fun w i => ⟨exists_decode_of_matches, ?_⟩
  rintro ⟨j, hd, hrow⟩
  rw [← hrow, ← decode_eq_ok_iff.1 hd]
  exact rowOf_matches_encode j

theorem spellsCommand_iff {w : Word} : spellsCommand w ↔ ∃ i, decode w = .ok i := by
  constructor
  · rintro ⟨i, h⟩
    obtain ⟨j, hd, -⟩ := exists_decode_of_matches h
    exact ⟨j, hd⟩
  · rintro ⟨i, hd⟩
    exact ⟨i, (decodesExactlyTheTableRows w i).2 ⟨i, hd, rfl⟩⟩

/-! ## Words that spell no command (30_encoding.md R113, R115) -/

theorem step_of_decode_error {s : State} {w : Word} {rest : List HostMove} {e : Reject}
    (hp : s.port = .command w :: rest) (hd : decode w = .error e) :
    step s = .next { s with port := rest, status := 0xFE } := by
  rw [step_of_port_cons hp, runMove, runWord, hd]
  rfl

/-- Settles O4: a word that spells no command does not decode, and an unassigned opcode has no arm in `decode`. -/
theorem illegalWordReportsStreamError : Obligations.IllegalWordReportsStreamError := by
  constructor
  · intro s w rest hp hw
    cases hd : decode w with
    | ok i => exact absurd (spellsCommand_iff.2 ⟨i, hd⟩) hw
    | error e => exact step_of_decode_error hp hd
  · intro w hop hw
    obtain ⟨i, hd⟩ := spellsCommand_iff.1 hw
    rw [decode] at hd
    generalize opcodeOf w = op at hop hd
    fin_cases hop <;> cases hd

/-! ## Fields out of range (30_encoding.md R118) -/

theorem State.unlessEnded_streamError (s : State) : s.unlessEnded s.streamError = s.streamError := ite_self _

theorem State.inRange_of_false {s : State} {ok : Bool} (h : ok = false) (k : Result) :
    s.inRange ok k = s.streamError := by
  rw [h, State.inRange_false]

/-- A command of an alphabet is refused when T names none or when its body refuses the other fields. -/
theorem State.onAlphabet_of_false {s : State} {t : BitVec 2} {p : Alphabet → Bool} {k : Alphabet → Result}
    (h : Instr.onAlphabet t p = false) (hk : ∀ a, p a = false → k a = s.streamError) :
    s.onAlphabet t k = s.streamError := by
  cases ht : Alphabet.ofField t with
  | none => simp only [State.onAlphabet, ht]
  | some a =>
    rw [State.onAlphabet_some ht]
    refine hk a ?_
    simpa only [Instr.onAlphabet, ht] using h

/-- The window never holds more than 32768 bytes, as WBITS has four bits. -/
theorem State.wvalid_le (s : State) : s.wvalid ≤ 32768 :=
  calc
    s.wvalid ≤ 2 ^ s.cfg.wbits.toNat := Nat.min_le_left ..
    _ ≤ 2 ^ 15 := Nat.pow_le_pow_right (by decide) (Nat.le_of_lt_succ s.cfg.wbits.isLt)

/-- Settles O9: the command's own range check fails, and ENDED, checked before it, reports the same status. The bounds
of MF_FEED and BF_WSTORED by the state are within those of `Instr.wf`. -/
theorem outOfRangeFieldsReportStreamError : Obligations.OutOfRangeFieldsReportStreamError := by
  intro i s h
  have refused : ∀ {k : Result}, k = s.streamError → s.unlessEnded k = s.streamError := by
    rintro _ rfl
    exact s.unlessEnded_streamError
  cases i with
  | cfgSet | regGet | bpPut | bpPutrev | bpGet | swMatchat | swCopy | heMatch | bfWhdr =>
    exact refused (State.inRange_of_false h _)
  | heClear | heCanon | hdDecode => exact refused (State.onAlphabet_of_false h nofun)
  | heCount | heBuild | heSetlen | heEmit | hdSetlen | hdBuild =>
    exact refused (State.onAlphabet_of_false h fun _ hfield => State.inRange_of_false hfield _)
  | mfFeed cnt =>
    have hcnt : ¬ cnt.toNat ≤ laCap := of_decide_eq_false h
    exact refused (State.inRange_of_false (decide_eq_false (by omega)) _)
  | bfWstored cnt =>
    have hcnt : ¬ cnt.toNat ≤ 32768 := of_decide_eq_false h
    have hvalid := s.wvalid_le
    exact refused (State.inRange_of_false (decide_eq_false (by omega)) _)
  | _ => cases h

end Sys2Proof.Machine

/-! The family of 40_control.md: CFG_SET and REG_GET. Each command's meaning on a running state is one equation; a
refused field is refused by the rule for all commands (`outOfRangeFieldsReportStreamError`). -/

namespace Sys2Proof.Machine

/-! ## CFG_SET (R143) -/

/-- The legal values, field by field (10_state.md R42). -/
theorem cfgLegal_iff {field val : Nat} : cfgLegal field val = true ↔
    (field ≤ 1 ∧ 8 ≤ val ∧ val ≤ 15) ∨ (field = 2 ∧ val ≤ 65535) ∨
    ((field = 3 ∨ field = 5) ∧ 3 ≤ val ∧ val ≤ 258) ∨ (field = 4 ∧ val ≤ 258) := by
  match field with
  | 0 | 1 | 2 | 3 | 4 | 5 => simp [cfgLegal]
  | n + 6 => simp [cfgLegal]

/-- MAX_CHAIN is as wide as VAL, so it takes VAL as it is. -/
theorem CfgRegs.write_maxChain (c : CfgRegs) (val : BitVec 16) : c.write 2 val.toNat = { c with maxChain := val } := by
  rw [CfgRegs.write, BitVec.ofNat_toNat, BitVec.setWidth_eq]

theorem exec_cfgSet_of_legal {s : State} (hs : s.running) {field : BitVec 4} {val : BitVec 16} {c : CfgRegs}
    (hlegal : cfgLegal field.toNat val.toNat = true) (hc : s.cfg.write field.toNat val.toNat = c) :
    exec (.cfgSet field val) s =
      (if field = 0 then ({ s with cfg := c } : State).clearStream else { s with cfg := c }).ok := by
  rw [exec, execCfgSet, State.unlessEnded_of_running hs, hlegal, State.inRange_true, hc]

/-- Settles O16: a legal value is written, cut to its register's width; of the other values and fields none is legal. -/
theorem cfgSetWritesItsRegister : Obligations.CfgSetWritesItsRegister := by
  intro s val hs
  have hval : val.toNat ≤ 65535 := Nat.le_of_lt_succ val.isLt
  simp only [← BitVec.ofNat_toNat]
  refine ⟨fun h => ?wbits, fun h => ?hashBits, ?maxChain, fun h => ?niceLen, fun h => ?lazyLimit, fun h => ?goodLen,
    fun field h => ?refused⟩
  case wbits => exact exec_cfgSet_of_legal hs (cfgLegal_iff.2 (.inl ⟨by decide, h⟩)) rfl
  case hashBits => exact exec_cfgSet_of_legal hs (cfgLegal_iff.2 (.inl ⟨by decide, h⟩)) rfl
  case maxChain =>
    exact exec_cfgSet_of_legal (field := 2) hs (cfgLegal_iff.2 (.inr (.inl ⟨rfl, hval⟩))) (s.cfg.write_maxChain val)
  case niceLen => exact exec_cfgSet_of_legal hs (cfgLegal_iff.2 (.inr (.inr (.inl ⟨.inl rfl, h⟩)))) rfl
  case lazyLimit => exact exec_cfgSet_of_legal hs (cfgLegal_iff.2 (.inr (.inr (.inr ⟨rfl, h⟩)))) rfl
  case goodLen => exact exec_cfgSet_of_legal hs (cfgLegal_iff.2 (.inr (.inr (.inl ⟨.inr rfl, h⟩)))) rfl
  case refused =>
    have hillegal : ¬ cfgLegal field.toNat val.toNat = true := by
      rw [cfgLegal_iff]
      bv_omega
    exact outOfRangeFieldsReportStreamError _ s (Bool.eq_false_iff.2 hillegal)

/-! ## REG_GET (R144) -/

theorem exec_regGet_of_legal {s : State} (hs : s.running) {reg : BitVec 5} (hlegal : regLegal reg.toNat = true) :
    exec (.regGet reg) s = ({ s with res0 := s.readReg reg.toNat } : State).ok := by
  rw [exec, execRegGet, State.unlessEnded_of_running hs, hlegal, State.inRange_true]

/-- FLAGS as a number: LAST, NEED_DICT and DERR weigh 4, 2 and 1. -/
theorem State.flags_setWidth (s : State) :
    s.flags.setWidth 32 = BitVec.ofNat 32 (4 * s.last.toNat + 2 * s.needDict.toNat + s.derr.toNat) := by
  rw [State.flags]
  cases s.last <;> cases s.needDict <;> cases s.derr <;> rfl

theorem outqLenReg_toNat {n : Nat} (h : n < 2 ^ 32) : (outqLenReg n).toNat = n := by
  rw [outqLenReg, if_pos h, toNat_ofNat_of_lt h]

/-- Settles O17: each id of the list is legal and reads its value, id 12 reads `outqLenReg`, and no other id is
legal. -/
theorem regGetReadsTheMap : Obligations.RegGetReadsTheMap := by
  intro s hs
  refine ⟨fun p hp => ?map, ⟨_, outqLenReg_toNat, exec_regGet_of_legal hs rfl⟩, fun reg h => ?reserved⟩
  case map =>
    rw [← State.flags_setWidth] at hp
    obtain ⟨hlegal, hvalue⟩ : regLegal p.1.toNat = true ∧ s.readReg p.1.toNat = p.2 := by
      fin_cases hp <;> exact ⟨rfl, rfl⟩
    rw [exec_regGet_of_legal hs hlegal, hvalue]
    rfl
  case reserved =>
    have hillegal : regLegal reg.toNat = false := by
      simp only [regLegal, Bool.or_eq_false_iff, Bool.and_eq_false_iff, decide_eq_false_iff_not]
      omega
    exact outOfRangeFieldsReportStreamError _ s hillegal

end Sys2Proof.Machine

/-! The family of 41_bitio.md: the bit packer and unpacker. Sending is `OutPort.pushed`, reading is `readBits_done`, and
BP_SYNC is what `findMark` and `markTail` answer; a refused NB is refused by the rule for all commands
(`outOfRangeFieldsReportStreamError`). -/

namespace Sys2Proof.Machine

/-- A count of at most 16 passes the checks BP_PUT, BP_PUTREV and BP_GET begin with. -/
theorem State.checks_of_nb_le {s : State} (hs : s.running) {nb : BitVec 5} (hnb : nb.toNat ≤ 16) (k : Result) :
    s.unlessEnded (s.inRange (nbOk nb) k) = k := by
  rw [State.unlessEnded_of_running hs, show nbOk nb = true from decide_eq_true hnb, State.inRange_true]

/-! ## BP_PUT and BP_PUTREV (R160, R161) -/

/-- Sending bits for which there is room appends them to the output stream. -/
theorem State.sendBits_eq_pushed {s : State} {bs : List Bool} (hobuf : s.out.obuf.toNat < 2 ^ s.out.obits.toNat)
    (hroom : s.hasRoomForBits bs.length) :
    s.sendBits bs = .next { s with out := s.out.pushed bs, status := 0 } := by
  rw [State.sendBits_of_room hroom, OutPort.putAll_eq_pushed hobuf]
  rfl

theorem exec_bpPut_of_le {s : State} (hs : s.running) {nb : BitVec 5} (hnb : nb.toNat ≤ 16) (v : BitVec 16) :
    exec (.bpPut nb v) s = s.sendBits ((List.range nb.toNat).map v.getLsbD) :=
  State.checks_of_nb_le hs hnb _

theorem exec_bpPutrev_of_le {s : State} (hs : s.running) {nb : BitVec 5} (hnb : nb.toNat ≤ 16) (v : BitVec 16) :
    exec (.bpPutrev nb v) s = s.sendBits ((List.range nb.toNat).map v.getLsbD).reverse :=
  State.checks_of_nb_le hs hnb _

/-- Settles O18: the two commands send the same bits in the two orders. -/
theorem bpPutAppendsItsBits : Obligations.BpPutAppendsItsBits := by
  intro s nb v hs hobuf
  refine ⟨fun hnb hroom => ?room, fun hnb hfull => ?full, fun hnb => ?refused⟩
  case room =>
    rw [exec_bpPut_of_le hs hnb, exec_bpPutrev_of_le hs hnb]
    exact ⟨State.sendBits_eq_pushed hobuf (by simpa using hroom), State.sendBits_eq_pushed hobuf (by simpa using hroom)⟩
  case full =>
    rw [exec_bpPut_of_le hs hnb, exec_bpPutrev_of_le hs hnb]
    exact ⟨State.sendBits_of_no_room (by simpa using hfull), State.sendBits_of_no_room (by simpa using hfull)⟩
  case refused =>
    have hwf : decide (nb.toNat ≤ 16) = false := decide_eq_false (Nat.not_le.2 hnb)
    exact ⟨outOfRangeFieldsReportStreamError (.bpPut nb v) s hwf,
      outOfRangeFieldsReportStreamError (.bpPutrev nb v) s hwf⟩

/-! ## BP_ALIGN_OUT and BP_ALIGN_IN (R162, R166) -/

theorem bitsLsb_zero_value (n : Nat) : bitsLsb n 0 = List.replicate n false := by
  rw [bitsLsb, show Nat.testBit 0 = fun _ => false from funext Nat.zero_testBit, List.map_const', List.length_range]

/-- A byte made of given bits has zeros where the bits end. -/
theorem packByte_append_replicate_false (bs : List Bool) (n : Nat) :
    packByte (bs ++ List.replicate n false) = packByte bs := by
  apply BitVec.eq_of_getLsbD_eq
  intro i hi
  rw [packByte_getLsbD _ _ hi, packByte_getLsbD _ _ hi]
  obtain hlt | hge := Nat.lt_or_ge i bs.length
  · exact List.getD_append _ _ _ _ hlt
  · rw [List.getD_append_right _ _ _ _ hge, List.getD_eq_default _ _ hge, List.getD_eq_getElem?_getD,
      List.getElem?_getD_replicate_default_eq]

/-- Padding completes one byte, which is the pending bits as OBUF holds them. -/
theorem OutPort.align_of_pending {o : OutPort} (hobuf : o.obuf.toNat < 2 ^ o.obits.toNat) (hbits : o.obits ≠ 0) :
    o.align = { outq := o.outq ++ [o.obuf], obuf := 0, obits := 0, totalOut := o.totalOut + 1 } := by
  have hlen : (o.pending ++ List.replicate (8 - o.obits.toNat) false).length = 8 := by
    have := o.obits.isLt
    rw [List.length_append, OutPort.pending_length, List.length_replicate]
    omega
  have hbyte : packByte (o.pending ++ List.replicate (8 - o.obits.toNat) false) = o.obuf := by
    rw [packByte_append_replicate_false, OutPort.packByte_pending hobuf]
  have hrest : (o.pending ++ List.replicate (8 - o.obits.toNat) false).drop 8 = [] :=
    List.drop_eq_nil_of_le hlen.le
  rw [OutPort.align, if_neg hbits, OutPort.putBits, bitsLsb_zero_value, OutPort.putAll_eq_pushed hobuf]
  simp [OutPort.pushed, hlen, hbyte, hrest, packByte_nil]

theorem exec_bpAlignOut_of_pending {s : State} (hs : s.running) (hbits : s.out.obits ≠ 0) :
    exec .bpAlignOut s = if s.lacksRoom 1 then s.holdOut else ({ s with out := s.out.align } : State).ok := by
  rw [exec, execBpAlignOut, State.unlessEnded_of_running hs, State.outAligned, beq_eq_false_iff_ne.2 hbits]
  rfl

theorem exec_bpAlignIn_of_running {s : State} (hs : s.running) :
    exec .bpAlignIn s = ({ s with inp := s.inp.align } : State).ok := State.unlessEnded_of_running hs _

/-- Settles O19: on each port a split by whether a byte is partly there. -/
theorem alignCommandsReachAByteBoundary : Obligations.AlignCommandsReachAByteBoundary := by
  intro s hs hobuf
  refine ⟨fun hbits => ?outAligned, fun hbits hroom => ?outPadded, fun hbits hfull => ?outHeld, fun hibit => ?inAligned,
    fun hibit => ?inDiscarded⟩
  case outAligned =>
    rw [exec, execBpAlignOut, State.unlessEnded_of_running hs, State.outAligned, beq_iff_eq.2 hbits]
    rfl
  case outPadded =>
    rw [exec_bpAlignOut_of_pending hs hbits, (State.lacksRoom_eq_false ..).2 hroom,
      OutPort.align_of_pending hobuf hbits]
    rfl
  case outHeld =>
    rw [exec_bpAlignOut_of_pending hs hbits, (State.lacksRoom_eq_true ..).2 hfull]
    rfl
  case inAligned =>
    rw [exec_bpAlignIn_of_running hs, InPort.align, if_pos hibit]
    rfl
  case inDiscarded =>
    rw [exec_bpAlignIn_of_running hs, InPort.align, if_neg hibit]
    rfl

/-! ## BP_GET (R165) -/

theorem exec_bpGet_of_le {s : State} (hs : s.running) {nb : BitVec 5} (hnb : nb.toNat ≤ 16) :
    exec (.bpGet nb) s = s.afterRead (readBits nb.toNat s.inp) fun v p =>
      ({ s with inp := p, res0 := BitVec.ofNat 32 v } : State).ok :=
  State.checks_of_nb_le hs hnb _

/-- Settles O20: the input holds `availBits` bits, and reading takes NB of them or runs short. -/
theorem bpGetReadsTheNextBits : Obligations.BpGetReadsTheNextBits := by
  intro s nb hs
  refine ⟨fun hnb havail => ?read, fun hnb hshort => ?held, fun hnb => ?refused⟩
  case read =>
    rw [← InPort.stream_length] at havail
    rw [exec_bpGet_of_le hs hnb, readBits_done havail]
    rfl
  case held =>
    rw [← InPort.stream_length] at hshort
    rw [exec_bpGet_of_le hs hnb, readBits_short hshort]
    rfl
  case refused =>
    exact outOfRangeFieldsReportStreamError (.bpGet nb) s (decide_eq_false (Nat.not_le.2 hnb))

/-! ## BP_SYNC (R170) -/

/-- `findMark` answers the least position at which the marker stands. -/
theorem findMark_eq_some {mark bytes : List Byte} {k : Nat} (hmark : mark ≠ []) (hk : mark <+: bytes.drop k)
    (hleast : ∀ j < k, ¬ mark <+: bytes.drop j) : findMark mark bytes = some k := by
  induction bytes generalizing k with
  | nil => exact absurd (List.prefix_nil.1 (List.drop_nil ▸ hk)) hmark
  | cons b rest ih =>
    cases k with
    | zero =>
      have hhead : mark.isPrefixOf (b :: rest) = true := List.isPrefixOf_iff_prefix.2 hk
      rw [findMark, if_pos hhead]
    | succ k =>
      have hhead : ¬ mark.isPrefixOf (b :: rest) = true := mt List.isPrefixOf_iff_prefix.1 (hleast 0 k.succ_pos)
      rw [findMark, if_neg hhead, ih hk fun j hj => hleast (j + 1) (Nat.succ_lt_succ hj)]
      rfl

theorem findMark_eq_none {mark bytes : List Byte} (h : ∀ k, ¬ mark <+: bytes.drop k) : findMark mark bytes = none := by
  induction bytes with
  | nil => rfl
  | cons b rest ih =>
    have hhead : ¬ mark.isPrefixOf (b :: rest) = true := mt List.isPrefixOf_iff_prefix.1 (h 0)
    rw [findMark, if_neg hhead, ih fun k => h (k + 1)]
    rfl

theorem syncMark_prefix_iff {bytes : List Byte} : syncMark <+: bytes ↔ bytes.take 4 = syncMark := by
  rw [List.prefix_iff_eq_take, eq_comm]
  rfl

/-- `markTail` answers how many bytes, at most three, the longest beginning of the marker has that ends the bytes. -/
theorem markTail_longest (bytes : List Byte) :
    markTail bytes ≤ 3 ∧ syncMark.take (markTail bytes) <:+ bytes ∧
    ∀ n, markTail bytes < n → n ≤ 3 → ¬ syncMark.take n <:+ bytes := by
  simp only [markTail, List.isSuffixOf_iff_suffix]
  split_ifs with h3 h2 h1
  · exact ⟨by decide, h3, fun n hlt hle => absurd hle (Nat.not_le.2 hlt)⟩
  · refine ⟨by decide, h2, fun n hlt hle => ?_⟩
    obtain rfl : n = 3 := by omega
    exact h3
  · refine ⟨by decide, h1, fun n hlt hle => ?_⟩
    obtain rfl | rfl : n = 2 ∨ n = 3 := by omega
    exacts [h2, h3]
  · refine ⟨by decide, List.nil_suffix, fun n hlt hle => ?_⟩
    obtain rfl | rfl | rfl : n = 1 ∨ n = 2 ∨ n = 3 := by omega
    exacts [h1, h2, h3]

/-- The marker's first `m` bytes end the bytes when the last `m` bytes are those. -/
theorem syncMark_take_suffix_iff {bytes : List Byte} {m : Nat} (hm : m ≤ 3) :
    syncMark.take m <:+ bytes ↔ m ≤ bytes.length ∧ bytes.drop (bytes.length - m) = syncMark.take m := by
  have hlen : (syncMark.take m).length = m := by
    rw [List.length_take]
    exact Nat.min_eq_left (hm.trans (by decide))
  constructor
  · intro h
    have hle := h.length_le
    rw [List.suffix_iff_eq_drop, hlen] at h
    exact ⟨hlen ▸ hle, h.symm⟩
  · rintro ⟨-, h⟩
    exact h ▸ List.drop_suffix ..

theorem exec_bpSync_of_mark {s : State} (hs : s.running) {k : Nat} (hk : findMark syncMark s.inp.align.inq = some k) :
    exec .bpSync s = ({ s with inp := s.inp.align.dequeue (k + 4), derr := false, storedRem := 0, last := false } :
      State).ok := by
  rw [exec, execBpSync, State.unlessEnded_of_running hs]
  simp only [hk]

theorem exec_bpSync_of_no_mark {s : State} (hs : s.running) (hnone : findMark syncMark s.inp.align.inq = none) :
    exec .bpSync s =
      ({ s with inp := s.inp.align.dequeue (s.inp.align.inq.length - markTail s.inp.align.inq) } : State).dataError := by
  rw [exec, execBpSync, State.unlessEnded_of_running hs]
  simp only [hnone]

/-- Settles O21: the aligned cursor of the statement is `InPort.align`; then what `findMark` and `markTail` answer. -/
theorem bpSyncLandsAfterTheLeastMarker : Obligations.BpSyncLandsAfterTheLeastMarker := by
  intro s hs
  refine ⟨fun k hk hleast => ?mark, fun hnone => ?noMark⟩
  case mark =>
    exact exec_bpSync_of_mark hs <| findMark_eq_some (by decide) (syncMark_prefix_iff.2 hk)
      fun j hj => mt syncMark_prefix_iff.1 (hleast j hj)
  case noMark =>
    obtain ⟨hle, hends, hlongest⟩ := markTail_longest s.inp.align.inq
    obtain ⟨hfits, htail⟩ := (syncMark_take_suffix_iff hle).1 hends
    refine ⟨markTail s.inp.align.inq, hle, hfits, htail, fun n hlt hn hlen heq => ?_,
      exec_bpSync_of_no_mark hs (findMark_eq_none fun k => mt syncMark_prefix_iff.1 (hnone k))⟩
    exact hlongest n hlt hn ((syncMark_take_suffix_iff hn).2 ⟨hlen, heq⟩)

end Sys2Proof.Machine

/-! The family of 42_window.md: the sliding window. The byte-by-byte copy is `copiedBytes` (`State.copyMatch_eq`), the
bytes SW_MATCHAT sends; each command's meaning on a running state is one equation, its outcomes a split along the
equation's conditions. -/

namespace Sys2Proof.Machine

/-! ## The checks of these commands -/

theorem State.inAligned_eq_true (s : State) : s.inAligned = true ↔ s.inp.ibit = 0 := beq_iff_eq

theorem State.outAligned_eq_true (s : State) : s.outAligned = true ↔ s.out.obits = 0 := beq_iff_eq

theorem State.inAligned_and_la_iff (s : State) :
    (s.inAligned && s.la.isEmpty) = true ↔ s.inp.ibit = 0 ∧ s.la = [] := by
  rw [Bool.and_eq_true_iff, State.inAligned_eq_true, List.isEmpty_iff]

theorem State.outAligned_and_la_iff (s : State) :
    (s.outAligned && s.la.isEmpty) = true ↔ s.out.obits = 0 ∧ s.la = [] := by
  rw [Bool.and_eq_true_iff, State.outAligned_eq_true, List.isEmpty_iff]

theorem lenOk_of_le {lo : Nat} {len9 : BitVec 9} (hlo : lo ≤ len9.toNat) (hhi : len9.toNat ≤ 258) :
    lenOk lo len9 = true := Bool.and_eq_true_iff.2 ⟨decide_eq_true hlo, decide_eq_true hhi⟩

/-- A precondition that holds lets the command go on. -/
theorem State.require_of_true {s : State} {ok : Bool} (h : ok = true) (k : Result) : s.require ok k = k := if_pos h

/-- A precondition that fails refuses the command, and nothing but STATUS changes. -/
theorem State.require_of_not {s : State} {ok : Bool} (h : ¬ ok = true) (k : Result) :
    s.require ok k = .next { s with status := 0xFE } := if_neg h

/-! ## The bytes of a back-reference (R193, R195) -/

/-- The first byte copied stands `dist` back. Once it is recorded, the bytes after it are those the longer history
gives: its end moved on by one, and a period on, the position `dist` back is where the first byte was recorded. -/
theorem copiedBytes_succ {hist : List Byte} {dist : Nat} (hpos : 0 < dist) (hd : dist ≤ hist.length) (len : Nat) :
    copiedBytes hist (len + 1) dist =
      winByte hist dist :: copiedBytes (hist ++ [winByte hist dist]) len dist := by
  rw [copiedBytes, List.range_succ_eq_map, List.map_cons, List.map_map, Nat.zero_mod, Nat.add_zero]
  refine congrArg (winByte hist dist :: ·) (List.map_congr_left fun i _ => ?_)
  rw [Function.comp_apply, List.length_append, List.length_singleton]
  have hlt : i % dist < dist := Nat.mod_lt _ hpos
  obtain hin | hend : i % dist + 1 < dist ∨ i % dist + 1 = dist := by omega
  · have hmod : (i + 1) % dist = i % dist + 1 := by
      rw [Nat.add_mod, Nat.mod_eq_of_lt (show 1 < dist by omega), Nat.mod_eq_of_lt hin]
    rw [List.getD_append _ _ _ _ (by omega), hmod]
    exact congrArg (hist.getD · 0) (by omega)
  · have hmod : (i + 1) % dist = 0 := by
      rw [← Nat.mod_add_mod, hend, Nat.mod_self]
    have hnew : hist.length + 1 - dist + i % dist = hist.length := by omega
    rw [hnew, List.getD_append_right _ _ _ _ (Nat.le_refl _), Nat.sub_self, hmod]
    rfl

theorem OutPort.appended_cons (o : OutPort) (b : Byte) (bytes : List Byte) :
    o.appended (b :: bytes) = (o.putByte b).appended bytes := by
  rw [← OutPort.putBytes_eq_appended, ← OutPort.putBytes_eq_appended]
  rfl

/-- The byte-by-byte copy outputs and records the bytes of R195. -/
theorem State.copyMatch_eq {dist : Nat} (hpos : 0 < dist) (len : Nat) {s : State} (hd : dist ≤ s.hist.length) :
    State.copyMatch len dist s =
      { s with out := s.out.appended (copiedBytes s.hist len dist),
               hist := s.hist ++ copiedBytes s.hist len dist } := by
  induction len generalizing s with
  | zero => simp [State.copyMatch, copiedBytes, OutPort.appended]
  | succ len ih =>
    have hd' : dist ≤ (s.emitAndRecord (winByte s.hist dist)).hist.length := by
      rw [State.emitAndRecord_hist, List.length_append]
      omega
    rw [State.copyMatch, ih hd', copiedBytes_succ hpos hd, OutPort.appended_cons,
      List.append_cons s.hist _ (copiedBytes _ len dist)]
    rfl

/-- The bytes SW_MATCHAT sends are those SW_COPY would produce (R193). -/
theorem matchBytes_eq_copiedBytes : matchBytes = copiedBytes := rfl

/-! ## SW_MATCHAT (R193) -/

theorem exec_swMatchat_of_legal {s : State} (hs : s.running) {len9 : BitVec 9}
    (hlen : 1 ≤ len9.toNat ∧ len9.toNat ≤ 258) (dm1 : BitVec 15) :
    exec (.swMatchat len9 dm1) s = s.require s.outAligned (
      if s.wvalid < dm1.toNat + 1 then s.dataError
      else if s.lacksRoom len9.toNat then s.holdOut
      else ({ s with out := s.out.appended (copiedBytes s.hist len9.toNat (dm1.toNat + 1)) } : State).ok) := by
  rw [exec, execSwMatchat, State.unlessEnded_of_running hs, lenOk_of_le hlen.1 hlen.2, State.inRange_true,
    OutPort.putBytes_eq_appended, matchBytes_eq_copiedBytes]
  rfl

/-- Settles O24: an illegal length is refused by the rule for all commands, the rest are the checks in their order. -/
theorem swMatchatOutputsWithoutRecording : Obligations.SwMatchatOutputsWithoutRecording := by
  intro s len9 dm1 hs
  refine ⟨fun h => ?refused, fun hlen hal hd => ?beyond, fun hlen hal hd hfull => ?held,
    fun hlen hal hd hroom => ?sent⟩
  case refused =>
    by_cases hlen : 1 ≤ len9.toNat ∧ len9.toNat ≤ 258
    · rw [exec_swMatchat_of_legal hs hlen]
      exact State.require_of_not (mt s.outAligned_eq_true.1 (h.resolve_left (not_not_intro hlen))) _
    · refine outOfRangeFieldsReportStreamError (.swMatchat len9 dm1) s (Bool.eq_false_iff.2 fun hwf => hlen ?_)
      exact (Bool.and_eq_true_iff.1 hwf).imp of_decide_eq_true of_decide_eq_true
  all_goals rw [exec_swMatchat_of_legal hs hlen, State.require_of_true (s.outAligned_eq_true.2 hal)]
  case beyond => exact if_pos hd
  case held =>
    rw [if_neg (Nat.not_lt.2 hd), (State.lacksRoom_eq_true ..).2 hfull]
    rfl
  case sent =>
    rw [if_neg (Nat.not_lt.2 hd), (State.lacksRoom_eq_false ..).2 hroom]
    rfl

/-! ## SW_COPY (R194, R195) -/

theorem exec_swCopy_of_legal {s : State} (hs : s.decoding) {len9 : BitVec 9}
    (hlo : 1 ≤ len9.toNat) (hhi : len9.toNat ≤ 258) (dm1 : BitVec 15) :
    exec (.swCopy len9 dm1) s = s.require (s.outAligned && s.la.isEmpty) (
      if s.wvalid < dm1.toNat + 1 then s.dataError
      else if s.lacksRoom len9.toNat then s.holdOut
      else (State.copyMatch len9.toNat (dm1.toNat + 1) s).ok) := by
  rw [exec, execSwCopy, State.unlessEnded_of_running hs.running, lenOk_of_le hlo hhi, State.inRange_true,
    State.gated_of_decoding hs]
  rfl

/-- Settles O25: the checks in their order, then `State.copyMatch_eq`. -/
theorem swCopyOutputsAndRecordsTheSameBytes : Obligations.SwCopyOutputsAndRecordsTheSameBytes := by
  intro s len9 dm1 hs hlo hhi
  refine ⟨fun h => ?refused, fun hal hla hd => ?beyond, fun hal hla hd hfull => ?held,
    fun hal hla hd hroom => ?copied⟩
  all_goals rw [exec_swCopy_of_legal hs hlo hhi]
  case refused =>
    refine State.require_of_not (fun hpre => ?_) _
    obtain ⟨hal, hla⟩ := s.outAligned_and_la_iff.1 hpre
    exact h.elim (absurd hal) (absurd hla)
  all_goals rw [State.require_of_true (s.outAligned_and_la_iff.2 ⟨hal, hla⟩)]
  case beyond => exact if_pos hd
  case held =>
    rw [if_neg (Nat.not_lt.2 hd), (State.lacksRoom_eq_true ..).2 hfull]
    rfl
  case copied =>
    rw [if_neg (Nat.not_lt.2 hd), (State.lacksRoom_eq_false ..).2 hroom,
      State.copyMatch_eq (Nat.succ_pos _) _ (Nat.le_min.1 hd).2]
    rfl

/-! ## SW_SETDICT (R198) -/

theorem exec_swSetdict_of_running {s : State} (hs : s.running) (cnt : BitVec 16) :
    exec (.swSetdict cnt) s = s.require (s.inAligned && s.la.isEmpty) (
      if s.inp.inq.length < cnt.toNat then s.holdIn
      else if s.needDict && Config.checksum (s.inp.inq.take cnt.toNat) != s.dictExpect then
        ({ s with inp := { s.inp with inq := s.inp.inq.drop cnt.toNat } } : State).report .dataError
      else
        ({ s with inp := { s.inp with inq := s.inp.inq.drop cnt.toNat },
                  hist := s.hist ++ s.inp.inq.take cnt.toNat,
                  dictId := Config.checksum (s.inp.inq.take cnt.toNat), needDict := false } : State).ok) :=
  State.unlessEnded_of_running hs _

/-- Settles O26: the checks in their order; whatever CHECKSUM is, the dictionary matches or it does not. -/
theorem swSetdictInstallsOrRefuses : Obligations.SwSetdictInstallsOrRefuses := by
  intro s cnt hs
  refine ⟨fun hpre => ?refused, fun hpre hshort => ?held, fun hpre hle hneed hne => ?mismatch,
    fun hpre hle hmatch => ?installed⟩
  all_goals rw [exec_swSetdict_of_running hs]
  case refused => exact State.require_of_not (mt s.inAligned_and_la_iff.1 hpre) _
  all_goals rw [State.require_of_true (s.inAligned_and_la_iff.2 hpre)]
  case held => exact if_pos hshort
  case mismatch =>
    rw [if_neg (Nat.not_lt.2 hle), hneed, bne_iff_ne.2 hne]
    rfl
  case installed =>
    have hno : ¬ (s.needDict && Config.checksum (s.inp.inq.take cnt.toNat) != s.dictExpect) = true := by
      rw [Bool.and_eq_true_iff, bne_iff_ne]
      exact fun ⟨hneed, hne⟩ => hne (hmatch hneed)
    rw [if_neg (Nat.not_lt.2 hle), if_neg hno]
    rfl

/-! ## SW_RESET, SW_RECORD and SW_READ (R190 to R192) -/

theorem exec_swRecord_of_running {s : State} (hs : s.running) (byte : BitVec 8) :
    exec (.swRecord byte) s = s.require s.la.isEmpty ({ s with hist := s.hist ++ [byte] } : State).ok :=
  State.unlessEnded_of_running hs _

theorem exec_swRead_of_running {s : State} (hs : s.running) (dm1 : BitVec 15) :
    exec (.swRead dm1) s =
      if s.wvalid < dm1.toNat + 1 then s.dataError
      else ({ s with res0 := (winByte s.hist (dm1.toNat + 1)).setWidth 32 } : State).ok :=
  State.unlessEnded_of_running hs _

/-- Settles O22: on a running state SW_RESET has no check left, SW_RECORD one, SW_READ the bound by WVALID. -/
theorem swResetRecordAndReadUseTheHistory : Obligations.SwResetRecordAndReadUseTheHistory := by
  intro s hs
  refine ⟨State.unlessEnded_of_running hs _, fun byte => ⟨fun hla => ?recorded, fun hla => ?refused⟩,
    fun dm1 => ⟨fun hd => ?read, fun hd => ?beyond⟩⟩
  case recorded =>
    rw [exec_swRecord_of_running hs, State.require_of_true (List.isEmpty_iff.2 hla)]
    rfl
  case refused =>
    rw [exec_swRecord_of_running hs]
    exact State.require_of_not (mt List.isEmpty_iff.1 hla) _
  case read =>
    rw [exec_swRead_of_running hs]
    exact if_neg (Nat.not_lt.2 hd)
  case beyond =>
    rw [exec_swRead_of_running hs]
    exact if_pos hd

/-! ## SW_EXPECTDICT (R199) -/

/-- Appending places the first vector above the second. -/
theorem toNat_append_eq_add {n m : Nat} (x : BitVec n) (y : BitVec m) :
    (x ++ y).toNat = 2 ^ m * x.toNat + y.toNat := by
  rw [BitVec.toNat_append, ← Nat.shiftLeft_add_eq_or_of_lt y.isLt, Nat.shiftLeft_eq, Nat.mul_comm]

/-- Four bytes, most significant first, are one word. -/
theorem beWord_four (b0 b1 b2 b3 : Byte) : beWord [b0, b1, b2, b3] = b0 ++ b1 ++ b2 ++ b3 := by
  have hvalue : [b0, b1, b2, b3].foldl (fun n b => 256 * n + b.toNat) 0 = (b0 ++ b1 ++ b2 ++ b3).toNat := by
    rw [toNat_append_eq_add, toNat_append_eq_add, toNat_append_eq_add]
    simp
  rw [beWord, hvalue, BitVec.ofNat_toNat, BitVec.setWidth_eq]

theorem exec_swExpectdict_of_running {s : State} (hs : s.running) :
    exec .swExpectdict s = s.require s.inAligned (
      if s.inp.inq.length < 4 then s.holdIn
      else ({ s with inp := s.inp.dequeue 4, dictExpect := beWord (s.inp.inq.take 4), needDict := true } :
        State).report .needDict) :=
  State.unlessEnded_of_running hs _

/-- Settles O27: the checks in their order; four bytes at the head of the queue are the identifier `beWord` reads. -/
theorem swExpectdictReadsTheIdentifier : Obligations.SwExpectdictReadsTheIdentifier := by
  intro s hs
  refine ⟨fun hal => ?refused, fun hal hshort => ?held, fun b0 b1 b2 b3 rest hal hinq => ?read⟩
  all_goals rw [exec_swExpectdict_of_running hs]
  case refused => exact State.require_of_not (mt s.inAligned_eq_true.1 hal) _
  all_goals rw [State.require_of_true (s.inAligned_eq_true.2 hal)]
  case held => exact if_pos hshort
  case read =>
    have hlen : ¬ s.inp.inq.length < 4 := by simp [hinq]
    rw [if_neg hlen, InPort.dequeue, hinq, ← beWord_four]
    rfl

end Sys2Proof.Machine

/-! The family of 43_huffman_encoder.md. Each command's meaning on a running state is one equation; a refused field is
refused by the rule for all commands (`outOfRangeFieldsReportStreamError`). The merge and the repair loops of HE_BUILD
are shown to follow the relations `Merges`, `Lengthens` and `Shortens` and to end within their rounds; its code is
complete because the last loop ends only where K = FULL. -/

namespace Sys2Proof.Machine

/-! ## The checks of these commands -/

/-- On a running state a command of an alphabet runs its body on the alphabet T names. -/
theorem State.checks_of_alphabet {s : State} (hs : s.running) {t : BitVec 2} {a : Alphabet}
    (ht : Alphabet.ofField t = some a) (k : Alphabet → Result) : s.unlessEnded (s.onAlphabet t k) = k a := by
  rw [State.unlessEnded_of_running hs, State.onAlphabet_some ht]

theorem State.inRange_of_true {s : State} {ok : Bool} (h : ok = true) (k : Result) : s.inRange ok k = k := if_pos h

/-- A command that sends bits where it is ready: refused, held or sent. -/
theorem State.require_sendBits {s : State} (hobuf : s.out.obuf.toNat < 2 ^ s.out.obits.toNat) {ok : Bool} {ready : Prop}
    (hok : ok = true ↔ ready) {sent bs : List Bool} (hsent : ready → sent = bs) :
    (¬ ready → s.require ok (s.sendBits sent) = .next { s with status := 0xFE }) ∧
    (ready → ¬ s.hasRoomForBits bs.length → s.require ok (s.sendBits sent) = .next { s with status := 0xFB }) ∧
    (ready → s.hasRoomForBits bs.length →
      s.require ok (s.sendBits sent) = .next { s with out := s.out.pushed bs, status := 0 }) := by
  refine ⟨fun h => State.require_of_not (mt hok.1 h) _, fun h hfull => ?held, fun h hroom => ?sent⟩
  all_goals rw [State.require_of_true (hok.2 h), hsent h]
  case held => exact State.sendBits_of_no_room hfull
  case sent => exact State.sendBits_eq_pushed hobuf hroom

theorem State.enc_ok {s : State} (h : s.TablesOk) (a : Alphabet) : (s.enc a).Ok a.size a.maxLen :=
  ((State.tablesOk_iff s).1 h a).1

/-! ## HE_CLEAR and HE_COUNT (R220, R221) -/

theorem exec_heClear_of_alphabet {s : State} (hs : s.running) {t : BitVec 2} {a : Alphabet}
    (ht : Alphabet.ofField t = some a) :
    exec (.heClear t) s = (s.setEnc a { s.enc a with freq := List.replicate a.size 0 }).ok :=
  State.checks_of_alphabet hs ht _

theorem exec_heCount_of_usable {s : State} (hs : s.running) {t : BitVec 2} {a : Alphabet} {sym : BitVec 9}
    (ht : Alphabet.ofField t = some a) (hsym : sym.toNat < a.usable) :
    exec (.heCount t sym) s = (s.setEnc a { s.enc a with
      freq := (s.enc a).freq.set sym.toNat (bumpFreq ((s.enc a).freq.getD sym.toNat 0)) }).ok :=
  (State.checks_of_alphabet hs ht _).trans (State.inRange_of_true (decide_eq_true hsym) _)

theorem usable_le_size (a : Alphabet) : a.usable ≤ a.size := by
  cases a <;> decide

theorem bumpFreq_toNat (f : BitVec 32) : (bumpFreq f).toNat = min (f.toNat + 1) (2 ^ 32 - 1) :=
  toNat_ofNat_of_lt (by omega)

/-- Settles O28: HE_COUNT replaces the symbol's own entry by the saturated successor; the fields no alphabet or no
count takes are refused by the rule for all commands. -/
theorem heClearAndHeCountKeepTheFrequencies : Obligations.HeClearAndHeCountKeepTheFrequencies := by
  intro s t hs
  refine ⟨fun a ht => exec_heClear_of_alphabet hs ht, fun a sym ht hsym hlen => ?counted, ?reserved,
    fun sym h => ?refused⟩
  case counted =>
    have hlt : sym.toNat < (s.enc a).freq.length := hlen ▸ hsym.trans_le (usable_le_size a)
    refine ⟨_, List.length_set.trans hlen, fun x hx => ?_, ?_, exec_heCount_of_usable hs ht hsym⟩
    · rw [List.getD_eq_getElem?_getD, List.getElem?_set_ne hx.symm, ← List.getD_eq_getElem?_getD]
    · rw [List.getD_eq_getElem?_getD, List.getElem?_set_self hlt]
      exact bumpFreq_toNat _
  case reserved =>
    rintro rfl
    exact outOfRangeFieldsReportStreamError (.heClear 3) s rfl
  case refused =>
    refine outOfRangeFieldsReportStreamError (.heCount t sym) s ?_
    obtain rfl | ⟨rfl, h⟩ | ⟨rfl, h⟩ | ⟨rfl, h⟩ := h
    · rfl
    all_goals exact decide_eq_false (Nat.not_lt.2 h)

/-! ## HE_SETLEN and HD_SETLEN (R231, R260) -/

/-- Settles O29: the two commands have the same checks; each replaces one length and clears the valid bit. -/
theorem setlenCommandsWriteOneLength : Obligations.SetlenCommandsWriteOneLength := by
  intro s t ln sym hs
  refine ⟨fun a ht hsym hln => ?written, fun h => ?refused⟩
  case written =>
    have hrange : (decide (sym.toNat < a.size) && decide (ln.toNat ≤ a.maxLen)) = true :=
      Bool.and_eq_true_iff.2 ⟨decide_eq_true hsym, decide_eq_true hln⟩
    exact ⟨(State.checks_of_alphabet hs ht _).trans (State.inRange_of_true hrange _),
      (State.checks_of_alphabet hs ht _).trans (State.inRange_of_true hrange _)⟩
  case refused =>
    have hwf : (Instr.onAlphabet t fun a => sym.toNat < a.size && ln.toNat ≤ a.maxLen) = false := by
      obtain rfl | ⟨rfl, h⟩ | ⟨rfl, h⟩ | ⟨rfl, h | h⟩ := h
      case inl => rfl
      case inr.inr.inr.inr => exact Bool.and_eq_false_iff.2 (.inr (decide_eq_false (Nat.not_le.2 h)))
      all_goals exact Bool.and_eq_false_iff.2 (.inl (decide_eq_false (Nat.not_lt.2 h)))
    exact ⟨outOfRangeFieldsReportStreamError (.heSetlen t ln sym) s hwf,
      outOfRangeFieldsReportStreamError (.hdSetlen t ln sym) s hwf⟩

/-! ## The two-node merge (R227) -/

/-- The node of `mergeAll` that stands for a tree. -/
def MergeTree.toNode (t : MergeTree) : MergeNode := { weight := t.weight, key := t.key, depths := t.depths }

theorem mergeNodes_toNode (key : Nat) (a b : MergeTree) :
    mergeNodes key a.toNode b.toNode = (MergeTree.node key a b).toNode := rfl

theorem MergeTree.toNode_before_iff (a b : MergeTree) : a.toNode.before b.toNode = true ↔ a.precedes b :=
  MergeNode.before_iff ..

/-- `popLeast` takes one tree out and keeps the others. -/
theorem popLeast_toNode (m : MergeTree) (trees : List MergeTree) :
    ∃ (a : MergeTree) (others : List MergeTree),
      popLeast m.toNode (trees.map MergeTree.toNode) = (a.toNode, others.map MergeTree.toNode) ∧
      (m :: trees).Perm (a :: others) := by
  induction trees generalizing m with
  | nil => exact ⟨m, [], rfl, .refl _⟩
  | cons n rest ih =>
    rw [List.map_cons, popLeast]
    split
    · obtain ⟨a, others, heq, hperm⟩ := ih n
      rw [heq]
      exact ⟨a, m :: others, rfl, (hperm.cons m).trans (.swap ..)⟩
    · obtain ⟨a, others, heq, hperm⟩ := ih m
      rw [heq]
      exact ⟨a, n :: others, rfl, (List.Perm.swap ..).trans ((hperm.cons n).trans (.swap ..))⟩

/-- The keys of the trees are distinct and below `n`. -/
def KeysBelow (n : Nat) (trees : List MergeTree) : Prop := (trees.map MergeTree.key).Nodup ∧ ∀ t ∈ trees, t.key < n

section

variable {n : Nat} {a b : MergeTree} {trees trees' : List MergeTree}

theorem KeysBelow.of_perm (h : KeysBelow n trees) (hperm : trees.Perm trees') : KeysBelow n trees' :=
  ⟨(hperm.map _).nodup_iff.1 h.1, fun t ht => h.2 t (hperm.mem_iff.2 ht)⟩

theorem KeysBelow.tail (h : KeysBelow n (a :: trees)) : KeysBelow n trees :=
  ⟨(List.nodup_cons.1 h.1).2, fun t ht => h.2 t (List.mem_cons_of_mem _ ht)⟩

theorem KeysBelow.head_ne (h : KeysBelow n (a :: trees)) : ∀ t ∈ trees, a.key ≠ t.key :=
  fun _ ht heq => (List.nodup_cons.1 h.1).1 (heq ▸ List.mem_map_of_mem ht)

/-- The next internal node's key is above those of the trees. -/
theorem KeysBelow.node (h : KeysBelow n trees) : KeysBelow (n + 1) (.node n a b :: trees) := by
  obtain ⟨hnodup, hbelow⟩ := h
  refine ⟨List.nodup_cons.2 ⟨fun hmem => ?_, hnodup⟩,
    List.forall_mem_cons.2 ⟨Nat.lt_succ_self n, fun t ht => Nat.lt_succ_of_lt (hbelow t ht)⟩⟩
  obtain ⟨t, ht, hkey⟩ := List.mem_map.1 hmem
  exact Nat.ne_of_lt (hbelow t ht) hkey

end

/-- With distinct keys the tree it takes is the first one. -/
theorem popLeast_precedes {n : Nat} {m : MergeTree} {trees : List MergeTree} (hkeys : KeysBelow n (m :: trees)) :
    ∃ (a : MergeTree) (others : List MergeTree),
      popLeast m.toNode (trees.map MergeTree.toNode) = (a.toNode, others.map MergeTree.toNode) ∧
      (m :: trees).Perm (a :: others) ∧ ∀ x ∈ others, a.precedes x := by
  obtain ⟨a, others, heq, hperm⟩ := popLeast_toNode m trees
  refine ⟨a, others, heq, hperm, fun x hx => ?_⟩
  have hleast : x.toNode.before a.toNode = false := by
    have := popLeast_least m.toNode (trees.map MergeTree.toNode) x.toNode
    rw [heq] at this
    exact this (List.mem_map_of_mem hx)
  have hkey : a.key ≠ x.key := (hkeys.of_perm hperm).head_ne x hx
  have hnot := mt (MergeTree.toNode_before_iff x a).2 (Bool.eq_false_iff.1 hleast)
  unfold MergeTree.precedes at hnot ⊢
  omega

/-- The model's merge is that of R227. -/
theorem mergeAll_merges (nb fuel : Nat) {i : Nat} {trees : List MergeTree} (hne : trees ≠ [])
    (hfuel : trees.length ≤ fuel) (hkeys : KeysBelow (nb + i) trees) :
    ∃ tree, Merges nb i trees tree ∧ mergeAll fuel (nb + i) (trees.map MergeTree.toNode) = tree.depths := by
  induction fuel generalizing i trees with
  | zero => exact absurd (List.length_eq_zero_iff.1 (Nat.le_zero.1 hfuel)) hne
  | succ fuel ih =>
    obtain ⟨m, trees, rfl⟩ := List.exists_cons_of_ne_nil hne
    obtain ⟨a, others, hpop, hperm, hfirst⟩ := popLeast_precedes hkeys
    rw [List.map_cons, mergeAll, hpop]
    cases others with
    | nil =>
      rw [List.perm_singleton.1 hperm]
      exact ⟨a, .one i a, rfl⟩
    | cons m2 others =>
      obtain ⟨b, rest, hpop2, hperm2, hsecond⟩ := popLeast_precedes (hkeys.of_perm hperm).tail
      have hall := hperm.trans (hperm2.cons a)
      have hlen : (MergeTree.node (nb + i) a b :: rest).length ≤ fuel := by
        have := hall.length_eq
        simp only [List.length_cons] at this hfuel ⊢
        omega
      obtain ⟨tree, hmerges, hdepths⟩ := ih (i := i + 1) (by simp) hlen (hkeys.of_perm hall).tail.tail.node
      refine ⟨tree, .merge i _ rest a b tree hall (fun x hx => hfirst x (hperm2.mem_iff.2 hx)) hsecond hmerges, ?_⟩
      simp only [List.map_cons, hpop2, mergeNodes_toNode]
      exact hdepths

/-- The leaves of the tree are those of the nodes merged. -/
theorem Merges.symbols {nb i : Nat} {nodes : List MergeTree} {tree : MergeTree} (h : Merges nb i nodes tree) :
    (tree.depths.map Prod.fst).Perm (nodes.flatMap fun n => n.depths.map Prod.fst) := by
  induction h with
  | one i t => simp
  | merge i nodes rest a b t hperm _ _ _ ih =>
    refine ih.trans (.trans ?_ (hperm.flatMap_right _).symm)
    simp [MergeTree.depths, Function.comp_def]

theorem MergeTree.depths_ne_nil (t : MergeTree) : t.depths ≠ [] := by
  induction t with
  | leaf sym freq => simp [MergeTree.depths]
  | node key a b iha _ => simp [MergeTree.depths, iha]

/-- The depths of any tree make a complete code. -/
theorem MergeTree.sum_depths (t : MergeTree) {n : Nat} (h : ∀ d ∈ t.depths, d.2 ≤ n) :
    (t.depths.map fun d => 2 ^ (n - d.2)).sum = 2 ^ n := by
  induction t generalizing n with
  | leaf sym freq => simp [MergeTree.depths]
  | node key a b iha ihb =>
    have hsucc : ∀ d ∈ a.depths ++ b.depths, d.2 + 1 ≤ n := fun d hd => h _ (List.mem_map_of_mem hd)
    obtain ⟨hda, hdb⟩ := List.forall_mem_append.1 hsucc
    obtain ⟨d, hd⟩ := List.exists_mem_of_ne_nil _ a.depths_ne_nil
    obtain ⟨n, rfl⟩ := Nat.exists_eq_add_one_of_ne_zero (Nat.ne_zero_of_lt (hda d hd))
    have ha := iha fun d hd => Nat.le_of_succ_le_succ (hda d hd)
    have hb := ihb fun d hd => Nat.le_of_succ_le_succ (hdb d hd)
    simp [MergeTree.depths, Function.comp_def, ha, hb, Nat.pow_succ, Nat.mul_two]

/-- A tree of two leaves or more has none at its root. -/
theorem MergeTree.depth_pos {t : MergeTree} (h : 2 ≤ t.depths.length) : ∀ d ∈ t.depths, 1 ≤ d.2 := by
  cases t with
  | leaf sym freq => exact absurd h (by simp [MergeTree.depths])
  | node key a b =>
    intro d hd
    obtain ⟨_, -, rfl⟩ := List.mem_map.1 hd
    exact Nat.succ_pos _

/-- A leaf for each used symbol. -/
def leafTrees (used : List Nat) (freq : Nat → Nat) : List MergeTree := used.map fun sym => .leaf sym (freq sym)

/-- The depth of a symbol's leaf. -/
def MergeTree.depthOf (t : MergeTree) (sym : Nat) : Nat := (t.depths.lookup sym).getD 0

section

variable {nb : Nat} {used : List Nat} {freq : Nat → Nat} {tree : MergeTree}

theorem Merges.symbols_leafTrees (h : Merges nb 0 (leafTrees used freq) tree) :
    (tree.depths.map Prod.fst).Perm used := by
  have hleaves : ((leafTrees used freq).flatMap fun n => n.depths.map Prod.fst) = used := by
    rw [leafTrees, List.flatMap_map]
    exact List.flatMap_singleton' used
  exact hleaves ▸ h.symbols

theorem Merges.mem_depthOf (h : Merges nb 0 (leafTrees used freq) tree) :
    ∀ sym ∈ used, (sym, tree.depthOf sym) ∈ tree.depths := by
  intro sym hsym
  have hsome : (tree.depths.lookup sym).isSome = true := by
    obtain ⟨d, hd, rfl⟩ := List.mem_map.1 (h.symbols_leafTrees.mem_iff.2 hsym)
    exact List.lookup_isSome_iff.2 ⟨d, hd, beq_self_eq_true _⟩
  obtain ⟨depth, hlookup⟩ := Option.isSome_iff_exists.1 hsome
  obtain ⟨before, after, hsplit, -⟩ := List.lookup_eq_some_iff.1 hlookup
  rw [MergeTree.depthOf, hlookup, hsplit]
  simp

/-- The depths are one for each used symbol, so a function that gives each symbol its depth gives them all. -/
theorem Merges.depths_perm (h : Merges nb 0 (leafTrees used freq) tree) (hnodup : used.Nodup) {depth : Nat → Nat}
    (hdepth : ∀ sym ∈ used, (sym, depth sym) ∈ tree.depths) :
    tree.depths.Perm (used.map fun sym => (sym, depth sym)) := by
  have hsyms := h.symbols_leafTrees
  have hinj := List.inj_on_of_nodup_map (hsyms.nodup_iff.2 hnodup)
  have hself : tree.depths = (tree.depths.map Prod.fst).map fun sym => (sym, depth sym) := by
    rw [List.map_map]
    refine (List.map_id' _).symm.trans (List.map_congr_left fun d hd => ?_)
    exact hinj hd (hdepth _ (hsyms.mem_iff.1 (List.mem_map_of_mem hd))) rfl
  rw [hself]
  exact hsyms.map _

end

/-- `mergeAll` gives each used symbol its depth in the tree of R227. -/
theorem mergeAll_leafTrees {nb : Nat} {used : List Nat} {freq : Nat → Nat} (hne : used ≠ []) (hnodup : used.Nodup)
    (hbelow : ∀ sym ∈ used, sym < nb) :
    ∃ tree, Merges nb 0 (leafTrees used freq) tree ∧
      mergeAll used.length nb ((leafTrees used freq).map MergeTree.toNode) = tree.depths := by
  have hkeys : (leafTrees used freq).map MergeTree.key = used := by
    rw [leafTrees, List.map_map]
    exact List.map_id used
  refine mergeAll_merges nb used.length (i := 0) (by simpa [leafTrees] using hne) (by simp [leafTrees]) ⟨?_, ?_⟩
  · rwa [hkeys]
  · simpa [leafTrees, MergeTree.key] using hbelow

/-! ## Length limiting (R228, R229) -/

/-- The leaves of the used symbols with the lengths given. -/
def leavesOf (used : List Nat) (freq len : Nat → Nat) : List Leaf := used.map fun s => ⟨s, freq s, len s⟩

/-- The sum of the lengths of the used symbols, which the loops move by one in each round. -/
def totalLen (used : List Nat) (len : Nat → Nat) : Nat := (used.map len).sum

theorem relen_same (len : Nat → Nat) (s l : Nat) : relen len s l s = l := if_pos rfl

theorem relen_of_ne {s x : Nat} (h : x ≠ s) (len : Nat → Nat) (l : Nat) : relen len s l x = len x := if_neg h

/-- What the old lengths and the new one meet, the lengths with one replaced meet. -/
theorem relen_induction {P : Nat → Nat → Prop} {len : Nat → Nat} {s l x : Nat} (hs : x = s → P x l) (hx : P x (len x)) :
    P x (relen len s l x) := by
  rw [relen]
  split
  · exact hs ‹_›
  · exact hx

theorem setLeafLen_leavesOf (used : List Nat) (freq len : Nat → Nat) (s l : Nat) :
    setLeafLen (leavesOf used freq len) s l = leavesOf used freq (relen len s l) := by
  rw [setLeafLen, leavesOf, leavesOf, List.map_map]
  refine List.map_congr_left fun x _ => ?_
  rw [Function.comp_apply, relen]
  split <;> rfl

theorem kraftSum_leavesOf (m : Nat) (used : List Nat) (freq len : Nat → Nat) :
    kraftSum m (leavesOf used freq len) = spaceUsed m used len := by
  rw [kraftSum, leavesOf, List.map_map, spaceUsed]
  rfl

/-- Replacing one length exchanges its term of a sum for the new one's. -/
theorem sum_map_relen {used : List Nat} (hnodup : used.Nodup) {s : Nat} (hs : s ∈ used) (f len : Nat → Nat) (l : Nat) :
    (used.map fun x => f (relen len s l x)).sum + f (len s) = (used.map fun x => f (len x)).sum + f l := by
  have hperm := List.perm_cons_erase hs
  have hsame : (used.erase s).map (fun x => f (relen len s l x)) = (used.erase s).map fun x => f (len x) := by
    refine List.map_congr_left fun x hx => ?_
    rw [relen_of_ne (hnodup.mem_erase_iff.1 hx).1]
  rw [(hperm.map _).sum_eq, (hperm.map fun x => f (len x)).sum_eq, List.map_cons, List.map_cons, hsame, relen_same,
    List.sum_cons, List.sum_cons]
  omega

section

variable {m : Nat} {used : List Nat} {freq len out : Nat → Nat} (hnodup : used.Nodup)

include hnodup in
theorem totalLen_relen {s : Nat} (hs : s ∈ used) (l : Nat) :
    totalLen used (relen len s l) + len s = totalLen used len + l :=
  sum_map_relen hnodup hs id len l

include hnodup in
/-- One bit less doubles what a code takes at most. -/
theorem spaceUsed_shorten_le {s : Nat} (hs : s ∈ used) :
    spaceUsed m used (relen len s (len s - 1)) ≤ spaceUsed m used len + 2 ^ (m - len s) := by
  have hsum := sum_map_relen hnodup hs (fun l => 2 ^ (m - l)) len (len s - 1)
  have hpow : 2 ^ (m - (len s - 1)) ≤ 2 * 2 ^ (m - len s) := by
    rw [Nat.mul_comm, ← Nat.pow_succ]
    exact Nat.pow_le_pow_right (by decide) (by omega)
  unfold spaceUsed
  omega

theorem totalLen_le (h : ∀ s ∈ used, len s ≤ m) : totalLen used len ≤ used.length * m := by
  have := List.sum_le_card_nsmul (used.map len) m (by simpa using h)
  simpa [totalLen] using this

theorem le_totalLen {n : Nat} (h : ∀ s ∈ used, n ≤ len s) : used.length * n ≤ totalLen used len := by
  have := List.card_nsmul_le_sum (used.map len) n (by simpa using h)
  simpa [totalLen] using this

/-- Lengths of `m` bits or more take one of the `2 ^ m` codes each. -/
theorem spaceUsed_of_full (h : ∀ s ∈ used, m ≤ len s) : spaceUsed m used len = used.length := by
  have hone : used.map (fun s => 2 ^ (m - len s)) = used.map fun _ => 1 :=
    List.map_congr_left fun s hs => by rw [Nat.sub_eq_zero_of_le (h s hs), Nat.pow_zero]
  rw [spaceUsed, hone]
  simp

/-- Codes of at most `l` bits take as much as codes of `l` bits, or more. -/
theorem le_spaceUsed {l : Nat} (h : ∀ s ∈ used, len s ≤ l) : used.length * 2 ^ (m - l) ≤ spaceUsed m used len := by
  have hterms : ∀ s ∈ used, 2 ^ (m - l) ≤ 2 ^ (m - len s) := fun s hs =>
    Nat.pow_le_pow_right Nat.two_pos (Nat.sub_le_sub_left (h s hs) m)
  have := List.card_nsmul_le_sum (used.map fun s => 2 ^ (m - len s)) (2 ^ (m - l)) (by simpa using hterms)
  simpa [spaceUsed] using this

include hnodup in
/-- R228's loop ends well: while K exceeds FULL a symbol can be lengthened, as there are no more symbols than FULL;
each round makes the lengths one bit more in all. -/
theorem lengthenLoop_lengthens (hcard : used.length ≤ 2 ^ m) (fuel : Nat) (hle : ∀ s ∈ used, len s ≤ m)
    (hfuel : used.length * m < fuel + totalLen used len) :
    ∃ out, Lengthens m used freq len out ∧ lengthenLoop m fuel (leavesOf used freq len) = leavesOf used freq out := by
  induction fuel generalizing len with
  | zero => exact absurd (totalLen_le hle) (Nat.not_le.2 (by omega))
  | succ fuel ih =>
    rw [lengthenLoop, kraftSum_leavesOf]
    split
    case isFalse hspace => exact ⟨len, .stop len (Nat.not_lt.1 hspace), rfl⟩
    case isTrue hspace =>
      split
      case h_2 hnone =>
        have hfull : ∀ s ∈ used, m ≤ len s := fun s hs =>
          Nat.not_lt.1 (of_decide_eq_false (chooseLeaf_none.1 hnone _ (List.mem_map_of_mem hs)))
        rw [spaceUsed_of_full hfull] at hspace
        exact absurd hcard (Nat.not_le.2 hspace)
      case h_1 x hsome =>
        obtain ⟨hmem, hok, hbest⟩ := chooseLeaf_some lengthenFirst_order.1 lengthenFirst_order.2 hsome
        obtain ⟨s, hs, rfl⟩ := List.mem_map.1 hmem
        have hlt : len s < m := of_decide_eq_true hok
        have htotal := totalLen_relen hnodup (len := len) hs (len s + 1)
        rw [setLeafLen_leavesOf]
        obtain ⟨out, hout, hloop⟩ := ih (len := relen len s (len s + 1))
          (fun x hx => relen_induction (P := fun _ l => l ≤ m) (fun _ => hlt) (hle x hx)) (by omega)
        refine ⟨out, .step len out s hspace hs hlt (fun x hx hxm hne => ?_) hout, hloop⟩
        have hnot := hbest _ (List.mem_map_of_mem hx) (decide_eq_true hxm)
        simp only [lengthenFirst, Bool.or_eq_false_iff, Bool.and_eq_false_iff, decide_eq_false_iff_not,
          beq_eq_false_iff_ne] at hnot
        omega

/-- A deepest leaf can be shortened while K is below FULL: what is free is a multiple of what its code takes. -/
theorem exists_mayShorten (htwo : 2 ≤ used.length) (hpos : ∀ s ∈ used, 1 ≤ len s) (hle : ∀ s ∈ used, len s ≤ m)
    (hspace : spaceUsed m used len < 2 ^ m) : ∃ s, mayShorten m used len s := by
  have hne : used.toFinset.Nonempty := by
    rw [List.toFinset_nonempty_iff]
    rintro rfl
    exact absurd htwo (by decide)
  obtain ⟨s, hs, hmax⟩ := used.toFinset.exists_max_image len hne
  simp only [List.mem_toFinset] at hs hmax
  have hlen : 2 ≤ len s := by
    by_contra hshort
    have hm : m - 1 + 1 = m := Nat.sub_add_cancel ((hpos s hs).trans (hle s hs))
    refine absurd hspace (Nat.not_lt.2 ?_)
    calc
      2 ^ m = 2 * 2 ^ (m - 1) := by rw [← Nat.pow_succ', Nat.succ_eq_add_one, hm]
      _ ≤ used.length * 2 ^ (m - 1) := Nat.mul_le_mul_right _ htwo
      _ ≤ spaceUsed m used len := le_spaceUsed fun x hx => (hmax x hx).trans (Nat.le_of_lt_succ (Nat.not_le.1 hshort))
  have hdvd : 2 ^ (m - len s) ∣ 2 ^ m - spaceUsed m used len := by
    refine Nat.dvd_sub (Nat.pow_dvd_pow 2 (Nat.sub_le ..)) (List.dvd_sum ?_)
    simp only [List.mem_map, forall_exists_index, and_imp, forall_apply_eq_imp_iff₂]
    exact fun x hx => Nat.pow_dvd_pow 2 (Nat.sub_le_sub_left (hmax x hx) m)
  exact ⟨s, hs, hlen, Nat.le_of_dvd (Nat.sub_pos_of_lt hspace) hdvd⟩

include hnodup in
/-- R229's loop ends well: while K is below FULL a symbol can be shortened; each round makes the lengths one bit less in
all. -/
theorem shortenLoop_shortens (htwo : 2 ≤ used.length) (fuel : Nat) (hpos : ∀ s ∈ used, 1 ≤ len s)
    (hle : ∀ s ∈ used, len s ≤ m) (hfuel : totalLen used len ≤ fuel) :
    ∃ out, Shortens m used freq len out ∧ shortenLoop m fuel (leavesOf used freq len) = leavesOf used freq out := by
  induction fuel generalizing len with
  | zero => exact absurd ((le_totalLen hpos).trans hfuel) (by omega)
  | succ fuel ih =>
    rw [shortenLoop, kraftSum_leavesOf]
    split
    case isFalse hspace => exact ⟨len, .stop len (Nat.not_lt.1 hspace), rfl⟩
    case isTrue hspace =>
      split
      case h_2 hnone =>
        obtain ⟨s, hs, hlen, hfits⟩ := exists_mayShorten htwo hpos hle hspace
        have hrefused := chooseLeaf_none.1 hnone ⟨s, freq s, len s⟩ (List.mem_map_of_mem hs)
        simp only [Bool.and_eq_false_iff, decide_eq_false_iff_not] at hrefused
        exact absurd hfits (hrefused.resolve_left (not_not_intro hlen))
      case h_1 x hsome =>
        obtain ⟨hmem, hok, hbest⟩ := chooseLeaf_some shortenFirst_order.1 shortenFirst_order.2 hsome
        obtain ⟨s, hs, rfl⟩ := List.mem_map.1 hmem
        simp only [Bool.and_eq_true, decide_eq_true_eq] at hok
        obtain ⟨hlen, hfits⟩ := hok
        have htotal := totalLen_relen hnodup (len := len) hs (len s - 1)
        rw [setLeafLen_leavesOf]
        obtain ⟨out, hout, hloop⟩ := ih (len := relen len s (len s - 1))
          (fun x hx => relen_induction (P := fun _ l => 1 ≤ l) (fun _ => Nat.le_sub_one_of_lt hlen) (hpos x hx))
          (fun x hx => relen_induction (P := fun _ l => l ≤ m) (fun _ => (Nat.sub_le ..).trans (hle s hs)) (hle x hx))
          (by omega)
        refine ⟨out, .step len out s hspace ⟨hs, hlen, hfits⟩ (fun x ⟨hx, hxlen, hxfits⟩ hne => ?_) hout, hloop⟩
        have hnot := hbest _ (List.mem_map_of_mem hx)
          (Bool.and_eq_true_iff.2 ⟨decide_eq_true hxlen, decide_eq_true hxfits⟩)
        simp only [shortenFirst, Bool.or_eq_false_iff, Bool.and_eq_false_iff, decide_eq_false_iff_not,
          beq_eq_false_iff_ne] at hnot
        omega

/-! ## What the two loops keep -/

theorem Lengthens.le (h : Lengthens m used freq len out) (hle : ∀ s ∈ used, len s ≤ m) : ∀ s ∈ used, out s ≤ m := by
  induction h with
  | stop len _ => exact hle
  | step len out s _ _ hlt _ _ ih =>
    exact ih fun x hx => relen_induction (P := fun _ l => l ≤ m) (fun _ => hlt) (hle x hx)

theorem Lengthens.ge (h : Lengthens m used freq len out) (s : Nat) : len s ≤ out s := by
  induction h with
  | stop len _ => exact Nat.le_refl _
  | step len out x _ _ _ _ _ ih =>
    exact (relen_induction (P := fun y l => len y ≤ l) (fun h => h ▸ Nat.le_succ _) (Nat.le_refl _)).trans ih

theorem Lengthens.space_le (h : Lengthens m used freq len out) : spaceUsed m used out ≤ 2 ^ m := by
  induction h with
  | stop _ h => exact h
  | step _ _ _ _ _ _ _ _ ih => exact ih

theorem Lengthens.eq_of_space_le (h : Lengthens m used freq len out) (hspace : spaceUsed m used len ≤ 2 ^ m) :
    out = len := by
  cases h with
  | stop _ _ => rfl
  | step _ _ s hover => exact absurd hspace (Nat.not_le.2 hover)

theorem Shortens.le (h : Shortens m used freq len out) (s : Nat) : out s ≤ len s := by
  induction h with
  | stop len _ => exact Nat.le_refl _
  | step len out x _ _ _ _ ih =>
    exact ih.trans (relen_induction (P := fun y l => l ≤ len y) (fun h => h ▸ Nat.sub_le ..) (Nat.le_refl _))

theorem Shortens.pos (h : Shortens m used freq len out) {s : Nat} (hpos : 1 ≤ len s) : 1 ≤ out s := by
  induction h with
  | stop len _ => exact hpos
  | step len out x _ hmay _ _ ih =>
    exact ih (relen_induction (P := fun _ l => 1 ≤ l) (fun _ => Nat.le_sub_one_of_lt hmay.2.1) hpos)

include hnodup in
/-- K never passes FULL, and the loop ends only where it has reached it. -/
theorem Shortens.space_eq (h : Shortens m used freq len out) (hspace : spaceUsed m used len ≤ 2 ^ m) :
    spaceUsed m used out = 2 ^ m := by
  induction h with
  | stop _ hfull => exact Nat.le_antisymm hspace hfull
  | step len out s _ hmay _ _ ih =>
    obtain ⟨hs, -, hfits⟩ := hmay
    have := spaceUsed_shorten_le hnodup (m := m) (len := len) hs
    exact ih (by omega)

theorem Shortens.eq_of_le_space (h : Shortens m used freq len out) (hspace : 2 ^ m ≤ spaceUsed m used len) :
    out = len := by
  cases h with
  | stop _ _ => rfl
  | step _ _ s hbelow => exact absurd hspace (Nat.not_le.2 hbelow)

end

/-! ## HE_BUILD (R225, R226, R230) -/

/-- The used symbols of an alphabet, ascending (R225). -/
def usedSyms (nb : Nat) (freq : Nat → Nat) : List Nat := (List.range nb).filter fun sym => freq sym ≠ 0

theorem usedSyms_nodup (nb : Nat) (freq : Nat → Nat) : (usedSyms nb freq).Nodup := List.nodup_range.filter _

theorem lt_of_mem_usedSyms {nb sym : Nat} {freq : Nat → Nat} (h : sym ∈ usedSyms nb freq) : sym < nb :=
  List.mem_range.1 (List.mem_of_mem_filter h)

theorem usedSymbols_eq (nb : Nat) (freq : List Nat) :
    usedSymbols nb freq = (usedSyms nb (freq.getD · 0)).map fun s => (s, freq.getD s 0) := by
  rw [usedSymbols, List.filter_map, usedSyms]
  simp [Function.comp_def, Nat.pos_iff_ne_zero]

/-- What R227 to R229 give the used symbols: their depths in the merge, cut to M, then lengthened and shortened. -/
def Limits (nb m : Nat) (used : List Nat) (freq : Nat → Nat) (tree : MergeTree) (depth lengthened final : Nat → Nat) :
    Prop :=
  Merges nb 0 (leafTrees used freq) tree ∧ (∀ sym ∈ used, (sym, depth sym) ∈ tree.depths) ∧
    Lengthens m used freq (fun sym => min (depth sym) m) lengthened ∧ Shortens m used freq lengthened final

section

variable {nb m : Nat} {used : List Nat} {freq : Nat → Nat} {tree : MergeTree} {depth lengthened final : Nat → Nat}

theorem huffmanDepths_eq (hne : used ≠ []) (hnodup : used.Nodup) (hbelow : ∀ sym ∈ used, sym < nb) :
    ∃ tree, Merges nb 0 (leafTrees used freq) tree ∧
      huffmanDepths nb (used.map fun s => (s, freq s)) = leavesOf used freq tree.depthOf := by
  obtain ⟨tree, hmerges, hdepths⟩ := mergeAll_leafTrees (freq := freq) hne hnodup hbelow
  have hnodes : (used.map fun s => (s, freq s)).map (fun u => (⟨u.2, u.1, [(u.1, 0)]⟩ : MergeNode)) =
      (leafTrees used freq).map MergeTree.toNode := by
    rw [leafTrees, List.map_map, List.map_map]
    rfl
  refine ⟨tree, hmerges, ?_⟩
  rw [huffmanDepths, hnodes, List.length_map, hdepths, List.map_map]
  rfl

theorem Merges.depth_pos (hmerges : Merges nb 0 (leafTrees used freq) tree) (htwo : 2 ≤ used.length) :
    ∀ d ∈ tree.depths, 1 ≤ d.2 :=
  MergeTree.depth_pos (by simpa using htwo.trans_eq hmerges.symbols_leafTrees.length_eq.symm)

/-- The leaves HE_BUILD limits have the lengths of R227 to R229: the rounds it allows suffice for both loops. -/
theorem limitedLeaves_limits (hm : 1 ≤ m) (hnodup : used.Nodup) (hbelow : ∀ sym ∈ used, sym < nb)
    (htwo : 2 ≤ used.length) (hcard : used.length ≤ 2 ^ m) :
    ∃ (tree : MergeTree) (depth lengthened final : Nat → Nat), Limits nb m used freq tree depth lengthened final ∧
      limitedLeaves nb m (used.map fun s => (s, freq s)) = leavesOf used freq final := by
  have hne : used ≠ [] := by
    rintro rfl
    exact absurd htwo (by decide)
  obtain ⟨tree, hmerges, hdepths⟩ := huffmanDepths_eq (freq := freq) hne hnodup hbelow
  have hclamped : (leavesOf used freq tree.depthOf).map (fun x => { x with len := min x.len m }) =
      leavesOf used freq fun sym => min (tree.depthOf sym) m := by
    rw [leavesOf, List.map_map]
    rfl
  have hpos : ∀ sym ∈ used, 1 ≤ min (tree.depthOf sym) m := fun sym hsym =>
    Nat.le_min.2 ⟨hmerges.depth_pos htwo _ (hmerges.mem_depthOf sym hsym), hm⟩
  have hle : ∀ sym ∈ used, min (tree.depthOf sym) m ≤ m := fun _ _ => Nat.min_le_right ..
  have htotal := le_totalLen hpos
  obtain ⟨lengthened, hlengthens, hloop1⟩ := lengthenLoop_lengthens (freq := freq) hnodup hcard (used.length * m) hle
    (by omega)
  obtain ⟨final, hshortens, hloop2⟩ := shortenLoop_shortens (freq := freq) hnodup htwo (used.length * m)
    (fun sym hsym => (hpos sym hsym).trans (hlengthens.ge sym)) (hlengthens.le hle) (totalLen_le (hlengthens.le hle))
  refine ⟨tree, tree.depthOf, lengthened, final, ⟨hmerges, hmerges.mem_depthOf, hlengthens, hshortens⟩, ?_⟩
  rw [limitedLeaves, hdepths, hclamped, List.length_map, hloop1, hloop2]

theorem Limits.pos (h : Limits nb m used freq tree depth lengthened final) (hm : 1 ≤ m) (htwo : 2 ≤ used.length) :
    ∀ sym ∈ used, 1 ≤ final sym := by
  obtain ⟨hmerges, hdepth, hlengthens, hshortens⟩ := h
  exact fun sym hsym => hshortens.pos
    ((Nat.le_min.2 ⟨hmerges.depth_pos htwo _ (hdepth sym hsym), hm⟩).trans (hlengthens.ge sym))

theorem Limits.le (h : Limits nb m used freq tree depth lengthened final) : ∀ sym ∈ used, final sym ≤ m := by
  obtain ⟨-, -, hlengthens, hshortens⟩ := h
  exact fun sym hsym => (hshortens.le sym).trans (hlengthens.le (fun _ _ => Nat.min_le_right ..) sym hsym)

theorem Limits.space_eq (h : Limits nb m used freq tree depth lengthened final) (hnodup : used.Nodup) :
    spaceUsed m used final = 2 ^ m := by
  obtain ⟨-, -, hlengthens, hshortens⟩ := h
  exact hshortens.space_eq hnodup hlengthens.space_le

theorem spaceUsed_congr {len len' : Nat → Nat} (h : ∀ s ∈ used, len s = len' s) :
    spaceUsed m used len = spaceUsed m used len' :=
  congrArg List.sum (List.map_congr_left fun s hs => by rw [h s hs])

/-- Depths within the limit make a complete code already, so neither loop runs (R229). -/
theorem Limits.eq_depth (h : Limits nb m used freq tree depth lengthened final) (hnodup : used.Nodup)
    (hwithin : ∀ sym ∈ used, depth sym ≤ m) : ∀ sym ∈ used, final sym = depth sym := by
  obtain ⟨hmerges, hdepth, hlengthens, hshortens⟩ := h
  have hperm := hmerges.depths_perm hnodup hdepth
  have htree : ∀ d ∈ tree.depths, d.2 ≤ m := by
    intro d hd
    obtain ⟨sym, hsym, rfl⟩ := List.mem_map.1 (hperm.mem_iff.1 hd)
    exact hwithin sym hsym
  have hspace : spaceUsed m used (fun sym => min (depth sym) m) = 2 ^ m := by
    rw [spaceUsed_congr fun sym hsym => Nat.min_eq_left (hwithin sym hsym), ← tree.sum_depths htree,
      (hperm.map fun d => 2 ^ (m - d.2)).sum_eq, List.map_map]
    rfl
  intro sym hsym
  have hlengthened := hlengthens.eq_of_space_le hspace.le
  subst hlengthened
  rw [hshortens.eq_of_le_space hspace.ge]
  exact Nat.min_eq_left (hwithin sym hsym)

end

/-! ### The table of lengths -/

theorem lookup_map_self (syms : List Nat) (f : Nat → Nat) (sym : Nat) :
    (syms.map fun s => (s, f s)).lookup sym = if sym ∈ syms then some (f sym) else none := by
  induction syms with
  | nil => rfl
  | cons x syms ih =>
    rw [List.map_cons, List.lookup_cons, ih]
    by_cases h : sym = x
    · simp [h]
    · simp [h, beq_false_of_ne h]

/-- The table holds the lengths of the symbols that have one, and 0 for the others. -/
theorem builtLens_getD {a : Alphabet} {m : Nat} {pairs : List (Nat × Nat)} {syms : List Nat} {f : Nat → Nat}
    (hpairs : codeLengths a.usable m pairs = syms.map fun s => (s, f s)) (hsyms : ∀ s ∈ syms, s < a.size) (sym : Nat) :
    (builtLens a m pairs).getD sym 0 = if sym ∈ syms then BitVec.ofNat 4 (f sym) else 0 := by
  rw [builtLens, hpairs, lengthTable, List.map_map]
  by_cases hsym : sym < a.size
  · rw [List.getD_eq_getElem _ _ (by simpa using hsym), List.getElem_map, List.getElem_range, Function.comp_apply,
      lookup_map_self]
    split <;> rfl
  · rw [List.getD_eq_default _ _ (by simpa using hsym), if_neg fun hmem => hsym (hsyms sym hmem)]

theorem codeLengths_nil (nb m : Nat) : codeLengths nb m [] = [0, 1].map fun s => (s, 1) := rfl

theorem codeLengths_singleton (nb m : Nat) (u : Nat × Nat) :
    codeLengths nb m [u] = [u.1, if u.1 = 0 then 1 else 0].map fun s => (s, 1) := rfl

theorem codeLengths_of_two_le {nb m : Nat} {pairs : List (Nat × Nat)} (h : 2 ≤ pairs.length) :
    codeLengths nb m pairs = (limitedLeaves nb m pairs).map fun x => (x.sym, x.len) := by
  match pairs, h with
  | _ :: _ :: _, _ => rfl

theorem one_lt_size (a : Alphabet) : 1 < a.size := by
  cases a <;> decide

/-- No symbol used: the symbols 0 and 1 get one bit (R226). -/
theorem builtLens_nil (a : Alphabet) (m sym : Nat) :
    (builtLens a m []).getD sym 0 = if sym = 0 ∨ sym = 1 then 1 else 0 := by
  have hsize := one_lt_size a
  rw [builtLens_getD (codeLengths_nil ..) (by simp; omega)]
  simp

/-- One symbol used: it and one other get one bit (R226). -/
theorem builtLens_singleton {a : Alphabet} (m : Nat) {u : Nat × Nat} (hu : u.1 < a.size) (sym : Nat) :
    (builtLens a m [u]).getD sym 0 = if sym = u.1 ∨ sym = (if u.1 = 0 then 1 else 0) then 1 else 0 := by
  have hsize := one_lt_size a
  have hother : (if u.1 = 0 then 1 else 0) < a.size := by split <;> omega
  rw [builtLens_getD (codeLengths_singleton ..) (List.forall_mem_cons.2 ⟨hu, List.forall_mem_singleton.2 hother⟩)]
  simp

theorem maxLen_le (a : Alphabet) : a.maxLen ≤ 15 := by
  cases a <;> decide

/-- Two symbols used or more: they have the lengths of R227 to R229, the others none. -/
theorem builtLens_limits {a : Alphabet} {m : Nat} {used : List Nat} {freq : Nat → Nat} (hm : 1 ≤ m) (hmax : m ≤ 15)
    (hnodup : used.Nodup) (hbelow : ∀ sym ∈ used, sym < a.usable) (htwo : 2 ≤ used.length)
    (hcard : used.length ≤ 2 ^ m) :
    let lens := builtLens a m (used.map fun s => (s, freq s))
    (∀ sym, lens.getD sym 0 ≠ 0 ↔ sym ∈ used) ∧
      ∃ (tree : MergeTree) (depth lengthened final : Nat → Nat),
        Limits a.usable m used freq tree depth lengthened final ∧
        ∀ sym ∈ used, (lens.getD sym 0).toNat = final sym := by
  obtain ⟨tree, depth, lengthened, final, hlimits, hleaves⟩ :=
    limitedLeaves_limits (freq := freq) hm hnodup hbelow htwo hcard
  have hpairs : codeLengths a.usable m (used.map fun s => (s, freq s)) = used.map fun s => (s, final s) := by
    rw [codeLengths_of_two_le (by simpa using htwo), hleaves, leavesOf, List.map_map]
    rfl
  have hgetD := builtLens_getD hpairs fun s hs => (hbelow s hs).trans_le (usable_le_size a)
  have hfinal : ∀ sym ∈ used, ((builtLens a m (used.map fun s => (s, freq s))).getD sym 0).toNat = final sym := by
    intro sym hsym
    rw [hgetD, if_pos hsym, toNat_ofNat_of_lt (Nat.lt_succ_of_le ((hlimits.le sym hsym).trans hmax))]
  refine ⟨fun sym => ⟨fun hne => ?_, fun hsym h0 => ?_⟩, tree, depth, lengthened, final, hlimits, hfinal⟩
  · by_contra hsym
    exact hne (by rw [hgetD, if_neg hsym])
  · have hpos := hlimits.pos hm htwo sym hsym
    rw [← hfinal sym hsym, h0] at hpos
    exact absurd hpos (by decide)

/-! ### The command -/

theorem exec_heBuild_of_legal {s : State} (hs : s.running) {t : BitVec 2} {ln : BitVec 4} {a : Alphabet}
    (ht : Alphabet.ofField t = some a) (hlo : 1 ≤ ln.toNat) (hhi : ln.toNat ≤ a.maxLen) :
    let used := usedSyms a.usable (s.enc a).freqOf
    exec (.heBuild t ln) s = s.require (used.length ≤ 2 ^ ln.toNat)
      (s.setEnc a ((s.enc a).withLens
        (builtLens a ln.toNat (used.map fun sym => (sym, (s.enc a).freqOf sym))))).ok := by
  have hfreq : (fun sym => ((s.enc a).freq.map BitVec.toNat).getD sym 0) = (s.enc a).freqOf :=
    funext fun sym => List.getD_map (s.enc a).freq 0 BitVec.toNat
  have hrange : (decide (1 ≤ ln.toNat) && decide (ln.toNat ≤ a.maxLen)) = true :=
    Bool.and_eq_true_iff.2 ⟨decide_eq_true hlo, decide_eq_true hhi⟩
  refine ((State.checks_of_alphabet hs ht _).trans (State.inRange_of_true hrange _)).trans ?_
  dsimp only
  rw [usedSymbols_eq, List.length_map, hfreq]
  simp only [show ∀ sym, ((s.enc a).freq.map BitVec.toNat).getD sym 0 = (s.enc a).freqOf sym from congrFun hfreq]

/-- Settles O31: the lengths are `builtLens`, in each of the three cases of R226; the codes are canonical as in every
table in order (`EncTable.Ok.withLens`). -/
theorem heBuildGivesTheUsedSymbolsCodes : Obligations.HeBuildGivesTheUsedSymbolsCodes := by
  intro s t ln a hs htables ht hlo hhi freq used
  have hused : ∀ sym ∈ used, sym < a.usable := fun _ => lt_of_mem_usedSyms
  have hnodup : used.Nodup := usedSyms_nodup ..
  rw [exec_heBuild_of_legal hs ht hlo hhi]
  refine ⟨fun hcard => ?built, fun hmany => State.require_of_not (mt of_decide_eq_true (Nat.not_le.2 hmany)) _⟩
  have hlen := builtLens_length a ln.toNat (used.map fun sym => (sym, freq sym))
  have hle := builtLens_le (a := a) hlo (used.map fun sym => (sym, freq sym))
  obtain ⟨-, -, hcode, -, hcanon⟩ :=
    (State.enc_ok htables a).withLens hlen fun l hl => (hle l hl).trans hhi
  refine ⟨builtLens a ln.toNat (used.map fun sym => (sym, freq sym)), _,
    State.require_of_true (decide_eq_true hcard) _, hlen, hcode, hle, fun sym hsym hne => ?canonical,
    fun h0 sym => ?none, fun u h1 sym => ?one, fun htwo => ?more⟩
  case canonical => exact hcanon rfl sym hsym fun h => hne (BitVec.eq_of_toNat_eq h)
  case none =>
    rw [h0]
    exact builtLens_nil ..
  case one =>
    have hu : u < a.size := (hused u (h1 ▸ List.mem_singleton_self u)).trans_le (usable_le_size a)
    rw [h1]
    exact builtLens_singleton (u := (u, freq u)) _ hu sym
  case more =>
    obtain ⟨hcoded, tree, depth, lengthened, final, hlimits, hfinal⟩ :=
      builtLens_limits (freq := freq) hlo (hhi.trans (maxLen_le a)) hnodup hused htwo hcard
    obtain ⟨hmerges, hdepth, hlengthens, hshortens⟩ := id hlimits
    exact ⟨hcoded, tree, depth, lengthened, final, hmerges, hdepth, hlengthens, hshortens, hfinal,
      fun hwithin sym hsym => (hfinal sym hsym).trans (hlimits.eq_depth hnodup hwithin sym hsym)⟩

/-! ## The codes of HE_BUILD are complete (R242) -/

/-- The lengths of a table that are not 0 are those of its coded symbols. -/
theorem coded_lens_perm {lens : List (BitVec 4)} {syms : List Nat} (hnodup : syms.Nodup)
    (hcoded : ∀ sym, lens.getD sym 0 ≠ 0 ↔ sym ∈ syms) :
    ((lens.map BitVec.toNat).filter (· ≠ 0)).Perm (syms.map fun sym => (lens.getD sym 0).toNat) := by
  have hself : lens.map BitVec.toNat = (List.range lens.length).map fun sym => (lens.getD sym 0).toNat := by
    refine List.ext_getElem (by simp) fun sym h _ => ?_
    rw [List.getElem_map, List.getElem_map, List.getElem_range, List.getD_eq_getElem _ _ (by simpa using h)]
  rw [hself, List.filter_map]
  refine .map _ ((List.perm_ext_iff_of_nodup (List.nodup_range.filter _) hnodup).2 fun sym => ?_)
  have hzero : (lens.getD sym 0).toNat ≠ 0 ↔ lens.getD sym 0 ≠ 0 :=
    not_congr ⟨fun h => BitVec.eq_of_toNat_eq h, fun h => congrArg BitVec.toNat h⟩
  rw [List.mem_filter, List.mem_range, Function.comp_apply, decide_eq_true_eq, hzero, hcoded, and_iff_right_iff_imp]
  intro hsym
  by_contra hout
  exact (hcoded sym).2 hsym (List.getD_eq_default _ _ (Nat.not_lt.1 hout))

/-- A code of two symbols or more that takes all there is. -/
def CompleteOn (lens : List (BitVec 4)) (syms : List Nat) : Prop :=
  syms.Nodup ∧ 2 ≤ syms.length ∧ (∀ sym, lens.getD sym 0 ≠ 0 ↔ sym ∈ syms) ∧
    spaceUsed 15 syms (fun sym => (lens.getD sym 0).toNat) = 2 ^ 15

theorem CompleteOn.kraftTotal_eq {lens : List (BitVec 4)} {syms : List Nat} (h : CompleteOn lens syms) :
    kraftTotal (lens.map BitVec.toNat) = 2 ^ 15 ∧ 2 ≤ ((lens.map BitVec.toNat).filter (· ≠ 0)).length := by
  obtain ⟨hnodup, htwo, hcoded, hspace⟩ := h
  have hperm := coded_lens_perm hnodup hcoded
  constructor
  · rw [kraftTotal, (hperm.map _).sum_eq, List.map_map]
    exact hspace
  · rw [hperm.length_eq, List.length_map]
    exact htwo

/-- Two symbols of one bit each. -/
theorem CompleteOn.pair {lens : List (BitVec 4)} {x y : Nat} (hne : x ≠ y)
    (h : ∀ sym, lens.getD sym 0 = if sym = x ∨ sym = y then 1 else 0) : CompleteOn lens [x, y] := by
  refine ⟨by simpa using hne, Nat.le_refl _, fun sym => ?_, ?_⟩
  · rw [h]
    split <;> simp_all
  · rw [spaceUsed, List.map_cons, List.map_cons, h, h, if_pos (.inl rfl), if_pos (.inr rfl)]
    simp

/-- A bound on the lengths that is reached exactly stays so when the codes are counted in longer ones. -/
theorem spaceUsed_mul_pow {m n : Nat} {used : List Nat} {len : Nat → Nat} (hle : ∀ s ∈ used, len s ≤ m) (hm : m ≤ n) :
    spaceUsed n used len = 2 ^ (n - m) * spaceUsed m used len := by
  rw [spaceUsed, spaceUsed, ← List.sum_map_mul_left]
  refine congrArg List.sum (List.map_congr_left fun s hs => ?_)
  have := hle s hs
  rw [← Nat.pow_add]
  congr 1
  omega

theorem Limits.completeOn {nb m : Nat} {used : List Nat} {freq : Nat → Nat} {tree : MergeTree}
    {depth lengthened final : Nat → Nat} {lens : List (BitVec 4)}
    (h : Limits nb m used freq tree depth lengthened final) (hmax : m ≤ 15) (hnodup : used.Nodup)
    (htwo : 2 ≤ used.length) (hcoded : ∀ sym, lens.getD sym 0 ≠ 0 ↔ sym ∈ used)
    (hfinal : ∀ sym ∈ used, (lens.getD sym 0).toNat = final sym) : CompleteOn lens used := by
  refine ⟨hnodup, htwo, hcoded, ?_⟩
  rw [spaceUsed_congr hfinal, spaceUsed_mul_pow h.le hmax, h.space_eq hnodup, ← Nat.pow_add, Nat.sub_add_cancel hmax]

theorem nil_or_singleton_or_two_le (l : List Nat) : l = [] ∨ (∃ x, l = [x]) ∨ 2 ≤ l.length := by
  match l with
  | [] => exact .inl rfl
  | [x] => exact .inr (.inl ⟨x, rfl⟩)
  | _ :: _ :: _ => exact .inr (.inr (Nat.le_add_left ..))

/-- Settles O32: in each case of R226 the code is complete, with two used symbols or more because the loops end only
where K = FULL (`Limits.space_eq`). -/
theorem heBuildCodeIsComplete : Obligations.HeBuildCodeIsComplete := by
  intro s u t ln a hs htables ht hexec hok
  have hnot : exec (.heBuild t ln) s ≠ .next { s with status := 0xFE } := by
    rw [hexec]
    rintro ⟨⟩
    exact absurd (show (0xFE : BitVec 8) = 0 from hok) (by decide)
  obtain ⟨hlo, hhi⟩ : 1 ≤ ln.toNat ∧ ln.toNat ≤ a.maxLen := by
    by_contra hout
    refine hnot (outOfRangeFieldsReportStreamError (.heBuild t ln) s ?_)
    rw [Instr.wf, Instr.onAlphabet, ht]
    exact Bool.eq_false_iff.2 fun h => hout ((Bool.and_eq_true_iff.1 h).imp of_decide_eq_true of_decide_eq_true)
  obtain ⟨hbuilt, hmany⟩ := heBuildGivesTheUsedSymbolsCodes s t ln a hs htables ht hlo hhi
  obtain ⟨len, code, hnext, -, -, hle, -, hnone, hone, hmore⟩ := hbuilt (Nat.not_lt.1 fun h => hnot (hmany h))
  obtain rfl : u = _ := Host.Outcome.next.inj (hexec.symm.trans hnext)
  obtain ⟨syms, hcomplete⟩ : ∃ syms, CompleteOn len syms := by
    obtain h0 | ⟨x, h1⟩ | htwo := nil_or_singleton_or_two_le
      ((List.range a.usable).filter fun sym => (s.enc a).freqOf sym ≠ 0)
    · exact ⟨_, .pair (by decide) (hnone h0)⟩
    · exact ⟨_, .pair (by split <;> omega) (hone x h1)⟩
    · obtain ⟨hcoded, tree, depth, lengthened, final, hmerges, hdepth, hlengthens, hshortens, hfinal, -⟩ := hmore htwo
      have hlimits : Limits .. := ⟨hmerges, hdepth, hlengthens, hshortens⟩
      exact ⟨_, hlimits.completeOn (bitVec4_le ln) (usedSyms_nodup ..) htwo hcoded hfinal⟩
  have hlens : ∀ tab : EncTable, EncTable.lens (State.enc { s.setEnc a tab with status := 0 } a) = tab.lens := by
    intro tab
    cases a <;> rfl
  rw [hlens]
  obtain ⟨hkraft, htwo⟩ := hcomplete.kraftTotal_eq
  refine ⟨hkraft, htwo, fun l hl => ?_⟩
  obtain ⟨b, hb, rfl⟩ := List.mem_map.1 hl
  exact hle b hb

/-! ## Over-subscribed lengths (R232) -/

/-- What the codes of at most `l` bits take, counted in codes of `l` bits. -/
def codesTaken (lens : List Nat) (l : Nat) : Nat :=
  ((lens.filter fun k => k ≠ 0 ∧ k < l).map fun k => 2 ^ (l - k)).sum + if l = 0 then 0 else countLen lens l

theorem codesTaken_zero (lens : List Nat) : codesTaken lens 0 = 0 := by
  simp [codesTaken]

theorem codesTaken_succ (lens : List Nat) (l : Nat) :
    codesTaken lens (l + 1) = 2 * codesTaken lens l + countLen lens (l + 1) := by
  rw [codesTaken, shorterCodes_succ, if_neg (Nat.succ_ne_zero l), codesTaken]

/-- Lengthening the codes by `n` bits frees none of what they take. -/
theorem codesTaken_mul_pow_le (lens : List Nat) (l n : Nat) : codesTaken lens l * 2 ^ n ≤ codesTaken lens (l + n) := by
  induction n with
  | zero => simp
  | succ n ih =>
    rw [← Nat.add_assoc, codesTaken_succ, Nat.pow_succ, ← Nat.mul_assoc]
    omega

/-- The Kraft sum counts what all codes take in codes of 15 bits. -/
theorem codesTaken_fifteen {lens : List Nat} (h : ∀ l ∈ lens, l ≤ 15) : codesTaken lens 15 = kraftTotal lens := by
  have hdouble :
      ((lens.filter fun k => k ≠ 0 ∧ k < 15 + 1).map fun k => 2 ^ (15 + 1 - k)).sum = 2 * kraftTotal lens := by
    have hcoded : (lens.filter fun k => k ≠ 0 ∧ k < 15 + 1) = lens.filter (· ≠ 0) :=
      List.filter_congr fun k hk => by simp [Nat.lt_succ_of_le (h k hk)]
    rw [hcoded, kraftTotal, ← List.sum_map_mul_left]
    refine congrArg List.sum (List.map_congr_left fun k hk => ?_)
    rw [Nat.succ_sub (h k (List.mem_of_mem_filter hk)), Nat.pow_succ']
  exact Nat.eq_of_mul_eq_mul_left Nat.two_pos ((shorterCodes_succ lens 15).symm.trans hdouble)

/-- The loop of R261 fails exactly where the codes of some length take more than there is. -/
theorem kraftFrom_over_iff (lens : List Nat) (l n : Nat) (h : codesTaken lens l ≤ 2 ^ l) :
    kraftFrom lens (List.range' (l + 1) n) (2 ^ l - codesTaken lens l) = .over ↔
      2 ^ (l + n) < codesTaken lens (l + n) := by
  induction n generalizing l with
  | zero =>
    rw [List.range'_zero, kraftFrom, Nat.add_zero]
    split <;> simp [h]
  | succ n ih =>
    have hsucc := codesTaken_succ lens l
    have hpow : 2 ^ (l + 1) = 2 * 2 ^ l := by rw [Nat.pow_succ, Nat.mul_comm]
    rw [List.range'_succ, kraftFrom]
    split
    · have hmono := codesTaken_mul_pow_le lens (l + 1) n
      have hover : 2 ^ (l + 1) < codesTaken lens (l + 1) := by omega
      have := (Nat.mul_lt_mul_of_pos_right hover (Nat.two_pow_pos n)).trans_le hmono
      rw [← Nat.pow_add, Nat.add_right_comm] at this
      simpa [Nat.add_assoc, Nat.add_comm 1] using this
    · have hfree : 2 * (2 ^ l - codesTaken lens l) - countLen lens (l + 1) =
          2 ^ (l + 1) - codesTaken lens (l + 1) := by omega
      rw [hfree, ih (l + 1) (by omega), Nat.add_right_comm, Nat.add_assoc]

/-- Kraft(T, n) finds a table over-subscribed exactly where its Kraft sum exceeds 1. -/
theorem kraft_over_iff {lens : List Nat} (h : ∀ l ∈ lens, l ≤ 15) : kraft lens = .over ↔ 2 ^ 15 < kraftTotal lens := by
  have hloop := kraftFrom_over_iff lens 0 15 (by rw [codesTaken_zero]; decide)
  rw [codesTaken_zero] at hloop
  rw [kraft, ← codesTaken_fifteen h]
  exact hloop

/-! ## HE_CANON (R232) -/

theorem EncTable.lens_le (t : EncTable) : ∀ l ∈ t.lens, l ≤ 15 := by
  intro l hl
  obtain ⟨b, -, rfl⟩ := List.mem_map.1 hl
  exact bitVec4_le b

theorem EncTable.kraft_ne_over_iff (t : EncTable) : (kraft t.lens != .over) = true ↔ kraftTotal t.lens ≤ 2 ^ 15 := by
  rw [bne_iff_ne, Ne, kraft_over_iff t.lens_le, Nat.not_lt]

/-- The codes of the symbol's length and below include its own and all that stand before it. -/
theorem canonCode_lt_codesTaken {lens : List Nat} {sym : Nat} (hsym : sym < lens.length) (hne : lens.getD sym 0 ≠ 0) :
    canonCode lens sym < codesTaken lens (lens.getD sym 0) := by
  rw [canonCode, codesTaken, if_neg hne, Nat.add_lt_add_iff_left, countLen]
  have hsplit := List.count_append (a := lens.getD sym 0) (l₁ := lens.take sym) (l₂ := lens.drop sym)
  rw [List.take_append_drop] at hsplit
  have hown : 0 < (lens.drop sym).count (lens.getD sym 0) := by
    rw [List.drop_eq_getElem_cons hsym, List.getD_eq_getElem _ _ hsym, List.count_cons_self]
    exact Nat.succ_pos _
  omega

/-- Where the lengths are not over-subscribed every canonical code fits its entry. -/
theorem canonCode_lt {lens : List Nat} {sym : Nat} (hle : ∀ l ∈ lens, l ≤ 15) (hkraft : kraftTotal lens ≤ 2 ^ 15)
    (hsym : sym < lens.length) (hne : lens.getD sym 0 ≠ 0) : canonCode lens sym < 2 ^ 15 := by
  have hl : lens.getD sym 0 ≤ 15 := by
    rw [List.getD_eq_getElem _ _ hsym]
    exact hle _ (List.getElem_mem hsym)
  calc
    canonCode lens sym < codesTaken lens (lens.getD sym 0) := canonCode_lt_codesTaken hsym hne
    _ ≤ codesTaken lens (lens.getD sym 0) * 2 ^ (15 - lens.getD sym 0) := Nat.le_mul_of_pos_right _ (Nat.two_pow_pos _)
    _ ≤ codesTaken lens 15 := by
      have := codesTaken_mul_pow_le lens (lens.getD sym 0) (15 - lens.getD sym 0)
      rwa [Nat.add_sub_cancel' hl] at this
    _ = kraftTotal lens := codesTaken_fifteen hle
    _ ≤ 2 ^ 15 := hkraft

theorem exec_heCanon_of_alphabet {s : State} (hs : s.running) {t : BitVec 2} {a : Alphabet}
    (ht : Alphabet.ofField t = some a) :
    exec (.heCanon t) s = s.require (kraft (s.enc a).lens != .over) (s.setEnc a (s.enc a).withCanon).ok :=
  State.checks_of_alphabet hs ht _

/-- Settles O30: the Kraft test is the bound on the Kraft sum, under which no canonical code is cut (`canonCode_lt`). -/
theorem heCanonAssignsTheCanonicalCode : Obligations.HeCanonAssignsTheCanonicalCode := by
  intro s t hs htables
  refine ⟨?reserved, fun a ht => ⟨fun hkraft => ?assigned, fun hover => ?refused⟩⟩
  case reserved =>
    rintro rfl
    exact outOfRangeFieldsReportStreamError (.heCanon 3) s rfl
  all_goals rw [exec_heCanon_of_alphabet hs ht]
  case refused =>
    exact State.require_of_not (mt (EncTable.kraft_ne_over_iff _).1 (Nat.not_le.2 hover)) _
  case assigned =>
    obtain ⟨-, hlen, hcode, -, -⟩ := State.enc_ok htables a
    have hlens : (s.enc a).lens.length = a.size := by rw [EncTable.lens, List.length_map, hlen]
    have hold : (s.enc a).code.length = (s.enc a).lens.length := by rw [hcode, hlens]
    refine ⟨canon (s.enc a).lens (s.enc a).code, (canon_length hold).trans hlens, fun sym hsym hne => ?_, ?_⟩
    · rw [← EncTable.lens_getD] at hne
      rw [← hlens] at hsym
      rw [canon_getD hold (fun l hl => Nat.lt_succ_of_le (EncTable.lens_le _ l hl)) hsym hne,
        Nat.mod_eq_of_lt (canonCode_lt (EncTable.lens_le _) hkraft hsym hne)]
    · exact State.require_of_true ((EncTable.kraft_ne_over_iff _).2 hkraft) _

/-! ## HE_FIXED and HD_FIXED (R233, R264) -/

/-- Where every symbol has a length, no entry keeps the code that stood before. -/
theorem assignCodes_eq_of_ne_zero {lens : List Nat} (hne : ∀ l ∈ lens, l ≠ 0) {old old' : List (BitVec 15)}
    (hold : old.length = lens.length) (hold' : old'.length = lens.length) (next : List Nat) :
    assignCodes (lens.zip old) next = assignCodes (lens.zip old') next := by
  induction lens generalizing old old' next with
  | nil => rfl
  | cons l ls ih =>
    obtain ⟨c, cs, rfl⟩ := List.exists_cons_of_length_eq_add_one hold
    obtain ⟨c', cs', rfl⟩ := List.exists_cons_of_length_eq_add_one hold'
    obtain ⟨hl, hls⟩ := List.forall_mem_cons.1 hne
    rw [List.zip_cons_cons, List.zip_cons_cons, assignCodes, assignCodes, if_neg hl, if_neg hl,
      ih hls (Nat.succ_inj.1 hold) (Nat.succ_inj.1 hold')]

/-- Loading lengths that give every symbol a code makes the codes they make on an empty table. -/
theorem EncTable.withLens_code {size : Nat} {t : EncTable} {lens : List (BitVec 4)} (hcode : t.code.length = size)
    (hlen : lens.length = size) (hne : ∀ l ∈ lens.map BitVec.toNat, l ≠ 0) :
    (t.withLens lens).code = canon (lens.map BitVec.toNat) (List.replicate size 0) :=
  assignCodes_eq_of_ne_zero hne (by rw [hcode, List.length_map, hlen])
    (by rw [List.length_replicate, List.length_map, hlen]) _

theorem fixedLL_toNat : fixedLL.map BitVec.toNat =
    List.replicate 144 8 ++ List.replicate 112 9 ++ List.replicate 24 7 ++ List.replicate 8 8 := by
  simp only [fixedLL, List.map_append, List.map_replicate]
  rfl

theorem fixedDist_toNat : fixedDist.map BitVec.toNat = List.replicate 32 5 := List.map_replicate

theorem map_ofNat_toNat (lens : List (BitVec 4)) : (lens.map BitVec.toNat).map (BitVec.ofNat 4) = lens := by
  simp [Function.comp_def]

theorem fixedLL_canon : (canon (fixedLL.map BitVec.toNat) (List.replicate 288 0)).map BitVec.toNat =
    List.range' 0x30 144 ++ List.range' 0x190 112 ++ List.range' 0x00 24 ++ List.range' 0xC0 8 := by
  decide +kernel

theorem fixedDist_canon :
    (canon (fixedDist.map BitVec.toNat) (List.replicate 32 0)).map BitVec.toNat = List.range 32 := by
  decide +kernel

theorem fixed_lens_ne_zero :
    (∀ l ∈ fixedLL.map BitVec.toNat, l ≠ 0) ∧ ∀ l ∈ fixedDist.map BitVec.toNat, l ≠ 0 := by
  decide +kernel

/-- Loading a decoder table builds it over all the lengths, whatever it held before. -/
theorem DecTable.load_eq_builtTable (t : DecTable) (lens : List (BitVec 4)) :
    t.load lens = builtTable lens.length (lens.map BitVec.toNat) := by
  have hpadded : lens.map BitVec.toNat ++ List.replicate (lens.length - (lens.map BitVec.toNat).length) 0 =
      lens.map BitVec.toNat := by simp
  have htake : (({ t with len := lens } : DecTable).lens lens.length) = lens.map BitVec.toNat := by
    simp [DecTable.lens]
  rw [builtTable, hpadded, map_ofNat_toNat, DecTable.load, DecTable.built, htake]
  rfl

/-- Settles O33: the fixed lengths give every symbol a code, so the codes are those they make on an empty table,
the four ranges of R233. -/
theorem fixedTablesAreLoaded : Obligations.FixedTablesAreLoaded := by
  intro s hs ⟨⟨_, _, hcodeLL, _, _⟩, ⟨_, _, hcodeDist, _, _⟩, _⟩
  obtain ⟨hlenLL, hlenDist⟩ := fixed_length
  obtain ⟨hneLL, hneDist⟩ := fixed_lens_ne_zero
  rw [← fixedLL_toNat, ← fixedDist_toNat]
  refine ⟨⟨(s.heLL.withLens fixedLL).code, (s.heDist.withLens fixedDist).code, ?encoder, ?codesLL, ?codesDist⟩,
    ?decoder⟩
  case encoder =>
    rw [map_ofNat_toNat, map_ofNat_toNat]
    exact State.unlessEnded_of_running hs _
  case codesLL => rw [EncTable.withLens_code hcodeLL hlenLL hneLL, fixedLL_canon]
  case codesDist => rw [EncTable.withLens_code hcodeDist hlenDist hneDist, fixedDist_canon]
  case decoder =>
    rw [← hlenLL, ← hlenDist, ← DecTable.load_eq_builtTable s.hdLL, ← DecTable.load_eq_builtTable s.hdDist]
    exact State.unlessEnded_of_running hs _

/-! ## HE_EMIT (R234) -/

theorem bitsLsb_length (n v : Nat) : (bitsLsb n v).length = n := by
  rw [bitsLsb, List.length_map, List.length_range]

theorem bitsMsb_length (n c : Nat) : (bitsMsb n c).length = n := by
  rw [bitsMsb, List.length_reverse, bitsLsb_length]

theorem bitsLsb_mod {n m : Nat} (h : n ≤ m) (v : Nat) : bitsLsb n (v % 2 ^ m) = bitsLsb n v := by
  refine List.map_congr_left fun i hi => ?_
  rw [Nat.testBit_mod_two_pow, decide_eq_true ((List.mem_range.1 hi).trans_le h), Bool.true_and]

theorem EncTable.lenOf_le {t : EncTable} (sym : Nat) : t.lenOf sym ≤ 15 := bitVec4_le _

theorem EncTable.hasCode_iff (t : EncTable) (sym : Nat) :
    t.hasCode sym = true ↔ t.valid = true ∧ t.lenOf sym ≠ 0 := by
  rw [EncTable.hasCode, Bool.and_eq_true_iff, bne_iff_ne]

theorem EncTable.canonBits_length (t : EncTable) (sym : Nat) : (canonBits t.lens sym).length = t.lenOf sym := by
  rw [canonBits, bitsMsb_length, EncTable.lens_getD]

/-- The code stored for a symbol of a valid table is its canonical code, sent in stream order. -/
theorem EncTable.Ok.codeBits_eq {size maxLen sym : Nat} {t : EncTable} (h : t.Ok size maxLen) (hv : t.valid = true)
    (hsym : sym < size) (hne : t.lenOf sym ≠ 0) : t.codeBits sym = canonBits t.lens sym := by
  obtain ⟨-, -, -, -, hcode⟩ := h
  rw [EncTable.codeBits, hcode hv sym hsym hne, canonBits, EncTable.lens_getD, bitsMsb, bitsMsb,
    bitsLsb_mod (EncTable.lenOf_le sym)]

theorem exec_heEmit_of_lt {s : State} (hs : s.running) {t : BitVec 2} {a : Alphabet} {sym : BitVec 9}
    (ht : Alphabet.ofField t = some a) (hsym : sym.toNat < a.size) :
    exec (.heEmit t sym) s =
      s.require ((s.enc a).hasCode sym.toNat) (s.sendBits ((s.enc a).codeBits sym.toNat)) :=
  (State.checks_of_alphabet hs ht _).trans (State.inRange_of_true (decide_eq_true hsym) _)

/-- Settles O34: a code the table has is the canonical one (`EncTable.Ok.codeBits_eq`), and its bits are sent or
held. -/
theorem heEmitSendsTheCode : Obligations.HeEmitSendsTheCode := by
  intro s t sym hs htables ⟨_, _, hobuf⟩
  refine ⟨fun h => ?refused, fun a ht hsym => ⟨fun h => ?noCode, fun hv hne hfull => ?held, fun hv hne hroom => ?sent⟩⟩
  case refused =>
    refine outOfRangeFieldsReportStreamError (.heEmit t sym) s ?_
    obtain rfl | ⟨rfl, h⟩ | ⟨rfl, h⟩ | ⟨rfl, h⟩ := h
    · rfl
    all_goals exact decide_eq_false (Nat.not_lt.2 h)
  all_goals
    rw [exec_heEmit_of_lt hs ht hsym]
    obtain ⟨hrefused, hheld, hsent⟩ := State.require_sendBits hobuf ((s.enc a).hasCode_iff sym.toNat)
      fun ⟨hv, hne⟩ => (State.enc_ok htables a).codeBits_eq hv hsym hne
    rw [EncTable.canonBits_length] at hheld hsent
  case noCode => exact hrefused fun ⟨hv, hne⟩ => h.elim (fun h => Bool.false_ne_true (h.symm.trans hv)) hne
  case held => exact hheld ⟨hv, hne⟩ hfull
  case sent => exact hsent ⟨hv, hne⟩ hroom

/-! ## HE_MATCH (R235, R236) -/

/-- In a table of ascending bases the codes up to `x` are exactly those whose base does not exceed `x`. -/
theorem lt_codesUpTo_iff {table : List (Nat × Nat)} (hasc : table.Pairwise fun a b => a.1 < b.1) {x c : Nat}
    (hc : c < table.length) : c < codesUpTo table x ↔ table[c].1 ≤ x := by
  induction table generalizing c with
  | nil => exact absurd hc (Nat.not_lt_zero c)
  | cons a table ih =>
    obtain ⟨hfirst, hasc⟩ := List.pairwise_cons.1 hasc
    by_cases ha : a.1 ≤ x
    · have hcons : codesUpTo (a :: table) x = codesUpTo table x + 1 := by
        rw [codesUpTo, List.takeWhile_cons_of_pos (by simpa using ha), List.length_cons, codesUpTo]
      rw [hcons]
      cases c with
      | zero => simpa using ha
      | succ c => simpa using ih hasc (Nat.lt_of_succ_lt_succ hc)
    · have hnone : codesUpTo (a :: table) x = 0 := by
        rw [codesUpTo, List.takeWhile_cons_of_neg (by simpa using ha), List.length_nil]
      have hbase : x < (a :: table)[c].1 := by
        obtain h | h := List.mem_cons.1 (List.getElem_mem hc)
        · rw [h]; omega
        · have := hfirst _ h; omega
      omega

/-- The code chosen for `x` in a table whose codes cover every number from its first base up to `limit`: the greatest
whose base does not exceed `x`, and the extra value fits its extra bits. -/
theorem codesUpTo_spec {table : List (Nat × Nat)} (hasc : table.Pairwise fun a b => a.1 < b.1) {limit x : Nat}
    (hfit : ∀ c < table.length,
      (table.getD (c + 1) (limit, 0)).1 ≤ (table.getD c (0, 0)).1 + 2 ^ (table.getD c (0, 0)).2)
    (hfirst : 0 < codesUpTo table x) (hx : x < limit) :
    let c := codesUpTo table x - 1
    c < table.length ∧ (table.getD c (0, 0)).1 ≤ x ∧
      (∀ d, c < d → d < table.length → x < (table.getD d (0, 0)).1) ∧
      x - (table.getD c (0, 0)).1 < 2 ^ (table.getD c (0, 0)).2 := by
  intro c
  have hle : codesUpTo table x ≤ table.length := (List.takeWhile_sublist _).length_le
  have hc : c < table.length := by omega
  have hbase : (table.getD c (0, 0)).1 ≤ x := by
    rw [List.getD_eq_getElem _ _ hc]
    exact (lt_codesUpTo_iff hasc hc).1 (by omega)
  have hnext : ∀ d (fallback : Nat × Nat), c < d → d < table.length → x < (table.getD d fallback).1 := by
    intro d fallback hcd hd
    rw [List.getD_eq_getElem _ _ hd]
    exact Nat.lt_of_not_le (mt (lt_codesUpTo_iff hasc hd).2 (by omega))
  refine ⟨hc, hbase, fun d => hnext d (0, 0), ?_⟩
  have hend : x < (table.getD (c + 1) (limit, 0)).1 := by
    obtain hin | hout := Nat.lt_or_ge (c + 1) table.length
    · exact hnext _ _ (Nat.lt_succ_self c) hin
    · rwa [List.getD_eq_default _ _ hout]
  have := hfit c hc
  omega

/-- The length code of R236: the codes of R235 cover the lengths 3 to 258, and 258 alone has the last one. -/
theorem lengthSym_spec {len : Nat} (hlo : 3 ≤ len) (hhi : len ≤ 258) :
    257 ≤ lengthSym len ∧ lengthSym len ≤ 285 ∧ lengthBase (lengthSym len) ≤ len ∧
      (∀ c, lengthSym len < c → c ≤ 285 → len < lengthBase c) ∧
      len - lengthBase (lengthSym len) < 2 ^ lengthExtra (lengthSym len) := by
  have hfirst : 0 < codesUpTo lengthCodes len := (lt_codesUpTo_iff (by decide) (by decide)).2 hlo
  obtain ⟨hc, hbase, hnext, hextra⟩ :=
    codesUpTo_spec (table := lengthCodes) (limit := 259) (by decide) (by decide) hfirst (Nat.lt_succ_of_le hhi)
  have hlength : lengthCodes.length = 29 := rfl
  rw [hlength] at hc hnext
  have hplace : lengthSym len - 257 = codesUpTo lengthCodes len - 1 := by rw [lengthSym]; omega
  rw [lengthBase, lengthExtra, hplace]
  unfold lengthSym
  exact ⟨by omega, by omega, hbase, fun c h1 h2 => hnext (c - 257) (by omega) (by omega), hextra⟩

/-- The distance code of R236: the codes of R235 cover the distances 1 to 32768. -/
theorem distSym_spec {dist : Nat} (hlo : 1 ≤ dist) (hhi : dist ≤ 32768) :
    distSym dist ≤ 29 ∧ distBase (distSym dist) ≤ dist ∧ (∀ c, distSym dist < c → c ≤ 29 → dist < distBase c) ∧
      dist - distBase (distSym dist) < 2 ^ distExtra (distSym dist) := by
  have hfirst : 0 < codesUpTo distCodes dist := (lt_codesUpTo_iff (by decide) (by decide)).2 hlo
  obtain ⟨hc, hbase, hnext, hextra⟩ :=
    codesUpTo_spec (table := distCodes) (limit := 32769) (by decide) (by decide) hfirst (Nat.lt_succ_of_le hhi)
  exact ⟨Nat.le_of_lt_succ hc, hbase, fun c h1 h2 => hnext c h1 (Nat.lt_succ_of_le h2), hextra⟩

theorem matchBits_eq {ll dist : EncTable} {len d : Nat}
    (hll : ll.codeBits (lengthSym len) = canonBits ll.lens (lengthSym len))
    (hdist : dist.codeBits (distSym d) = canonBits dist.lens (distSym d)) :
    matchBits ll dist len d = (Coded.backref (lengthSym len) (len - lengthBase (lengthSym len))
      (distSym d) (d - distBase (distSym d))).bits ll.lens dist.lens := by
  rw [matchBits, hll, hdist]
  rfl

theorem exec_heMatch_of_legal {s : State} (hs : s.running) {len9 : BitVec 9}
    (hlo : 3 ≤ len9.toNat) (hhi : len9.toNat ≤ 258) (dm1 : BitVec 15) :
    exec (.heMatch len9 dm1) s = s.require
      (s.heLL.hasCode (lengthSym len9.toNat) && s.heDist.hasCode (distSym (dm1.toNat + 1)))
      (s.sendBits (matchBits s.heLL s.heDist len9.toNat (dm1.toNat + 1))) :=
  (State.unlessEnded_of_running hs _).trans (State.inRange_of_true (lenOk_of_le hlo hhi) _)

/-- Settles O35: the symbols are `lengthSym` and `distSym`, and valid tables hold their canonical codes. -/
theorem heMatchSendsLengthAndDistance : Obligations.HeMatchSendsLengthAndDistance := by
  intro s len9 dm1 hs htables ⟨_, _, hobuf⟩
  refine ⟨fun h => ?refused, fun hlo hhi => ?legal⟩
  case refused =>
    refine outOfRangeFieldsReportStreamError (.heMatch len9 dm1) s (Bool.eq_false_iff.2 fun hwf => ?_)
    obtain ⟨hlo, hhi⟩ : 3 ≤ len9.toNat ∧ len9.toNat ≤ 258 :=
      (Bool.and_eq_true_iff.1 hwf).imp of_decide_eq_true of_decide_eq_true
    omega
  case legal =>
    have hlen := lengthSym_spec hlo hhi
    have hdist := distSym_spec (dist := dm1.toNat + 1) (Nat.succ_pos _) (Nat.succ_le_of_lt dm1.isLt)
    refine ⟨_, _, hlen, hdist, ?_⟩
    rw [exec_heMatch_of_legal hs hlo hhi]
    refine State.require_sendBits hobuf ?ready fun ⟨hvLL, hneLL, hvDist, hneDist⟩ => ?bits
    case ready => rw [Bool.and_eq_true_iff, EncTable.hasCode_iff, EncTable.hasCode_iff, and_assoc]
    case bits =>
      have hlc : lengthSym len9.toNat < 288 := Nat.lt_of_le_of_lt hlen.2.1 (by decide)
      have hdc : distSym (dm1.toNat + 1) < 32 := Nat.lt_of_le_of_lt hdist.1 (by decide)
      exact matchBits_eq ((State.enc_ok htables .ll).codeBits_eq hvLL hlc hneLL)
        ((State.enc_ok htables .dist).codeBits_eq hvDist hdc hneDist)

/-! ## The run-length items (R237, R238) -/

theorem rleGo_items (fuel : Nat) {seq : List Nat} (h : seq.length ≤ fuel) : RleItems seq (rleGo fuel seq) := by
  induction fuel generalizing seq with
  | zero =>
    rw [List.length_eq_zero_iff.1 (Nat.le_zero.1 h)]
    exact .nil
  | succ fuel ih =>
    cases seq with
    | nil => exact .nil
    | cons x xs =>
      obtain ⟨hsplit, hhead⟩ := runLength_spec x xs
      have hrest := ih (seq := xs.drop (runLength x xs))
        ((List.drop_sublist ..).length_le.trans (Nat.le_of_succ_le_succ h))
      have hseq : x :: xs = List.replicate (runLength x xs + 1) x ++ xs.drop (runLength x xs) := by
        rw [List.replicate_succ, List.cons_append, ← hsplit]
      rw [rleGo, rleRun]
      generalize xs.drop (runLength x xs) = rest at *
      rw [hseq]
      split
      · rename_i h0
        rw [h0] at hhead ⊢
        exact .zeros _ _ _ _ (Nat.succ_pos _) hhead (rleZeros_items _ _ (Nat.le_refl _)) hrest
      · rename_i h0
        exact .lengths x _ _ _ _ h0 hhead (rleRepeats_items x _ _ (Nat.le_succ _)) hrest

/-- Items sent one list after the other stand for their lengths one after the other. -/
theorem expandItems_append (acc : List Nat) (xs ys : List RleItem) :
    expandItems acc (xs ++ ys) = (expandItems acc xs).bind fun lens => expandItems lens ys := by
  induction xs generalizing acc with
  | nil => rfl
  | cons x xs ih =>
    rw [List.cons_append, expandItems, expandItems]
    split
    · exact ih _
    · split
      · cases acc.getLast? with
        | none => rfl
        | some l => exact ih _
      · split <;> exact ih _

theorem expandItems_length {sym : Nat} (h : sym < 16) (acc : List Nat) (items : List RleItem) :
    expandItems acc (⟨sym, 0, 0⟩ :: items) = expandItems (acc ++ [sym]) items := if_pos h

theorem expandItems_repeat {acc : List Nat} {l : Nat} (h : acc.getLast? = some l) (extra : Nat)
    (items : List RleItem) :
    expandItems acc (⟨16, extra, 2⟩ :: items) = expandItems (acc ++ List.replicate (3 + extra) l) items := by
  rw [expandItems, h]
  rfl

theorem expandItems_shortZeros (acc : List Nat) (extra : Nat) (items : List RleItem) :
    expandItems acc (⟨17, extra, 3⟩ :: items) = expandItems (acc ++ List.replicate (3 + extra) 0) items := rfl

theorem expandItems_longZeros (acc : List Nat) (extra : Nat) (items : List RleItem) :
    expandItems acc (⟨18, extra, 7⟩ :: items) = expandItems (acc ++ List.replicate (11 + extra) 0) items := rfl

theorem expandItems_singles {cur : Nat} (hcur : cur < 16) (acc : List Nat) (run : Nat) :
    expandItems acc (List.replicate run ⟨cur, 0, 0⟩) = some (acc ++ List.replicate run cur) := by
  induction run generalizing acc with
  | zero => simp [expandItems]
  | succ run ih =>
    rw [List.replicate_succ, expandItems_length hcur, ih, List.replicate_succ, ← List.append_cons]

theorem append_replicate_append_sub (acc : List Nat) {k run : Nat} (h : k ≤ run) (x : Nat) :
    acc ++ List.replicate k x ++ List.replicate (run - k) x = acc ++ List.replicate run x := by
  rw [List.append_assoc, List.replicate_append_replicate, Nat.add_sub_cancel' h]

theorem ZeroItems.expand {run : Nat} {items : List RleItem} (h : ZeroItems run items) (acc : List Nat) :
    expandItems acc items = some (acc ++ List.replicate run 0) := by
  induction h generalizing acc with
  | long run items hrun _ ih =>
    rw [expandItems_longZeros, ih, show 11 + (min run 138 - 11) = min run 138 by omega,
      append_replicate_append_sub _ (Nat.min_le_left ..)]
  | short run hlo hhi =>
    rw [expandItems_shortZeros, Nat.add_sub_cancel' hlo]
    rfl
  | single run h => exact expandItems_singles (by decide) acc run

theorem ZeroItems.legal {run : Nat} {items : List RleItem} (h : ZeroItems run items) : ∀ x ∈ items, x.legal := by
  induction h with
  | long run items hrun _ ih =>
    refine List.forall_mem_cons.2 ⟨.inr (.inr (.inr ⟨rfl, ?_, rfl⟩)), ih⟩
    show min run 138 - 11 < 128
    omega
  | short run hlo hhi =>
    refine List.forall_mem_singleton.2 (.inr (.inr (.inl ⟨rfl, ?_, rfl⟩)))
    show run - 3 < 8
    omega
  | single run h =>
    intro x hx
    rw [List.eq_of_mem_replicate hx]
    exact .inl ⟨by decide, rfl, rfl⟩

theorem RepeatItems.expand {cur run : Nat} {items : List RleItem} (h : RepeatItems cur run items) (hcur : cur < 16)
    {acc : List Nat} (hlast : acc.getLast? = some cur) :
    expandItems acc items = some (acc ++ List.replicate run cur) := by
  induction h generalizing acc with
  | long run items hrun _ ih =>
    have hlast' : (acc ++ List.replicate (min run 6) cur).getLast? = some cur := by
      rw [List.getLast?_append, List.getLast?_replicate, if_neg (by omega), Option.some_or]
    rw [expandItems_repeat hlast, show 3 + (min run 6 - 3) = min run 6 by omega, ih hlast',
      append_replicate_append_sub _ (Nat.min_le_left ..)]
  | single run h => exact expandItems_singles hcur acc run

theorem RepeatItems.legal {cur run : Nat} {items : List RleItem} (h : RepeatItems cur run items) (hcur : cur < 16) :
    ∀ x ∈ items, x.legal := by
  induction h with
  | long run items hrun _ ih =>
    refine List.forall_mem_cons.2 ⟨.inr (.inl ⟨rfl, ?_, rfl⟩), ih⟩
    show min run 6 - 3 < 4
    omega
  | single run h =>
    intro x hx
    rw [List.eq_of_mem_replicate hx]
    exact .inl ⟨hcur, rfl, rfl⟩

/-- The items of R238 stand for the sequence, run by run. -/
theorem RleItems.expand {seq : List Nat} {items : List RleItem} (h : RleItems seq items) (hseq : ∀ l ∈ seq, l ≤ 15)
    (acc : List Nat) : expandItems acc items = some (acc ++ seq) := by
  induction h generalizing acc with
  | nil => simp [expandItems]
  | zeros run rest items more _ _ hitems _ ih =>
    rw [expandItems_append, hitems.expand, Option.bind_some, ih (fun l hl => hseq l (List.mem_append_right _ hl)),
      List.append_assoc]
  | lengths cur run rest items more _ _ hitems _ ih =>
    have hcur : cur < 16 := Nat.lt_succ_of_le (hseq cur (by simp))
    rw [expandItems_append, expandItems_length hcur, hitems.expand hcur List.getLast?_concat, Option.bind_some,
      ih (fun l hl => hseq l (List.mem_append_right _ hl)), List.replicate_succ]
    simp

theorem RleItems.legal {seq : List Nat} {items : List RleItem} (h : RleItems seq items) (hseq : ∀ l ∈ seq, l ≤ 15) :
    ∀ x ∈ items, x.legal := by
  induction h with
  | nil => exact fun _ hx => absurd hx List.not_mem_nil
  | zeros run rest items more _ _ hitems _ ih =>
    exact List.forall_mem_append.2 ⟨hitems.legal, ih fun l hl => hseq l (List.mem_append_right _ hl)⟩
  | lengths cur run rest items more _ _ hitems _ ih =>
    have hcur : cur < 16 := Nat.lt_succ_of_le (hseq cur (by simp))
    exact List.forall_mem_append.2 ⟨List.forall_mem_cons.2 ⟨.inl ⟨hcur, rfl, rfl⟩, hitems.legal hcur⟩,
      ih fun l hl => hseq l (List.mem_append_right _ hl)⟩

theorem rle_items (seq : List Nat) : RleItems seq (rle seq) := rleGo_items _ (Nat.le_refl _)

/-- Settles O36: the coder makes the items of R238 (`rle_items`), which are legal and stand for the sequence. -/
theorem rleItemsExpandToTheLengths : Obligations.RleItemsExpandToTheLengths := by
  intro seq hseq
  exact ⟨(rle_items seq).expand hseq [], (rle_items seq).legal hseq, rle_items seq⟩

/-! ## HE_RLECOUNT (R239, R241) -/

theorem codedUpTo_le (lens : List Nat) (n : Nat) : codedUpTo lens n ≤ n := by
  induction n with
  | zero => exact Nat.le_refl _
  | succ n ih =>
    rw [codedUpTo]
    split <;> omega

/-- A table's coded part is found from its end: the last symbol of it has a length, and no symbol beyond it has. -/
theorem codedUpTo_spec (lens : List Nat) (n : Nat) :
    (codedUpTo lens n ≠ 0 → lens.getD (codedUpTo lens n - 1) 0 ≠ 0) ∧
      ∀ s, codedUpTo lens n ≤ s → s < n → lens.getD s 0 = 0 := by
  induction n with
  | zero => exact ⟨fun h => absurd rfl h, fun s _ hs => absurd hs (Nat.not_lt_zero s)⟩
  | succ n ih =>
    rw [codedUpTo]
    split
    · rename_i hne
      exact ⟨fun _ => hne, fun s h1 h2 => absurd h2 (Nat.not_lt.2 h1)⟩
    · rename_i h0
      refine ⟨ih.1, fun s h1 h2 => ?_⟩
      obtain hs | rfl := Nat.lt_succ_iff_lt_or_eq.1 h2
      · exact ih.2 s h1 hs
      · exact not_not.1 h0

/-- The part of a table that is sent, at least `lo` of `n` lengths (R240, R241). -/
theorem max_codedUpTo_spec (lens : List Nat) {lo n : Nat} (hlo : lo ≤ n) :
    lo ≤ max lo (codedUpTo lens n) ∧ max lo (codedUpTo lens n) ≤ n ∧
      (max lo (codedUpTo lens n) = lo ∨ lens.getD (max lo (codedUpTo lens n) - 1) 0 ≠ 0) ∧
      ∀ s, max lo (codedUpTo lens n) ≤ s → s < n → lens.getD s 0 = 0 := by
  obtain ⟨hlast, hbeyond⟩ := codedUpTo_spec lens n
  refine ⟨Nat.le_max_left .., Nat.max_le.2 ⟨hlo, codedUpTo_le lens n⟩, ?_,
    fun s h1 h2 => hbeyond s ((Nat.le_max_right ..).trans h1) h2⟩
  obtain hlt | hle := Nat.lt_or_ge lo (codedUpTo lens n)
  · rw [Nat.max_eq_right hlt.le]
    exact .inr (hlast (Nat.ne_zero_of_lt hlt))
  · exact .inl (Nat.max_eq_left hle)

theorem hlitOf_isHlit (lens : List Nat) : isHlit lens (hlitOf lens) := by
  obtain ⟨h1, h2, h3, h4⟩ := max_codedUpTo_spec lens (lo := 257) (n := 286) (by decide)
  exact ⟨h1, h2, h3, fun s hs hle => h4 s hs (Nat.lt_succ_of_le hle)⟩

theorem hdistOf_isHdist (lens : List Nat) : isHdist lens (hdistOf lens) := by
  obtain ⟨h1, h2, h3, h4⟩ := max_codedUpTo_spec lens (lo := 1) (n := 30) (by decide)
  exact ⟨h1, h2, h3, fun s hs hle => h4 s hs (Nat.lt_succ_of_le hle)⟩

/-- Settles O37: SEQ is that of `hlitOf` and `hdistOf`, which are HLIT and HDIST. -/
theorem heRlecountCountsTheItems : Obligations.HeRlecountCountsTheItems := by
  intro s hs
  refine ⟨_, _, (List.range 19).map fun m => BitVec.ofNat 32 (s.dynSeq.countP fun x : RleItem => x.sym == m),
    hlitOf_isHlit _, hdistOf_isHdist _, by simp, fun m hm => ?_, State.unlessEnded_of_running hs _⟩
  rw [List.getD_eq_getElem _ _ (by simpa using hm), List.getElem_map, List.getElem_range, List.count, List.countP_map]
  rfl

/-! ## HE_DYNHDR (R240) -/

theorem hclenOf_isHclen (lens : List Nat) : isHclen lens (hclenOf lens) := by
  have hplace : ∀ i < 19, (clOrder.map fun s => lens.getD s 0).getD i 0 = lens.getD (clOrder.getD i 0) 0 := by
    intro i hi
    rw [List.getD_eq_getElem clOrder _ hi, List.getD_eq_getElem _ _ (by rwa [List.length_map]), List.getElem_map]
    rfl
  obtain ⟨h1, h2, h3, h4⟩ := max_codedUpTo_spec (clOrder.map fun s => lens.getD s 0) (lo := 4) (n := 19) (by decide)
  refine ⟨h1, h2, h3.imp_right fun h => ?_, fun i hi hlt => (hplace i hlt).symm.trans (h4 i hi hlt)⟩
  rwa [hplace _ (by omega)] at h

theorem State.require_require (s : State) (a b : Bool) (k : Result) :
    s.require a (s.require b k) = s.require (a && b) k := by
  cases a <;> rfl

theorem exec_heDynhdr_of_running {s : State} (hs : s.running) :
    exec .heDynhdr s = s.require
      ((s.heCl.valid && s.heLL.lenOf 256 != 0) && s.dynSeq.all fun x => s.heCl.lenOf x.sym != 0)
      (s.sendBits (dynHeaderBits (hlitOf s.heLL.lens) (hdistOf s.heDist.lens) s.heCl s.dynSeq)) :=
  (State.unlessEnded_of_running hs _).trans (State.require_require ..)

/-- The header's items are legal, so their meta-symbols are within the table. -/
theorem State.dynSeq_sym_lt (s : State) : ∀ x ∈ s.dynSeq, x.sym < 19 := by
  have hrle : ∀ (t : EncTable) (n : Nat), ∀ x ∈ rle (t.lens.take n), x.sym < 19 := by
    intro t n x hx
    have hlegal := (rle_items _).legal (fun l hl => EncTable.lens_le t l (List.mem_of_mem_take hl)) x hx
    unfold RleItem.legal at hlegal
    omega
  exact List.forall_mem_append.2 ⟨hrle _ _, hrle _ _⟩

theorem dynHeaderBits_eq {hlit hdist : Nat} {cl : EncTable} {seq : List RleItem}
    (hseq : ∀ x ∈ seq, cl.codeBits x.sym = canonBits cl.lens x.sym) :
    dynHeaderBits hlit hdist cl seq = headerBits hlit hdist (hclenOf cl.lens) cl.lens seq := by
  have hitems : seq.flatMap (fun x => cl.codeBits x.sym ++ bitsLsb x.nbits x.extra) = itemBits cl.lens seq :=
    List.flatMap_congr fun x hx => by rw [hseq x hx]
  rw [dynHeaderBits, hitems, headerBits, headerStart, headerCounts]
  simp only [EncTable.lens_getD]

/-- Settles O38: every item's meta-symbol is within the table (`State.dynSeq_sym_lt`), so with T2 built its code is
the canonical one. -/
theorem heDynhdrSendsTheHeader : Obligations.HeDynhdrSendsTheHeader := by
  intro s hs htables ⟨_, _, hobuf⟩
  refine ⟨_, _, _, hlitOf_isHlit _, hdistOf_isHdist _, hclenOf_isHclen _, ?_⟩
  rw [exec_heDynhdr_of_running hs]
  refine State.require_sendBits hobuf ?ready fun ⟨hv, _, hcode⟩ => dynHeaderBits_eq fun x hx =>
    (State.enc_ok htables .cl).codeBits_eq hv (s.dynSeq_sym_lt x hx) (hcode x hx)
  case ready =>
    rw [Bool.and_eq_true_iff, Bool.and_eq_true_iff, and_assoc, bne_iff_ne, List.all_eq_true]
    simp only [bne_iff_ne]
    rfl

end Sys2Proof.Machine

/-! The family of 44_huffman_decoder.md. `Reads` says what a reader makes of given bits, whatever cursor stands before
them; readers compose as their bits do. A symbol's codeword is read back (`DecTable.Decodes.reads`), and where none
starts the input the reader holds or fails; the readers of tokens and headers are put together from it. That no other
input fails is a split of any input: `DecTable.Decodes.decodeSym_split`, `readLens_split`, `readDynHeader_split`. -/

namespace Sys2Proof.Machine

/-! ## The decode structure (R262) -/

/-- Only an entry of the list differs from the default. -/
theorem lt_length_of_getD_ne_zero {lens : List Nat} {sym : Nat} (h : lens.getD sym 0 ≠ 0) : sym < lens.length := by
  by_contra hge
  exact h (List.getD_eq_default _ _ (Nat.not_lt.1 hge))

theorem getD_le_of_forall_le {lens : List Nat} {n : Nat} (h : ∀ l ∈ lens, l ≤ n) (sym : Nat) : lens.getD sym 0 ≤ n := by
  rcases Nat.lt_or_ge sym lens.length with hsym | hsym
  · rw [List.getD_eq_getElem _ _ hsym]
    exact h _ (List.getElem_mem hsym)
  · rw [List.getD_eq_default _ _ hsym]
    exact Nat.zero_le n

theorem symsOfLen_eq_filter (lens : List Nat) (l : Nat) :
    symsOfLen lens l = (List.range lens.length).filter fun sym => lens.getD sym 0 == l := by
  have hzip : lens.zipIdx = (List.range lens.length).map fun sym => (lens.getD sym 0, sym) := by
    refine List.ext_getElem (by simp) fun i hi _ => ?_
    rw [List.length_zipIdx] at hi
    simp [hi]
  rw [symsOfLen, hzip, List.filter_map, List.map_map]
  exact List.map_id _

theorem mem_symsOfLen {lens : List Nat} {l sym : Nat} :
    sym ∈ symsOfLen lens l ↔ sym < lens.length ∧ lens.getD sym 0 = l := by
  rw [symsOfLen_eq_filter, List.mem_filter, List.mem_range, beq_iff_eq]

theorem symsOfLen_pairwise (lens : List Nat) (l : Nat) : (symsOfLen lens l).Pairwise (· < ·) := by
  rw [symsOfLen_eq_filter]
  exact List.pairwise_lt_range.filter _

/-- The entries of length `l` before `n`, counted as symbols or as lengths. -/
theorem filter_range_length (lens : List Nat) (l : Nat) {n : Nat} (hn : n ≤ lens.length) :
    ((List.range n).filter fun sym => lens.getD sym 0 == l).length = (lens.take n).count l := by
  have htake : lens.take n = (List.range n).map fun sym => lens.getD sym 0 := by
    refine List.ext_getElem (by simpa using hn) fun i hi _ => ?_
    rw [List.length_take] at hi
    simp [List.getElem?_eq_getElem (show i < lens.length by omega)]
  rw [htake, List.count, List.countP_map, List.countP_eq_length_filter]
  rfl

theorem symsOfLen_length (lens : List Nat) (l : Nat) : (symsOfLen lens l).length = countLen lens l := by
  rw [symsOfLen_eq_filter, filter_range_length lens l (Nat.le_refl _), List.take_length, countLen]

/-- A symbol stands after the smaller symbols of its length. -/
theorem symsOfLen_getElem? {lens : List Nat} {sym : Nat} (hsym : sym < lens.length) :
    (symsOfLen lens (lens.getD sym 0))[(lens.take sym).count (lens.getD sym 0)]? = some sym := by
  have hsplit : List.range lens.length =
      List.range sym ++ sym :: (List.range (lens.length - (sym + 1))).map (sym + 1 + ·) := by
    rw [List.append_cons, ← List.range_succ, ← List.range_add, Nat.add_sub_cancel' hsym]
  rw [symsOfLen_eq_filter, hsplit, List.filter_append, List.filter_cons, if_pos (beq_self_eq_true _),
    ← filter_range_length lens _ hsym.le, List.getElem?_append_right (Nat.le_refl _), Nat.sub_self]
  rfl

/-- How many symbols have codes of at most `l` bits: the index of R266's loop. -/
def codedWithin (lens : List Nat) (l : Nat) : Nat := ((List.range' 1 l).flatMap (symsOfLen lens)).length

theorem codedWithin_succ (lens : List Nat) (l : Nat) :
    codedWithin lens (l + 1) = codedWithin lens l + countLen lens (l + 1) := by
  rw [codedWithin, List.range'_concat, List.flatMap_append, List.length_append, List.flatMap_singleton,
    symsOfLen_length, Nat.one_mul, Nat.add_comm 1, codedWithin]

/-- HD_SYM holds a symbol after the symbols of shorter codes and the smaller symbols of its length. -/
theorem sortedSyms_getD {lens : List Nat} {sym l : Nat} (hsym : lens.getD sym 0 = l + 1) (hl : l < 15) :
    (sortedSyms lens).getD (codedWithin lens l + (lens.take sym).count (l + 1)) 0 = sym := by
  have hlt : sym < lens.length := lt_length_of_getD_ne_zero (hsym ▸ Nat.succ_ne_zero l)
  have hsplit : List.range' 1 15 = List.range' 1 l ++ (l + 1) :: List.range' (l + 1 + 1) (14 - l) := by
    rw [← List.range'_succ, Nat.add_comm l 1, List.range'_append_1, show l + (14 - l + 1) = 15 by omega]
  have hown := symsOfLen_getElem? hlt
  rw [hsym] at hown
  rw [sortedSyms, hsplit, List.flatMap_append, List.flatMap_cons, List.getD_eq_getElem?_getD, codedWithin,
    List.getElem?_append_right (Nat.le_add_right ..), Nat.add_sub_cancel_left,
    List.getElem?_append_left (List.getElem?_eq_some_iff.1 hown).1, hown]
  rfl

theorem mem_sortedSyms {lens : List Nat} (h : ∀ l ∈ lens, l ≤ 15) {sym : Nat} :
    sym ∈ sortedSyms lens ↔ sym < lens.length ∧ lens.getD sym 0 ≠ 0 := by
  simp only [sortedSyms, List.mem_flatMap, mem_symsOfLen, List.mem_range'_1]
  constructor
  · rintro ⟨l, hl, hsym, rfl⟩
    exact ⟨hsym, by omega⟩
  · rintro ⟨hsym, hne⟩
    have := getD_le_of_forall_le h sym
    exact ⟨_, by omega, hsym, rfl⟩

theorem sortedSyms_pairwise (lens : List Nat) : (sortedSyms lens).Pairwise fun x y =>
    lens.getD x 0 < lens.getD y 0 ∨ (lens.getD x 0 = lens.getD y 0 ∧ x < y) := by
  have hlens : (List.range' 1 15).Pairwise (· < ·) := List.pairwise_lt_range'
  refine List.pairwise_flatMap.2 ⟨fun l _ => ?_, hlens.imp fun hlt x hx y hy => .inl ?_⟩
  · refine (symsOfLen_pairwise lens l).imp_of_mem fun hx hy hlt => .inr ⟨?_, hlt⟩
    rw [(mem_symsOfLen.1 hx).2, (mem_symsOfLen.1 hy).2]
  · rwa [(mem_symsOfLen.1 hx).2, (mem_symsOfLen.1 hy).2]

theorem lenCounts_getD (lens : List Nat) {l : Nat} (hl : l < 15) :
    (lenCounts lens).getD l 0 = countLen lens (l + 1) := by
  rw [lenCounts, List.getD_eq_getElem _ _ (by simpa using hl), List.getElem_map, List.getElem_range', Nat.one_mul,
    Nat.add_comm]

/-! ## HD_BUILD (R262) -/

theorem State.dec_ok {s : State} (h : s.TablesOk) (a : Alphabet) : (s.dec a).Ok a.size a.maxLen :=
  ((State.tablesOk_iff s).1 h a).2

theorem DecTable.lens_le (t : DecTable) (n : Nat) : ∀ l ∈ t.lens n, l ≤ 15 := by
  intro l hl
  obtain ⟨b, -, rfl⟩ := List.mem_map.1 hl
  exact bitVec4_le b

theorem DecTable.isOver_iff (t : DecTable) (n : Nat) : t.isOver n = true ↔ 2 ^ 15 < kraftTotal (t.lens n) := by
  rw [DecTable.isOver, beq_iff_eq, kraft_over_iff (t.lens_le n)]

theorem exec_hdBuild_of_legal {s : State} (hs : s.running) {t : BitVec 2} {n : BitVec 9} {a : Alphabet}
    (ht : Alphabet.ofField t = some a) (hlo : 1 ≤ n.toNat) (hhi : n.toNat ≤ a.size) :
    exec (.hdBuild t n) s =
      if (s.dec a).isOver n.toNat then (s.setDec a (s.dec a).invalid).dataError
      else (s.setDec a ((s.dec a).built n.toNat)).ok :=
  (State.checks_of_alphabet hs ht _).trans
    (State.inRange_of_true (Bool.and_eq_true_iff.2 ⟨decide_eq_true hlo, decide_eq_true hhi⟩) _)

/-- Settles O39: the Kraft test is the bound on the Kraft sum, HD_COUNT is `lenCounts` and HD_SYM `sortedSyms`; the
fields no alphabet or no count takes are refused by the rule for all commands. -/
theorem hdBuildBuildsTheDecodeStructure : Obligations.HdBuildBuildsTheDecodeStructure := by
  intro s t n hs htables
  refine ⟨fun h => ?refused, fun a ht hlo hhi => ⟨fun hkraft => ?built, fun hover => ?oversubscribed⟩⟩
  case refused =>
    refine outOfRangeFieldsReportStreamError (.hdBuild t n) s ?_
    rcases h with rfl | rfl | ⟨rfl, h⟩ | ⟨rfl, h⟩ | ⟨rfl, h⟩
    · rfl
    · cases ht : Alphabet.ofField t <;> simp [Instr.wf, Instr.onAlphabet, ht]
    all_goals exact Bool.and_eq_false_iff.2 (.inr (decide_eq_false (Nat.not_le.2 h)))
  all_goals rw [exec_hdBuild_of_legal hs ht hlo hhi]
  case oversubscribed =>
    rw [if_pos ((DecTable.isOver_iff ..).2 hover)]
    cases a <;> rfl
  case built =>
    obtain ⟨hsize, -, -⟩ := State.dec_ok htables a
    have hlen : ((s.dec a).lens n.toNat).length = n.toNat := by
      rw [DecTable.lens, List.length_map, List.length_take, hsize, Nat.min_eq_left hhi]
    refine ⟨lenCounts ((s.dec a).lens n.toNat), sortedSyms ((s.dec a).lens n.toNat), ?_, by simp [lenCounts],
      fun l h1 h15 => ?_, fun x => ?_, sortedSyms_pairwise _⟩
    · rw [if_neg (mt (DecTable.isOver_iff ..).1 (Nat.not_lt.2 hkraft))]
      rfl
    · rw [lenCounts_getD _ (by omega), Nat.sub_add_cancel h1]
      rfl
    · have hmem := mem_sortedSyms ((s.dec a).lens_le n.toNat) (sym := x)
      rwa [hlen] at hmem

/-! ## Canonical codes and their prefixes (R230, R261) -/

/-- The number whose bits are given, most significant first. -/
def valueMsb (bs : List Bool) : Nat := valueLsb bs.reverse

theorem valueMsb_append_singleton (bs : List Bool) (b : Bool) : valueMsb (bs ++ [b]) = 2 * valueMsb bs + b.toNat := by
  rw [valueMsb, List.reverse_append, List.reverse_singleton, List.singleton_append, valueLsb, Nat.add_comm, valueMsb]

theorem valueLsb_append (bs cs : List Bool) : valueLsb (bs ++ cs) = valueLsb bs + 2 ^ bs.length * valueLsb cs := by
  induction bs with
  | nil => simp [valueLsb]
  | cons b bs ih =>
    rw [List.cons_append, valueLsb, ih, valueLsb, List.length_cons, Nat.pow_succ]
    ring

/-- The beginning of a number's bits, most significant first, is the number without its low bits. -/
theorem valueMsb_append_div (bs cs : List Bool) : valueMsb (bs ++ cs) / 2 ^ cs.length = valueMsb bs := by
  have hlow : valueLsb cs.reverse < 2 ^ cs.length := List.length_reverse (as := cs) ▸ valueLsb_lt cs.reverse
  rw [valueMsb, List.reverse_append, valueLsb_append, List.length_reverse, Nat.add_mul_div_left _ _ (Nat.two_pow_pos _),
    Nat.div_eq_of_lt hlow, Nat.zero_add, valueMsb]

theorem bitsLsb_valueLsb (bs : List Bool) : bitsLsb bs.length (valueLsb bs) = bs := by
  refine List.ext_getElem (bitsLsb_length ..) fun i _ hi => ?_
  simp [bitsLsb, valueLsb_testBit, hi]

theorem valueLsb_bitsLsb {n v : Nat} (h : v < 2 ^ n) : valueLsb (bitsLsb n v) = v := by
  refine Nat.eq_of_testBit_eq fun i => ?_
  rw [valueLsb_testBit]
  rcases Nat.lt_or_ge i n with hi | hi
  · simp [bitsLsb, hi]
  · rw [List.getD_eq_default _ _ (by rwa [bitsLsb_length]),
      Nat.testBit_lt_two_pow (h.trans_le (Nat.pow_le_pow_right Nat.two_pos hi))]

theorem valueMsb_bitsMsb {n c : Nat} (h : c < 2 ^ n) : valueMsb (bitsMsb n c) = c := by
  rw [valueMsb, bitsMsb, List.reverse_reverse, valueLsb_bitsLsb h]

theorem bitsMsb_valueMsb (bs : List Bool) : bitsMsb bs.length (valueMsb bs) = bs := by
  rw [bitsMsb, valueMsb, ← List.length_reverse, bitsLsb_valueLsb, List.reverse_reverse]

/-- The code of a symbol of `l + 1` bits: the codes of at most `l` bits stand before it, and the smaller symbols of its
length. -/
theorem canonCode_eq {lens : List Nat} {sym l : Nat} (hsym : lens.getD sym 0 = l + 1) :
    canonCode lens sym = 2 * codesTaken lens l + (lens.take sym).count (l + 1) := by
  rw [canonCode, hsym, codesTaken, ← shorterCodes_succ]

/-- A table of lengths that gives a code R266 can read: no length beyond 15, and not over-subscribed. -/
structure PrefixCode (lens : List Nat) : Prop where
  le : ∀ l ∈ lens, l ≤ 15
  fits : kraftTotal lens ≤ 2 ^ 15

section

variable {lens : List Nat}

theorem canonBits_length (lens : List Nat) (sym : Nat) : (canonBits lens sym).length = lens.getD sym 0 :=
  bitsMsb_length ..

theorem PrefixCode.codesTaken_le (h : PrefixCode lens) {l : Nat} (hl : l ≤ 15) : codesTaken lens l ≤ 2 ^ l := by
  refine Nat.le_of_mul_le_mul_right ?_ (Nat.two_pow_pos (15 - l))
  calc
    codesTaken lens l * 2 ^ (15 - l) ≤ codesTaken lens (l + (15 - l)) := codesTaken_mul_pow_le ..
    _ = kraftTotal lens := by rw [Nat.add_sub_cancel' hl, codesTaken_fifteen h.le]
    _ ≤ 2 ^ 15 := h.fits
    _ = 2 ^ l * 2 ^ (15 - l) := by rw [← Nat.pow_add, Nat.add_sub_cancel' hl]

theorem PrefixCode.valueMsb_canonBits (h : PrefixCode lens) {sym : Nat} (hne : lens.getD sym 0 ≠ 0) :
    valueMsb (canonBits lens sym) = canonCode lens sym :=
  valueMsb_bitsMsb <| (canonCode_lt_codesTaken (lt_length_of_getD_ne_zero hne) hne).trans_le
    (h.codesTaken_le (getD_le_of_forall_le h.le sym))

/-- The beginning of a codeword stands beyond the codewords of its length and below. -/
theorem PrefixCode.le_valueMsb (h : PrefixCode lens) {sym : Nat} {pre post : List Bool}
    (hcode : canonBits lens sym = pre ++ post) (hpost : post ≠ []) : codesTaken lens pre.length ≤ valueMsb pre := by
  have hlen := canonBits_length lens sym
  have hpos := List.length_pos_iff.2 hpost
  rw [hcode, List.length_append] at hlen
  have hsym : lens.getD sym 0 = pre.length + (post.length - 1) + 1 := by omega
  have hvalue := h.valueMsb_canonBits (sym := sym) (by omega)
  rw [← valueMsb_append_div pre post, ← hcode, hvalue, Nat.le_div_iff_mul_le (Nat.two_pow_pos _), canonCode_eq hsym]
  have hgrow := codesTaken_mul_pow_le lens pre.length (post.length - 1)
  have hpow : 2 ^ post.length = 2 * 2 ^ (post.length - 1) := by
    rw [← Nat.pow_succ', Nat.succ_eq_add_one, Nat.sub_add_cancel hpos]
  rw [hpow, Nat.mul_left_comm]
  exact (Nat.mul_le_mul_left 2 hgrow).trans (Nat.le_add_right ..)

/-- Bits whose value is among those of the codewords of their length are the codeword of a symbol. -/
theorem exists_canonBits {bs : List Bool} {l : Nat} (hbs : bs.length = l + 1)
    (hlo : 2 * codesTaken lens l ≤ valueMsb bs) (hhi : valueMsb bs < codesTaken lens (l + 1)) :
    ∃ sym, lens.getD sym 0 = l + 1 ∧ canonBits lens sym = bs := by
  have hk : valueMsb bs - 2 * codesTaken lens l < (symsOfLen lens (l + 1)).length := by
    rw [symsOfLen_length]
    rw [codesTaken_succ] at hhi
    omega
  obtain ⟨hsym, hlen⟩ := mem_symsOfLen.1 (List.getElem_mem hk)
  have hown := symsOfLen_getElem? hsym
  rw [hlen, ← List.getElem?_eq_getElem hk] at hown
  have hcount := (List.getElem?_inj (List.getElem?_eq_some_iff.1 (hown.trans (List.getElem?_eq_getElem hk))).1
    ((symsOfLen_pairwise lens _).imp Nat.ne_of_lt)).1 hown
  refine ⟨_, hlen, ?_⟩
  rw [canonBits, canonCode_eq hlen, hcount, Nat.add_sub_cancel' hlo, hlen, ← hbs, bitsMsb_valueMsb]

end

/-! ## Readers (00_scope.md R15, R16) -/

/-- From any cursor before the bits `bs` and the rest of the input, the reader answers `out` of the cursor after
`bs`. -/
def Reads {α : Type} (read : InPort → Read α) (bs rest : List Bool) (out : InPort → Read α) : Prop :=
  ∀ p : InPort, p.stream = bs ++ rest → read p = out (p.advance bs.length)

/-- The reader holds on any cursor before the bits given. -/
abbrev Holds {α : Type} (read : InPort → Read α) (bits : List Bool) : Prop := Reads read [] bits fun _ => .short

theorem InPort.stream_advance {p : InPort} {bs rest : List Bool} (h : p.stream = bs ++ rest) :
    (p.advance bs.length).stream = rest := by
  rw [InPort.stream_advance_of_le (by rw [h, List.length_append]; exact Nat.le_add_right ..), h, List.drop_left]

section

variable {α β : Type} {bs cs rest : List Bool}

/-- What a reader makes of the input after what another has read. -/
theorem Reads.andThen {read : InPort → Read α} {a : α} {k : α → InPort → Read β} {out : InPort → Read β}
    (h : Reads read bs (cs ++ rest) (.done a)) (hk : Reads (k a) cs rest out) :
    Reads (fun p => (read p).andThen k) (bs ++ cs) rest out := by
  intro p hp
  rw [List.append_assoc] at hp
  show (read p).andThen k = _
  rw [h p hp, Read.andThen, hk _ (InPort.stream_advance hp), InPort.advance_advance, List.length_append]

theorem Reads.andThen_malformed {read : InPort → Read α} (h : Reads read bs rest .malformed)
    (k : α → InPort → Read β) : Reads (fun p => (read p).andThen k) bs rest .malformed := by
  intro p hp
  show (read p).andThen k = _
  rw [h p hp, Read.andThen]

theorem Reads.andThen_short {read : InPort → Read α} (h : Reads read bs rest fun _ => .short)
    (k : α → InPort → Read β) : Reads (fun p => (read p).andThen k) bs rest fun _ => .short := by
  intro p hp
  show (read p).andThen k = _
  rw [h p hp, Read.andThen]

/-- A hold after some bits is a hold. -/
theorem Reads.holds {read : InPort → Read α} (h : Reads read bs rest fun _ => .short) : Holds read (bs ++ rest) := h

/-- Readers that agree read alike. -/
theorem Reads.congr {read read' out : InPort → Read α} (h : Reads read' bs rest out) (heq : ∀ p, read p = read' p) :
    Reads read bs rest out := by
  intro p hp
  rw [heq, h p hp]

theorem Reads.out_congr {read out out' : InPort → Read α} (h : Reads read bs rest out) (heq : ∀ p, out p = out' p) :
    Reads read bs rest out' := by
  intro p hp
  rw [h p hp, heq]

/-- A reader that looks at no bits. -/
theorem Reads.of_eq {read out : InPort → Read α} (h : ∀ p, read p = out p) : Reads read [] rest out := by
  intro p _
  rw [h p, List.length_nil, InPort.advance_zero]

/-- What follows a read may look at no bits. -/
theorem Reads.andThen_of_eq {read : InPort → Read α} {a : α} {k : α → InPort → Read β} {out : InPort → Read β}
    (h : Reads read bs rest (.done a)) (hk : ∀ p, k a p = out p) :
    Reads (fun p => (read p).andThen k) bs rest out := by
  have hread := Reads.andThen (cs := []) h (.of_eq hk)
  rwa [List.append_nil] at hread

/-- A hold after what was read is a hold. -/
theorem Reads.andThen_holds {read : InPort → Read α} {a : α} {k : α → InPort → Read β}
    (h : Reads read bs rest (.done a)) (hk : Holds (k a) rest) :
    Holds (fun p => (read p).andThen k) (bs ++ rest) := by
  have hread := Reads.andThen (cs := []) h hk
  rw [List.append_nil] at hread
  exact hread.holds

theorem readBits_reads {n v : Nat} (h : v < 2 ^ n) : Reads (readBits n) (bitsLsb n v) rest (.done v) := by
  intro p hp
  rw [readBits_done (by rw [hp, List.length_append, bitsLsb_length]; exact Nat.le_add_right ..), hp,
    bitsLsb_length, List.take_left' (bitsLsb_length ..), valueLsb_bitsLsb h]

end

/-! ## Reading a symbol (R266) -/

/-- The decode structure is that of the lengths given. -/
structure DecTable.Decodes (t : DecTable) (lens : List Nat) : Prop where
  count : t.count = lenCounts lens
  sym : t.sym = sortedSyms lens
  code : PrefixCode lens

section

variable {t : DecTable} {lens : List Nat}

/-- One round of R266's loop, after `l` bits that stand beyond the codewords of their length and below. -/
theorem DecTable.Decodes.round (h : t.Decodes lens) {l n v : Nat} {b : Bool} {bs : List Bool} {p : InPort}
    (hl : l < 15) (hp : p.stream = b :: bs) (hv : codesTaken lens l ≤ v) :
    decodeFrom t (List.range' (l + 1) (n + 1)) (2 * v) (2 * codesTaken lens l) (codedWithin lens l) p =
      if 2 * v + b.toNat < codesTaken lens (l + 1) then
        .done ((sortedSyms lens).getD (codedWithin lens l + (2 * v + b.toNat - 2 * codesTaken lens l)) 0) (p.advance 1)
      else
        decodeFrom t (List.range' (l + 1 + 1) n) (2 * (2 * v + b.toNat)) (2 * codesTaken lens (l + 1))
          (codedWithin lens (l + 1)) (p.advance 1) := by
  rw [List.range'_succ, decodeFrom, (readBit_cons hp).1, Read.andThen, Nat.add_sub_cancel, h.count, h.sym,
    lenCounts_getD lens hl, codesTaken_succ, codedWithin_succ]
  exact if_congr (by omega) rfl rfl

/-- A codeword of which the loop has read `pre` is read to its end. -/
theorem DecTable.Decodes.decodeFrom_code (h : t.Decodes lens) {sym n : Nat} {pre post rest : List Bool} {p : InPort}
    (hcode : canonBits lens sym = pre ++ post) (hpost : post ≠ []) (hn : pre.length + n = 15)
    (hp : p.stream = post ++ rest) :
    decodeFrom t (List.range' (pre.length + 1) n) (2 * valueMsb pre) (2 * codesTaken lens pre.length)
      (codedWithin lens pre.length) p = .done sym (p.advance post.length) := by
  have hlen := canonBits_length lens sym
  have hle := getD_le_of_forall_le h.code.le sym
  rw [hcode, List.length_append] at hlen
  induction post generalizing pre n p with
  | nil => exact absurd rfl hpost
  | cons b post ih =>
    rw [List.length_cons] at hlen
    obtain ⟨n, rfl⟩ : ∃ m, n = m + 1 := ⟨n - 1, by omega⟩
    have hcode' : canonBits lens sym = (pre ++ [b]) ++ post := by rw [hcode, List.append_assoc]; rfl
    have hpre : (pre ++ [b]).length = pre.length + 1 := List.length_append
    rw [h.round (by omega) hp (h.code.le_valueMsb hcode hpost), ← valueMsb_append_singleton]
    cases post with
    | nil =>
      rw [List.length_nil] at hlen
      have hsym : lens.getD sym 0 = pre.length + 1 := by omega
      have hne : lens.getD sym 0 ≠ 0 := hsym ▸ Nat.succ_ne_zero _
      have hlt := canonCode_lt_codesTaken (lt_length_of_getD_ne_zero hne) hne
      rw [hsym] at hlt
      rw [← List.append_nil (pre ++ [b]), ← hcode', h.code.valueMsb_canonBits hne, if_pos hlt, canonCode_eq hsym,
        Nat.add_sub_cancel_left, sortedSyms_getD hsym (by omega)]
      rfl
    | cons c post =>
      have hbeyond := h.code.le_valueMsb hcode' (List.cons_ne_nil c post)
      rw [hpre] at hbeyond
      rw [if_neg (Nat.not_lt.2 hbeyond), ← hpre, ih hcode' (List.cons_ne_nil c post) (by omega) (readBit_cons hp).2
        (by rw [hpre]; omega), InPort.advance_advance, Nat.add_comm 1, ← List.length_cons]

theorem decodeSym_eq_decodeFrom (t : DecTable) (lens : List Nat) (p : InPort) : decodeSym t p =
    decodeFrom t (List.range' (0 + 1) 15) (2 * valueMsb []) (2 * codesTaken lens 0) (codedWithin lens 0) p := by
  rw [codesTaken_zero]
  rfl

/-- A codeword is read back as its symbol, whatever follows it. -/
theorem DecTable.Decodes.reads (h : t.Decodes lens) {sym : Nat} (hne : lens.getD sym 0 ≠ 0) (rest : List Bool) :
    Reads (decodeSym t) (canonBits lens sym) rest (.done sym) := by
  intro p hp
  have hpost : canonBits lens sym ≠ [] := by
    rw [← List.length_pos_iff, canonBits_length]
    exact Nat.pos_of_ne_zero hne
  rw [decodeSym_eq_decodeFrom t lens]
  exact h.decodeFrom_code (pre := []) rfl hpost rfl hp

/-- Where no codeword starts the bits `pre` and those after them, the loop goes on to 15 bits or to the end of the
input. -/
theorem DecTable.Decodes.decodeFrom_noCodeword (h : t.Decodes lens) {n : Nat} {pre : List Bool} {p : InPort}
    (hno : startsNoCodeword lens (pre ++ p.stream)) (hn : pre.length + n = 15)
    (hpre : codesTaken lens pre.length ≤ valueMsb pre) :
    decodeFrom t (List.range' (pre.length + 1) n) (2 * valueMsb pre) (2 * codesTaken lens pre.length)
      (codedWithin lens pre.length) p = if p.stream.length < n then .short else .malformed (p.advance n) := by
  induction n generalizing pre p with
  | zero => rw [List.range'_zero, decodeFrom, if_neg (Nat.not_lt_zero _), InPort.advance_zero]
  | succ n ih =>
    cases hs : p.stream with
    | nil => rw [List.range'_succ, decodeFrom, readBit_short hs, Read.andThen, List.length_nil, if_pos (Nat.succ_pos n)]
    | cons b bs =>
      obtain ⟨-, hrest⟩ := readBit_cons hs
      have hsplit : pre ++ p.stream = (pre ++ [b]) ++ (p.advance 1).stream := by
        rw [hs, hrest, List.append_assoc]
        rfl
      have hlen : (pre ++ [b]).length = pre.length + 1 := List.length_append
      have hbeyond : codesTaken lens (pre.length + 1) ≤ valueMsb (pre ++ [b]) := by
        by_contra hlt
        obtain ⟨sym, hsym, hcode⟩ := exists_canonBits (lens := lens) hlen
          (by rw [valueMsb_append_singleton]; omega) (Nat.not_le.1 hlt)
        have hne : lens.getD sym 0 ≠ 0 := hsym ▸ Nat.succ_ne_zero _
        exact hno sym (lt_length_of_getD_ne_zero hne) hne (hcode ▸ hsplit ▸ List.prefix_append ..)
      rw [h.round (by omega) hs hpre, ← valueMsb_append_singleton, if_neg (Nat.not_lt.2 hbeyond), ← hlen,
        ih (hsplit ▸ hno) (by omega) (hlen ▸ hbeyond), hrest, InPort.advance_advance, Nat.add_comm 1,
        List.length_cons]
      exact if_congr (by omega) rfl rfl

theorem startsNoCodeword.of_prefix {bits more : List Bool} (h : startsNoCodeword lens more) (hpre : bits <+: more) :
    startsNoCodeword lens bits := fun sym hsym hne hcode => h sym hsym hne (hcode.trans hpre)

/-- No code is longer than 15 bits, so 15 bits show that no codeword starts there. -/
theorem PrefixCode.startsNoCodeword_append (h : PrefixCode lens) {bits : List Bool} (hbits : bits.length = 15)
    (hno : startsNoCodeword lens bits) (rest : List Bool) : startsNoCodeword lens (bits ++ rest) := by
  intro sym hsym hne hcode
  refine hno sym hsym hne (List.prefix_of_prefix_length_le hcode (List.prefix_append ..) ?_)
  rw [canonBits_length, hbits]
  exact getD_le_of_forall_le h.le sym

theorem DecTable.Decodes.decodeSym_noCodeword (h : t.Decodes lens) {p : InPort}
    (hno : startsNoCodeword lens p.stream) :
    decodeSym t p = if p.stream.length < 15 then .short else .malformed (p.advance 15) := by
  rw [decodeSym_eq_decodeFrom t lens]
  exact h.decodeFrom_noCodeword (pre := []) hno rfl (Nat.le_of_eq (codesTaken_zero lens))

/-- Fifteen bits that start no codeword are malformed, whatever follows them. -/
theorem DecTable.Decodes.reads_noCodeword (h : t.Decodes lens) {bits : List Bool} (hbits : bits.length = 15)
    (hno : startsNoCodeword lens bits) (rest : List Bool) : Reads (decodeSym t) bits rest .malformed := by
  intro p hp
  rw [h.decodeSym_noCodeword (hp ▸ h.code.startsNoCodeword_append hbits hno rest), if_neg, hbits]
  rw [hp, List.length_append]
  omega

theorem DecTable.Decodes.reads_take_noCodeword (h : t.Decodes lens) {bits : List Bool} (hbits : 15 ≤ bits.length)
    (hno : startsNoCodeword lens bits) : Reads (decodeSym t) (bits.take 15) (bits.drop 15) .malformed :=
  h.reads_noCodeword (List.length_take_of_le hbits) (hno.of_prefix (List.take_prefix ..)) _

theorem DecTable.Decodes.holds_noCodeword (h : t.Decodes lens) {bits : List Bool} (hbits : bits.length < 15)
    (hno : startsNoCodeword lens bits) : Holds (decodeSym t) bits := by
  intro p hp
  rw [List.nil_append] at hp
  rw [h.decodeSym_noCodeword (hp ▸ hno), hp, if_pos hbits]

/-- Either a codeword starts the bits, or they are too short to say so, or the first 15 of them start none. -/
theorem DecTable.Decodes.decodeSym_split (h : t.Decodes lens) (bits : List Bool) :
    Holds (decodeSym t) bits ∨
    (∃ sym rest, lens.getD sym 0 ≠ 0 ∧ bits = canonBits lens sym ++ rest) ∨
    (∃ bad rest, bad.length = 15 ∧ startsNoCodeword lens bad ∧ bits = bad ++ rest) := by
  by_cases hno : startsNoCodeword lens bits
  · rcases Nat.lt_or_ge bits.length 15 with hlen | hlen
    · exact .inl (h.holds_noCodeword hlen hno)
    · exact .inr (.inr ⟨bits.take 15, bits.drop 15, List.length_take_of_le hlen,
        hno.of_prefix (List.take_prefix ..), (List.take_append_drop ..).symm⟩)
  · simp only [not_forall, not_not] at hno
    obtain ⟨sym, -, hne, rest, hrest⟩ := hno
    exact .inr (.inl ⟨sym, rest, hne, hrest.symm⟩)

end

/-! ## HD_DECODE (R267) -/

theorem DecTable.Ok.decodes {size maxLen : Nat} {t : DecTable} (h : t.Ok size maxLen) (hv : t.valid = true) :
    t.Decodes t.coded := by
  obtain ⟨-, -, hbuilt⟩ := h
  obtain ⟨-, -, hcount, hsym, hkraft⟩ := hbuilt hv
  have hle : ∀ l ∈ t.coded, l ≤ 15 := t.lens_le t.n
  rw [Ne, kraft_over_iff hle, Nat.not_lt] at hkraft
  exact ⟨hcount, hsym, hle, hkraft⟩

theorem exec_hdDecode_of_valid {s : State} (hs : s.decoding) {t : BitVec 2} {a : Alphabet}
    (ht : Alphabet.ofField t = some a) (hv : (s.dec a).valid = true) :
    exec (.hdDecode t) s = s.afterRead (decodeSym (s.dec a) s.inp) fun sym p =>
      ({ s with inp := p, res0 := BitVec.ofNat 32 sym } : State).ok := by
  rw [exec, execHdDecode, State.checks_of_alphabet hs.running ht, State.gated_of_decoding hs, State.require_of_true hv]

/-- Settles O40: the loop leaves each beginning of the codeword behind (`PrefixCode.le_valueMsb`) and finds its symbol
at the codeword's end. -/
theorem hdDecodeReadsBackTheCanonicalCode : Obligations.HdDecodeReadsBackTheCanonicalCode := by
  intro s t a sym rest hs htables ht hv _ hne hstream
  rw [exec_hdDecode_of_valid hs ht hv, ((State.dec_ok htables a).decodes hv).reads hne rest _ hstream,
    canonBits_length]
  rfl

/-! ## Reading a token (R275) -/

/-- The token that code values stand for (R275). -/
def Coded.token : Coded → Token
  | .lit b => ⟨.lit, b.toNat, 0, 0⟩
  | .eob => ⟨.eob, 0, 0, 0⟩
  | .backref ls le ds de => ⟨.backref, 0, lengthBase ls + le, distBase ds + de⟩

section

variable {ll dist : DecTable} {lensLL lensDist : List Nat} {rest : List Bool}

/-- A length symbol and its extra bits lead to the distance half. -/
theorem DecTable.Decodes.readToken_length (h : ll.Decodes lensLL) {ls le : Nat} (hlo : 257 ≤ ls) (hhi : ls ≤ 285)
    (hne : lensLL.getD ls 0 ≠ 0) (hle : le < 2 ^ lengthExtra ls) {cs : List Bool} {out : InPort → Read Token}
    (hdist : Reads (readDistance dist (lengthBase ls + le)) cs rest out) :
    Reads (readToken ll dist) (canonBits lensLL ls ++ (bitsLsb (lengthExtra ls) le ++ cs)) rest out := by
  have hextra : Reads (fun p => (readBits (lengthExtra ls) p).andThen fun x => readDistance dist (lengthBase ls + x))
      (bitsLsb (lengthExtra ls) le ++ cs) rest out := (readBits_reads hle).andThen hdist
  refine (h.reads hne _).andThen (hextra.congr fun p => ?_)
  simp only [if_neg (show ¬ ls < 256 by omega), if_neg (show ¬ ls = 256 by omega), if_neg (show ¬ 285 < ls by omega)]

/-- A legal token is read back from its bits, whatever follows them. -/
theorem DecTable.Decodes.readToken_reads (hll : ll.Decodes lensLL) (hdist : dist.Decodes lensDist) {tok : Coded}
    (hlegal : tok.legal lensLL lensDist) (rest : List Bool) :
    Reads (readToken ll dist) (tok.bits lensLL lensDist) rest (.done tok.token) := by
  cases tok with
  | lit b => exact (hll.reads hlegal rest).andThen_of_eq fun p => if_pos b.isLt
  | eob => exact (hll.reads hlegal rest).andThen_of_eq fun p => rfl
  | backref ls le ds de =>
    obtain ⟨hlo, hhi, hls, hle, hds, hne, hde⟩ := hlegal
    rw [Coded.bits, List.append_assoc]
    refine hll.readToken_length hlo hhi hls hle ((hdist.reads hne _).andThen ?_)
    have hextra : Reads (fun p => (readBits (distExtra ds) p).andThen fun x p =>
        .done ⟨.backref, 0, lengthBase ls + le, distBase ds + x⟩ p) (bitsLsb (distExtra ds) de) rest
        (.done (Coded.backref ls le ds de).token) := (readBits_reads hde).andThen_of_eq fun _ => rfl
    exact hextra.congr fun p => if_neg (Nat.not_lt.2 hds)

end

/-! ## The commands that read a token (R275, 46_block_framing.md R350) -/

theorem State.checks_of_decoding {s : State} (hs : s.decoding) (k : Result) : s.unlessEnded (s.gated k) = k := by
  rw [State.unlessEnded_of_running hs.running, State.gated_of_decoding hs]

section

variable {s u : State} (hs : s.decoding) (hll : s.hdLL.valid = true) (hdist : s.hdDist.valid = true)

include hll hdist

theorem State.token_decodes (htables : s.TablesOk) : s.hdLL.Decodes s.hdLL.coded ∧ s.hdDist.Decodes s.hdDist.coded :=
  ⟨(State.dec_ok htables .ll).decodes hll, (State.dec_ok htables .dist).decodes hdist⟩

include hs

theorem exec_hdToken_of_valid : exec .hdToken s = s.afterRead (readToken s.hdLL s.hdDist s.inp) fun tok p =>
    (({ s with inp := p } : State).setToken tok.kind tok.byte tok.len tok.dist).ok := by
  rw [exec, execHdToken, State.checks_of_decoding hs,
    State.require_of_true (ok := s.tokenTables) (Bool.and_eq_true_iff.2 ⟨hll, hdist⟩)]

theorem exec_bfInflate_of_ready (hout : s.out.obits = 0) (hla : s.la = []) :
    exec .bfInflate s = s.afterRead (readToken s.hdLL s.hdDist s.inp) fun tok p => s.applyToken tok p := by
  rw [exec, execBfInflate, State.checks_of_decoding hs,
    State.require_of_true (s.outAligned_and_la_iff.2 ⟨hout, hla⟩),
    State.require_of_true (ok := s.tokenTables) (Bool.and_eq_true_iff.2 ⟨hll, hdist⟩)]

/-- Where no token is read, HD_TOKEN and BF_INFLATE answer alike. -/
theorem tokenReaders_answer (h : ∀ k, s.afterRead (readToken s.hdLL s.hdDist s.inp) k = .next u) :
    exec .hdToken s = .next u ∧ (s.out.obits = 0 → s.la = [] → exec .bfInflate s = .next u) :=
  ⟨(exec_hdToken_of_valid hs hll hdist).trans (h _),
    fun hout hla => (exec_bfInflate_of_ready hs hll hdist hout hla).trans (h _)⟩

theorem tokenReaders_holdIn {bs rest : List Bool} (hread : Reads (readToken s.hdLL s.hdDist) bs rest fun _ => .short)
    (hstream : s.inp.stream = bs ++ rest) :
    exec .hdToken s = .next { s with status := 3 } ∧
      (s.out.obits = 0 → s.la = [] → exec .bfInflate s = .next { s with status := 3 }) :=
  tokenReaders_answer hs hll hdist fun k => by rw [hread _ hstream]; rfl

theorem tokenReaders_dataError {bs rest : List Bool} {n : Nat}
    (hread : Reads (readToken s.hdLL s.hdDist) bs rest .malformed) (hstream : s.inp.stream = bs ++ rest)
    (hn : bs.length = n) :
    exec .hdToken s = .next { s with inp := s.inp.advance n, derr := true, status := 0xFD } ∧
      (s.out.obits = 0 → s.la = [] →
        exec .bfInflate s = .next { s with inp := s.inp.advance n, derr := true, status := 0xFD }) :=
  tokenReaders_answer hs hll hdist fun k => by rw [hread _ hstream, hn]; rfl

end

theorem Coded.setToken_eq_withResults (s : State) (tok : Coded) :
    s.setToken tok.token.kind tok.token.byte tok.token.len tok.token.dist = s.withResults tok.results := by
  cases tok with
  | lit b =>
    rw [State.setToken, State.withResults, Coded.results, Coded.token, BitVec.ofNat_toNat]
    rfl
  | eob => rfl
  | backref ls le ds de => rfl

/-- Settles O44: HD_TOKEN reads the token its bits stand for (`DecTable.Decodes.readToken_reads`). -/
theorem hdTokenReadsBackAToken : Obligations.HdTokenReadsBackAToken := by
  intro s tok rest hs htables hll hdist hlegal hstream
  obtain ⟨hdecLL, hdecDist⟩ := State.token_decodes hll hdist htables
  rw [exec_hdToken_of_valid hs hll hdist, hdecLL.readToken_reads hdecDist hlegal rest _ hstream, State.afterRead,
    Coded.setToken_eq_withResults]
  rfl

/-- Settles O45: such a symbol's code is read, and no bit after it. -/
theorem tokensRejectSymbolsWithoutMeaning : Obligations.TokensRejectSymbolsWithoutMeaning := by
  intro s rest hs htables hll hdist
  obtain ⟨hdecLL, hdecDist⟩ := State.token_decodes hll hdist htables
  refine ⟨fun sym hsym hne hstream => ?length, fun ls le ds hlo hhi hls hle hds hne hstream => ?distance⟩
  case length =>
    refine tokenReaders_dataError hs hll hdist ((hdecLL.reads hne rest).andThen_of_eq fun p => ?_) hstream
      (canonBits_length ..)
    rcases hsym with rfl | rfl <;> rfl
  case distance =>
    have hread : Reads (readDistance s.hdDist (lengthBase ls + le)) (canonBits s.hdDist.coded ds) rest .malformed :=
      (hdecDist.reads hne rest).andThen_of_eq fun p => if_pos (by omega)
    refine tokenReaders_dataError hs hll hdist (hdecLL.readToken_length hlo hhi hls hle hread) ?_ ?_
    · rw [hstream, List.append_assoc (canonBits ..)]
    · simp only [List.length_append, canonBits_length, bitsLsb_length, Nat.add_assoc]

/-- Settles O41: HD_DECODE, the literal/length code and the distance code fail alike, by what R266's loop makes of input
that starts no codeword. -/
theorem readersFailWhereNoCodewordStarts : Obligations.ReadersFailWhereNoCodewordStarts := by
  constructor
  · intro s t a hs htables ht hv hno
    have hread := ((State.dec_ok htables a).decodes hv).decodeSym_noCodeword hno
    rw [exec_hdDecode_of_valid hs ht hv, hread]
    refine ⟨fun hshort => ?_, fun hlong => ?_⟩
    · rw [if_pos hshort]
      rfl
    · rw [if_neg (Nat.not_lt.2 hlong)]
      rfl
  · intro s hs htables hll hdist
    obtain ⟨hdecLL, hdecDist⟩ := State.token_decodes hll hdist htables
    refine ⟨fun hno => ⟨fun hshort => ?shortLL, fun hlong => ?failsLL⟩,
      fun ls le rest hlo hhi hls hle hstream hno => ⟨fun hshort => ?shortDist, fun hlong => ?failsDist⟩⟩
    case shortLL =>
      exact tokenReaders_holdIn hs hll hdist ((hdecLL.holds_noCodeword hshort hno).andThen_short _) rfl
    case failsLL =>
      exact tokenReaders_dataError hs hll hdist ((hdecLL.reads_take_noCodeword hlong hno).andThen_malformed _)
        (List.take_append_drop ..).symm (List.length_take_of_le hlong)
    case shortDist =>
      refine tokenReaders_holdIn hs hll hdist
        (hdecLL.readToken_length hlo hhi hls hle ((hdecDist.holds_noCodeword hshort hno).andThen_short _)) ?_
      simp only [hstream, List.append_assoc, List.append_nil]
    case failsDist =>
      refine tokenReaders_dataError hs hll hdist (hdecLL.readToken_length hlo hhi hls hle
        ((hdecDist.reads_take_noCodeword hlong hno).andThen_malformed _)) ?_ ?_
      · simp only [hstream, List.append_assoc, List.take_append_drop]
      · simp only [List.length_append, canonBits_length, bitsLsb_length, List.length_take_of_le hlong, Nat.add_assoc]

/-! ## The code-length items (R237, R270) -/

/-- The lengths an item appends to those read so far; none for a repeat of no length. -/
def RleItem.run (x : RleItem) (acc : List Nat) : Option (List Nat) :=
  if x.sym < 16 then some [x.sym]
  else if x.sym = 16 then acc.getLast?.map (List.replicate (3 + x.extra))
  else if x.sym = 17 then some (List.replicate (3 + x.extra) 0)
  else some (List.replicate (11 + x.extra) 0)

theorem expandItems_cons (acc : List Nat) (x : RleItem) (items : List RleItem) :
    expandItems acc (x :: items) = (x.run acc).bind fun run => expandItems (acc ++ run) items := by
  rw [expandItems, RleItem.run]
  split_ifs
  · rfl
  · cases acc.getLast? <;> rfl
  · rfl
  · rfl

theorem RleItem.run_pos {x : RleItem} {acc run : List Nat} (h : x.run acc = some run) : 1 ≤ run.length := by
  unfold RleItem.run at h
  split_ifs at h
  · obtain rfl := Option.some.inj h
    exact Nat.le_refl 1
  · obtain ⟨l, -, rfl⟩ := Option.map_eq_some_iff.1 h
    rw [List.length_replicate]
    omega
  all_goals
    obtain rfl := Option.some.inj h
    rw [List.length_replicate]
    omega

theorem RleItem.run_lt {x : RleItem} {acc run : List Nat} (h : x.run acc = some run) (hacc : ∀ l ∈ acc, l < 16) :
    ∀ l ∈ run, l < 16 := by
  unfold RleItem.run at h
  split_ifs at h with h16
  · obtain rfl := Option.some.inj h
    simpa using h16
  · obtain ⟨l, hl, rfl⟩ := Option.map_eq_some_iff.1 h
    intro k hk
    rw [List.eq_of_mem_replicate hk]
    exact hacc l (List.mem_of_getLast? hl)
  all_goals
    obtain rfl := Option.some.inj h
    intro k hk
    rw [List.eq_of_mem_replicate hk]
    decide

/-- Every item appends a length or more. -/
theorem expandItems_length_le {acc lens : List Nat} {items : List RleItem} (h : expandItems acc items = some lens) :
    acc.length + items.length ≤ lens.length := by
  induction items generalizing acc with
  | nil => exact (Option.some.inj h ▸ Nat.le_refl _ : acc.length ≤ lens.length)
  | cons x items ih =>
    obtain ⟨run, hrun, h⟩ := Option.bind_eq_some_iff.1 (expandItems_cons acc x items ▸ h)
    have hpos := RleItem.run_pos hrun
    have := ih h
    rw [List.length_append] at this
    rw [List.length_cons]
    omega

theorem expandItems_lt {acc lens : List Nat} {items : List RleItem} (h : expandItems acc items = some lens)
    (hacc : ∀ l ∈ acc, l < 16) : ∀ l ∈ lens, l < 16 := by
  induction items generalizing acc with
  | nil => exact Option.some.inj h ▸ hacc
  | cons x items ih =>
    obtain ⟨run, hrun, h⟩ := Option.bind_eq_some_iff.1 (expandItems_cons acc x items ▸ h)
    exact ih h fun l hl => (List.mem_append.1 hl).elim (hacc l) (RleItem.run_lt hrun hacc l)

/-- Lengths as a table holds them. -/
abbrev nibbles (lens : List Nat) : List (BitVec 4) := lens.map (BitVec.ofNat 4)

theorem nibbles_toNat {lens : List Nat} (h : ∀ l ∈ lens, l < 16) : (nibbles lens).map BitVec.toNat = lens := by
  rw [List.map_map]
  exact (List.map_congr_left fun l hl => toNat_ofNat_of_lt (h l hl)).trans (List.map_id _)

theorem nibbles_append (lens run : List Nat) : nibbles (lens ++ run) = nibbles lens ++ nibbles run := List.map_append

theorem nibbles_replicate (n l : Nat) : nibbles (List.replicate n l) = List.replicate n (BitVec.ofNat 4 l) :=
  List.map_replicate

/-- The extra bits of an item are read back as the lengths it appends. -/
theorem RleItem.readRun_reads {x : RleItem} {acc run : List Nat} (hlegal : x.legal) (hrun : x.run acc = some run)
    (rest : List Bool) :
    Reads (readRun x.sym (nibbles acc)) (bitsLsb x.nbits x.extra) rest (.done (nibbles run)) := by
  obtain ⟨sym, extra, nbits⟩ := x
  unfold RleItem.run at hrun
  obtain ⟨hsym, hextra, hnbits⟩ | ⟨hsym, hextra, hnbits⟩ | ⟨hsym, hextra, hnbits⟩ | ⟨hsym, hextra, hnbits⟩ := hlegal
  all_goals
    dsimp only at hsym hextra hnbits
    subst hnbits
  · subst hextra
    rw [if_pos hsym] at hrun
    obtain rfl := Option.some.inj hrun
    exact .of_eq fun p => if_pos hsym
  all_goals subst hsym
  · obtain ⟨l, hl, rfl⟩ := Option.map_eq_some_iff.1 hrun
    have hlast : (nibbles acc).getLast? = some (BitVec.ofNat 4 l) := by rw [List.getLast?_map, hl]; rfl
    rw [nibbles_replicate]
    refine ((readBits_reads hextra).andThen_of_eq (k := fun v p => .done (List.replicate (3 + v) (BitVec.ofNat 4 l)) p)
      fun p => rfl).congr fun p => ?_
    rw [readRun, hlast]
    rfl
  all_goals
    obtain rfl := Option.some.inj hrun
    rw [nibbles_replicate]
    exact (readBits_reads hextra).andThen_of_eq fun p => rfl

theorem readBits_split (n : Nat) (bits : List Bool) :
    Holds (readBits n) bits ∨ ∃ v rest, v < 2 ^ n ∧ bits = bitsLsb n v ++ rest := by
  rcases Nat.lt_or_ge bits.length n with h | h
  · exact .inl fun p hp => readBits_short (by rwa [hp])
  · have htake : (bits.take n).length = n := List.length_take_of_le h
    have hlt := valueLsb_lt (bits.take n)
    have hown := bitsLsb_valueLsb (bits.take n)
    rw [htake] at hlt hown
    refine .inr ⟨valueLsb (bits.take n), bits.drop n, hlt, ?_⟩
    rw [hown, List.take_append_drop]

/-- After a code-length symbol: a repeat of no length, or the bits are too short, or an item is read. -/
theorem readRun_split {sym : Nat} (hsym : sym < 19) (acc : List Nat) (bits : List Bool) :
    (sym = 16 ∧ acc = []) ∨ Holds (readRun sym (nibbles acc)) bits ∨
    ∃ x run rest, x.sym = sym ∧ RleItem.legal x ∧ x.run acc = some run ∧ bits = bitsLsb x.nbits x.extra ++ rest := by
  rcases Nat.lt_or_ge sym 16 with hlt | hge
  · exact .inr (.inr ⟨⟨sym, 0, 0⟩, [sym], bits, rfl, .inl ⟨hlt, rfl, rfl⟩, if_pos hlt, rfl⟩)
  have hcases : sym = 16 ∨ sym = 17 ∨ sym = 18 := by omega
  rcases hcases with rfl | rfl | rfl
  · cases hlast : acc.getLast? with
    | none => exact .inl ⟨rfl, List.getLast?_eq_none_iff.1 hlast⟩
    | some l =>
      rcases readBits_split 2 bits with hshort | ⟨v, rest, hv, rfl⟩
      · refine .inr (.inl ((hshort.andThen_short
          fun v p => .done (List.replicate (3 + v) (BitVec.ofNat 4 l)) p).congr fun p => ?_))
        rw [readRun, List.getLast?_map, hlast]
        rfl
      · refine .inr (.inr ⟨⟨16, v, 2⟩, List.replicate (3 + v) l, rest, rfl, .inr (.inl ⟨rfl, hv, rfl⟩), ?_, rfl⟩)
        rw [RleItem.run, hlast]
        rfl
  · rcases readBits_split 3 bits with hshort | ⟨v, rest, hv, rfl⟩
    · exact .inr (.inl (hshort.andThen_short _))
    · exact .inr (.inr ⟨⟨17, v, 3⟩, _, rest, rfl, .inr (.inr (.inl ⟨rfl, hv, rfl⟩)), rfl, rfl⟩)
  · rcases readBits_split 7 bits with hshort | ⟨v, rest, hv, rfl⟩
    · exact .inr (.inl (hshort.andThen_short _))
    · exact .inr (.inr ⟨⟨18, v, 7⟩, _, rest, rfl, .inr (.inr (.inr ⟨rfl, hv, rfl⟩)), rfl, rfl⟩)

/-! ## The loop over the lengths (R270) -/

/-- The bits after which the loop fails on `total` lengths, when it has read `lens`: causes 3 to 5 of R271. -/
inductive BadItem (cl : List Nat) (total : Nat) (lens : List Nat) : List Bool → Prop where
  | noCodeword (bits : List Bool) : bits.length = 15 → startsNoCodeword cl bits → BadItem cl total lens bits
  | repeatFirst : lens = [] → cl.getD 16 0 ≠ 0 → BadItem cl total lens (canonBits cl 16)
  | pastEnd (x : RleItem) (run : List Nat) : x.legal → cl.getD x.sym 0 ≠ 0 → x.run lens = some run →
      total < (lens ++ run).length → BadItem cl total lens (canonBits cl x.sym ++ bitsLsb x.nbits x.extra)

/-- The items are ones the code `cl` can send. -/
abbrev sendable (cl : List Nat) (items : List RleItem) : Prop := ∀ x ∈ items, x.legal ∧ cl.getD x.sym 0 ≠ 0

theorem itemBits_cons (cl : List Nat) (x : RleItem) (items : List RleItem) :
    itemBits cl (x :: items) = canonBits cl x.sym ++ bitsLsb x.nbits x.extra ++ itemBits cl items := rfl

/-- The bits begin with items after which `total` lengths are read, or after which the loop fails. -/
def ItemsThenStop (cl : List Nat) (total : Nat) (acc : List Nat) (bits : List Bool) : Prop :=
  ∃ items lens cs rest, sendable cl items ∧ expandItems acc items = some lens ∧
    bits = itemBits cl items ++ (cs ++ rest) ∧
    (lens.length = total ∧ cs = [] ∨ lens.length < total ∧ BadItem cl total lens cs)

theorem ItemsThenStop.stop {cl acc : List Nat} {total : Nat} {bits cs rest : List Bool} (hbits : bits = cs ++ rest)
    (hstop : acc.length = total ∧ cs = [] ∨ acc.length < total ∧ BadItem cl total acc cs) :
    ItemsThenStop cl total acc bits :=
  ⟨[], acc, cs, rest, fun _ hx => absurd hx List.not_mem_nil, rfl, hbits, hstop⟩

theorem ItemsThenStop.cons {cl acc run : List Nat} {total : Nat} {bits : List Bool} {x : RleItem} (hlegal : x.legal)
    (hne : cl.getD x.sym 0 ≠ 0) (hrun : x.run acc = some run) (h : ItemsThenStop cl total (acc ++ run) bits) :
    ItemsThenStop cl total acc (canonBits cl x.sym ++ (bitsLsb x.nbits x.extra ++ bits)) := by
  obtain ⟨items, lens, cs, rest, hitems, hexp, rfl, hstop⟩ := h
  refine ⟨x :: items, lens, cs, rest, List.forall_mem_cons.2 ⟨⟨hlegal, hne⟩, hitems⟩, ?_, ?_, hstop⟩
  · rw [expandItems_cons, hrun]
    exact hexp
  · rw [itemBits_cons]
    simp only [List.append_assoc]

section

variable {t : DecTable} {cl lens acc : List Nat} {total fuel : Nat} {cs rest : List Bool}
  {out : InPort → Read (List (BitVec 4))} (h : t.Decodes cl)

theorem readLens_of_le (h : total ≤ acc.length) (p : InPort) :
    readLens t total fuel (nibbles acc) p = .done (nibbles acc) p := by
  cases fuel with
  | zero => rfl
  | succ fuel => rw [readLens, if_pos (by rwa [List.length_map])]

/-- One round of the loop. -/
theorem readLens_succ (hlt : acc.length < total) (p : InPort) :
    readLens t total (fuel + 1) (nibbles acc) p =
      (decodeSym t p).andThen fun sym p1 => (readRun sym (nibbles acc) p1).andThen fun run p2 =>
        if total < (nibbles acc ++ run).length then .malformed p2
        else readLens t total fuel (nibbles acc ++ run) p2 := by
  rw [readLens, if_neg (by rw [List.length_map]; omega)]

include h

/-- A round that reads an item goes on with the lengths it appends. -/
theorem readLens_item {x : RleItem} {run : List Nat} (hlt : acc.length < total) (hlegal : x.legal)
    (hne : cl.getD x.sym 0 ≠ 0) (hrun : x.run acc = some run)
    (hk : Reads (fun p => if total < (acc ++ run).length then .malformed p
      else readLens t total fuel (nibbles (acc ++ run)) p) cs rest out) :
    Reads (readLens t total (fuel + 1) (nibbles acc)) (canonBits cl x.sym ++ bitsLsb x.nbits x.extra ++ cs) rest
      out := by
  rw [List.append_assoc]
  refine ((h.reads hne _).andThen ((x.readRun_reads hlegal hrun _).andThen (hk.congr fun p => ?_))).congr
    (readLens_succ hlt)
  rw [← nibbles_append, List.length_map]

/-- The loop reads the items of the lengths and goes on. -/
theorem readLens_items {items : List RleItem} (hitems : sendable cl items) (hexp : expandItems acc items = some lens)
    (hle : lens.length ≤ total) (hk : Reads (readLens t total fuel (nibbles lens)) cs rest out) :
    Reads (readLens t total (items.length + fuel) (nibbles acc)) (itemBits cl items ++ cs) rest out := by
  induction items generalizing acc with
  | nil =>
    obtain rfl := Option.some.inj hexp
    rwa [List.length_nil, Nat.zero_add]
  | cons x items ih =>
    obtain ⟨⟨hlegal, hne⟩, hitems⟩ := List.forall_mem_cons.1 hitems
    obtain ⟨run, hrun, hexp⟩ := Option.bind_eq_some_iff.1 (expandItems_cons acc x items ▸ hexp)
    have hpos := RleItem.run_pos hrun
    have hgrow := expandItems_length_le hexp
    have hfits : ¬ total < (acc ++ run).length := by omega
    rw [List.length_append] at hgrow
    rw [itemBits_cons, List.append_assoc, List.length_cons, Nat.add_right_comm]
    exact readLens_item h (by omega) hlegal hne hrun ((ih hitems hexp).congr fun p => if_neg hfits)

/-- Each of the causes 3 to 5 of R271 ends the loop at the bits that show it. -/
theorem readLens_bad {bad : List Bool} (hbad : BadItem cl total lens bad) (hlt : lens.length < total)
    (rest : List Bool) : Reads (readLens t total (fuel + 1) (nibbles lens)) bad rest .malformed := by
  cases hbad with
  | noCodeword _ hlen hno => exact ((h.reads_noCodeword hlen hno rest).andThen_malformed _).congr (readLens_succ hlt)
  | repeatFirst hnil hne =>
    subst hnil
    exact ((h.reads hne rest).andThen_of_eq fun p => rfl).congr (readLens_succ hlt)
  | pastEnd x run hlegal hne hrun hpast =>
    rw [← List.append_nil (_ ++ _)]
    exact readLens_item h hlt hlegal hne hrun (.of_eq fun p => if_pos hpast)

/-- What the loop makes of any bits: it holds, or it reads items up to `total` lengths or to a failure. -/
theorem readLens_split (hcl : cl.length = 19) (hle : acc.length ≤ total) (hfuel : total ≤ acc.length + fuel)
    (bits : List Bool) :
    Holds (readLens t total fuel (nibbles acc)) bits ∨ ItemsThenStop cl total acc bits := by
  induction fuel generalizing acc bits with
  | zero => exact .inr (.stop (cs := []) rfl (.inl ⟨by omega, rfl⟩))
  | succ fuel ih =>
    rcases Nat.eq_or_lt_of_le hle with heq | hlt
    · exact .inr (.stop (cs := []) rfl (.inl ⟨heq, rfl⟩))
    rcases h.decodeSym_split bits with hshort | ⟨sym, bits1, hne, rfl⟩ | ⟨bad, rest, hlen, hno, rfl⟩
    · exact .inl ((hshort.andThen_short _).congr (readLens_succ hlt))
    · rcases readRun_split (hcl ▸ lt_length_of_getD_ne_zero hne) acc bits1 with
        ⟨rfl, hnil⟩ | hshort | ⟨x, run, bits2, rfl, hlegal, hrun, rfl⟩
      · exact .inr (.stop rfl (.inr ⟨hlt, .repeatFirst hnil hne⟩))
      · exact .inl (((h.reads hne _).andThen_holds (hshort.andThen_short _)).congr (readLens_succ hlt))
      · rcases Nat.lt_or_ge total (acc ++ run).length with hpast | hfits
        · refine .inr (.stop (List.append_assoc ..).symm (.inr ⟨hlt, .pastEnd x run hlegal hne hrun hpast⟩))
        · have hpos := RleItem.run_pos hrun
          have hlen : (acc ++ run).length = acc.length + run.length := List.length_append
          rcases ih hfits (by omega) bits2 with hshort | hstop
          · have hread := readLens_item h hlt hlegal hne hrun (hshort.congr fun p => if_neg (Nat.not_lt.2 hfits))
            rw [List.append_nil] at hread
            rw [← List.append_assoc]
            exact .inl hread.holds
          · exact .inr (hstop.cons hlegal hne hrun)
    · exact .inr (.stop rfl (.inr ⟨hlt, .noCodeword bad hlen hno⟩))

end

/-! ## The code-length code lengths (R270) -/

/-- The lengths `f` gives the places, written over `lens`. -/
def writePlaces (f : Nat → Nat) (places : List Nat) (lens : List (BitVec 4)) : List (BitVec 4) :=
  places.foldl (fun ls m => ls.set m (BitVec.ofNat 4 (f m))) lens

/-- Three bits each for the first `n` places, and nothing for the rest, whose length is 0. -/
theorem readClLens_reads {f : Nat → Nat} {places : List Nat} {n : Nat} (hlt : ∀ m, f m < 8)
    (hzero : ∀ m ∈ places.drop n, f m = 0) (lens : List (BitVec 4)) (rest : List Bool) :
    Reads (readClLens places n lens) ((places.take n).flatMap fun m => bitsLsb 3 (f m)) rest
      (.done (writePlaces f places lens)) := by
  induction places generalizing n lens with
  | nil =>
    rw [List.take_nil]
    exact .of_eq fun p => rfl
  | cons m places ih =>
    cases n with
    | zero =>
      obtain ⟨hm, hzero⟩ := List.forall_mem_cons.1 hzero
      have hread := ih (n := 0) hzero (lens.set m (BitVec.ofNat 4 (f m)))
      rw [hm] at hread
      rw [writePlaces, List.foldl_cons, hm]
      exact hread
    | succ n => exact (readBits_reads (hlt m)).andThen (ih hzero _)

theorem readClLens_split {places : List Nat} (hnodup : places.Nodup) (n : Nat) (lens : List (BitVec 4))
    (bits : List Bool) :
    Holds (readClLens places n lens) bits ∨
    ∃ (f : Nat → Nat) (rest : List Bool), (∀ m, f m < 8) ∧ (∀ m ∈ places.drop n, f m = 0) ∧
      bits = ((places.take n).flatMap fun m => bitsLsb 3 (f m)) ++ rest := by
  induction places generalizing n lens bits with
  | nil => exact .inr ⟨fun _ => 0, bits, fun _ => Nat.zero_lt_succ 7, fun _ _ => rfl, by rw [List.take_nil]; rfl⟩
  | cons m places ih =>
    obtain ⟨hm, hnodup⟩ := List.nodup_cons.1 hnodup
    cases n with
    | zero => exact .inr ⟨fun _ => 0, bits, fun _ => Nat.zero_lt_succ 7, fun _ _ => rfl, rfl⟩
    | succ n =>
      rcases readBits_split 3 bits with hshort | ⟨v, rest, hv, rfl⟩
      · exact .inl (hshort.andThen_short _)
      rcases ih hnodup n (lens.set m (BitVec.ofNat 4 v)) rest with hshort | ⟨f, rest, hlt, hzero, rfl⟩
      · exact .inl ((readBits_reads hv).andThen_holds hshort)
      · have hother : ∀ x ∈ places, relen f m v x = f x := fun x hx =>
          relen_of_ne (fun heq : x = m => hm (heq ▸ hx)) f v
        have htail : (places.take n).flatMap (fun x => bitsLsb 3 (relen f m v x)) =
            (places.take n).flatMap fun x => bitsLsb 3 (f x) :=
          List.flatMap_congr fun x hx => by rw [hother x (List.mem_of_mem_take hx)]
        refine .inr ⟨relen f m v, rest, fun x => ?_, fun x hx => ?_, ?_⟩
        · exact relen_induction (P := fun _ l => l < 8) (fun _ => hv) (hlt x)
        · rw [hother x (List.mem_of_mem_drop hx), hzero x hx]
        · rw [List.take_succ_cons, List.flatMap_cons, relen_same, htail, List.append_assoc]

theorem clOrder_nodup : clOrder.Nodup := by decide

/-- CL_ORDER names each of the 19 code-length symbols once, so all the lengths are written. -/
theorem writePlaces_clOrder (f : Nat → Nat) :
    writePlaces f clOrder (List.replicate 19 0) = nibbles ((List.range 19).map f) := by
  simp [writePlaces, clOrder, List.range_succ, List.replicate_succ]

theorem map_getD_range {lens : List Nat} {n : Nat} (h : lens.length = n) :
    (List.range n).map (fun m => lens.getD m 0) = lens := by
  refine List.ext_getElem (by simp [h]) fun i hi _ => ?_
  rw [List.length_map, List.length_range] at hi
  simp [h ▸ hi]

/-- The places of CL_ORDER from `n` on are those the statements number `n` to 18. -/
theorem forall_mem_drop_clOrder {P : Nat → Prop} {n : Nat} :
    (∀ m ∈ clOrder.drop n, P m) ↔ ∀ i, n ≤ i → i < 19 → P (clOrder.getD i 0) := by
  have hlen : clOrder.length = 19 := rfl
  constructor
  · intro h i hn hi
    rw [List.getD_eq_getElem _ _ (hlen ▸ hi)]
    exact h _ (List.mem_drop_iff_getElem.2 ⟨i - n, by omega, by simp [Nat.add_sub_cancel' hn]⟩)
  · intro h m hm
    obtain ⟨i, hi, rfl⟩ := List.mem_drop_iff_getElem.1 hm
    have := h (n + i) (Nat.le_add_right ..) (by omega)
    rwa [List.getD_eq_getElem _ _ (by omega)] at this

/-- The code-length code lengths of a header, as the statements give them. -/
theorem clLens_split (hclen : Nat) (bits : List Bool) :
    Holds (readClLens clOrder hclen (List.replicate 19 0)) bits ∨
    ∃ (cl : List Nat) (rest : List Bool), cl.length = 19 ∧ (∀ l ∈ cl, l ≤ 7) ∧
      (∀ i, hclen ≤ i → i < 19 → cl.getD (clOrder.getD i 0) 0 = 0) ∧
      bits = ((clOrder.take hclen).flatMap fun m => bitsLsb 3 (cl.getD m 0)) ++ rest := by
  rcases readClLens_split clOrder_nodup hclen (List.replicate 19 0) bits with hshort | ⟨f, rest, hlt, hzero, rfl⟩
  · exact .inl hshort
  have hplace : ∀ m ∈ clOrder, ((List.range 19).map f).getD m 0 = f m := by
    intro m hm
    have hbelow : m < 19 := (show ∀ m ∈ clOrder, m < 19 by decide) m hm
    rw [List.getD_eq_getElem _ _ (by simpa using hbelow), List.getElem_map, List.getElem_range]
  have hsame : ((clOrder.take hclen).flatMap fun m => bitsLsb 3 (((List.range 19).map f).getD m 0)) =
      (clOrder.take hclen).flatMap fun m => bitsLsb 3 (f m) :=
    List.flatMap_congr fun m hm => by rw [hplace m (List.mem_of_mem_take hm)]
  refine .inr ⟨(List.range 19).map f, rest, by simp, fun l hl => ?_,
    (forall_mem_drop_clOrder (P := fun m => ((List.range 19).map f).getD m 0 = 0)).1 fun m hm => ?_, ?_⟩
  · obtain ⟨m, -, rfl⟩ := List.mem_map.1 hl
    exact Nat.le_of_lt_succ (hlt m)
  · rw [hplace m (List.mem_of_mem_drop hm), hzero m hm]
  · rw [hsame]

/-! ## The tables of a header (R262, R270) -/

theorem kraftTotal_append_zeros (lens : List Nat) (n : Nat) :
    kraftTotal (lens ++ List.replicate n 0) = kraftTotal lens := by
  rw [kraftTotal, List.filter_append, List.filter_replicate, if_neg (by simp), List.append_nil, kraftTotal]

section

variable {size : Nat} {lens : List Nat}

theorem padLens_nibbles (size : Nat) (lens : List Nat) :
    padLens size (nibbles lens) = nibbles (lens ++ List.replicate (size - lens.length) 0) := by
  rw [padLens, List.length_map, nibbles_append, nibbles_replicate]
  rfl

theorem padded_length (hlen : lens.length ≤ size) : (lens ++ List.replicate (size - lens.length) 0).length = size := by
  rw [List.length_append, List.length_replicate, Nat.add_sub_cancel' hlen]

theorem padded_lt (hlt : ∀ l ∈ lens, l < 16) (n : Nat) : ∀ l ∈ lens ++ List.replicate n 0, l < 16 := by
  intro l hl
  rcases List.mem_append.1 hl with hl | hl
  · exact hlt l hl
  · rw [List.eq_of_mem_replicate hl]
    decide

/-- Loading the padded lengths makes the table of the statements, whatever the table held before. -/
theorem DecTable.load_padLens (t : DecTable) (hlen : lens.length ≤ size) (hlt : ∀ l ∈ lens, l < 16) :
    t.load (padLens size (nibbles lens)) = builtTable size lens := by
  have hpadded := padded_length hlen
  rw [padLens_nibbles, DecTable.load_eq_builtTable, nibbles_toNat (padded_lt hlt _), List.length_map, hpadded]
  simp only [builtTable, hpadded, Nat.sub_self, List.replicate_zero, List.append_nil]

theorem builtTable_isOver (hlen : lens.length ≤ size) (hlt : ∀ l ∈ lens, l < 16) :
    (builtTable size lens).isOver size = true ↔ 2 ^ 15 < kraftTotal lens := by
  have hlens : (builtTable size lens).lens size = lens ++ List.replicate (size - lens.length) 0 := by
    rw [DecTable.lens, builtTable, List.take_of_length_le (by rw [List.length_map, padded_length hlen]),
      nibbles_toNat (padded_lt hlt _)]
  rw [DecTable.isOver_iff, hlens, kraftTotal_append_zeros]

theorem builtTable_decodes (hlen : lens.length = size) (hcode : PrefixCode lens) :
    (builtTable size lens).Decodes lens := by
  have hpadded : lens ++ List.replicate (size - lens.length) 0 = lens := by
    rw [hlen, Nat.sub_self, List.replicate_zero, List.append_nil]
  refine ⟨?_, ?_, hcode⟩ <;> simp only [builtTable, hpadded]
  rfl

end

/-- What the tables of `lens` make of the header: cause 6 or 7 of R271, or the header. -/
theorem buildDynTables_nibbles {hlit hdist hclen : Nat} (ll dist cl : DecTable) {lens : List Nat} (hlit_le : hlit ≤ 288)
    (hdist_le : hdist ≤ 32) (hlen : lens.length = hlit + hdist) (hlt : ∀ l ∈ lens, l < 16) (p : InPort) :
    buildDynTables hlit hdist hclen ll dist cl (nibbles lens) p =
      if lens.getD 256 0 = 0 ∨ 2 ^ 15 < kraftTotal (lens.take hlit) ∨ 2 ^ 15 < kraftTotal (lens.drop hlit) then
        .malformed p
      else .done ⟨hlit, hdist, hclen, builtTable 288 (lens.take hlit), builtTable 32 (lens.drop hlit), cl⟩ p := by
  have htake : (lens.take hlit).length ≤ 288 := (List.length_take_le ..).trans hlit_le
  have hdrop : (lens.drop hlit).length ≤ 32 := by
    rw [List.length_drop]
    omega
  have htake_lt : ∀ l ∈ lens.take hlit, l < 16 := fun l hl => hlt l (List.mem_of_mem_take hl)
  have hdrop_lt : ∀ l ∈ lens.drop hlit, l < 16 := fun l hl => hlt l (List.mem_of_mem_drop hl)
  have hend : (nibbles lens).getD 256 0 = 0 ↔ lens.getD 256 0 = 0 := by
    have hget : (nibbles lens).getD 256 0 = BitVec.ofNat 4 (lens.getD 256 0) := List.getD_map lens 0 (BitVec.ofNat 4)
    have hval := toNat_ofNat_of_lt (w := 4) (Nat.lt_succ_of_le
      (getD_le_of_forall_le (fun l hl => Nat.le_of_lt_succ (hlt l hl)) 256))
    rw [hget, ← BitVec.toNat_inj, hval]
    rfl
  have hover := (Bool.or_eq_true_iff (x := (builtTable 288 (lens.take hlit)).isOver 288)
    (y := (builtTable 32 (lens.drop hlit)).isOver 32)).trans
      (or_congr (builtTable_isOver htake htake_lt) (builtTable_isOver hdrop hdrop_lt))
  unfold buildDynTables
  rw [nibbles, ← List.map_take, ← List.map_drop, DecTable.load_padLens ll htake htake_lt,
    DecTable.load_padLens dist hdrop hdrop_lt]
  by_cases h256 : lens.getD 256 0 = 0
  · rw [if_pos (hend.2 h256), if_pos (.inl h256)]
  · rw [if_neg (mt hend.1 h256)]
    exact if_congr (hover.trans (or_iff_right h256).symm) rfl rfl

/-! ## Reading a header (R270) -/

/-- HD_DYNHDR's reading after counts in range. -/
def readDynTables (hlit hdist hclen : Nat) (ll dist cl : DecTable) (p : InPort) : Read DynHeader :=
  (readClLens clOrder hclen (List.replicate 19 0) p).andThen fun clLens p1 =>
    if (cl.load clLens).isOver 19 then .malformed p1
    else (readLens (cl.load clLens) (hlit + hdist) (hlit + hdist) [] p1).andThen
      (buildDynTables hlit hdist hclen ll dist (cl.load clLens))

/-- HD_DYNHDR's reading after a code-length code that is not over-subscribed. -/
def readDynLens (hlit hdist hclen : Nat) (ll dist cl : DecTable) (p : InPort) : Read DynHeader :=
  (readLens cl (hlit + hdist) (hlit + hdist) [] p).andThen (buildDynTables hlit hdist hclen ll dist cl)

section

variable {hlit hdist hclen : Nat} {ll dist clTab : DecTable} {cl lens : List Nat} {items : List RleItem}
  {cs rest : List Bool} {out : InPort → Read DynHeader}

/-- The counts of a header fit their 5, 5 and 4 bits. -/
abbrev countsFit (hlit hdist hclen : Nat) : Prop :=
  (257 ≤ hlit ∧ hlit ≤ 288) ∧ (1 ≤ hdist ∧ hdist ≤ 32) ∧ 4 ≤ hclen ∧ hclen ≤ 19

theorem readDynHeader_counts (hfit : countsFit hlit hdist hclen)
    (hk : Reads (fun p => if 286 < hlit || 30 < hdist then .malformed p
      else readDynTables hlit hdist hclen ll dist clTab p) cs rest out) :
    Reads (readDynHeader ll dist clTab) (headerCounts hlit hdist hclen ++ cs) rest out := by
  obtain ⟨⟨hl1, hl2⟩, ⟨hd1, hd2⟩, hc1, hc2⟩ := hfit
  rw [headerCounts, List.append_assoc, List.append_assoc]
  refine (readBits_reads (n := 5) (v := hlit - 257) (by omega)).andThen
    ((readBits_reads (n := 5) (v := hdist - 1) (by omega)).andThen
      ((readBits_reads (n := 4) (v := hclen - 4) (by omega)).andThen (hk.congr fun p => ?_)))
  rw [Nat.sub_add_cancel hl1, Nat.sub_add_cancel hd1, Nat.sub_add_cancel hc1]
  rfl

theorem countsFit_of_startLegal (h : startLegal hlit hdist hclen cl) : countsFit hlit hdist hclen := by
  obtain ⟨⟨hl1, hl2⟩, ⟨hd1, hd2⟩, hc, -⟩ := h
  exact ⟨⟨hl1, by omega⟩, ⟨hd1, by omega⟩, hc⟩

/-- The start of a header leads to its code-length code, which is over-subscribed or decodes the items. -/
theorem readDynHeader_start (h : startLegal hlit hdist hclen cl)
    (hk : Reads (fun p => if 2 ^ 15 < kraftTotal cl then .malformed p
      else readDynLens hlit hdist hclen ll dist (builtTable 19 cl) p) cs rest out) :
    Reads (readDynHeader ll dist clTab) (headerStart hlit hdist hclen cl ++ cs) rest out := by
  have hfit := countsFit_of_startLegal h
  obtain ⟨⟨-, hl⟩, ⟨-, hd⟩, -, hlen, hle, hzero⟩ := h
  have hlt : ∀ l ∈ cl, l < 16 := fun l hl => (Nat.lt_succ_of_le (hle l hl)).trans (by decide)
  have hload : clTab.load (nibbles cl) = builtTable 19 cl := by
    have hpad := padLens_nibbles 19 cl
    rw [hlen, Nat.sub_self, List.replicate_zero, List.append_nil] at hpad
    rw [← hpad, DecTable.load_padLens clTab hlen.le hlt]
  have hlens := readClLens_reads (f := fun m => cl.getD m 0) (fun m => Nat.lt_succ_of_le (getD_le_of_forall_le hle m))
    (forall_mem_drop_clOrder.2 hzero) (List.replicate 19 0) (cs ++ rest)
  rw [writePlaces_clOrder, map_getD_range hlen] at hlens
  rw [headerStart, List.append_assoc]
  refine readDynHeader_counts hfit (Reads.congr (read' := readDynTables hlit hdist hclen ll dist clTab)
    (hlens.andThen (hk.congr fun p => ?_)) fun p => ?_)
  · rw [hload]
    exact if_congr (builtTable_isOver hlen.le hlt) rfl rfl
  · exact if_neg (by simp; omega)

theorem readDynHeader_lens (h : startLegal hlit hdist hclen cl) (hfits : kraftTotal cl ≤ 2 ^ 15)
    (hk : Reads (readDynLens hlit hdist hclen ll dist (builtTable 19 cl)) cs rest out) :
    Reads (readDynHeader ll dist clTab) (headerStart hlit hdist hclen cl ++ cs) rest out :=
  readDynHeader_start h (hk.congr fun _ => if_neg (Nat.not_lt.2 hfits))

theorem headerSoFar.decodes (h : headerSoFar hlit hdist hclen cl lens items) : (builtTable 19 cl).Decodes cl := by
  obtain ⟨⟨-, -, -, hlen, hle, -⟩, hfits, -⟩ := h
  exact builtTable_decodes hlen ⟨fun l hl => (hle l hl).trans (by decide), hfits⟩

theorem headerSoFar.lens_lt (h : headerSoFar hlit hdist hclen cl lens items) : ∀ l ∈ lens, l < 16 := by
  obtain ⟨-, -, -, hexp⟩ := h
  exact expandItems_lt hexp fun _ hl => absurd hl List.not_mem_nil

/-- After the items the loop goes on with the lengths they stand for. -/
theorem headerSoFar.readLens_items (h : headerSoFar hlit hdist hclen cl lens items) (hle : lens.length ≤ hlit + hdist)
    {out : InPort → Read (List (BitVec 4))}
    (hk : Reads (readLens (builtTable 19 cl) (hlit + hdist) (hlit + hdist - items.length) (nibbles lens)) cs rest out) :
    Reads (readLens (builtTable 19 cl) (hlit + hdist) (hlit + hdist) []) (itemBits cl items ++ cs) rest out := by
  have hdec := h.decodes
  obtain ⟨-, -, hitems, hexp⟩ := h
  have hgrow := expandItems_length_le hexp
  have hread := Machine.readLens_items hdec hitems hexp hle hk
  rwa [Nat.add_sub_cancel' (by omega)] at hread

/-- A header whose items stand for all its lengths is read to its end, where its tables show cause 6 or 7 of R271 or
are built. -/
theorem headerSoFar.readDynHeader_reads (h : headerSoFar hlit hdist hclen cl lens items)
    (hlen : lens.length = hlit + hdist) (rest : List Bool) :
    Reads (readDynHeader ll dist clTab) (headerBits hlit hdist hclen cl items) rest fun p =>
      if lens.getD 256 0 = 0 ∨ 2 ^ 15 < kraftTotal (lens.take hlit) ∨ 2 ^ 15 < kraftTotal (lens.drop hlit) then
        .malformed p
      else .done ⟨hlit, hdist, hclen, builtTable 288 (lens.take hlit), builtTable 32 (lens.drop hlit),
        builtTable 19 cl⟩ p := by
  have hlens := h.readLens_items (rest := rest) hlen.le (.of_eq (readLens_of_le hlen.ge))
  rw [List.append_nil] at hlens
  have hlt := h.lens_lt
  obtain ⟨hstart, hfits, -⟩ := h
  obtain ⟨⟨-, hl⟩, ⟨-, hd⟩, -⟩ := id hstart
  refine readDynHeader_lens hstart hfits (hlens.andThen_of_eq fun p => ?_)
  exact buildDynTables_nibbles ll dist _ (by omega) (by omega) hlen hlt p

/-- The causes 3 to 5 of R271 end the reading of a header at the bits that show them. -/
theorem headerSoFar.readDynHeader_bad (h : headerSoFar hlit hdist hclen cl lens items)
    (hlt : lens.length < hlit + hdist) {bad : List Bool} (hbad : BadItem cl (hlit + hdist) lens bad)
    (rest : List Bool) :
    Reads (readDynHeader ll dist clTab) (headerStart hlit hdist hclen cl ++ itemBits cl items ++ bad) rest
      .malformed := by
  have hdec := h.decodes
  have hlens : Reads (readLens (builtTable 19 cl) (hlit + hdist) (hlit + hdist) []) (itemBits cl items ++ bad) rest
      .malformed := by
    refine h.readLens_items hlt.le ?_
    obtain ⟨-, -, -, hexp⟩ := h
    have hgrow := expandItems_length_le hexp
    obtain ⟨fuel, hfuel⟩ : ∃ fuel, hlit + hdist - items.length = fuel + 1 :=
      ⟨hlit + hdist - items.length - 1, by omega⟩
    rw [hfuel]
    exact readLens_bad hdec hbad hlt rest
  obtain ⟨hstart, hfits, -⟩ := h
  rw [List.append_assoc]
  exact readDynHeader_lens hstart hfits (hlens.andThen_malformed _)

end

/-! ## The causes of DATA_ERROR (R271) -/

theorem itemBits_append_singleton (cl : List Nat) (items : List RleItem) (x : RleItem) :
    itemBits cl (items ++ [x]) = itemBits cl items ++ (canonBits cl x.sym ++ bitsLsb x.nbits x.extra) := by
  rw [itemBits, List.flatMap_append, List.flatMap_singleton, itemBits]

theorem itemsLegal_append_singleton {cl lens more : List Nat} {items : List RleItem} {x : RleItem}
    (h : itemsLegal cl lens items) : itemsLegal cl more (items ++ [x]) ↔
      (x.legal ∧ cl.getD x.sym 0 ≠ 0) ∧ ∃ run, x.run lens = some run ∧ lens ++ run = more := by
  obtain ⟨hitems, hexp⟩ := h
  rw [itemsLegal, List.forall_mem_append, List.forall_mem_singleton, expandItems_append, hexp, Option.bind_some,
    expandItems_cons, Option.bind_eq_some_iff, and_iff_right hitems]
  exact and_congr_right fun _ => exists_congr fun run => and_congr_right fun _ => Option.some_inj

section

variable {hlit hdist hclen : Nat} {cl lens : List Nat} {items : List RleItem}

/-- A failure of the loop is one of the causes 3 to 5 of R271. -/
theorem BadHeader.of_badItem (h : headerSoFar hlit hdist hclen cl lens items) (hlt : lens.length < hlit + hdist)
    {bad : List Bool} (hbad : BadItem cl (hlit + hdist) lens bad) :
    BadHeader (headerStart hlit hdist hclen cl ++ itemBits cl items ++ bad) := by
  cases hbad with
  | noCodeword _ hlen hno => exact .noCodeword hlit hdist hclen cl lens items bad h hlt hlen hno
  | repeatFirst hnil hne =>
    subst hnil
    obtain ⟨-, -, -, hexp⟩ := id h
    obtain rfl : items = [] := by
      have hgrow := expandItems_length_le hexp
      exact List.length_eq_zero_iff.1 (by simpa using hgrow)
    rw [itemBits, List.flatMap_nil, List.append_nil]
    exact .repeatFirst hlit hdist hclen cl h hne
  | pastEnd x run hlegal hne hrun hpast =>
    obtain ⟨hstart, hfits, hitems⟩ := id h
    rw [List.append_assoc, ← itemBits_append_singleton]
    exact .pastEnd hlit hdist hclen cl lens (lens ++ run) items x h hlt
      ⟨hstart, hfits, (itemsLegal_append_singleton hitems).2 ⟨⟨hlegal, hne⟩, run, hrun, rfl⟩⟩ hpast

end

/-- Bits that show a cause of R271 are malformed, whatever follows them. -/
theorem BadHeader.readDynHeader_reads {bad : List Bool} (hbad : BadHeader bad) (ll dist clTab : DecTable)
    (rest : List Bool) : Reads (readDynHeader ll dist clTab) bad rest .malformed := by
  cases hbad with
  | counts hlit hdist hclen hl1 hl2 hd1 hd2 hc1 hc2 hbad =>
    rw [← List.append_nil (headerCounts ..)]
    refine readDynHeader_counts ⟨⟨hl1, hl2⟩, ⟨hd1, hd2⟩, hc1, hc2⟩ (.of_eq fun p => if_pos ?_)
    simpa using hbad
  | clOver hlit hdist hclen cl hstart hover =>
    rw [← List.append_nil (headerStart ..)]
    exact readDynHeader_start hstart (.of_eq fun p => if_pos hover)
  | noCodeword hlit hdist hclen cl lens items bits h hlt hlen hno =>
    exact h.readDynHeader_bad hlt (.noCodeword bits hlen hno) rest
  | repeatFirst hlit hdist hclen cl h hne =>
    obtain ⟨⟨⟨hl, -⟩, -⟩, -⟩ := id h
    have hread := h.readDynHeader_bad (ll := ll) (dist := dist) (clTab := clTab) (by rw [List.length_nil]; omega)
      (.repeatFirst rfl hne) rest
    rwa [itemBits, List.flatMap_nil, List.append_nil] at hread
  | pastEnd hlit hdist hclen cl lens more items x h hlt hmore hpast =>
    obtain ⟨-, -, hitems⟩ := id h
    obtain ⟨-, -, hlonger⟩ := hmore
    obtain ⟨⟨hlegal, hne⟩, run, hrun, rfl⟩ := (itemsLegal_append_singleton hitems).1 hlonger
    rw [itemBits_append_singleton, ← List.append_assoc]
    exact h.readDynHeader_bad hlt (.pastEnd x run hlegal hne hrun hpast) rest
  | noEndOfBlock hlit hdist hclen cl lens items h hlen hend =>
    exact (h.readDynHeader_reads hlen rest).out_congr fun p => if_pos (.inl hend)
  | tableOver hlit hdist hclen cl lens items h hlen hend hover =>
    exact (h.readDynHeader_reads hlen rest).out_congr fun p => if_pos (.inr hover)

theorem headerCounts_split (ll dist clTab : DecTable) (bits : List Bool) :
    Holds (readDynHeader ll dist clTab) bits ∨
    ∃ hlit hdist hclen rest, countsFit hlit hdist hclen ∧ bits = headerCounts hlit hdist hclen ++ rest := by
  rcases readBits_split 5 bits with hshort | ⟨x, bits1, hx, rfl⟩
  · exact .inl (hshort.andThen_short _)
  rcases readBits_split 5 bits1 with hshort | ⟨y, bits2, hy, rfl⟩
  · exact .inl ((readBits_reads hx).andThen_holds (hshort.andThen_short _))
  rcases readBits_split 4 bits2 with hshort | ⟨z, rest, hz, rfl⟩
  · exact .inl ((readBits_reads hx).andThen_holds ((readBits_reads hy).andThen_holds (hshort.andThen_short _)))
  · refine .inr ⟨x + 257, y + 1, z + 4, rest, ⟨⟨by omega, by omega⟩, ⟨by omega, by omega⟩, by omega, by omega⟩, ?_⟩
    simp only [headerCounts, Nat.add_sub_cancel, List.append_assoc]

/-- The bits show a cause of R271. -/
def ShowsCause (bits : List Bool) : Prop := ∃ bad rest, BadHeader bad ∧ bits = bad ++ rest

/-- Any bits are too short for the start of a header, or show cause 1 or 2 of R271, or begin with a legal start. -/
theorem headerStart_split (ll dist clTab : DecTable) (bits : List Bool) :
    Holds (readDynHeader ll dist clTab) bits ∨ ShowsCause bits ∨
    ∃ hlit hdist hclen cl rest, startLegal hlit hdist hclen cl ∧ kraftTotal cl ≤ 2 ^ 15 ∧
      bits = headerStart hlit hdist hclen cl ++ rest := by
  rcases headerCounts_split ll dist clTab bits with hshort | ⟨hlit, hdist, hclen, bits1, hfit, rfl⟩
  · exact .inl hshort
  obtain ⟨⟨hl1, hl2⟩, ⟨hd1, hd2⟩, hc1, hc2⟩ := id hfit
  by_cases hcounts : 286 < hlit ∨ 30 < hdist
  · exact .inr (.inl ⟨_, bits1, .counts hlit hdist hclen hl1 hl2 hd1 hd2 hc1 hc2 hcounts, rfl⟩)
  rcases clLens_split hclen bits1 with hshort | ⟨cl, bits2, hlen, hle, hzero, rfl⟩
  · have hread := readDynHeader_counts (ll := ll) (dist := dist) (clTab := clTab) hfit
      ((hshort.andThen_short _).congr fun p => if_neg (by simpa using hcounts))
    rw [List.append_nil] at hread
    exact .inl hread.holds
  have hstart : startLegal hlit hdist hclen cl :=
    ⟨⟨hl1, by omega⟩, ⟨hd1, by omega⟩, ⟨hc1, hc2⟩, hlen, hle, hzero⟩
  rw [← List.append_assoc, ← headerStart]
  rcases Nat.lt_or_ge (2 ^ 15) (kraftTotal cl) with hover | hfits
  · exact .inr (.inl ⟨_, bits2, .clOver hlit hdist hclen cl hstart hover, rfl⟩)
  · exact .inr (.inr ⟨hlit, hdist, hclen, cl, bits2, hstart, hfits, rfl⟩)

/-- Any bits are too short to tell, or show a cause of R271, or begin with a legal header. -/
theorem readDynHeader_split (ll dist clTab : DecTable) (bits : List Bool) :
    Holds (readDynHeader ll dist clTab) bits ∨ ShowsCause bits ∨
    ∃ hlit hdist hclen cl lens items rest, headerLegal hlit hdist hclen cl lens items ∧
      bits = headerBits hlit hdist hclen cl items ++ rest := by
  rcases headerStart_split ll dist clTab bits with
    hshort | hcause | ⟨hlit, hdist, hclen, cl, bits1, hstart, hfits, rfl⟩
  · exact .inl hshort
  · exact .inr (.inl hcause)
  have hempty : headerSoFar hlit hdist hclen cl [] [] := ⟨hstart, hfits, fun _ hx => absurd hx List.not_mem_nil, rfl⟩
  obtain ⟨-, -, -, hlen19, -⟩ := id hstart
  rcases readLens_split (acc := []) (fuel := hlit + hdist) hempty.decodes hlen19 (Nat.zero_le _)
    (Nat.le_add_left ..) bits1 with hshort | ⟨items, lens, cs, rest, hitems, hexp, rfl, ⟨hlen, rfl⟩ | ⟨hlt, hbad⟩⟩
  · have hread := readDynHeader_lens (ll := ll) (dist := dist) (clTab := clTab) hstart hfits (hshort.andThen_short _)
    rw [List.append_nil] at hread
    exact .inl hread.holds
  all_goals have hsofar : headerSoFar hlit hdist hclen cl lens items := ⟨hstart, hfits, hitems, hexp⟩
  · rw [List.nil_append, ← List.append_assoc, ← headerBits]
    by_cases hend : lens.getD 256 0 = 0
    · exact .inr (.inl ⟨_, rest, .noEndOfBlock hlit hdist hclen cl lens items hsofar hlen hend, rfl⟩)
    by_cases hover : 2 ^ 15 < kraftTotal (lens.take hlit) ∨ 2 ^ 15 < kraftTotal (lens.drop hlit)
    · exact .inr (.inl ⟨_, rest, .tableOver hlit hdist hclen cl lens items hsofar hlen hend hover, rfl⟩)
    · obtain ⟨hll, hdist'⟩ := not_or.1 hover
      exact .inr (.inr ⟨hlit, hdist, hclen, cl, lens, items, rest,
        ⟨hsofar, hlen, hend, Nat.not_lt.1 hll, Nat.not_lt.1 hdist'⟩, rfl⟩)
  · exact .inr (.inl ⟨_, rest, .of_badItem hsofar hlt hbad, by simp only [List.append_assoc]⟩)

/-! ## HD_DYNHDR (R270) -/

section

variable {s : State} (hs : s.decoding) {p : InPort}

include hs

theorem exec_hdDynhdr_of_done {h : DynHeader} (hread : readDynHeader s.hdLL s.hdDist s.hdCl s.inp = .done h p) :
    exec .hdDynhdr s = .next { s with
      inp := p, hdLL := h.ll, hdDist := h.dist, hdCl := h.cl, res0 := BitVec.ofNat 32 h.hlit,
      res1 := BitVec.ofNat 9 h.hdist, res2 := BitVec.ofNat 16 h.hclen, status := 0 } := by
  rw [exec, execHdDynhdr, State.checks_of_decoding hs, hread]
  rfl

theorem exec_hdDynhdr_of_short (hread : readDynHeader s.hdLL s.hdDist s.hdCl s.inp = .short) :
    exec .hdDynhdr s = .next { s with status := 3 } := by
  rw [exec, execHdDynhdr, State.checks_of_decoding hs, hread]
  rfl

theorem exec_hdDynhdr_of_malformed (hread : readDynHeader s.hdLL s.hdDist s.hdCl s.inp = .malformed p) :
    exec .hdDynhdr s = .next { s with
      inp := p, derr := true, hdLL := { s.hdLL with valid := false }, hdDist := { s.hdDist with valid := false },
      hdCl := { s.hdCl with valid := false }, status := 0xFD } := by
  rw [exec, execHdDynhdr, State.checks_of_decoding hs, hread]
  rfl

end

/-- A legal header is read back. -/
theorem headerLegal.readDynHeader_reads {hlit hdist hclen : Nat} {cl lens : List Nat} {items : List RleItem}
    (h : headerLegal hlit hdist hclen cl lens items) (ll dist clTab : DecTable) (rest : List Bool) :
    Reads (readDynHeader ll dist clTab) (headerBits hlit hdist hclen cl items) rest
      (.done ⟨hlit, hdist, hclen, builtTable 288 (lens.take hlit), builtTable 32 (lens.drop hlit),
        builtTable 19 cl⟩) := by
  obtain ⟨hsofar, hlen, hend, hll, hdist⟩ := h
  refine (hsofar.readDynHeader_reads hlen rest).out_congr fun p => if_neg ?_
  simp only [not_or, Nat.not_lt]
  exact ⟨hend, hll, hdist⟩

/-- Settles O42: the reader takes the header's parts one after the other (`headerSoFar.readDynHeader_reads`). -/
theorem hdDynhdrReadsBackAHeader : Obligations.HdDynhdrReadsBackAHeader := by
  intro s hlit hdist hclen cl lens items rest hs hlegal hstream
  exact exec_hdDynhdr_of_done hs (hlegal.readDynHeader_reads _ _ _ rest _ hstream)

/-- Settles O43: bits that show a cause are malformed, and all other input holds or begins with a legal header
(`readDynHeader_split`). -/
theorem hdDynhdrFailureInvalidatesTheTables : Obligations.HdDynhdrFailureInvalidatesTheTables := by
  intro s hs failed
  have fails : ∀ bits rest : List Bool, BadHeader bits → s.inp.stream = bits ++ rest →
      exec .hdDynhdr s = .next (failed bits.length) := fun bits rest hbad hstream =>
    exec_hdDynhdr_of_malformed hs (hbad.readDynHeader_reads _ _ _ rest _ hstream)
  refine ⟨fails, fun t ht hstatus => ?_⟩
  rcases readDynHeader_split s.hdLL s.hdDist s.hdCl s.inp.stream with
    hshort | ⟨bits, rest, hbad, hstream⟩ | ⟨hlit, hdist, hclen, cl, lens, items, rest, hlegal, hstream⟩
  · rw [exec_hdDynhdr_of_short hs (hshort _ rfl)] at ht
    cases ht
    cases hstatus
  · rw [fails bits rest hbad hstream] at ht
    cases ht
    exact ⟨bits, rest, hbad, hstream, rfl⟩
  · rw [exec_hdDynhdr_of_done hs (hlegal.readDynHeader_reads _ _ _ rest _ hstream)] at ht
    cases ht
    cases hstatus

end Sys2Proof.Machine

/-! The family of 45_lz77.md: the match finder. A search is told in positions (`State.walkAt`): the chain is
`State.candidates` with the bytes from each on (`State.chain_eq`), and the walk sees of a candidate only how far it
agrees (`State.walkAt_cons`). So a search is R303's loop over the candidates it walks (`State.walkAt_eq_foldl`), what
it finds is real (`State.longest_real`), and bytes past its reach do not matter (`State.fed_longest`). -/

namespace Sys2Proof.Machine

/-! ## How far two places agree (R303) -/

theorem le_length_takeWhile_range_iff {p : Nat → Bool} {k n : Nat} :
    k ≤ ((List.range n).takeWhile p).length ↔ k ≤ n ∧ ∀ i < k, p i = true := by
  induction n generalizing p k with
  | zero => simp +contextual
  | succ n ih =>
    cases k with
    | zero => simp
    | succ k =>
      rw [List.range_succ_eq_map, List.takeWhile_cons, Nat.forall_lt_succ_left]
      by_cases h : p 0 = true
      · simp [h, List.takeWhile_map, ih]
      · simp [h]

namespace State

variable {s : State} {q j k : Nat}

theorem le_agree_iff : k ≤ s.agree q j ↔ k ≤ s.maxLenAt q ∧ ∀ i < k, s.byteAt (j + i) = s.byteAt (q + i) := by
  simp only [agree, le_length_takeWhile_range_iff, beq_iff_eq]

theorem agree_le_maxLenAt (s : State) (q j : Nat) : s.agree q j ≤ s.maxLenAt q := (le_agree_iff.1 (Nat.le_refl _)).1

theorem byteAt_of_lt_agree {i : Nat} (h : i < s.agree q j) : s.byteAt (j + i) = s.byteAt (q + i) :=
  (le_agree_iff.1 (Nat.le_refl _)).2 i h

theorem maxLenAt_le (s : State) (q : Nat) : s.maxLenAt q ≤ 258 ∧ s.maxLenAt q ≤ s.stream.length - q :=
  ⟨Nat.min_le_left .., Nat.min_le_right ..⟩

theorem matchLen_eq_agree (hj : j ≤ q) :
    matchLen (s.maxLenAt q) (s.stream.drop j) (s.stream.drop q) = s.agree q j := by
  have hmax := (s.maxLenAt_le q).2
  rw [matchLen_eq _ _ _ (by rw [List.length_drop]; omega) (by rw [List.length_drop]; exact hmax), agree]
  simp only [byteAt, List.getD_eq_getElem?_getD, List.getElem?_drop]

/-! ## Hash and chain (R300, R302) -/

theorem drop_eq_byteAt_cons (h : j < s.stream.length) : s.stream.drop j = s.byteAt j :: s.stream.drop (j + 1) := by
  rw [byteAt, List.getD_eq_getElem _ _ h, List.cons_getElem_drop_succ]

theorem hash_drop (h : j + 2 < s.stream.length) :
    hash s.cfg.hashBits.toNat (s.stream.drop j) = some (s.hashAt j) := by
  rw [drop_eq_byteAt_cons (by omega), drop_eq_byteAt_cons (by omega), drop_eq_byteAt_cons h]
  rfl

/-- A position of the stream and the bytes from it on. -/
def suffixAt (s : State) (j : Nat) : Suffix := (j, s.stream.drop j)

end State

theorem suffixes_eq_map (p : Nat) (xs : List Byte) :
    suffixes p xs = (List.range xs.length).map fun i => (p + i, xs.drop i) := by
  induction xs generalizing p with
  | nil => rfl
  | cons x xs ih =>
    rw [suffixes, ih, List.length_cons, List.range_succ_eq_map, List.map_cons, List.map_map]
    simp [Function.comp_def, Nat.add_assoc, Nat.add_comm 1]

/-- A filter that lets nothing at or above `q` through needs the range up to `q` only. -/
theorem filter_range_of_lt {p : Nat → Bool} {q n : Nat} (hq : q ≤ n) (hp : ∀ j, p j = true → j < q) :
    (List.range n).filter p = (List.range q).filter p := by
  obtain ⟨m, rfl⟩ := Nat.exists_eq_add_of_le hq
  have hlater : ((List.range m).map (q + ·)).filter p = [] := by
    simp only [List.filter_eq_nil_iff, List.forall_mem_map]
    exact fun i _ h => absurd (hp _ h) (by omega)
  rw [List.range_add, List.filter_append, hlater, List.append_nil]

namespace State

variable {s : State} {q j k budget : Nat} {cs : List Nat} {r : Nat × Nat}

theorem mem_candidates_iff :
    j ∈ s.candidates q ↔
      j < q ∧ s.mfBase ≤ j ∧ q ≤ j + 2 ^ s.cfg.wbits.toNat ∧ s.hashAt j = s.hashAt q := by
  simp [candidates]

theorem lt_of_mem_candidates (h : j ∈ s.candidates q) : j < q := (mem_candidates_iff.1 h).1

/-- The candidates stand newest first. -/
theorem candidates_pairwise (s : State) (q : Nat) : (s.candidates q).Pairwise (· > ·) :=
  (List.pairwise_reverse.2 List.pairwise_lt_range).filter _

theorem candidates_length_le (s : State) (q : Nat) : (s.candidates q).length ≤ q :=
  (List.length_filter_le ..).trans (by rw [List.length_reverse, List.length_range])

/-- The chain is the candidates of R302, each with the bytes from it on. -/
theorem chain_eq (h : q + 3 ≤ s.stream.length) : s.chain q = (s.candidates q).map s.suffixAt := by
  have hsuffixes : suffixes 0 s.stream = (List.range s.stream.length).map s.suffixAt := by
    rw [suffixes_eq_map]
    exact List.map_congr_left fun j _ => by rw [Nat.zero_add]; rfl
  rw [chain, hsuffixes, List.filter_map, ← List.map_reverse, filter_range_of_lt (show q ≤ s.stream.length by omega),
    candidates, List.filter_reverse]
  · refine congrArg (fun js : List Nat => js.reverse.map s.suffixAt) (List.filter_congr fun j hj => ?_)
    have hj : j < q := List.mem_range.1 hj
    rw [Function.comp_apply, suffixAt, hash_drop (show j + 2 < _ by omega), hash_drop (show q + 2 < _ by omega),
      chainFloor, window, Bool.eq_iff_iff]
    simp [hj, and_assoc]
  · intro j hj
    simp only [Function.comp_apply, Bool.and_eq_true, decide_eq_true_eq] at hj
    obtain ⟨⟨-, hlt⟩, -⟩ := hj
    exact hlt

/-! ## The walk over the candidates (R303) -/

/-- The walk over the positions `cs` from the best match `r` so far. -/
def walkAt (s : State) (q budget : Nat) (cs : List Nat) (r : Nat × Nat) : Nat × Nat :=
  walk s.cfg.niceLen.toNat (s.maxLenAt q) q (s.stream.drop q) budget (cs.map s.suffixAt) r.1 r.2

/-- The best match once the candidate `j` is seen: only a strictly longer one replaces it. -/
def better (s : State) (q : Nat) (r : Nat × Nat) (j : Nat) : Nat × Nat :=
  if r.1 < s.agree q j then (s.agree q j, q - j) else r

theorem walkAt_zero (s : State) (q : Nat) (cs : List Nat) (r : Nat × Nat) : s.walkAt q 0 cs r = r := rfl

theorem walkAt_nil (s : State) (q budget : Nat) (r : Nat × Nat) : s.walkAt q budget [] r = r := by
  cases budget <;> rfl

theorem walkAt_cons (hj : j ≤ q) (budget : Nat) (cs : List Nat) (r : Nat × Nat) :
    s.walkAt q (budget + 1) (j :: cs) r =
      if r.1 < s.agree q j ∧ s.endsSearch q j then s.better q r j
      else s.walkAt q budget cs (s.better q r j) := by
  rw [walkAt, List.map_cons, walk, suffixAt, matchLen_eq_agree hj, better]
  by_cases hlt : r.1 < s.agree q j
  · simp [hlt, walkAt, endsSearch]
  · simp [hlt, walkAt]

theorem longest_of_short (h : s.stream.length - q < 3) (budget : Nat) : s.longest q budget = (0, 0) := if_pos h

theorem longest_eq (h : ¬ s.stream.length - q < 3) (budget : Nat) :
    s.longest q budget =
      let r := s.walkAt q budget (s.candidates q) (0, 0)
      if 3 ≤ r.1 then r else (0, 0) := by
  rw [longest, chain_eq (by omega)]
  exact if_neg h

/-- The walk ends with the match it began with or with one of the candidates. -/
theorem walkAt_eq_or_mem (hcs : ∀ j ∈ cs, j < q) :
    s.walkAt q budget cs r = r ∨ ∃ j ∈ cs, s.walkAt q budget cs r = (s.agree q j, q - j) := by
  induction cs generalizing budget r with
  | nil => exact .inl (walkAt_nil ..)
  | cons j cs ih =>
    obtain ⟨hj, hcs⟩ := List.forall_mem_cons.1 hcs
    cases budget with
    | zero => exact .inl rfl
    | succ budget =>
      have hbetter : s.better q r j = r ∨ s.better q r j = (s.agree q j, q - j) := (ite_eq_or_eq ..).symm
      rw [walkAt_cons hj.le]
      split
      · exact hbetter.imp_right fun h => ⟨j, List.mem_cons_self, h⟩
      · rcases ih hcs (budget := budget) (r := s.better q r j) with heq | ⟨i, hi, heq⟩
        · rw [heq]
          exact hbetter.imp_right fun h => ⟨j, List.mem_cons_self, h⟩
        · exact .inr ⟨i, List.mem_cons_of_mem _ hi, heq⟩

/-- A search finds nothing or a candidate that agrees in 3 bytes or more. -/
theorem longest_eq_or_mem (s : State) (q budget : Nat) :
    s.longest q budget = (0, 0) ∨
      ∃ j ∈ s.candidates q, 3 ≤ s.agree q j ∧ s.longest q budget = (s.agree q j, q - j) := by
  by_cases h : s.stream.length - q < 3
  · exact .inl (longest_of_short h _)
  · rw [longest_eq h]
    dsimp only
    split
    · next hlong =>
      rcases walkAt_eq_or_mem (s := s) (budget := budget) (r := (0, 0)) fun j => lt_of_mem_candidates (q := q) with
        heq | ⟨j, hj, heq⟩
      · exact .inl heq
      · rw [heq] at hlong ⊢
        exact .inr ⟨j, hj, hlong, rfl⟩
    · exact .inl rfl

theorem longest_fst_le (s : State) (q budget : Nat) : (s.longest q budget).1 ≤ s.maxLenAt q := by
  rcases s.longest_eq_or_mem q budget with h | ⟨j, -, -, h⟩
  · rw [h]
    exact Nat.zero_le _
  · rw [h]
    exact s.agree_le_maxLenAt q j

theorem longest_zero (s : State) (q : Nat) : s.longest q 0 = (0, 0) := by
  by_cases h : s.stream.length - q < 3
  · exact longest_of_short h 0
  · rw [longest_eq h, walkAt_zero]
    rfl

/-! ## What a search finds at P (R309, R315) -/

/-- A match at P that a decoder can copy: R309's bounds on its length and its distance, and the bytes agree. -/
structure RealMatch (s : State) (len dist : Nat) : Prop where
  three_le : 3 ≤ len
  le_max : len ≤ 258
  le_la : len ≤ s.la.length
  dist_pos : 1 ≤ dist
  dist_le_window : dist ≤ 2 ^ s.cfg.wbits.toNat
  above_base : dist + s.mfBase ≤ s.hist.length
  bytes : ∀ i < len, s.byteAt (s.hist.length + i) = s.byteAt (s.hist.length + i - dist)

theorem stream_length (s : State) : s.stream.length = s.hist.length + s.la.length := List.length_append

theorem realMatch_of_candidate (hj : j ∈ s.candidates s.hist.length) (hlong : 3 ≤ s.agree s.hist.length j) :
    s.RealMatch (s.agree s.hist.length j) (s.hist.length - j) := by
  obtain ⟨hlt, hbase, hwin, -⟩ := mem_candidates_iff.1 hj
  have hle := s.agree_le_maxLenAt s.hist.length j
  obtain ⟨hmax, hend⟩ := s.maxLenAt_le s.hist.length
  rw [stream_length] at hend
  refine ⟨hlong, by omega, by omega, by omega, by omega, by omega, fun i hi => ?_⟩
  rw [← byteAt_of_lt_agree hi, show s.hist.length + i - (s.hist.length - j) = j + i by omega]

/-- MF_FIND and MF_STEP find nothing at P or a match that is real. -/
theorem longest_real (s : State) (budget : Nat) :
    s.longest s.hist.length budget = (0, 0) ∨
      s.RealMatch (s.longest s.hist.length budget).1 (s.longest s.hist.length budget).2 := by
  refine (s.longest_eq_or_mem s.hist.length budget).imp_right fun ⟨j, hj, hlong, heq⟩ => ?_
  rw [heq]
  exact realMatch_of_candidate hj hlong

/-- The bytes of a match are its last `dist` bytes before P, over and over: the first period is in hist, and a byte
after it equals the one a period before. -/
theorem RealMatch.byteAt_eq {len dist : Nat} (h : s.RealMatch len dist) {i : Nat} (hi : i < len) :
    s.byteAt (s.hist.length + i) = s.byteAt (s.hist.length - dist + i % dist) := by
  have hbase := h.above_base
  have hpos := h.dist_pos
  rw [h.bytes i hi]
  induction i using Nat.strong_induction_on with
  | _ i ih =>
    obtain hlt | hge := Nat.lt_or_ge i dist
    · rw [Nat.mod_eq_of_lt hlt, show s.hist.length + i - dist = s.hist.length - dist + i by omega]
    · rw [Nat.mod_eq_sub_mod hge, ← ih (i - dist) (by omega) (by omega), ← h.bytes (i - dist) (by omega)]
      exact congrArg s.byteAt (by omega)

theorem byteAt_hist (h : j < s.hist.length) : s.byteAt j = s.hist.getD j 0 := List.getD_append _ _ _ _ h

theorem byteAt_la (s : State) (i : Nat) : s.byteAt (s.hist.length + i) = s.la.getD i 0 := by
  rw [byteAt, stream, List.getD_append_right _ _ _ _ (Nat.le_add_right ..), Nat.add_sub_cancel_left]

/-- The bytes a match replaces are those its back-reference copies (R195). -/
theorem RealMatch.take_eq_copiedBytes {len dist : Nat} (h : s.RealMatch len dist) :
    s.la.take len = copiedBytes s.hist len dist := by
  have hle := h.le_la
  refine List.ext_getElem (by simp [copiedBytes, hle]) fun i hi _ => ?_
  have hi : i < len := by rw [List.length_take] at hi; omega
  have hmod : i % dist < dist := Nat.mod_lt _ h.dist_pos
  have hbase := h.above_base
  rw [List.getElem_take, ← List.getD_eq_getElem _ 0 (show i < s.la.length by omega), ← byteAt_la, h.byteAt_eq hi,
    byteAt_hist (by omega)]
  simp [copiedBytes]

/-! ## The longest of the candidates walked (R303) -/

/-- The candidates walked: `budget` of them, or up to the first that ends the search. -/
def walked (s : State) (q : Nat) : Nat → List Nat → List Nat
  | 0, _ => []
  | _ + 1, [] => []
  | budget + 1, j :: js => if s.endsSearch q j then [j] else j :: s.walked q budget js

theorem walked_cons_of_ends (h : s.endsSearch q j) (budget : Nat) (cs : List Nat) :
    s.walked q (budget + 1) (j :: cs) = [j] := if_pos h

theorem walked_cons_of_not_ends (h : ¬ s.endsSearch q j) (budget : Nat) (cs : List Nat) :
    s.walked q (budget + 1) (j :: cs) = j :: s.walked q budget cs := if_neg h

theorem better_fst_lt {n : Nat} (hr : r.1 < n) (hj : s.agree q j < n) : (s.better q r j).1 < n := by
  rw [better]
  split
  · exact hj
  · exact hr

/-- While the best so far does not end the search, a candidate that does is longer: the walk is R303's loop over the
candidates walked. -/
theorem walkAt_eq_foldl (hcs : ∀ j ∈ cs, j < q) (hnice : r.1 < s.cfg.niceLen.toNat) (hmax : r.1 < s.maxLenAt q) :
    s.walkAt q budget cs r = (s.walked q budget cs).foldl (s.better q) r := by
  induction cs generalizing budget r with
  | nil => cases budget <;> rfl
  | cons j cs ih =>
    obtain ⟨hj, hcs⟩ := List.forall_mem_cons.1 hcs
    cases budget with
    | zero => rfl
    | succ budget =>
      rw [walkAt_cons hj.le]
      by_cases hends : s.endsSearch q j
      · rw [walked_cons_of_ends hends, if_pos ⟨by rcases hends with h | h <;> omega, hends⟩]
        rfl
      · rw [walked_cons_of_not_ends hends, if_neg fun h => hends h.2, List.foldl_cons]
        obtain ⟨hnj, hmj⟩ := not_or.1 hends
        exact ih hcs (better_fst_lt hnice (Nat.not_le.1 hnj))
          (better_fst_lt hmax (Nat.lt_of_le_of_ne (s.agree_le_maxLenAt q j) hmj))

theorem walked_prefix (s : State) (q budget : Nat) (cs : List Nat) : s.walked q budget cs <+: cs := by
  fun_induction walked s q budget cs with
  | case1 => exact List.nil_prefix
  | case2 => exact List.nil_prefix
  | case3 _ j js => exact ⟨js, rfl⟩
  | case4 _ j js _ ih => exact List.cons_prefix_cons.2 ⟨rfl, ih⟩

theorem walked_length_le (s : State) (q budget : Nat) (cs : List Nat) : (s.walked q budget cs).length ≤ budget := by
  fun_induction walked s q budget cs with
  | case1 => exact Nat.le_refl _
  | case2 => exact Nat.zero_le _
  | case3 => exact Nat.succ_le_succ (Nat.zero_le _)
  | case4 _ _ _ _ ih => exact Nat.succ_le_succ ih

theorem not_endsSearch_of_mem_dropLast_walked (h : j ∈ (s.walked q budget cs).dropLast) : ¬ s.endsSearch q j := by
  fun_induction walked s q budget cs with
  | case1 => cases h
  | case2 => cases h
  | case3 => cases h
  | case4 budget i js hi ih =>
    match hrest : s.walked q budget js with
    | [] =>
      rw [hrest] at h
      cases h
    | a :: rest =>
      rw [hrest] at h ih
      rw [List.dropLast_cons_cons] at h
      rcases List.mem_cons.1 h with rfl | h
      · exact hi
      · exact ih h

/-- The walk ends only where the candidates, the budget or the search does. -/
theorem walked_complete (s : State) (q budget : Nat) (cs : List Nat) :
    s.walked q budget cs = cs ∨ (s.walked q budget cs).length = budget ∨
      ∃ j ∈ s.walked q budget cs, s.endsSearch q j := by
  fun_induction walked s q budget cs with
  | case1 => exact .inr (.inl rfl)
  | case2 => exact .inl rfl
  | case3 _ j _ hj => exact .inr (.inr ⟨j, List.mem_singleton_self j, hj⟩)
  | case4 _ j _ _ ih =>
    exact ih.imp (congrArg (j :: ·)) (.imp (congrArg (· + 1)) fun ⟨i, hi, hends⟩ =>
      ⟨i, List.mem_cons_of_mem j hi, hends⟩)

theorem walks_walked (s : State) (q budget : Nat) : s.walks q budget (s.walked q budget (s.candidates q)) :=
  ⟨walked_prefix .., walked_length_le .., fun _ => not_endsSearch_of_mem_dropLast_walked, walked_complete ..⟩

/-- Of candidates seen newest first the longest stays, and of those the nearest. -/
theorem foldl_better (hcs : cs.Pairwise (· > ·)) :
    ((∀ j ∈ cs, s.agree q j ≤ r.1) ∧ cs.foldl (s.better q) r = r) ∨
      ∃ j ∈ cs, r.1 < s.agree q j ∧
        (∀ i ∈ cs, s.agree q i < s.agree q j ∨ (s.agree q i = s.agree q j ∧ i ≤ j)) ∧
        cs.foldl (s.better q) r = (s.agree q j, q - j) := by
  induction cs generalizing r with
  | nil => exact .inl ⟨fun _ h => (List.not_mem_nil h).elim, rfl⟩
  | cons j cs ih =>
    obtain ⟨hj, hcs⟩ := List.pairwise_cons.1 hcs
    simp only [List.foldl_cons, List.forall_mem_cons, List.exists_mem_cons_iff]
    by_cases hlt : r.1 < s.agree q j
    · rw [better, if_pos hlt]
      rcases ih hcs (r := (s.agree q j, q - j)) with ⟨hall, heq⟩ | ⟨i, hi, hij, hbest, heq⟩
      · refine .inr (.inl ⟨hlt, ⟨.inr ⟨trivial, Nat.le_refl _⟩, fun i hi => ?_⟩, heq⟩)
        exact (Nat.lt_or_eq_of_le (hall i hi)).imp_right fun h => ⟨h, (hj i hi).le⟩
      · exact .inr (.inr ⟨i, hi, hlt.trans hij, ⟨.inl hij, hbest⟩, heq⟩)
    · rw [better, if_neg hlt]
      rcases ih hcs (r := r) with ⟨hall, heq⟩ | ⟨i, hi, hri, hbest, heq⟩
      · exact .inl ⟨⟨Nat.not_lt.1 hlt, hall⟩, heq⟩
      · exact .inr (.inr ⟨i, hi, hri, ⟨.inl (by omega), hbest⟩, heq⟩)

/-- Where there are bytes enough for a match, the search takes the best of the candidates walked. -/
theorem longest_bestOf (hnice : 3 ≤ s.cfg.niceLen.toNat) (hmax : 3 ≤ s.maxLenAt q) (budget : Nat) :
    ∃ seen, s.walks q budget seen ∧ s.bestOf q seen (s.longest q budget) := by
  refine ⟨_, s.walks_walked q budget, ?_⟩
  have hend := (s.maxLenAt_le q).2
  have hsorted := (s.candidates_pairwise q).sublist (s.walked_prefix q budget (s.candidates q)).sublist
  rw [longest_eq (by omega), walkAt_eq_foldl (fun _ => lt_of_mem_candidates) (Nat.zero_lt_of_lt hnice)
    (Nat.zero_lt_of_lt hmax)]
  rcases foldl_better (s := s) (q := q) (r := (0, 0)) hsorted with ⟨hall, heq⟩ | ⟨j, hj, -, hbest, heq⟩
  all_goals rw [heq]
  · exact .inl ⟨fun i hi => (hall i hi).trans_lt (by decide), rfl⟩
  · by_cases hlong : 3 ≤ s.agree q j
    · exact .inr ⟨j, hj, hlong, hbest, if_pos hlong⟩
    · refine .inl ⟨fun i hi => ?_, if_neg hlong⟩
      rcases hbest i hi with h | ⟨h, -⟩ <;> omega

/-- The search is R303's. -/
theorem longest_isLongest (hnice : 3 ≤ s.cfg.niceLen.toNat) (q budget : Nat) :
    s.isLongest q budget (s.longest q budget) := by
  rw [isLongest]
  split
  · next hshort => exact longest_of_short hshort budget
  · next hlong => exact longest_bestOf hnice (Nat.le_min.2 ⟨by decide, Nat.not_lt.1 hlong⟩) budget

/-! ## Where a walk ends (R312) -/

/-- The first candidate that ends the search, where the budget reaches it, is the last walked. -/
theorem walks.eq_of_first_ends {seen shorter older : List Nat} (h : s.walks q budget seen)
    (hcs : s.candidates q = shorter ++ j :: older) (hbudget : shorter.length < budget)
    (hshort : ∀ i ∈ shorter, ¬ s.endsSearch q i) (hj : s.endsSearch q j) : seen = shorter ++ [j] := by
  obtain ⟨hpre, -, hlast, hend⟩ := h
  have hfirst : shorter ++ [j] <+: s.candidates q := ⟨older, by rw [hcs, List.append_assoc]; rfl⟩
  rcases List.prefix_or_prefix_of_prefix hpre hfirst with hle | ⟨rest, rfl⟩
  · refine (List.prefix_concat_iff.1 hle).resolve_right fun hle => ?_
    have hlen := hle.length_le
    rcases hend with rfl | hfull | ⟨i, hi, hends⟩
    · simp [hcs] at hlen
    · omega
    · exact hshort i (hle.subset hi) hends
  · by_cases hrest : rest = []
    · rw [hrest, List.append_nil]
    · refine absurd hj (hlast j ?_)
      rw [List.dropLast_append_of_ne_nil hrest]
      simp

/-- With a budget for every position and NICE_LEN 258, a candidate is walked, or a nearer one that agrees as far. -/
theorem walks.exists_agree_le {seen : List Nat} (h : s.walks q budget seen) (hnice : 258 ≤ s.cfg.niceLen.toNat)
    (hbudget : q ≤ budget) (hj : j ∈ s.candidates q) : ∃ i ∈ seen, s.agree q j ≤ s.agree q i ∧ j ≤ i := by
  obtain ⟨hpre, -, -, hend⟩ := h
  obtain hall | ⟨i, hi, hends⟩ : seen = s.candidates q ∨ ∃ i ∈ seen, s.endsSearch q i := by
    rcases hend with hall | hfull | hends
    · exact .inl hall
    · have hle := s.candidates_length_le q
      exact .inl (hpre.eq_of_length_le (by omega))
    · exact .inr hends
  · exact ⟨j, hall ▸ hj, Nat.le_refl _, Nat.le_refl _⟩
  · obtain ⟨rest, hrest⟩ := hpre
    have hsorted := s.candidates_pairwise q
    rw [← hrest] at hj hsorted
    rcases List.mem_append.1 hj with hj | hj
    · exact ⟨j, hj, Nat.le_refl _, Nat.le_refl _⟩
    · have hle := s.agree_le_maxLenAt q j
      have hmax := (s.maxLenAt_le q).1
      exact ⟨i, hi, by rcases hends with h | h <;> omega, ((List.pairwise_append.1 hsorted).2.2 i hi j hj).le⟩

/-- No candidate walked is longer than the match taken, nor nearer and as long. -/
theorem bestOf.exists_agree_le {seen : List Nat} (h : s.bestOf q seen r) (hj : j ∈ seen) (hlong : 3 ≤ s.agree q j) :
    ∃ i, r = (s.agree q i, q - i) ∧ s.agree q j ≤ s.agree q i ∧ (s.agree q j = s.agree q i → j ≤ i) := by
  rcases h with ⟨hnone, -⟩ | ⟨i, -, -, hbest, rfl⟩
  · exact absurd (hnone j hj) (Nat.not_lt.2 hlong)
  · have hle := hbest j hj
    exact ⟨i, rfl, by omega, by omega⟩

/-- With a budget for every position and NICE_LEN 258, no candidate is longer than the match found, nor nearer and as
long: it was walked, or a nearer one of the greatest length ended the walk. -/
theorem exists_longest_of_candidate (hnice : 258 ≤ s.cfg.niceLen.toNat) (hbudget : q ≤ budget)
    (hj : j ∈ s.candidates q) (hlong : 3 ≤ s.agree q j) :
    ∃ i, s.longest q budget = (s.agree q i, q - i) ∧ s.agree q j ≤ s.agree q i ∧
      (s.agree q j = s.agree q i → j ≤ i) := by
  obtain ⟨seen, hwalks, hbest⟩ := longest_bestOf (by omega) (hlong.trans (s.agree_le_maxLenAt q j)) budget
  obtain ⟨i, hi, hji, hle⟩ := hwalks.exists_agree_le hnice hbudget hj
  obtain ⟨m, hm, him, hnearest⟩ := hbest.exists_agree_le hi (hlong.trans hji)
  exact ⟨m, hm, hji.trans him, fun heq => hle.trans (hnearest (by omega))⟩

/-- With NICE_LEN = 3 the first candidate within the budget that agrees in 3 bytes is the match. -/
theorem longest_of_first_three {shorter older : List Nat} (hnice : s.cfg.niceLen.toNat = 3)
    (hcs : s.candidates q = shorter ++ j :: older) (hbudget : shorter.length < budget)
    (hshort : ∀ i ∈ shorter, s.agree q i < 3) (hj : 3 ≤ s.agree q j) :
    s.longest q budget = (s.agree q j, q - j) := by
  have hmax := hj.trans (s.agree_le_maxLenAt q j)
  obtain ⟨seen, hwalks, hbest⟩ := longest_bestOf hnice.ge hmax budget
  have hseen : seen = shorter ++ [j] := by
    refine hwalks.eq_of_first_ends hcs hbudget (fun i hi hends => ?_) (.inl (by omega))
    have hi := hshort i hi
    rcases hends with h | h <;> omega
  subst hseen
  rcases hbest with ⟨hnone, -⟩ | ⟨i, hi, hlong, -, heq⟩
  · exact absurd (hnone j (by simp)) (Nat.not_lt.2 hj)
  · rcases List.mem_append.1 hi with hi | hi
    · exact absurd (hshort i hi) (Nat.not_lt.2 hlong)
    · rw [heq, List.mem_singleton.1 hi]

theorem hashAt_eq_of_agree (h : 3 ≤ s.agree q j) : s.hashAt j = s.hashAt q := by
  obtain ⟨-, hbytes⟩ := le_agree_iff.1 h
  have h0 : s.byteAt j = s.byteAt q := hbytes 0 (by decide)
  rw [hashAt, hashAt, h0, hbytes 1 (by decide), hbytes 2 (by decide)]

/-! ## Bytes beyond the lookahead (R313) -/

/-- The state with more bytes of lookahead. -/
def fed (s : State) (more : List Byte) : State := { s with la := s.la ++ more }

section

variable (more : List Byte)

theorem fed_stream : (s.fed more).stream = s.stream ++ more := (List.append_assoc ..).symm

theorem fed_hist : (s.fed more).hist = s.hist := rfl

theorem fed_cfg : (s.fed more).cfg = s.cfg := rfl

theorem fed_byteAt (h : j < s.stream.length) : (s.fed more).byteAt j = s.byteAt j := by
  rw [byteAt, fed_stream, List.getD_append _ _ _ _ h]
  rfl

variable (hq : q + 258 ≤ s.stream.length)

include hq

theorem fed_maxLenAt : (s.fed more).maxLenAt q = s.maxLenAt q := by
  rw [maxLenAt, maxLenAt, fed_stream, List.length_append]
  omega

theorem fed_agree (hj : j < q) : (s.fed more).agree q j = s.agree q j := by
  refine eq_of_forall_le_iff fun k => ?_
  rw [le_agree_iff, le_agree_iff, fed_maxLenAt more hq]
  refine and_congr_right fun hk => forall₂_congr fun i hi => ?_
  have hmax := s.maxLenAt_le q
  rw [fed_byteAt more (show j + i < _ by omega), fed_byteAt more (show q + i < _ by omega)]

theorem fed_hashAt (hj : j ≤ q) : (s.fed more).hashAt j = s.hashAt j := by
  rw [hashAt, fed_byteAt more (by omega), fed_byteAt more (by omega), fed_byteAt more (by omega)]
  rfl

theorem fed_candidates : (s.fed more).candidates q = s.candidates q := by
  refine List.filter_congr fun j hj => ?_
  have hj : j < q := List.mem_range.1 (List.mem_reverse.1 hj)
  rw [fed_hashAt more hq hj.le, fed_hashAt more hq (Nat.le_refl q)]
  rfl

theorem fed_walkAt {cs : List Nat} (hcs : ∀ j ∈ cs, j < q) (budget : Nat) (r : Nat × Nat) :
    (s.fed more).walkAt q budget cs r = s.walkAt q budget cs r := by
  induction cs generalizing budget r with
  | nil => rw [walkAt_nil, walkAt_nil]
  | cons j cs ih =>
    obtain ⟨hj, hcs⟩ := List.forall_mem_cons.1 hcs
    cases budget with
    | zero => rfl
    | succ budget =>
      have hagree := fed_agree more hq hj
      have hbetter : (s.fed more).better q r j = s.better q r j := by
        rw [better, hagree]
        rfl
      have hends : (s.fed more).endsSearch q j ↔ s.endsSearch q j := by
        rw [endsSearch, hagree, fed_maxLenAt more hq]
        rfl
      simp only [walkAt_cons hj.le, ih hcs, hagree, hbetter, hends]

theorem fed_longest (budget : Nat) : (s.fed more).longest q budget = s.longest q budget := by
  have hlong : ¬ s.stream.length - q < 3 := by omega
  have hlong' : ¬ (s.fed more).stream.length - q < 3 := by
    rw [fed_stream, List.length_append]
    omega
  rw [longest_eq hlong, longest_eq hlong', fed_candidates more hq, fed_walkAt more hq fun _ => lt_of_mem_candidates]

end

/-! ## The token of MF_STEP (R311) -/

theorem stepMatch_of_defers (h : s.defers (s.longest s.hist.length s.cfg.maxChain.toNat).1 = true) :
    s.stepMatch = (0, 0) := if_pos h

theorem stepMatch_of_not_defers (h : ¬ s.defers (s.longest s.hist.length s.cfg.maxChain.toNat).1 = true) :
    s.stepMatch = s.longest s.hist.length s.cfg.maxChain.toNat := if_neg h

theorem defers_iff {len : Nat} :
    s.defers len = true ↔ 3 ≤ len ∧ len < s.cfg.lazyLimit.toNat ∧
      len < (s.longest (s.hist.length + 1) (s.lazyBudget len)).1 := by
  simp only [defers, Bool.and_eq_true, decide_eq_true_eq, and_assoc]
  rfl

theorem lazyBudget_eq (s : State) (len : Nat) :
    s.lazyBudget len = if s.cfg.goodLen.toNat ≤ len then s.cfg.maxChain.toNat / 4 else s.cfg.maxChain.toNat := by
  rw [lazyBudget, Nat.shiftRight_eq_div_pow]

/-- MF_STEP takes no more bytes than the lookahead holds. -/
theorem stepMatch_fst_le (s : State) : s.stepMatch.1 ≤ s.la.length := by
  obtain h | h : s.stepMatch = (0, 0) ∨ s.stepMatch = s.longest s.hist.length s.cfg.maxChain.toNat := ite_eq_or_eq ..
  · rw [h]
    exact Nat.zero_le _
  · rw [h]
    refine (s.longest_fst_le ..).trans ((s.maxLenAt_le _).2.trans ?_)
    rw [stream_length]
    omega

/-- With LA_NEED bytes of lookahead both searches of MF_STEP see all they can. -/
theorem fed_stepMatch (h : 259 ≤ s.la.length) (more : List Byte) :
    (s.fed more).stepMatch = s.stepMatch := by
  have hlen := s.stream_length
  have hfirst := fed_longest more (s := s) (q := s.hist.length) (by omega)
  have hlazy := fed_longest more (s := s) (q := s.hist.length + 1) (by omega)
  simp only [stepMatch, defers, lazyBudget, fed_hist, fed_cfg, hfirst, hlazy]
  rfl

/-- The state MF_STEP leaves with the match `m`, or with a literal where `m` is none. -/
def tokenised (s : State) (m : Nat × Nat) : State :=
  if 3 ≤ m.1 then (s.tokenise m.1).setToken .backref 0 m.1 m.2
  else (s.tokenise 1).setToken .lit (s.la.headD 0).toNat 0 0

theorem fed_tokenise {n : Nat} (h : n ≤ s.la.length) (more : List Byte) :
    (s.fed more).tokenise n = (s.tokenise n).fed more := by
  rw [tokenise, fed, List.take_append_of_le_length h, List.drop_append_of_le_length h]
  rfl

theorem fed_tokenised {m : Nat × Nat} (hla : s.la ≠ []) (hm : m.1 ≤ s.la.length) (more : List Byte) :
    (s.fed more).tokenised m = (s.tokenised m).fed more := by
  have hhead : (s.fed more).la.headD 0 = s.la.headD 0 := by
    obtain ⟨b, bs, hla⟩ := List.exists_cons_of_ne_nil hla
    rw [fed, hla]
    rfl
  rw [tokenised, tokenised, fed_tokenise hm, fed_tokenise (List.length_pos_iff.2 hla), hhead]
  split <;> rfl

end State

/-! ## The commands -/

section

variable {s : State} (hs : s.running)

include hs

theorem exec_mfFeed_of_running (cnt : BitVec 16) :
    exec (.mfFeed cnt) s = s.inRange (decide (cnt.toNat ≤ 262 - s.la.length)) (s.require s.inAligned (
      if s.inp.inq.length < cnt.toNat then s.holdIn
      else ({ s with la := s.la ++ s.inp.inq.take cnt.toNat, inp := s.inp.dequeued cnt.toNat } : State).ok)) :=
  State.unlessEnded_of_running hs _

theorem exec_mfFind_of_running {r : Nat × Nat} (hr : s.longest s.hist.length s.cfg.maxChain.toNat = r) :
    exec .mfFind s = .next { s with
      res1 := BitVec.ofNat 9 r.1, res2 := BitVec.ofNat 16 r.2, res3 := if 3 ≤ r.1 then 1 else 3, status := 0 } := by
  rw [exec, execMfFind, State.unlessEnded_of_running hs, hr]
  dsimp only
  rw [apply_ite TokenKind.code]
  rfl

theorem exec_mfStep_of_empty (hla : s.la = []) (drain : BitVec 1) :
    exec (.mfStep drain) s = .next { s with res3 := 3, status := 0 } := by
  rw [exec, execMfStep, State.unlessEnded_of_running hs, hla]
  rfl

theorem exec_mfStep_of_nonempty (hla : s.la ≠ []) (drain : BitVec 1) :
    exec (.mfStep drain) s =
      if drain = 0 ∧ s.la.length < 259 then s.holdIn else (s.tokenised s.stepMatch).ok := by
  obtain ⟨b, bs, hcons⟩ := List.exists_cons_of_ne_nil hla
  rw [exec, execMfStep, State.unlessEnded_of_running hs, State.tokenised, apply_ite State.ok, hcons]
  simp only [Bool.and_eq_true, decide_eq_true_eq]
  rfl

theorem exec_mfStep_of_ready (hla : s.la ≠ []) {drain : BitVec 1} (hready : drain = 1 ∨ 259 ≤ s.la.length) :
    exec (.mfStep drain) s = .next ((s.tokenised s.stepMatch).withStatus .ok) := by
  rw [exec_mfStep_of_nonempty hs hla, if_neg, State.ok, State.report_eq]
  rintro ⟨rfl, hshort⟩
  exact hready.elim (by decide) (Nat.not_le.2 hshort)

end

/-- Settles O47: the checks of MF_FEED in their order; MF_RESET_HIST has none left on a running state. -/
theorem mfFeedMovesBytesAndMfResetHistSetsTheBase : Obligations.MfFeedMovesBytesAndMfResetHistSetsTheBase := by
  intro s cnt hs
  refine ⟨fun h => ?refused, fun hcnt hal hshort => ?held, fun hcnt hal hle => ?fed,
    State.unlessEnded_of_running hs _⟩
  all_goals rw [exec_mfFeed_of_running hs]
  case refused =>
    by_cases hcnt : cnt.toNat ≤ 262 - s.la.length
    · rw [State.inRange_of_true (decide_eq_true hcnt)]
      exact State.require_of_not (mt s.inAligned_eq_true.1 (h.resolve_left (Nat.not_lt.2 hcnt))) _
    · rw [decide_eq_false hcnt]
      rfl
  all_goals rw [State.inRange_of_true (decide_eq_true hcnt), State.require_of_true (s.inAligned_eq_true.2 hal)]
  case held => exact if_pos hshort
  case fed => exact if_neg (Nat.not_lt.2 hle)

/-- Settles O49. The search is R303's (`State.longest_isLongest`). A position that agrees in 3 bytes has the hash of P, so
it is a candidate, and `State.exists_longest_of_candidate` bounds it. -/
theorem mfFindTakesTheLongestNearestMatch : Obligations.MfFindTakesTheLongestNearestMatch := by
  refine ⟨fun s q budget hnice => State.longest_isLongest hnice q budget, fun s hs hnice => ?_,
    fun s j k hs hchain hnice hbase hwin hj hk hk258 hkla hbytes => ?_⟩
  · exact ⟨_, _, State.longest_isLongest hnice .., exec_mfFind_of_running hs rfl⟩
  · have hkmax : k ≤ s.maxLenAt s.hist.length := by
      rw [State.maxLenAt, State.stream_length]
      omega
    have hagree : k ≤ s.agree s.hist.length j := State.le_agree_iff.2 ⟨hkmax, hbytes⟩
    have hmem : j ∈ s.candidates s.hist.length :=
      State.mem_candidates_iff.2 ⟨hj, hbase, by omega, State.hashAt_eq_of_agree (hk.trans hagree)⟩
    obtain ⟨i, hi, hle, hnearest⟩ :=
      State.exists_longest_of_candidate hnice hchain hmem (hk.trans hagree)
    have hmax := (s.agree_le_maxLenAt s.hist.length i).trans (s.maxLenAt_le s.hist.length).1
    refine ⟨_, s.hist.length - i, ?_, hagree.trans hle, hmax, fun heq => ?_⟩
    · rw [exec_mfFind_of_running hs hi, if_pos (hk.trans (hagree.trans hle))]
    · have hji := hnearest (by omega)
      omega

/-- Settles O48. What a search at P finds is real (`State.longest_real`), a search without budget finds nothing, and
with NICE_LEN = 3 it takes the first candidate that is a match (`State.longest_of_first_three`). -/
theorem mfFindReportsARealMatch : Obligations.MfFindReportsARealMatch := by
  intro s hs
  refine ⟨_, _, exec_mfFind_of_running hs rfl, ?real, fun hchain => ?none,
    fun shorter older j hnice hcs hbudget hshort hj => ?first⟩
  case real =>
    rcases s.longest_real s.cfg.maxChain.toNat with h | ⟨h3, hmax, hla, hpos, hwin, hbase, hbytes⟩
    · exact .inl ⟨congrArg Prod.fst h, congrArg Prod.snd h⟩
    · exact .inr ⟨h3, hmax, hla, hpos, hwin, hbase, hbytes⟩
  case none =>
    rw [hchain]
    exact congrArg Prod.fst (s.longest_zero _)
  case first =>
    have hnice : s.cfg.niceLen.toNat = 3 := by rw [hnice]; rfl
    rw [State.longest_of_first_three hnice hcs hbudget hshort hj]
    exact ⟨rfl, rfl⟩

/-- Settles O50. MF_STEP takes the match found at P (`State.stepMatch`) unless it is deferred; a match found is real
(`State.longest_real`), so its bytes are those its back-reference copies. -/
theorem mfStepTokenisesOrDefers : Obligations.MfStepTokenisesOrDefers := by
  intro s drain hs
  refine ⟨fun hla => exec_mfStep_of_empty hs hla drain, fun hla hdrain hshort => ?held, fun hla hready => ?_⟩
  case held =>
    rw [exec_mfStep_of_nonempty hs hla, if_pos ⟨hdrain, hshort⟩]
    rfl
  intro m budget2 deferred
  have hdefers : s.defers m.1 = true ↔ 3 ≤ m.1 ∧ deferred := by
    rw [State.defers_iff, State.lazyBudget_eq]
  rw [exec_mfStep_of_ready hs hla hready]
  refine ⟨fun ⟨hlong, hstands⟩ => ?taken, fun hlit => ?literal⟩
  case taken =>
    obtain hnone | hreal := s.longest_real s.cfg.maxChain.toNat
    · exact absurd (hlong.trans (congrArg Prod.fst hnone).le) (by decide)
    rw [State.stepMatch_of_not_defers fun h => hstands (hdefers.1 h).2, State.tokenised, if_pos hlong]
    exact ⟨rfl, hreal.le_max, hreal.le_la, hreal.dist_pos, hreal.dist_le_window, hreal.take_eq_copiedBytes⟩
  case literal =>
    have hshort : ¬ 3 ≤ s.stepMatch.1 := by
      by_cases h : s.defers m.1 = true
      · rw [State.stepMatch_of_defers h]
        decide
      · rw [State.stepMatch_of_not_defers h]
        exact fun hlong => h (hdefers.2 ⟨hlong, hlit.resolve_left (Nat.not_lt.2 hlong)⟩)
    rw [State.tokenised, if_neg hshort, State.setToken, BitVec.ofNat_toNat]
    rfl

/-- Settles O51: the searches at P and at P + 1 see no byte beyond LA_NEED bytes of lookahead (`State.fed_longest`), so
the same token is taken from the longer lookahead. -/
theorem mfStepIgnoresBytesBeyondItsLookahead : Obligations.MfStepIgnoresBytesBeyondItsLookahead := by
  intro s t u drain more hs hneed ht hu
  have hla : s.la ≠ [] := List.ne_nil_of_length_pos (by omega)
  rw [exec_mfStep_of_ready hs hla (.inr hneed)] at ht
  change exec (.mfStep drain) (s.fed more) = .next u at hu
  rw [exec_mfStep_of_ready (s := s.fed more) hs (List.append_ne_nil_of_left_ne_nil hla _)
    (.inr (hneed.trans (List.sublist_append_left ..).length_le)), State.fed_stepMatch hneed,
    State.fed_tokenised hla s.stepMatch_fst_le] at hu
  cases ht
  cases hu
  rfl

end Sys2Proof.Machine

/-! The family of 46_block_framing.md: the block framer. Each command's meaning on a state that passes its checks is one
equation. Two bytes at a byte boundary read as one number (`readBits_two_bytes`), BF_INFLATE's token is the one its bits
stand for (`DecTable.Decodes.readToken_reads`), and its copy is `State.copyMatch_eq`. -/

namespace Sys2Proof.Machine

/-- The status a finished block step reports, by the condition under which the final block is done (R370). -/
theorem endStatus_code {atEnd : Bool} {p : Prop} [Decidable p] (h : atEnd = true ↔ p) :
    (endStatus atEnd).code = if p then 1 else 0 := by
  rw [endStatus, apply_ite Status.code]
  exact if_congr h rfl rfl

/-! ## BF_INFLATE (R350) -/

theorem distBase_pos {ds : Nat} (h : ds ≤ 29) : 0 < distBase ds := by
  have hall : ∀ ds < 30, 0 < distBase ds := by decide
  exact hall ds (Nat.lt_succ_of_le h)

/-- A literal is output and recorded where there is room. -/
theorem State.applyToken_lit (s : State) (b : Byte) (p : InPort) :
    s.applyToken (Coded.lit b).token p =
      if s.lacksRoom 1 then s.holdOut
      else .next { s.withResults (Coded.lit b).results with
        inp := p, out := s.out.appended [b], hist := s.hist ++ [b], status := 0 } := by
  have hbyte : BitVec.ofNat 8 b.toNat = b := by rw [BitVec.ofNat_toNat, BitVec.setWidth_eq]
  have hres0 : BitVec.ofNat 32 b.toNat = b.setWidth 32 := BitVec.ofNat_toNat ..
  simp only [State.applyToken, Coded.token, State.setToken, hbyte, hres0]
  rfl

/-- A back-reference is checked against WVALID, then against the room, and copied. -/
theorem State.applyToken_backref (s : State) {ds : Nat} (hds : ds ≤ 29) (ls le de : Nat) (p : InPort) :
    s.applyToken (Coded.backref ls le ds de).token p =
      if s.wvalid < distBase ds + de then ({ s with inp := p } : State).dataError
      else if s.lacksRoom (lengthBase ls + le) then s.holdOut
      else .next { s.withResults (Coded.backref ls le ds de).results with
        inp := p, out := s.out.appended (copiedBytes s.hist (lengthBase ls + le) (distBase ds + de)),
        hist := s.hist ++ copiedBytes s.hist (lengthBase ls + le) (distBase ds + de), status := 0 } := by
  by_cases hd : s.wvalid < distBase ds + de
  · rw [if_pos hd]
    exact if_pos hd
  · have hhist : distBase ds + de ≤ s.hist.length := (Nat.le_min.1 (Nat.not_lt.1 hd)).2
    have hpos : 0 < distBase ds + de := Nat.add_pos_left (distBase_pos hds) de
    simp only [State.applyToken, Coded.token, if_neg hd, State.copyMatch_eq hpos _ hhist]
    rfl

theorem State.applyToken_eob (s : State) (p : InPort) :
    s.applyToken Coded.eob.token p =
      .next { s.withResults Coded.eob.results with inp := p, status := if s.last then 1 else 0 } := by
  rw [← endStatus_code Iff.rfl]
  rfl

/-- A legal token at the head of the input is applied, with the cursor after its bits. -/
theorem exec_bfInflate_of_token {s : State} (hs : s.decoding) (htables : s.TablesOk) (hout : s.out.obits = 0)
    (hla : s.la = []) (hll : s.hdLL.valid = true) (hdist : s.hdDist.valid = true) {tok : Coded}
    (hlegal : tok.legal s.hdLL.coded s.hdDist.coded) {rest : List Bool}
    (hstream : s.inp.stream = tok.bits s.hdLL.coded s.hdDist.coded ++ rest) :
    exec .bfInflate s =
      s.applyToken tok.token (s.inp.advance (tok.bits s.hdLL.coded s.hdDist.coded).length) := by
  obtain ⟨hdecLL, hdecDist⟩ := State.token_decodes hll hdist htables
  rw [exec_bfInflate_of_ready hs hll hdist hout hla, hdecLL.readToken_reads hdecDist hlegal rest _ hstream,
    State.afterRead]

/-- Settles O56: the token read is the one its bits stand for; then the cases of the token, each with its checks. -/
theorem bfInflateAppliesTheToken : Obligations.BfInflateAppliesTheToken := by
  intro s tok rest hs htables hout hla hll hdist hlegal hstream p s1
  have hexec : exec .bfInflate s = s.applyToken tok.token p :=
    exec_bfInflate_of_token hs htables hout hla hll hdist hlegal hstream
  refine ⟨?lit, ?backref, ?eob⟩
  case lit =>
    rintro b rfl
    rw [hexec, State.applyToken_lit]
    exact ⟨fun hroom => by rw [(State.lacksRoom_eq_false ..).2 hroom]; rfl,
      fun hfull => by rw [(State.lacksRoom_eq_true ..).2 hfull]; rfl⟩
  case backref =>
    rintro ls le ds de rfl len dist
    obtain ⟨-, -, -, -, hds, -, -⟩ := hlegal
    rw [hexec, State.applyToken_backref s hds]
    refine ⟨fun hd => if_pos hd, fun hd hfull => ?held, fun hd hroom => ?copied⟩
    case held =>
      rw [if_neg (Nat.not_lt.2 hd), (State.lacksRoom_eq_true ..).2 hfull]
      rfl
    case copied =>
      rw [if_neg (Nat.not_lt.2 hd), (State.lacksRoom_eq_false ..).2 hroom]
      rfl
  case eob =>
    rintro rfl
    rw [hexec, State.applyToken_eob]

/-! ## BF_WHDR and BF_RHDR (R340, R342) -/

/-- The three bits of a header: FINAL, then TYPE with its least significant bit first. -/
theorem headerBits_eq (btype : BitVec 2) (final : BitVec 1) :
    bitsLsb 3 (final.toNat + 2 * btype.toNat) = [final.getLsbD 0, btype.getLsbD 0, btype.getLsbD 1] := by
  revert btype final
  decide

theorem exec_bfWhdr_of_ne {s : State} (hs : s.running) {btype : BitVec 2} (hne : btype ≠ 3) (final : BitVec 1) :
    exec (.bfWhdr btype final) s = s.sendBits [final.getLsbD 0, btype.getLsbD 0, btype.getLsbD 1] := by
  rw [exec, execBfWhdr, State.unlessEnded_of_running hs, State.inRange_of_true (bne_iff_ne.2 hne), headerBits_eq]

/-- The type and FINAL as numbers of the three bits read. -/
theorem valueLsb_header (f b0 b1 : Bool) :
    valueLsb [f, b0, b1] / 2 = b0.toNat + 2 * b1.toNat ∧ valueLsb [f, b0, b1] % 2 = f.toNat := by
  revert f b0 b1
  decide

theorem headerType_eq_three_iff (b0 b1 : Bool) : b0.toNat + 2 * b1.toNat = 3 ↔ (b0 && b1) = true := by
  revert b0 b1
  decide

theorem exec_bfRhdr_of_decoding {s : State} (hs : s.decoding) :
    exec .bfRhdr s = s.afterRead (readBits 3 s.inp) fun v p =>
      let s1 : State := { s with inp := p, res0 := BitVec.ofNat 32 (v / 2), res1 := BitVec.ofNat 9 (v % 2),
                                 last := v % 2 == 1 }
      if v / 2 = 3 then s1.dataError else s1.ok :=
  State.checks_of_decoding hs _

theorem exec_bfRhdr_of_bits {s : State} (hs : s.decoding) {f b0 b1 : Bool} {rest : List Bool}
    (hstream : s.inp.stream = f :: b0 :: b1 :: rest) :
    exec .bfRhdr s =
      let s1 : State := { s with
        inp := s.inp.advance 3, res0 := BitVec.ofNat 32 (b0.toNat + 2 * b1.toNat),
        res1 := BitVec.ofNat 9 f.toNat, last := f }
      if (b0 && b1) = true then s1.dataError else s1.ok := by
  have hread : readBits 3 s.inp = .done (valueLsb [f, b0, b1]) (s.inp.advance 3) := by
    rw [readBits_done (by rw [hstream]; exact Nat.le_add_left 3 _), hstream]
    rfl
  obtain ⟨htype, hfinal⟩ := valueLsb_header f b0 b1
  have hlast : (f.toNat == 1) = f := by cases f <;> rfl
  rw [exec_bfRhdr_of_decoding hs, hread]
  simp only [State.afterRead, htype, hfinal, hlast, headerType_eq_three_iff]

/-- Settles O52: the header sent is three bits, and the header read is the next three. -/
theorem blockHeadersAreWrittenAndRead : Obligations.BlockHeadersAreWrittenAndRead := by
  refine ⟨?written, fun s hs hshort => ?held,
    fun s f b0 b1 rest hs hstream => ⟨fun hlegal => ?read, fun hbad => ?reserved⟩⟩
  case written =>
    rintro s btype final hs ⟨-, -, hobuf⟩
    refine ⟨fun h => ?refused, fun hne hfull => ?full, fun hne hroom => ?sent⟩
    case refused => exact outOfRangeFieldsReportStreamError (.bfWhdr btype final) s (h ▸ rfl)
    case full =>
      rw [exec_bfWhdr_of_ne hs hne]
      exact State.sendBits_of_no_room hfull
    case sent =>
      rw [exec_bfWhdr_of_ne hs hne]
      exact State.sendBits_eq_pushed hobuf hroom
  case held =>
    rw [exec_bfRhdr_of_decoding hs, readBits_short hshort]
    rfl
  case read =>
    rw [exec_bfRhdr_of_bits hs hstream, hlegal]
    rfl
  case reserved =>
    rw [exec_bfRhdr_of_bits hs hstream, hbad]
    rfl

/-! ## BF_WSTORED (R344) -/

/-- The bytes WinByte(n) down to WinByte(1) are the last `n` of the history. -/
theorem lastBytes_eq_drop {hist : List Byte} {n : Nat} (h : n ≤ hist.length) :
    lastBytes hist n = hist.drop (hist.length - n) := by
  refine List.ext_getElem (by simp [lastBytes]; omega) fun i hi _ => ?_
  have hn : i < n := by simpa [lastBytes] using hi
  have hplace : hist.length - (n - i) = hist.length - n + i := by omega
  have hbound : hist.length - n + i < hist.length := by omega
  simp only [lastBytes, List.getElem_map, List.getElem_range, winByte, hplace, List.getElem_drop,
    List.getD_eq_getElem _ _ hbound]

/-- LEN and NLEN in bytes: each byte of NLEN is the complement of LEN's. -/
theorem storedHeader_eq (cnt : BitVec 16) :
    let len : List Byte := [BitVec.ofNat 8 (cnt.toNat % 256), BitVec.ofNat 8 (cnt.toNat / 256)]
    storedHeader cnt = len ++ len.map (fun b => ~~~b) := by
  have hlow : cnt.extractLsb' 0 8 = BitVec.ofNat 8 (cnt.toNat % 256) := by
    apply BitVec.eq_of_toNat_eq
    simp
  have hhigh : cnt.extractLsb' 8 8 = BitVec.ofNat 8 (cnt.toNat / 256) := by
    apply BitVec.eq_of_toNat_eq
    simp [Nat.shiftRight_eq_div_pow]
  have hnot : ∀ lo, lo + 8 ≤ 16 → (~~~cnt).extractLsb' lo 8 = ~~~cnt.extractLsb' lo 8 := by
    intro lo hlo
    apply BitVec.eq_of_getLsbD_eq
    intro i hi
    have hin : lo + i < 16 := by omega
    simp [hi, hin]
  rw [storedHeader, hnot 0 (by decide), hnot 8 (by decide), hlow, hhigh]
  rfl

/-- Padding the output, with nothing to pad at a byte boundary. -/
theorem OutPort.align_eq {o : OutPort} (hobuf : o.obuf.toNat < 2 ^ o.obits.toNat) :
    o.align = if o.obits = 0 then o
      else { outq := o.outq ++ [o.obuf], obuf := 0, obits := 0, totalOut := o.totalOut + 1 } := by
  by_cases hbits : o.obits = 0
  · rw [OutPort.align, if_pos hbits, if_pos hbits]
  · rw [OutPort.align_of_pending hobuf hbits, if_neg hbits]

theorem exec_bfWstored_of_running {s : State} (hs : s.running) (cnt : BitVec 16) :
    exec (.bfWstored cnt) s = s.inRange (cnt.toNat ≤ s.wvalid) (
      if s.lacksRoom ((if s.out.obits = 0 then 0 else 1) + 4 + cnt.toNat) then s.holdOut
      else ({ s with out := s.out.align.appended (storedHeader cnt ++ lastBytes s.hist cnt.toNat) } : State).ok) := by
  have hpad : (if s.outAligned = true then 0 else 1) = if s.out.obits = 0 then 0 else 1 :=
    if_congr s.outAligned_eq_true rfl rfl
  rw [exec, execBfWstored, State.unlessEnded_of_running hs, OutPort.putBytes_eq_appended, hpad]

/-- Settles O53: the bound by WVALID, the room, then what is sent: padding, LEN and NLEN, the window bytes. -/
theorem bfWstoredWritesAStoredBody : Obligations.BfWstoredWritesAStoredBody := by
  rintro s cnt hs ⟨-, -, hobuf⟩ pad padded len
  refine ⟨fun hbig => ?refused, fun hle hfull => ?held, fun hle hroom => ?sent⟩
  all_goals rw [exec_bfWstored_of_running hs]
  case refused => exact State.inRange_of_false (decide_eq_false (Nat.not_le.2 hbig)) _
  all_goals rw [State.inRange_of_true (decide_eq_true hle)]
  case held =>
    rw [(State.lacksRoom_eq_true ..).2 hfull]
    rfl
  case sent =>
    have hhist : cnt.toNat ≤ s.hist.length := (Nat.le_min.1 hle).2
    rw [(State.lacksRoom_eq_false ..).2 hroom, OutPort.align_eq hobuf, storedHeader_eq, lastBytes_eq_drop hhist]
    rfl

/-! ## BF_RSTORED (R346) -/

theorem valueLsb_byteBits (b : Byte) : valueLsb (byteBits b) = b.toNat := valueLsb_bitsLsb b.isLt

/-- At a byte boundary the next two bytes read as one number, the first of them the low one. -/
theorem readBits_two_bytes {p : InPort} (hp : p.ibit = 0) {b0 b1 : Byte} {rest : List Byte}
    (hinq : p.inq = b0 :: b1 :: rest) : readBits 16 p = .done (b1 ++ b0).toNat (p.dequeued 2) := by
  have hstream : p.stream = bitsLsb 16 (b1 ++ b0).toNat ++ rest.flatMap byteBits := by
    have hvalue : (b1 ++ b0).toNat = valueLsb (byteBits b0 ++ byteBits b1) := by
      rw [toNat_append_eq_add, valueLsb_append, valueLsb_byteBits, valueLsb_byteBits, byteBits_length, Nat.add_comm]
    have hbits : bitsLsb 16 (b1 ++ b0).toNat = byteBits b0 ++ byteBits b1 := hvalue ▸ bitsLsb_valueLsb _
    rw [InPort.stream, hp, hinq, hbits, List.append_assoc]
    rfl
  have hadvance : p.advance 16 = p.dequeued 2 := by
    rw [InPort.advance, InPort.dequeued, hp]
    rfl
  rw [readBits_reads (b1 ++ b0).isLt p hstream, bitsLsb_length, hadvance]

/-- NLEN is the complement of LEN when each of its bytes is. -/
theorem append_toNat_eq_xor_iff (l0 l1 n0 n1 : Byte) :
    (n1 ++ n0).toNat = (l1 ++ l0).toNat ^^^ 0xFFFF ↔ n0 = ~~~l0 ∧ n1 = ~~~l1 := by
  have hnot : (l1 ++ l0).toNat ^^^ 0xFFFF = (~~~l1 ++ ~~~l0).toNat := by
    rw [← BitVec.not_append, ← BitVec.xor_allOnes, BitVec.toNat_xor]
    rfl
  rw [hnot, BitVec.toNat_inj]
  refine ⟨fun h => ⟨?_, ?_⟩, fun ⟨h0, h1⟩ => by rw [h0, h1]⟩
  · simpa only [BitVec.extractLsb'_append_eq_right] using congrArg (BitVec.extractLsb' 0 8) h
  · simpa only [BitVec.extractLsb'_append_eq_left] using congrArg (BitVec.extractLsb' 8 8) h

/-- What BF_RSTORED does with LEN and NLEN read, `p` being the cursor after them. -/
def State.storedLength (s : State) (len nlen : Nat) (p : InPort) : Result :=
  if nlen ≠ len ^^^ 0xFFFF then ({ s with inp := p } : State).dataError
  else ({ s with inp := p, storedRem := BitVec.ofNat 16 len, res0 := BitVec.ofNat 32 len } : State).report
    (endStatus (s.last && len == 0))

theorem exec_bfRstored_of_decoding {s : State} (hs : s.decoding) :
    exec .bfRstored s = s.afterRead (readBits 16 s.inp.align) fun len p1 =>
      s.afterRead (readBits 16 p1) fun nlen p2 => s.storedLength len nlen p2 :=
  State.checks_of_decoding hs _

/-- With fewer than four bytes, LEN or NLEN is short. -/
theorem exec_bfRstored_of_short {s : State} (hs : s.decoding) (hshort : s.inp.align.inq.length < 4) :
    exec .bfRstored s = s.holdIn := by
  have hbits : s.inp.align.stream.length < 32 := by
    rw [InPort.stream_length, InPort.availBits]
    omega
  rw [exec_bfRstored_of_decoding hs]
  obtain ⟨hlen, hread⟩ | ⟨-, hread⟩ := readBits_cases s.inp.align 16
  · have hrest : (s.inp.align.advance 16).stream.length < 16 := by
      rw [InPort.stream_advance_of_le hlen, List.length_drop]
      omega
    rw [hread, State.afterRead, readBits_short hrest, State.afterRead]
  · rw [hread, State.afterRead]

theorem exec_bfRstored_of_bytes {s : State} (hs : s.decoding) {l0 l1 n0 n1 : Byte} {rest : List Byte}
    (hinq : s.inp.align.inq = l0 :: l1 :: n0 :: n1 :: rest) :
    exec .bfRstored s = s.storedLength (l1 ++ l0).toNat (n1 ++ n0).toNat (s.inp.align.dequeued 4) := by
  have hal : s.inp.align.ibit = 0 := InPort.align_ibit _
  have hnlen : (s.inp.align.dequeued 2).inq = n0 :: n1 :: rest := by
    rw [InPort.dequeued, hinq]
    rfl
  have hfour : (s.inp.align.dequeued 2).dequeued 2 = s.inp.align.dequeued 4 := by
    simp [InPort.dequeued, BitVec.add_assoc]
  rw [exec_bfRstored_of_decoding hs, readBits_two_bytes hal hinq, State.afterRead,
    readBits_two_bytes (p := s.inp.align.dequeued 2) hal hnlen, State.afterRead, hfour]

/-- Settles O54: the cursor of the statement is `InPort.align`; four bytes there are LEN and NLEN. -/
theorem bfRstoredReadsTheLength : Obligations.BfRstoredReadsTheLength := by
  intro s hs p
  refine ⟨fun hshort => exec_bfRstored_of_short hs hshort, fun l0 l1 n0 n1 rest hinq => ?_⟩
  rw [exec_bfRstored_of_bytes hs hinq, State.storedLength]
  refine ⟨fun hcompl => ?read, fun hbad => ?mismatch⟩
  case read =>
    have hend : (s.last && (l1 ++ l0).toNat == 0) = true ↔ s.last = true ∧ (l1 ++ l0 : BitVec 16) = 0 := by
      rw [Bool.and_eq_true_iff, beq_iff_eq, ← BitVec.toNat_inj]
      rfl
    rw [if_neg (not_not_intro ((append_toNat_eq_xor_iff ..).2 hcompl)), State.report_eq, State.withStatus,
      endStatus_code hend, BitVec.ofNat_toNat, BitVec.ofNat_toNat, BitVec.setWidth_eq]
    rfl
  case mismatch => exact if_pos (mt (append_toNat_eq_xor_iff ..).1 hbad)

/-! ## BF_RCOPY (R347) -/

theorem exec_bfRcopy_of_decoding {s : State} (hs : s.decoding) (cnt : BitVec 16) :
    exec (.bfRcopy cnt) s = s.require
      (decide (cnt.toNat ≤ s.storedRem.toNat) && s.inAligned && s.outAligned && s.la.isEmpty) (
      if s.inp.inq.length < cnt.toNat then s.holdIn
      else if s.lacksRoom cnt.toNat then s.holdOut
      else ({ s with inp := s.inp.dequeued cnt.toNat, out := s.out.appended (s.inp.inq.take cnt.toNat),
                     hist := s.hist ++ s.inp.inq.take cnt.toNat, storedRem := s.storedRem - cnt } : State).report
        (endStatus (s.last && s.storedRem - cnt == 0))) := by
  rw [← OutPort.putBytes_eq_appended]
  exact State.checks_of_decoding hs _

theorem State.rcopyReady_iff (s : State) (cnt : BitVec 16) :
    (decide (cnt.toNat ≤ s.storedRem.toNat) && s.inAligned && s.outAligned && s.la.isEmpty) = true ↔
      cnt.toNat ≤ s.storedRem.toNat ∧ s.inp.ibit = 0 ∧ s.out.obits = 0 ∧ s.la = [] := by
  rw [Bool.and_eq_true_iff, Bool.and_eq_true_iff, Bool.and_eq_true_iff, decide_eq_true_iff, State.inAligned_eq_true,
    State.outAligned_eq_true, List.isEmpty_iff, and_assoc, and_assoc]

/-- Settles O55: the checks in their order; the last stored block is done when nothing is left of it. -/
theorem bfRcopyCopiesStoredBytes : Obligations.BfRcopyCopiesStoredBytes := by
  intro s cnt hs ready
  refine ⟨fun hnot => ?refused, fun hready hshort => ?held, fun hready hle hfull => ?full,
    fun hready hle hroom => ?copied⟩
  all_goals rw [exec_bfRcopy_of_decoding hs]
  case refused => exact State.require_of_not (mt (s.rcopyReady_iff cnt).1 hnot) _
  all_goals rw [State.require_of_true ((s.rcopyReady_iff cnt).2 hready)]
  case held => exact if_pos hshort
  case full =>
    rw [if_neg (Nat.not_lt.2 hle), (State.lacksRoom_eq_true ..).2 hfull]
    rfl
  case copied =>
    have hend : (s.last && s.storedRem - cnt == 0) = true ↔ s.last = true ∧ s.storedRem = cnt := by
      rw [Bool.and_eq_true_iff, beq_iff_eq]
      exact and_congr_right fun _ => sub_eq_zero
    rw [if_neg (Nat.not_lt.2 hle), (State.lacksRoom_eq_false ..).2 hroom, State.report_eq, State.withStatus,
      endStatus_code hend]
    rfl

end Sys2Proof.Machine

/-! The family of 60_exceptions.md. How a command can end is said once (`Ends`, `exec_ends`), with what each end leaves
and which commands come to it; the rules about every command are read off it. That the flags of the gates steer no
other command is a comparison of two runs (`AlikeButGates`). That a reader holds on input which ends inside what it
reads is a property of all readers (`Steady`): more input changes nothing of what a reader answers but a hold. -/

namespace Sys2Proof.Machine

/-! ## How a command can end (60_exceptions.md R370) -/

/-- What a command that fails on its data in `s` leaves, but for DERR and STATUS (R378). -/
inductive LeftByFailure (i : Instr) (s : State) : State → Prop where
  /-- Input consumed, or nothing changed. -/
  | input (p : InPort) : LeftByFailure i s { s with inp := p }
  /-- The table HD_BUILD could not build. -/
  | table (a : Alphabet) : LeftByFailure i s (s.setDec a (s.dec a).invalid)
  /-- The input and the tables of HD_DYNHDR. -/
  | header (p : InPort) : LeftByFailure i s { s.invalidateDec with inp := p }
  /-- The three bits BF_RHDR has read, of type 3. -/
  | blockType (p : InPort) (res0 : BitVec 32) (res1 : BitVec 9) (last : Bool) : i = .bfRhdr →
      LeftByFailure i s { s with inp := p, res0 := res0, res1 := res1, last := last }

/-- The states in which a command issued in `s` can end, one constructor for each way to end. -/
inductive Ends (i : Instr) (s : State) : State → Prop where
  | ok (u : State) : Ends i s (u.withStatus .ok)
  | streamEnd (u : State) : i.mayEndStream = true → s.last = true → Ends i s (u.withStatus .streamEnd)
  | needDict (u : State) : i = .swExpectdict ∨ (i.decodePath = true ∧ s.needDict = true) →
      Ends i s (u.withStatus .needDict)
  | holdIn : i.mayHoldIn = true → Ends i s (s.withStatus .holdIn)
  /-- What is to be output fits an empty queue of 32773 bytes, but for a stored block's bytes. -/
  | holdOut (n : Nat) : i.mayHoldOut = true → ¬ s.hasRoom n →
      n ≤ 32773 ∨ (∃ cnt : BitVec 16, i = .bfRcopy cnt ∧ cnt.toNat = n) → Ends i s (s.withStatus .bufError)
  | streamError : Ends i s (s.withStatus .streamError)
  | derrGate : i.decodePath = true → s.derr = true → Ends i s (s.withStatus .dataError)
  | dataError {u : State} : i.mayFailData = true → LeftByFailure i s u → Ends i s (u.markDerr.withStatus .dataError)
  /-- The dictionary is not the one expected. -/
  | mismatch (cnt : BitVec 16) (p : InPort) : i = .swSetdict cnt →
      Ends i s (({ s with inp := p } : State).withStatus .dataError)

/-- The command answers a next state, which is one it can end in. -/
def Finishes (i : Instr) (s : State) (r : Result) : Prop := ∃ t, r = .next t ∧ Ends i s t

theorem Instr.mayFailData_of_decodePath {i : Instr} (h : i.decodePath = true) : i.mayFailData = true := by
  cases i with
  | hdDecode | hdDynhdr | hdToken | bfRhdr | bfRstored | bfRcopy | bfInflate | swCopy => rfl
  | _ => cases h

section

variable {i : Instr} {s u : State} {k r : Result}

theorem Finishes.ok : Finishes i s u.ok := ⟨_, rfl, .ok u⟩

theorem Finishes.streamError : Finishes i s s.streamError := ⟨_, rfl, .streamError⟩

theorem Finishes.holdIn (hi : i.mayHoldIn = true) : Finishes i s s.holdIn := ⟨_, rfl, .holdIn hi⟩

theorem Finishes.dataError (hi : i.mayFailData = true) (h : LeftByFailure i s u) : Finishes i s u.dataError :=
  ⟨_, rfl, .dataError hi h⟩

theorem Finishes.endStatus {atEnd : Bool} (hi : i.mayEndStream = true) (h : atEnd = true → s.last = true) :
    Finishes i s (u.report (endStatus atEnd)) := by
  cases atEnd with
  | false => exact .ok
  | true => exact ⟨_, rfl, .streamEnd u hi (h rfl)⟩

theorem Finishes.unlessEnded (h : Finishes i s k) : Finishes i s (s.unlessEnded k) := by
  unfold State.unlessEnded
  split
  · exact .streamError
  · exact h

theorem Finishes.gated (hi : i.decodePath = true) (h : Finishes i s k) : Finishes i s (s.gated k) := by
  unfold State.gated
  split
  · exact ⟨_, rfl, .needDict s (.inr ⟨hi, ‹_›⟩)⟩
  · split
    · exact ⟨_, rfl, .derrGate hi ‹_›⟩
    · exact h

theorem Finishes.require {ok : Bool} (h : ok = true → Finishes i s k) : Finishes i s (s.require ok k) := by
  cases ok with
  | false => exact .streamError
  | true => exact h rfl

theorem Finishes.inRange {ok : Bool} (h : ok = true → Finishes i s k) : Finishes i s (s.inRange ok k) := .require h

theorem Finishes.onAlphabet {f : BitVec 2} {k : Alphabet → Result} (h : ∀ a, Finishes i s (k a)) :
    Finishes i s (s.onAlphabet f k) := by
  unfold State.onAlphabet
  split
  · exact h _
  · exact .streamError

theorem Finishes.afterRead {α : Type} {p : InPort} {Q : α → Prop} {r : Read α} {k : α → InPort → Result}
    (hin : i.mayHoldIn = true) (hdata : i.mayFailData = true) (hr : r.Meets p Q)
    (h : ∀ a q, Q a → Finishes i s (k a q)) : Finishes i s (s.afterRead r k) := by
  cases hr with
  | done _ ha => exact h _ _ ha
  | short => exact .holdIn hin
  | malformed _ => exact .dataError hdata (.input _)

/-- Reading a number of bits is never malformed. -/
theorem Finishes.afterReadBits {n : Nat} {p : InPort} {k : Nat → InPort → Result} (hin : i.mayHoldIn = true)
    (h : ∀ v q, Finishes i s (k v q)) : Finishes i s (s.afterRead (readBits n p) k) := by
  obtain ⟨-, hread⟩ | ⟨-, hread⟩ := readBits_cases p n
  all_goals rw [hread]
  · exact h _ _
  · exact .holdIn hin

theorem Finishes.ite {c : Prop} [Decidable c] (hr : c → Finishes i s r) (hk : ¬ c → Finishes i s k) :
    Finishes i s (if c then r else k) := by
  split
  · exact hr ‹_›
  · exact hk ‹_›

/-- A command that holds unless there is room for `n` bytes. -/
theorem Finishes.unlessFull {n : Nat} (hi : i.mayHoldOut = true)
    (hn : n ≤ 32773 ∨ ∃ cnt : BitVec 16, i = .bfRcopy cnt ∧ cnt.toNat = n) (h : Finishes i s k) :
    Finishes i s (if s.lacksRoom n then s.holdOut else k) :=
  .ite (fun hfull => ⟨_, rfl, .holdOut n hi ((State.lacksRoom_eq_true ..).1 hfull) hn⟩) fun _ => h

theorem Finishes.sendBits {bs : List Bool} (hi : i.mayHoldOut = true) (hbs : bs.length ≤ 8192) :
    Finishes i s (s.sendBits bs) := by
  have hpending := s.out.obits.isLt
  exact .unlessFull hi (.inl (by omega)) .ok

end

/-! ### How much a command outputs at once -/

theorem getD_code_le {table : List (Nat × Nat)} {base extra : Nat} (h : ∀ c ∈ table, c.1 ≤ base ∧ c.2 ≤ extra)
    (n : Nat) : (table.getD n (0, 0)).1 ≤ base ∧ (table.getD n (0, 0)).2 ≤ extra := by
  rcases Nat.lt_or_ge n table.length with hn | hn
  · rw [List.getD_eq_getElem _ _ hn]
    exact h _ (List.getElem_mem hn)
  · rw [List.getD_eq_default _ _ hn]
    exact ⟨Nat.zero_le _, Nat.zero_le _⟩

theorem lengthCode_le (c : Nat) : lengthBase c ≤ 258 ∧ lengthExtra c ≤ 5 := getD_code_le (by decide) _

theorem distExtra_le (c : Nat) : distExtra c ≤ 13 := (getD_code_le (base := 24577) (by decide) c).2

theorem EncTable.codeBits_length_le (t : EncTable) (sym : Nat) : (t.codeBits sym).length ≤ 15 := by
  rw [EncTable.codeBits, bitsMsb_length]
  exact EncTable.lenOf_le sym

theorem matchBits_length_le (ll dist : EncTable) (len d : Nat) : (matchBits ll dist len d).length ≤ 48 := by
  have hlc := ll.codeBits_length_le (lengthSym len)
  have hdc := dist.codeBits_length_le (distSym d)
  have hlen := (lengthCode_le (lengthSym len)).2
  have hdist := distExtra_le (distSym d)
  simp only [matchBits, List.length_append, bitsLsb_length]
  omega

theorem length_flatMap_le {α : Type} {l : List α} {f : α → List Bool} {n : Nat} (h : ∀ x ∈ l, (f x).length ≤ n) :
    (l.flatMap f).length ≤ l.length * n := by
  have hsum := List.sum_le_card_nsmul (l.map fun x => (f x).length) n (by simpa using h)
  rwa [← List.length_flatMap, List.length_map, smul_eq_mul] at hsum

/-- The items of at most `n` lengths of a table are no more than the lengths, with 7 extra bits at most. -/
theorem rle_take_lens (t : EncTable) (n : Nat) :
    (rle (t.lens.take n)).length ≤ n ∧ ∀ x ∈ rle (t.lens.take n), x.nbits ≤ 7 := by
  have hle : ∀ l ∈ t.lens.take n, l ≤ 15 := fun l hl => t.lens_le l (List.mem_of_mem_take hl)
  have hgrow := expandItems_length_le ((rle_items _).expand hle [])
  rw [List.length_nil, Nat.zero_add] at hgrow
  refine ⟨hgrow.trans (List.length_take_le ..), fun x hx => ?_⟩
  have hlegal := (rle_items _).legal hle x hx
  unfold RleItem.legal at hlegal
  omega

theorem State.dynSeq_length_le (s : State) : s.dynSeq.length ≤ 316 := by
  obtain ⟨-, hlit, -⟩ := hlitOf_isHlit s.heLL.lens
  obtain ⟨-, hdist, -⟩ := hdistOf_isHdist s.heDist.lens
  have hll := (rle_take_lens s.heLL (hlitOf s.heLL.lens)).1
  have hd := (rle_take_lens s.heDist (hdistOf s.heDist.lens)).1
  rw [State.dynSeq, Machine.dynSeq, List.length_append]
  omega

theorem State.dynSeq_nbits_le (s : State) : ∀ x ∈ s.dynSeq, x.nbits ≤ 7 :=
  List.forall_mem_append.2 ⟨(rle_take_lens ..).2, (rle_take_lens ..).2⟩

theorem State.dynHeaderBits_length_le (s : State) (hlit hdist : Nat) :
    (dynHeaderBits hlit hdist s.heCl s.dynSeq).length ≤ 8192 := by
  have hcl := length_flatMap_le (l := clOrder.take (hclenOf s.heCl.lens)) (f := fun m => bitsLsb 3 (s.heCl.lenOf m))
    fun m _ => (bitsLsb_length ..).le
  have hplaces : (clOrder.take (hclenOf s.heCl.lens)).length ≤ 19 := List.length_take_le' ..
  have hitems := length_flatMap_le (l := s.dynSeq) (n := 22)
    (f := fun x => s.heCl.codeBits x.sym ++ bitsLsb x.nbits x.extra) fun x hx => by
      have hcode := s.heCl.codeBits_length_le x.sym
      have hextra := s.dynSeq_nbits_le x hx
      rw [List.length_append, bitsLsb_length]
      omega
  have hseq := s.dynSeq_length_le
  simp only [dynHeaderBits, List.length_append, bitsLsb_length]
  omega

theorem readDistance_len_le (dist : DecTable) {len n : Nat} (hlen : len ≤ n) (p : InPort) :
    (readDistance dist len p).Meets p (·.len ≤ n) := by
  refine (decodeSym_meets dist p).andThen fun d q _ => ?_
  split
  · exact .malformed (.refl q)
  · exact (readBits_meets _ q).andThen fun x q' _ => .done (.refl q') hlen

/-- A token copies no more than a base length of at most 258 and five extra bits give. -/
theorem readToken_len_le (ll dist : DecTable) (p : InPort) : (readToken ll dist p).Meets p (·.len ≤ 289) := by
  refine (decodeSym_meets ll p).andThen fun sym q _ => ?_
  split_ifs
  · exact .done (.refl q) (Nat.zero_le _)
  · exact .done (.refl q) (Nat.zero_le _)
  · exact .malformed (.refl q)
  · refine (readBits_meets _ q).andThen fun x q' hx => readDistance_len_le dist ?_ q'
    obtain ⟨hbase, hextra⟩ := lengthCode_le sym
    have hpow : 2 ^ lengthExtra sym ≤ 2 ^ 5 := Nat.pow_le_pow_right Nat.two_pos hextra
    omega

/-! ### Every command -/

theorem applyToken_finishes {s : State} {tok : Token} (hlen : tok.len ≤ 289) (p : InPort) :
    Finishes .bfInflate s (s.applyToken tok p) := by
  unfold State.applyToken
  dsimp only
  split
  · exact .unlessFull rfl (.inl (by decide)) .ok
  · exact .ite (fun _ => .dataError rfl (.input p)) fun _ => .unlessFull rfl (.inl (hlen.trans (by decide))) .ok
  · exact .endStatus rfl id
  · exact .ok

theorem execHdDynhdr_finishes (s : State) : Finishes .hdDynhdr s (execHdDynhdr s) := by
  refine .unlessEnded <| .gated rfl ?_
  split
  · exact .ok
  · exact .holdIn rfl
  · exact .dataError rfl (.header _)

theorem execMfStep_finishes (drain : BitVec 1) (s : State) : Finishes (.mfStep drain) s (execMfStep drain s) := by
  refine .unlessEnded ?_
  split
  · exact .ok
  · refine .ite (fun hwait => .holdIn ?_) fun _ => .ite (fun _ => .ok) fun _ => .ok
    obtain ⟨hdrain, -⟩ := Bool.and_eq_true_iff.1 hwait
    exact beq_iff_eq.2 (of_decide_eq_true hdrain)

theorem execBfWstored_finishes (cnt : BitVec 16) (s : State) : Finishes (.bfWstored cnt) s (execBfWstored cnt s) := by
  refine .unlessEnded <| .inRange fun hcnt => .unlessFull rfl (.inl ?_) .ok
  have hle : cnt.toNat ≤ 32768 := (of_decide_eq_true hcnt).trans s.wvalid_le
  split <;> omega

theorem execBfRcopy_finishes (cnt : BitVec 16) (s : State) : Finishes (.bfRcopy cnt) s (execBfRcopy cnt s) :=
  .unlessEnded <| .gated rfl <| .require fun _ => .ite (fun _ => .holdIn rfl) fun _ =>
    .unlessFull rfl (.inr ⟨cnt, rfl, rfl⟩) <| .endStatus rfl fun hend => (Bool.and_eq_true_iff.1 hend).1

theorem toNat_le_of_nbOk {nb : BitVec 5} (h : nbOk nb = true) : nb.toNat ≤ 16 := of_decide_eq_true h

/-- Every command answers a next state, and ends in one of the ways of `Ends`. -/
theorem exec_finishes (i : Instr) (s : State) : Finishes i s (exec i s) := by
  cases i with
  | coreReset => exact .ok
  | nop | endSession | bpAlignIn | swReset | heFixed | heRlecount | hdFixed | mfFind | mfResetHist =>
    exact .unlessEnded .ok
  | cfgSet field val => exact .unlessEnded <| .inRange fun _ => .ok
  | regGet reg => exact .unlessEnded <| .inRange fun _ => .ok
  | bpPut nb v =>
    refine .unlessEnded <| .inRange fun hnb => .sendBits rfl ?_
    rw [bitsLsb_length]
    exact (toNat_le_of_nbOk hnb).trans (by decide)
  | bpPutrev nb v =>
    refine .unlessEnded <| .inRange fun hnb => .sendBits rfl ?_
    rw [bitsMsb_length]
    exact (toNat_le_of_nbOk hnb).trans (by decide)
  | bpAlignOut =>
    exact .unlessEnded <| .ite (fun _ => .ok) fun _ => .unlessFull rfl (.inl (by decide)) .ok
  | bpGet nb => exact .unlessEnded <| .inRange fun _ => .afterReadBits rfl fun _ _ => .ok
  | bpSync =>
    refine .unlessEnded ?_
    split
    · exact .ok
    · exact .dataError rfl (.input _)
  | swRecord byte => exact .unlessEnded <| .require fun _ => .ok
  | swRead dm1 => exact .unlessEnded <| .ite (fun _ => .dataError rfl (.input _)) fun _ => .ok
  | swMatchat len9 dm1 =>
    exact .unlessEnded <| .inRange fun _ => .require fun _ => .ite (fun _ => .dataError rfl (.input _)) fun _ =>
      .unlessFull rfl (.inl (len9.isLt.le.trans (by decide))) .ok
  | swCopy len9 dm1 =>
    exact .unlessEnded <| .inRange fun _ => .gated rfl <| .require fun _ =>
      .ite (fun _ => .dataError rfl (.input _)) fun _ =>
        .unlessFull rfl (.inl (len9.isLt.le.trans (by decide))) .ok
  | swSetdict cnt =>
    exact .unlessEnded <| .require fun _ => .ite (fun _ => .holdIn rfl) fun _ =>
      .ite (fun _ => ⟨_, rfl, .mismatch cnt _ rfl⟩) fun _ => .ok
  | swExpectdict =>
    exact .unlessEnded <| .require fun _ => .ite (fun _ => .holdIn rfl) fun _ => ⟨_, rfl, .needDict _ (.inl rfl)⟩
  | heClear t => exact .unlessEnded <| .onAlphabet fun _ => .ok
  | heCount t sym => exact .unlessEnded <| .onAlphabet fun _ => .inRange fun _ => .ok
  | heBuild t ln => exact .unlessEnded <| .onAlphabet fun _ => .inRange fun _ => .require fun _ => .ok
  | heSetlen t ln sym => exact .unlessEnded <| .onAlphabet fun _ => .inRange fun _ => .ok
  | heCanon t => exact .unlessEnded <| .onAlphabet fun _ => .require fun _ => .ok
  | heEmit t sym =>
    exact .unlessEnded <| .onAlphabet fun _ => .inRange fun _ => .require fun _ =>
      .sendBits rfl ((EncTable.codeBits_length_le ..).trans (by decide))
  | heMatch len9 dm1 =>
    exact .unlessEnded <| .inRange fun _ => .require fun _ =>
      .sendBits rfl ((matchBits_length_le ..).trans (by decide))
  | heDynhdr =>
    exact .unlessEnded <| .require fun _ => .require fun _ => .sendBits rfl (s.dynHeaderBits_length_le ..)
  | hdSetlen t ln sym => exact .unlessEnded <| .onAlphabet fun _ => .inRange fun _ => .ok
  | hdBuild t n =>
    exact .unlessEnded <| .onAlphabet fun a => .inRange fun _ =>
      .ite (fun _ => .dataError rfl (.table a)) fun _ => .ok
  | hdDecode t =>
    exact .unlessEnded <| .onAlphabet fun _ => .gated rfl <| .require fun _ =>
      .afterRead rfl rfl (decodeSym_meets ..) fun _ _ _ => .ok
  | hdDynhdr => exact execHdDynhdr_finishes s
  | hdToken =>
    exact .unlessEnded <| .gated rfl <| .require fun _ =>
      .afterRead rfl rfl (readToken_meets ..) fun _ _ _ => .ok
  | mfFeed cnt =>
    exact .unlessEnded <| .inRange fun _ => .require fun _ => .ite (fun _ => .holdIn rfl) fun _ => .ok
  | mfStep drain => exact execMfStep_finishes drain s
  | bfWhdr btype final => exact .unlessEnded <| .inRange fun _ => .sendBits rfl (by rw [bitsLsb_length]; decide)
  | bfRhdr =>
    exact .unlessEnded <| .gated rfl <| .afterReadBits rfl fun _ _ =>
      .ite (fun _ => .dataError rfl (.blockType _ _ _ _ rfl)) fun _ => .ok
  | bfWstored cnt => exact execBfWstored_finishes cnt s
  | bfRstored =>
    exact .unlessEnded <| .gated rfl <| .afterReadBits rfl fun _ _ => .afterReadBits rfl fun _ _ =>
      .ite (fun _ => .dataError rfl (.input _)) fun _ =>
        .endStatus rfl fun hend => (Bool.and_eq_true_iff.1 hend).1
  | bfRcopy cnt => exact execBfRcopy_finishes cnt s
  | bfInflate =>
    exact .unlessEnded <| .gated rfl <| .require fun _ => .require fun _ =>
      .afterRead rfl rfl (readToken_len_le ..) fun _ p hlen => applyToken_finishes hlen p

theorem exec_ends {i : Instr} {s t : State} (h : exec i s = .next t) : Ends i s t := by
  obtain ⟨u, hu, hends⟩ := exec_finishes i s
  rw [hu] at h
  cases h
  exact hends

/-! ### The rules about every command -/

/-- Settles O8: a command ends in a next state (`exec_finishes`), and so does every other move. -/
theorem everyStepAnswersANextState : Obligations.EveryStepAnswersANextState := by
  intro s
  cases hp : s.port with
  | nil => exact ⟨s, step_of_port_nil hp⟩
  | cons m rest =>
    rw [step_of_port_cons hp]
    cases m with
    | command w =>
      cases hd : decode w with
      | ok i =>
        obtain ⟨t, ht, -⟩ := exec_finishes i { s with port := rest }
        exact ⟨t, by rw [runMove, runWord, hd]; exact ht⟩
      | error e => exact ⟨_, by rw [runMove, runWord, hd]; rfl⟩
    | append bytes => exact ⟨_, rfl⟩
    | remove n => exact ⟨_, rfl⟩

/-- Settles O14: each way to end names its commands. -/
theorem eachStatusComesOnlyFromItsCommands : Obligations.EachStatusComesOnlyFromItsCommands := by
  intro i s t h
  cases exec_ends h with
  | ok | streamError => simp [Status.code, memErrorCode]
  | streamEnd u hi hlast => simp [Status.code, memErrorCode, hi, hlast]
  | needDict u hi => simp [Status.code, memErrorCode, hi]
  | holdIn hi => simp [Status.code, memErrorCode, hi]
  | holdOut n hi => simp [Status.code, memErrorCode, hi]
  | derrGate hi => simp [Status.code, memErrorCode, Instr.mayFailData_of_decodePath hi]
  | dataError hi => simp [Status.code, memErrorCode, hi]
  | mismatch cnt p hi => simp [Status.code, memErrorCode, hi, Instr.mayFailData]

/-- Settles O15: whatever else a command outputs at once is within 32773 bytes. -/
theorem noBufErrorOnADrainedQueue : Obligations.NoBufErrorOnADrainedQueue := by
  intro i s t hcap hempty h hstatus
  cases exec_ends h with
  | holdOut n _ hfull hn =>
    rw [State.hasRoom, hempty, List.length_nil, Nat.zero_add, Nat.not_le] at hfull
    obtain hn | ⟨cnt, hi, rfl⟩ := hn
    · omega
    · exact ⟨cnt, hi, hfull⟩
  | _ => cases hstatus

/-- A hold and a STREAM_ERROR change nothing but STATUS. -/
theorem eq_of_hold_or_streamError {i : Instr} {s t : State} (h : exec i s = .next t)
    (hstatus : t.status = 3 ∨ t.status = 0xFB ∨ t.status = 0xFE) : t = { s with status := t.status } := by
  cases exec_ends h with
  | holdIn | holdOut | streamError => rfl
  | _ => obtain h | h | h := hstatus <;> cases h

/-- Settles O13: a gate changes nothing, and `LeftByFailure` lists what the other commands that fail leave changed. -/
theorem dataErrorKeepsOutputAndHistory : Obligations.DataErrorKeepsOutputAndHistory := by
  intro i s t h hstatus
  cases exec_ends h with
  | derrGate _ hderr => simp [hderr]
  | mismatch cnt p hi => exact ⟨.inr ⟨⟨cnt, hi⟩, rfl⟩, by simp⟩
  | dataError _ hleft =>
    refine ⟨.inl rfl, ?_⟩
    cases hleft with
    | input | header => simp [DecTable.invalid]
    | table a => cases a <;> simp [State.setDec, State.dec, DecTable.invalid]
    | blockType _ _ _ _ hi => simp [hi]
  | _ => cases hstatus

/-! ## No command reads STATUS (R375) -/

theorem copyMatch_withStatus (n dist : Nat) (s : State) (x : BitVec 8) :
    State.copyMatch n dist { s with status := x } = { State.copyMatch n dist s with status := x } := by
  induction n generalizing s with
  | zero => rfl
  | succ n ih => exact ih (s.emitAndRecord (winByte s.hist dist))

theorem copyMatch_status_ok (n dist : Nat) (s : State) (x : BitVec 8) :
    (State.copyMatch n dist { s with status := x }).ok = (State.copyMatch n dist s).ok := by
  rw [copyMatch_withStatus]
  rfl

theorem applyToken_status (s : State) (x : BitVec 8) (tok : Token) (p : InPort) :
    State.applyToken { s with status := x } tok p = s.applyToken tok p := by
  unfold State.applyToken
  rw [copyMatch_withStatus]
  rfl

/-- STATUS is written at a command's end and read by none. -/
theorem exec_of_status (i : Instr) (s : State) (x : BitVec 8) : exec i { s with status := x } = exec i s := by
  cases i with
  | cfgSet field val =>
    by_cases h : field = 0
    · subst h
      rfl
    · simp only [exec, execCfgSet, if_neg h]
      rfl
  | swCopy len9 dm1 =>
    simp only [exec, execSwCopy, copyMatch_status_ok]
    rfl
  | bfInflate =>
    simp only [exec, execBfInflate, applyToken_status]
    rfl
  | heClear t | heCount t | heBuild t | heSetlen t | heCanon t | hdSetlen t | hdBuild t =>
    exact congrArg s.unlessEnded (congrArg (s.onAlphabet t) (funext fun a => by cases a <;> rfl))
  | _ => rfl

/-- Settles O12: of the ways to end, these three keep the state, and STATUS is never read (`exec_of_status`). -/
theorem holdsAndStreamErrorsChangeOnlyStatus : Obligations.HoldsAndStreamErrorsChangeOnlyStatus :=
  ⟨fun _ _ _ => eq_of_hold_or_streamError, exec_of_status⟩

/-! ## The gates (R380) -/

theorem exec_of_decodePath {i : Instr} {s : State} (hpath : i.decodePath = true) (hwf : i.wf = true)
    (hs : s.running) : ∃ k, exec i s = s.gated k := by
  cases i with
  | hdDynhdr | hdToken | bfRhdr | bfRstored | bfRcopy | bfInflate => exact ⟨_, State.unlessEnded_of_running hs _⟩
  | swCopy len9 dm1 =>
    exact ⟨_, (State.unlessEnded_of_running hs _).trans (State.inRange_of_true hwf _)⟩
  | hdDecode t =>
    cases ht : Alphabet.ofField t with
    | none => simp [Instr.wf, Instr.onAlphabet, ht] at hwf
    | some a => exact ⟨_, State.checks_of_alphabet hs ht _⟩
  | _ => cases hpath

theorem State.gated_of_needDict {s : State} (h : s.needDict = true) (k : Result) :
    s.gated k = .next { s with status := 2 } := if_pos h

theorem State.gated_of_derr {s : State} (hdict : s.needDict = false) (h : s.derr = true) (k : Result) :
    s.gated k = .next { s with status := 0xFD } := (if_neg (Bool.eq_false_iff.1 hdict)).trans (if_pos h)

/-- The state without the two flags of the gates. -/
def State.ungated (s : State) : State := { s with needDict := false, derr := false }

/-- The state with other values of the two flags. -/
abbrev State.withGates (s : State) (n d : Bool) : State := { s with needDict := n, derr := d }

theorem State.eq_of_ungated_eq {t u : State} (h : t.ungated = u.ungated) :
    u = { t with needDict := u.needDict, derr := u.derr } :=
  congrArg (fun v : State => { v with needDict := u.needDict, derr := u.derr }) h.symm

/-- Both results are next states, which differ in the two flags at most. -/
inductive AlikeButGates : Result → Result → Prop where
  | next {t u : State} : t.ungated = u.ungated → AlikeButGates (.next t) (.next u)

section

variable {s u u' : State} {n d : Bool} {k k' r r' : Result}

theorem AlikeButGates.report {st : Status} (h : u.ungated = u'.ungated) :
    AlikeButGates (u.report st) (u'.report st) := .next (congrArg (State.withStatus · st) h)

theorem AlikeButGates.ok (h : u.ungated = u'.ungated) : AlikeButGates u.ok u'.ok := .report h

theorem AlikeButGates.dataError (h : u.ungated = u'.ungated) : AlikeButGates u.dataError u'.dataError :=
  .next (congrArg (State.withStatus · .dataError) h)

theorem AlikeButGates.unlessEnded (h : AlikeButGates k k') :
    AlikeButGates (s.unlessEnded k) ((s.withGates n d).unlessEnded k') := by
  cases hended : s.ended <;> simp only [State.unlessEnded, hended]
  · exact h
  · exact .report rfl

theorem AlikeButGates.ite {c : Prop} [Decidable c] (hr : AlikeButGates r r') (hk : AlikeButGates k k') :
    AlikeButGates (if c then r else k) (if c then r' else k') := by
  split
  · exact hr
  · exact hk

theorem AlikeButGates.require {ok : Bool} (h : AlikeButGates k k') :
    AlikeButGates (s.require ok k) ((s.withGates n d).require ok k') := .ite h (.report rfl)

theorem AlikeButGates.inRange {ok : Bool} (h : AlikeButGates k k') :
    AlikeButGates (s.inRange ok k) ((s.withGates n d).inRange ok k') := .ite h (.report rfl)

theorem AlikeButGates.onAlphabet {f : BitVec 2} {k k' : Alphabet → Result} (h : ∀ a, AlikeButGates (k a) (k' a)) :
    AlikeButGates (s.onAlphabet f k) ((s.withGates n d).onAlphabet f k') := by
  unfold State.onAlphabet
  split
  · exact h _
  · exact .report rfl

theorem AlikeButGates.sendBits {bs : List Bool} :
    AlikeButGates (s.sendBits bs) ((s.withGates n d).sendBits bs) := .ite (.report rfl) (.ok rfl)

theorem AlikeButGates.unlessFull {m : Nat} (h : AlikeButGates k k') :
    AlikeButGates (if s.lacksRoom m then s.holdOut else k)
      (if (s.withGates n d).lacksRoom m then (s.withGates n d).holdOut else k') := .ite (.report rfl) h

theorem AlikeButGates.setEnc {a : Alphabet} {t : EncTable} :
    AlikeButGates (s.setEnc a t).ok ((s.withGates n d).setEnc a t).ok := .ok (by cases a <;> rfl)

theorem AlikeButGates.setDec {a : Alphabet} {t : DecTable} :
    AlikeButGates (s.setDec a t).ok ((s.withGates n d).setDec a t).ok := .ok (by cases a <;> rfl)

/-- Of the registers only FLAGS, id 9, holds the two flags. -/
theorem readReg_withGates (s : State) (n d : Bool) {reg : Nat} (h : reg ≠ 9) :
    (s.withGates n d).readReg reg = s.readReg reg := by
  unfold State.readReg
  split
  case h_10 => exact absurd rfl h
  all_goals rfl

end

/-- But for the decode path, SW_SETDICT and REG_GET 9, a command does the same whatever the two flags are. -/
theorem exec_withGates {i : Instr} (hpath : i.decodePath = false) (hdict : ∀ cnt, i ≠ .swSetdict cnt)
    (hreg : i ≠ .regGet 9) (s : State) (n d : Bool) : AlikeButGates (exec i s) (exec i (s.withGates n d)) := by
  cases i with
  | hdDecode | hdDynhdr | hdToken | bfRhdr | bfRstored | bfRcopy | bfInflate | swCopy => cases hpath
  | swSetdict cnt => exact absurd rfl (hdict cnt)
  | coreReset => exact .ok rfl
  | nop | endSession | bpAlignIn | swReset | heFixed | heRlecount | hdFixed | mfFind | mfResetHist =>
    exact .unlessEnded <| .ok rfl
  | cfgSet field val =>
    refine .unlessEnded <| .inRange <| .ok ?_
    split <;> rfl
  | regGet reg =>
    have hne : reg.toNat ≠ 9 := fun h => hreg (congrArg Instr.regGet (BitVec.eq_of_toNat_eq h))
    refine .unlessEnded <| .inRange <| .ok ?_
    rw [readReg_withGates s n d hne]
    rfl
  | bpPut nb v => exact .unlessEnded <| .inRange .sendBits
  | bpPutrev nb v => exact .unlessEnded <| .inRange .sendBits
  | bpAlignOut => exact .unlessEnded <| .ite (.ok rfl) <| .unlessFull <| .ok rfl
  | bpGet nb =>
    refine .unlessEnded <| .inRange ?_
    cases h : readBits nb.toNat s.inp <;> simp only [State.afterRead]
    all_goals exact .report rfl
  | bpSync =>
    refine .unlessEnded ?_
    dsimp only [State.withGates]
    split
    · exact .ok rfl
    · exact .dataError rfl
  | swRecord byte => exact .unlessEnded <| .require <| .ok rfl
  | swRead dm1 => exact .unlessEnded <| .ite (.dataError rfl) <| .ok rfl
  | swMatchat len9 dm1 =>
    exact .unlessEnded <| .inRange <| .require <| .ite (.dataError rfl) <| .unlessFull <| .ok rfl
  | swExpectdict => exact .unlessEnded <| .require <| .ite (.report rfl) <| .report rfl
  | heClear t => exact .unlessEnded <| .onAlphabet fun _ => .setEnc
  | heCount t sym => exact .unlessEnded <| .onAlphabet fun _ => .inRange .setEnc
  | heBuild t ln => exact .unlessEnded <| .onAlphabet fun _ => .inRange <| .require .setEnc
  | heSetlen t ln sym => exact .unlessEnded <| .onAlphabet fun _ => .inRange .setEnc
  | heCanon t => exact .unlessEnded <| .onAlphabet fun _ => .require .setEnc
  | heEmit t sym => exact .unlessEnded <| .onAlphabet fun _ => .inRange <| .require .sendBits
  | heMatch len9 dm1 => exact .unlessEnded <| .inRange <| .require .sendBits
  | heDynhdr => exact .unlessEnded <| .require <| .require .sendBits
  | hdSetlen t ln sym => exact .unlessEnded <| .onAlphabet fun _ => .inRange .setDec
  | hdBuild t m =>
    exact .unlessEnded <| .onAlphabet fun a => .inRange <| .ite (.dataError (by cases a <;> rfl)) .setDec
  | mfFeed cnt => exact .unlessEnded <| .inRange <| .require <| .ite (.report rfl) <| .ok rfl
  | mfStep drain =>
    refine .unlessEnded ?_
    dsimp only
    split
    · exact .ok rfl
    · exact .ite (.report rfl) <| .ite (.ok rfl) <| .ok rfl
  | bfWhdr btype final => exact .unlessEnded <| .inRange .sendBits
  | bfWstored cnt => exact .unlessEnded <| .inRange <| .unlessFull <| .ok rfl

/-- Settles O11: the gates stand before all else a decode-path command does in range, and nothing else reads them. -/
theorem gatesStopExactlyTheDecodePath : Obligations.GatesStopExactlyTheDecodePath := by
  refine ⟨fun i s hpath hwf hs => ?_, fun i s t u n d hpath hdict hreg ht hu => ?_⟩
  · obtain ⟨k, hk⟩ := exec_of_decodePath hpath hwf hs
    rw [hk]
    exact ⟨fun hneed => State.gated_of_needDict hneed k, fun hneed hderr => State.gated_of_derr hneed hderr k⟩
  · have halike := exec_withGates hpath hdict hreg s n d
    rw [ht, hu] at halike
    cases halike with
    | next h => exact State.eq_of_ungated_eq h

/-! ## Readers and more input (00_scope.md R16) -/

/-- What a reader answers on the input of `p`, and on the input of `q` that goes on with more bits: a hold, and
anything; or the same, with the same number of bits consumed. -/
inductive SameRead {α : Type} (p q : InPort) : Read α → Read α → Prop where
  | short (r : Read α) : SameRead p q .short r
  | done (a : α) {n : Nat} : n ≤ p.stream.length → SameRead p q (.done a (p.advance n)) (.done a (q.advance n))
  | malformed {n : Nat} : n ≤ p.stream.length → SameRead p q (.malformed (p.advance n)) (.malformed (q.advance n))

/-- More input changes nothing of what the reader answers but a hold. -/
def Steady {α : Type} (read : InPort → Read α) : Prop :=
  ∀ p q : InPort, p.stream <+: q.stream → SameRead p q (read p) (read q)

section

variable {α β : Type}

theorem Steady.done (a : α) : Steady (.done a) := by
  intro p q _
  have h := SameRead.done (p := p) (q := q) a (Nat.zero_le _)
  rwa [InPort.advance_zero, InPort.advance_zero] at h

theorem Steady.malformed : Steady (α := α) .malformed := by
  intro p q _
  have h := SameRead.malformed (α := α) (p := p) (q := q) (Nat.zero_le _)
  rwa [InPort.advance_zero, InPort.advance_zero] at h

theorem Steady.ite {c : Prop} [Decidable c] {read read' : InPort → Read α} (h : Steady read) (h' : Steady read') :
    Steady fun p => if c then read p else read' p := by
  split
  · exact h
  · exact h'

/-- The two cursors after the same bits stand before the rest of the input and before more than that. -/
theorem InPort.advance_prefix {p q : InPort} (h : p.stream <+: q.stream) {n : Nat} (hn : n ≤ p.stream.length) :
    (p.advance n).stream <+: (q.advance n).stream := by
  rw [InPort.stream_advance_of_le hn, InPort.stream_advance_of_le (hn.trans h.length_le)]
  exact h.drop n

theorem Steady.andThen {read : InPort → Read α} {k : α → InPort → Read β} (h : Steady read) (hk : ∀ a, Steady (k a)) :
    Steady fun p => (read p).andThen k := by
  intro p q hpq
  have hread := h p q hpq
  dsimp only
  generalize read p = r, read q = r' at hread
  cases hread with
  | short => exact .short _
  | malformed hn => exact .malformed hn
  | done a hn =>
    rename_i n
    have hnext := hk a _ _ (InPort.advance_prefix hpq hn)
    have hlen : (p.advance n).stream.length = p.stream.length - n := by
      rw [InPort.stream_advance_of_le hn, List.length_drop]
    simp only [Read.andThen]
    generalize k a (p.advance n) = r, k a (q.advance n) = r' at hnext
    cases hnext with
    | short => exact .short _
    | done b hm =>
      rw [InPort.advance_advance, InPort.advance_advance]
      exact .done b (by omega)
    | malformed hm =>
      rw [InPort.advance_advance, InPort.advance_advance]
      exact .malformed (by omega)

theorem readBit_steady : Steady readBit := by
  rintro p q ⟨more, hq⟩
  cases hp : p.stream with
  | nil =>
    rw [readBit_short hp]
    exact .short _
  | cons b rest =>
    rw [hp, List.cons_append] at hq
    rw [(readBit_cons hp).1, (readBit_cons hq.symm).1]
    exact .done b (by rw [hp]; exact Nat.succ_pos _)

theorem readBits_steady (n : Nat) : Steady (readBits n) := by
  induction n with
  | zero => exact .done 0
  | succ n ih => exact readBit_steady.andThen fun b => ih.andThen fun v => .done _

theorem decodeFrom_steady (t : DecTable) (ls : List Nat) (code first index : Nat) :
    Steady (decodeFrom t ls code first index) := by
  induction ls generalizing code first index with
  | nil => exact .malformed
  | cons l ls ih => exact readBit_steady.andThen fun b => .ite (.done _) (ih _ _ _)

theorem decodeSym_steady (t : DecTable) : Steady (decodeSym t) := decodeFrom_steady _ _ _ _ _

theorem readToken_steady (ll dist : DecTable) : Steady (readToken ll dist) :=
  (decodeSym_steady ll).andThen fun _ => .ite (.done _) <| .ite (.done _) <| .ite .malformed <|
    (readBits_steady _).andThen fun _ => (decodeSym_steady dist).andThen fun _ => .ite .malformed <|
      (readBits_steady _).andThen fun _ => .done _

theorem readClLens_steady (places : List Nat) (n : Nat) (lens : List (BitVec 4)) :
    Steady (readClLens places n lens) := by
  induction places generalizing n lens with
  | nil => exact .done lens
  | cons m places ih =>
    cases n with
    | zero => exact ih _ _
    | succ n => exact (readBits_steady 3).andThen fun v => ih _ _

theorem readRun_steady (sym : Nat) (lens : List (BitVec 4)) : Steady (readRun sym lens) := by
  have hlast : Steady fun p => match lens.getLast? with
      | none => .malformed p
      | some x => (readBits 2 p).andThen fun v p1 => .done (List.replicate (3 + v) x) p1 := by
    cases lens.getLast? with
    | none => exact .malformed
    | some x => exact (readBits_steady 2).andThen fun v => .done _
  exact .ite (.done _) <| .ite hlast <| .ite ((readBits_steady 3).andThen fun v => .done _)
    ((readBits_steady 7).andThen fun v => .done _)

theorem readLens_steady (cl : DecTable) (total fuel : Nat) (lens : List (BitVec 4)) :
    Steady (readLens cl total fuel lens) := by
  induction fuel generalizing lens with
  | zero => exact .done lens
  | succ fuel ih =>
    exact .ite (.done lens) <| (decodeSym_steady cl).andThen fun sym => (readRun_steady sym lens).andThen fun run =>
      .ite .malformed (ih _)

theorem buildDynTables_steady (hlit hdist hclen : Nat) (ll dist cl : DecTable) (lens : List (BitVec 4)) :
    Steady (buildDynTables hlit hdist hclen ll dist cl lens) := .ite .malformed <| .ite .malformed <| .done _

theorem readDynHeader_steady (ll dist cl : DecTable) : Steady (readDynHeader ll dist cl) :=
  (readBits_steady 5).andThen fun _ => (readBits_steady 5).andThen fun _ => (readBits_steady 4).andThen fun _ =>
    .ite .malformed <| (readClLens_steady _ _ _).andThen fun _ => .ite .malformed <|
      (readLens_steady _ _ _ _).andThen fun _ => buildDynTables_steady _ _ _ _ _ _ _

/-! ### Input that ends inside what a reader reads (60_exceptions.md R376) -/

/-- Eight bits make a byte. -/
theorem exists_bytes_of_bits {n : Nat} {bits : List Bool} (h : bits.length = 8 * n) :
    ∃ bytes : List Byte, bytes.flatMap byteBits = bits := by
  induction n generalizing bits with
  | zero => exact ⟨[], (List.length_eq_zero_iff.1 h).symm⟩
  | succ n ih =>
    have hbyte : (bits.take 8).length = 8 := List.length_take_of_le (by omega)
    obtain ⟨bytes, hbytes⟩ := ih (bits := bits.drop 8) (by rw [List.length_drop]; omega)
    have hfirst : byteBits (BitVec.ofNat 8 (valueLsb (bits.take 8))) = bits.take 8 := by
      have hvalue := valueLsb_lt (bits.take 8)
      have hown := bitsLsb_valueLsb (bits.take 8)
      rw [hbyte] at hvalue hown
      rw [← toNat_ofNat_of_lt hvalue] at hown
      exact hown
    exact ⟨_ :: bytes, by rw [List.flatMap_cons, hfirst, hbytes, List.take_append_drop]⟩

/-- Any bits stand at the start of some input. -/
theorem exists_cursor (bits : List Bool) : ∃ (q : InPort) (rest : List Bool), q.stream = bits ++ rest := by
  obtain ⟨bytes, hbytes⟩ := exists_bytes_of_bits (n := bits.length)
    (bits := bits ++ List.replicate (7 * bits.length) false)
    (by rw [List.length_append, List.length_replicate]; omega)
  exact ⟨⟨bytes, 0, 0⟩, _, hbytes⟩

/-- A steady reader of the bits `whole` holds on input that ends inside them: what it answered there it would answer on
all of them too, with fewer bits consumed. -/
theorem Steady.short_of_endsWithin {read : InPort → Read α} (h : Steady read) {whole : List Bool} {a : α}
    (hreads : ∀ rest, Reads read whole rest (.done a)) {p : InPort} (hp : endsWithin p.stream whole) :
    read p = .short := by
  obtain ⟨hprefix, hlt⟩ := hp
  obtain ⟨q, rest, hq⟩ := exists_cursor whole
  have hsame := h p q (hq ▸ hprefix.trans (List.prefix_append ..))
  rw [hreads rest q hq] at hsame
  generalize hr : read p = r, hout : Read.done a (q.advance whole.length) = out at hsame
  cases hsame with
  | short => rfl
  | malformed => cases hout
  | @done _ n hn =>
    injection hout with _ hcursor
    have hqlen : q.stream.length = whole.length + rest.length := by rw [hq, List.length_append]
    have hleft := congrArg (fun c : InPort => c.stream.length) hcursor
    simp only [InPort.stream_advance_of_le (show whole.length ≤ q.stream.length by omega),
      InPort.stream_advance_of_le (show n ≤ q.stream.length by omega), List.length_drop] at hleft
    omega

end

/-! ## Unbuilt tables and short input (60_exceptions.md R376, R379) -/

theorem exec_hdDecode_of_invalid {s : State} (hs : s.decoding) {t : BitVec 2} {a : Alphabet}
    (ht : Alphabet.ofField t = some a) (hv : (s.dec a).valid = false) :
    exec (.hdDecode t) s = s.streamError := by
  rw [exec, execHdDecode, State.checks_of_alphabet hs.running ht, State.gated_of_decoding hs, hv, State.require_false]

theorem exec_hdToken_of_unbuilt {s : State} (hs : s.decoding) (htables : ¬ s.tokenTables = true) :
    exec .hdToken s = s.streamError := (State.checks_of_decoding hs _).trans (State.require_of_not htables _)

theorem exec_bfInflate_of_unready {s : State} (hs : s.decoding)
    (h : ¬ ((s.outAligned && s.la.isEmpty) && s.tokenTables) = true) : exec .bfInflate s = s.streamError := by
  rw [exec, execBfInflate, State.checks_of_decoding hs, State.require_require]
  exact State.require_of_not h _

/-- Settles O46: the state's checks come before any reading; and each reader is steady, so input that ends inside what
it reads back holds. -/
theorem unbuiltTablesAndShortInputStopTheReaders : Obligations.UnbuiltTablesAndShortInputStopTheReaders := by
  refine ⟨?hdDecodeUnbuilt, ?tokenUnbuilt, ?notReady, ?symbol, ?token, ?header⟩
  case hdDecodeUnbuilt =>
    intro s t a hs ht hv
    exact exec_hdDecode_of_invalid hs ht hv
  case tokenUnbuilt =>
    intro s hs hv
    have htables : ¬ s.tokenTables = true := by
      rw [State.tokenTables, Bool.and_eq_true_iff]
      rcases hv with hv | hv <;> simp [hv]
    exact ⟨exec_hdToken_of_unbuilt hs htables,
      exec_bfInflate_of_unready hs fun h => htables (Bool.and_eq_true_iff.1 h).2⟩
  case notReady =>
    intro s hs hnot
    refine exec_bfInflate_of_unready hs fun h => ?_
    obtain ⟨hout, hla⟩ := s.outAligned_and_la_iff.1 (Bool.and_eq_true_iff.1 h).1
    exact hnot.elim (absurd hout) (absurd hla)
  case symbol =>
    intro s t a sym hs htables ht hv _ hne hends
    have hdec := (State.dec_ok htables a).decodes hv
    rw [exec_hdDecode_of_valid hs ht hv, (decodeSym_steady _).short_of_endsWithin (hdec.reads hne) hends]
    rfl
  case token =>
    intro s tok hs htables hll hdist hlegal hends
    obtain ⟨hdecLL, hdecDist⟩ := State.token_decodes hll hdist htables
    have hshort := (readToken_steady s.hdLL s.hdDist).short_of_endsWithin (hdecLL.readToken_reads hdecDist hlegal) hends
    exact tokenReaders_answer hs hll hdist fun k => by rw [hshort]; rfl
  case header =>
    intro s hlit hdist hclen cl lens items hs hlegal hends
    exact exec_hdDynhdr_of_short hs
      ((readDynHeader_steady _ _ _).short_of_endsWithin (hlegal.readDynHeader_reads _ _ _) hends)

end Sys2Proof.Machine

/-! The family of 70_reset_and_hazards.md: CORE_RESET and the state it gives. Its registers and queues hold what R400
states by definition; the tables are those of `EncTable.reset` and `DecTable.reset`, and a stream with no bytes has no
chain. -/

namespace Sys2Proof.Machine

/-- R141: the status CORE_RESET reports, OK, is the one the reset state holds, and ENDED is not looked at. -/
theorem exec_coreReset (s : State) : exec .coreReset s = .next s.softReset := rfl

@[simp] theorem State.enc_reset (a : Alphabet) : State.reset.enc a = EncTable.reset a.size := by
  cases a <;> rfl

@[simp] theorem State.dec_reset (a : Alphabet) : State.reset.dec a = DecTable.reset a.size := by
  cases a <;> rfl

theorem State.wvalid_of_hist_nil {s : State} (h : s.hist = []) : s.wvalid = 0 := by
  rw [State.wvalid, h, List.length_nil, Nat.min_zero]

/-- A stream with no bytes has no position, so none is a candidate (45_lz77.md R302). -/
theorem State.chain_of_stream_nil {s : State} (h : s.stream = []) (q : Nat) : s.chain q = [] := by
  rw [State.chain, h, suffixes, List.filter_nil, List.reverse_nil]

/-- Settles O7: CORE_RESET gives `State.softReset`; a register or queue of the reset state holds R400's value by
definition, the window and the chain are empty with `hist` and the stream, and each table is its alphabet's reset
table. -/
theorem resetGivesTheStatedValues : Obligations.ResetGivesTheStatedValues := by
  refine ⟨exec_coreReset, rfl, rfl, rfl, rfl, rfl, rfl, rfl, rfl, rfl, rfl, rfl, rfl, rfl, rfl, rfl, rfl, rfl, rfl, rfl,
    rfl, rfl, rfl, rfl, rfl, rfl, rfl, State.wvalid_of_hist_nil rfl, rfl, rfl, State.chain_of_stream_nil rfl,
    fun a => ?enc, fun a => ?dec⟩
  case enc =>
    rw [State.enc_reset]
    exact ⟨rfl, rfl, rfl, rfl⟩
  case dec =>
    rw [State.dec_reset]
    exact ⟨rfl, rfl, rfl, rfl, rfl⟩

/-- Settles O60: OUT_CAP bounds an empty queue whatever it is, the configuration is legal, and the tables of every
alphabet are in order. -/
theorem resetMeetsTheInvariants : Obligations.ResetMeetsTheInvariants := by
  refine ⟨?queues, ?window, ?tables⟩
  case queues => exact ⟨fun hbit => absurd rfl hbit, Nat.zero_le _, Nat.one_pos⟩
  case window => exact State.reset.windowOk_iff.2 ⟨CfgRegs.reset_legal, Nat.zero_le _, Nat.le_refl 0⟩
  case tables =>
    refine State.reset.tablesOk_iff.2 fun a => ?_
    rw [State.enc_reset, State.dec_reset]
    exact ⟨EncTable.reset_ok a.size a.maxLen, DecTable.reset_ok a.size a.maxLen⟩

end Sys2Proof.Machine
